-- ==== Sys2Proof/Word.lean ====
section
/-! DEFINITION. The word types of the SL8's frames, records and counters, and their plainest arithmetic. -/

namespace Sys2Proof

/-- One byte of a frame, a record or a sector. -/
abbrev Byte := BitVec 8

/-- A 32-bit counter, time tag or check value. -/
abbrev Word32 := BitVec 32

/-- A 48-bit loan serial, block address or capacity. -/
abbrev Word48 := BitVec 48

end Sys2Proof
end

