-- ==== Sys2Proof/Syntax.lean ====
section
/-! DEFINITION. The commands of the SL8: one constructor for each row of spec/opcode_table.json, with its operands. -/

namespace Sys2Proof

/-- A node port, 0 to 7 (00_scope, Numbering). -/
abbrev Port := Fin 8

/-- A bay, 0 to 11 (00_scope, Numbering). -/
abbrev Bay := Fin 12

/-- An operation context, 0 to 63 (00_scope, Numbering). -/
abbrev CtxId := Fin 64

/-- The two lanes of a bay (00_scope, Numbering). -/
inductive Lane
  | a
  | b
deriving DecidableEq, Repr

/-- The node-to-part header fields after length and kind, and the payload (R192). -/
structure FrameFields where
  flags : Byte
  tag : BitVec 16
  bay : Byte
  arg : Byte
  count : BitVec 16
  serial : Word48
  block : Word48
  payload : List Byte
deriving DecidableEq, Repr

/-- A sector as the drive holds it: 4096 data bytes and the 8-byte trailer (R120). -/
structure Sector where
  data : List Byte
  check : Word32
  address : Word32
deriving DecidableEq, Repr

/-- The drive's answer to a READ, WRITE or SYNC (R111). -/
inductive DriveReply
  /-- GOOD, with the sectors a READ returns. -/
  | good (sectors : List Sector)
  | mediumError
  | laneError
  /-- A lane frame whose check value fails, or whose form cannot be read. -/
  | unreadable
deriving DecidableEq, Repr

/-- The drive's answer to a PROBE (R111, R114). -/
inductive ProbeReply
  /-- GOOD, with the drive's capacity in blocks. -/
  | good (capacity : Word48)
  | mediumError
  | laneError
  /-- A lane frame whose check value fails, or whose form cannot be read. -/
  | unreadable
deriving DecidableEq, Repr

/-- One command for each row of the opcode table. A request row names the port whose Request Handler serves its intake
head; the request itself stands in that port's Intake Queue (R138). -/
inductive Instr
  /-- RESET_ASSERT, R190. -/
  | resetAssert
  /-- CONFIG_LOAD_DONE, R190: `memory` is what the configuration memory answered, from byte 0 until it stopped answering. -/
  | configLoadDone (memory : List Byte)
  /-- SOFT_RESET, R191. -/
  | softReset
  /-- RESET_TIMER_EXPIRY, R191. -/
  | resetTimerExpiry
  /-- CARRIER_DOWN, R133. -/
  | carrierDown (p : Port)
  /-- CARRIER_UP, R133. -/
  | carrierUp (p : Port)
  /-- FRAME_RECEIVE, R134: the last bytes of a frame and its end mark. -/
  | frameReceive (p : Port) (bytes : List Byte)
  /-- HELLO, R155: a HELLO whose length and check value are right. -/
  | hello (p : Port) (f : FrameFields)
  /-- BEAT, R161: a BEAT whose length and check value are right. -/
  | beat (p : Port) (f : FrameFields)
  /-- PATTERN, R166: a PATTERN whose length and check value are right. -/
  | pattern (p : Port) (f : FrameFields)
  /-- HEAD_FORMAT_REFUSE, R138. -/
  | headFormatRefuse (p : Port)
  /-- CLAIM, R14. -/
  | claim (p : Port)
  /-- CANCEL, R30. -/
  | cancel (p : Port)
  /-- RELEASE, R29. -/
  | release (p : Port)
  /-- OPERATION_ADMISSION, R66. -/
  | operationAdmission (p : Port)
  /-- CONTEXT_HANDOUT, R71. -/
  | contextHandout
  /-- ACCESS_SET, R13. -/
  | accessSet (p : Port)
  /-- ACCESS_GET, R183. -/
  | accessGet (p : Port)
  /-- LOAN_QUERY, R33. -/
  | loanQuery (p : Port)
  /-- REVOKE, R48. -/
  | revoke (p : Port)
  /-- BAY_WITHDRAW, R50. -/
  | bayWithdraw (p : Port)
  /-- BAY_RESTORE, R57. -/
  | bayRestore (p : Port)
  /-- LANE_RESTORE, R128. -/
  | laneRestore (p : Port)
  /-- BAY_POLICY_SET, R182. -/
  | bayPolicySet (p : Port)
  /-- PLAN_WRITE, R101. -/
  | planWrite (p : Port)
  /-- PLAN_SWAP, R102. -/
  | planSwap (p : Port)
  /-- PLAN_STATUS, R106. -/
  | planStatus (p : Port)
  /-- PORT_ENABLE, R164. -/
  | portEnable (p : Port)
  /-- PORT_DISABLE, R163. -/
  | portDisable (p : Port)
  /-- PORT_TEST_ON, R165. -/
  | portTestOn (p : Port)
  /-- PORT_TEST_OFF, R167. -/
  | portTestOff (p : Port)
  /-- PORT_STATUS, R168. -/
  | portStatus (p : Port)
  /-- PORT_RESYNC, R150. -/
  | portResync (p : Port)
  /-- LIMITS_SET, R181. -/
  | limitsSet (p : Port)
  /-- JOURNAL_READ, R174. -/
  | journalRead (p : Port)
  /-- STATS_READ, R178. -/
  | statsRead (p : Port)
  /-- EVENT_READ, R188. -/
  | eventRead (p : Port)
  /-- EVENT_ENABLE, R188. -/
  | eventEnable (p : Port)
  /-- EVENT_SET, R188. -/
  | eventSet (p : Port)
  /-- EVENT_CLEAR, R188. -/
  | eventClear (p : Port)
  /-- TIME_SET, R184. -/
  | timeSet (p : Port)
  /-- RESET_PART, R191. -/
  | resetPart (p : Port)
  /-- PATIENCE_TIMER_EXPIRY, R26. -/
  | patienceTimerExpiry (b : Bay)
  /-- RECALL_TIMER_EXPIRY, R38. -/
  | recallTimerExpiry (b : Bay)
  /-- BEAT_TIMER_EXPIRY, R158. -/
  | beatTimerExpiry (p : Port)
  /-- HOLD_TIMER_EXPIRY, R143. -/
  | holdTimerExpiry (p : Port)
  /-- FRAME_SENT, R146. -/
  | frameSent (p : Port)
  /-- PROBE_ANSWER, R114: the answer names the PROBE by its probe number (R111). -/
  | probeAnswer (b : Bay) (l : Lane) (number : Nat) (reply : ProbeReply)
  /-- PROBE_TIMER_EXPIRY, R114 (and R129 for a restored lane's probe). -/
  | probeTimerExpiry (b : Bay) (l : Lane)
  /-- RESTORE_PROBE_ANSWER, R129. -/
  | restoreProbeAnswer (b : Bay) (l : Lane) (number : Nat) (reply : ProbeReply)
  /-- DRIVE_ANSWER, R118: the answer names its command by context and attempt number (R111). -/
  | driveAnswer (b : Bay) (l : Lane) (c : CtxId) (attempt : Nat) (reply : DriveReply)
  /-- RESPONSE_TIMER_EXPIRY, R117. -/
  | responseTimerExpiry (b : Bay) (c : CtxId)
  /-- RESET_RELEASE, R190. -/
  | resetRelease
  /-- OVER_LENGTH_CUT, R134: bytes of a frame whose end mark has not arrived. -/
  | overLengthCut (p : Port) (bytes : List Byte)
deriving DecidableEq, Repr

end Sys2Proof
end

