-- ==== Sys2Proof/Config.lean ====
section
/-! DEFINITION. What the part fixes: its sizes, its limits and the times its rules name. The spec leaves no result of
a command undefined, so no free value stands here. -/

namespace Sys2Proof.Config

/-- R134: the receive buffer's end, past which the length watchdog cuts a frame. -/
def maxFrameBytes : Nat := 65600

/-- R134, R192: a header and a check value with no payload. -/
def minFrameBytes : Nat := 28

/-- R136: frames the Intake Queue holds at most. -/
def intakeFrames : Nat := 32

/-- R136: bytes the Intake Queue holds at most. -/
def intakeBytes : Nat := 262144

/-- R141: the unit of the water marks, 16 KiB. -/
def waterUnit : Nat := 16384

/-- R140: entries of the Answer Queue. -/
def answerEntries : Nat := 8

/-- R94: contexts a bay has ISSUED at most. -/
def issueSlots : Nat := 4

/-- R170: records the journal ring holds at most. -/
def journalRecords : Nat := 512

/-- R171: the occupancy whose reaching raises JOURNAL_HIGH. -/
def journalHigh : Nat := 384

/-- 00_scope: user bytes of a block. -/
def blockBytes : Nat := 4096

/-- R113, R128: the response timer of a probe, in ms. -/
def probeTimeoutMs : Nat := 3200

/-- R112: the work limit a PROBE carries, in ms. -/
def probeWorkLimitMs : Nat := 2400

/-- R191: the reset timer, in ms. -/
def resetTimerMs : Nat := 250

/-- R25: the patience time that turns automatic recall off. -/
def patienceOff : Nat := 65535

/-- Microseconds in a millisecond: timers are given in ms and run from the microsecond time base (R1). -/
def usPerMs : Nat := 1000

end Sys2Proof.Config
end

