-- ==== Sys2Proof/Machine/State.lean ====
section
/-! DEFINITION. The state of the SL8 as plain data: every register, list, timer, counter and pin the spec names, and
the queue of commands that wait; and the state right after a hard reset that found no configuration image. -/

namespace Sys2Proof.Machine

/-! ## Names -/

/-- The mode of a loan or claim (R5, R6). -/
inductive Mode
  | shared
  | exclusive
deriving DecidableEq, Repr

/-- The loan mode of a bay (R4). -/
inductive LoanMode
  | vacant
  | shared
  | exclusive
deriving DecidableEq, Repr

/-- The service state of a bay (R3, R7). -/
inductive Availability
  | probing
  | inService
  | withdrawing
  | withdrawn
  | faulted
deriving DecidableEq, Repr

/-- The progress of patience and recall at a bay (R3). -/
inductive RecallPhase
  | none
  | patience
  | recalled
deriving DecidableEq, Repr

/-- A right of the Access Table (R12). -/
inductive Right
  | none
  | read
  | full
deriving DecidableEq, Repr

/-- The causes of loan ends and claim refusals (00_scope, Status codes and causes; R193). -/
inductive Cause
  | none
  | recallExpired
  | lapse
  | rehello
  | disabled
  | forced
  | withdrawn
  | fault
  | access
  | release
deriving DecidableEq, Repr

/-- The status codes (R193), the operation outcomes among them left to `OpOutcome`. -/
inductive Status
  | ok
  | granted
  | waiting
  | busy
  | denied
  | held
  | alreadyWaiting
  | notWaiting
  | stale
  | notAdmitted
  | lapsed
  | faulted
  | withdrawn
  | range
  | format
  | length
  | dupTag
  | notPermitted
  | bankInUse
  | swapPending
  | portBusy
  | bayBusy
  | exhausted
  | good
  | mediumError
  | checkFail
  | noResponse
  | laneFault
  | loanEnded
  | revoked
  | bayFaulted
deriving DecidableEq, Repr

/-- The state of a context (R63). -/
inductive CtxState
  | free
  | queued
  | issued
  | reissue
  | reply
deriving DecidableEq, Repr

/-- The kind of an operation (R64). -/
inductive OpKind
  | read
  | write
  | sync
deriving DecidableEq, Repr

/-- The outcome of an operation (00_scope, Status codes; R81). -/
inductive OpOutcome
  | good
  | mediumError
  | checkFail
  | noResponse
  | laneFault
  | loanEnded
  | revoked
  | bayFaulted
deriving DecidableEq, Repr

/-- The result of one attempt (R118). -/
inductive AttemptResult
  | good
  | checkFail
  | mediumError
  | laneError
  | noResponse
  | laneDown
deriving DecidableEq, Repr

/-- The end cause a context records (R64, R77). -/
inductive EndCause
  | none
  | release
  | revoked
  | fault
deriving DecidableEq, Repr

/-- The kinds of notice (R32). -/
inductive NoticeKind
  | granted
  | recall
  | revoked
  | refused
deriving DecidableEq, Repr

/-- The state of a lane (R110). -/
inductive LaneState
  | probing
  | up
  | down
deriving DecidableEq, Repr

/-- How READ blocks are checked (R121). -/
inductive CheckMode
  | enforce
  | report
  | off
deriving DecidableEq, Repr

/-- The lane a retry is directed to (R122). -/
inductive RetryLane
  | same
  | alternate
deriving DecidableEq, Repr

/-- The response timeouts a bay can have (R109). -/
inductive ResponseTimeout
  | ms50
  | ms200
  | ms800
  | ms3200
deriving DecidableEq, Repr

/-- A plan bank (R100). -/
inductive Bank
  | a
  | b
deriving DecidableEq, Repr

/-- The link's carrier (R132). -/
inductive Carrier
  | down
  | up
deriving DecidableEq, Repr

/-- The role of a port (R132). -/
inductive Role
  | node
  | supervisor
deriving DecidableEq, Repr

/-- The state of Flow Control (R132). -/
inductive HoldState
  | isOpen
  | held
  | spent
deriving DecidableEq, Repr

/-- The admission state of a port (R153). -/
inductive PortState
  | off
  | new
  | active
  | lapsed
  | test
deriving DecidableEq, Repr

/-- The resolution of the time tag (R184). -/
inductive Resolution
  | us1
  | us8
  | us64
  | us512
deriving DecidableEq, Repr

/-- Where the part stands in a hard reset (R190): RESET asserted, the image being read, or the reset done. -/
inductive ResetPhase
  | asserted
  | loading
  | running
deriving DecidableEq, Repr

/-- The 77 events of the Event Unit (R185). -/
inductive Event
  | portLapsed (p : Port)
  | beatErratic (p : Port)
  | intakeOverrun (p : Port)
  | laneDown (b : Bay) (l : Lane)
  | bayFaulted (b : Bay)
  | recallForced (b : Bay)
  | journalHigh
  | journalLost
  | planAdopted
  | serialExhausted
  | configFault
deriving DecidableEq, Repr

/-- A set of the 77 events: bit n stands for event number n (R193). -/
abbrev EventSet := BitVec 77

/-! ## Frames -/

/-- An accepted frame as the Intake Queue holds it: the kind code and the fields (R132, R192). -/
structure InFrame where
  kind : Byte
  fields : FrameFields
deriving DecidableEq, Repr

/-- The part-to-node kinds (R192). -/
inductive OutKind
  | answer
  | reply
  | notice
  | hold
  | resume
  | event
deriving DecidableEq, Repr

/-- A part-to-node frame: the header fields and the payload; length and check value are made from them (R192). -/
structure OutFrame where
  kind : OutKind
  status : Status := .ok
  tag : BitVec 16 := 0
  bay : Byte := 0
  laneAttempts : Byte := 0
  count : BitVec 16 := 0
  serial : Word48 := 0
  detail : List Byte := [0, 0, 0, 0, 0, 0]
  payload : List Byte := []
deriving DecidableEq, Repr

/-- An entry of the Answer Queue; `resetPart` marks the answer of a RESET_PART that was taken (R191). -/
structure Answer where
  frame : OutFrame
  resetPart : Bool := false
deriving DecidableEq, Repr

/-- An entry of the Notice List (R148). -/
structure Notice where
  bay : Bay
  kind : NoticeKind
  tag : BitVec 16
  serial : Word48
  cause : Cause
deriving DecidableEq, Repr

/-- What the flow slot can hold (R132, R141). -/
inductive FlowFrame
  | hold (time : Byte)
  | resume
deriving DecidableEq, Repr

/-- Where the frame in transmission was taken from (R146). -/
inductive TxSource
  | hold
  | resume
  | answer (resetPart : Bool)
  | notice
  | event
  | reply (c : CtxId)
deriving DecidableEq, Repr

/-- The frame in transmission, as it was built when it was taken (R146). -/
structure TxFrame where
  source : TxSource
  frame : OutFrame
deriving DecidableEq, Repr

/-- The Link Receiver: waiting for a start mark, taking bytes into the receive buffer, or ignoring the rest of a frame
up to its end mark (R133, R134, R150). -/
inductive Receiver
  | idle
  | receiving (bytes : List Byte)
  | ignoring
deriving DecidableEq, Repr

/-! ## Loan Table -/

/-- A holder entry, keyed by its port in the holder set (R5). -/
structure Holder where
  mode : Mode
  serial : Word48
  grantTag : Word32
  recalled : Bool
  live : Nat
  blocksRead : Word32
  blocksWritten : Word32
deriving DecidableEq, Repr

/-- A claim record (R6). -/
structure Claim where
  port : Port
  mode : Mode
  tag : BitVec 16
  arrivalTag : Word32
deriving DecidableEq, Repr

/-- A bay record (R3). A running timer is held as the instant of its earliest expiry on the time base (R1). The loan
mode is derived from the holder set (R4). -/
structure BayRecord where
  availability : Availability
  holders : Vector (Option Holder) 8
  claims : List Claim
  phase : RecallPhase
  patienceTimer : Option Nat
  subject : Option Port
  recallTimer : Option Nat
  trailing : Nat
  capacity : Word48
  patienceTime : BitVec 16
  recallTime : BitVec 16
deriving DecidableEq, Repr

/-! ## Context Pool -/

/-- A context record (R64). `admission` is the model's own: the context's place in the order of admission, which R77
asks for. -/
structure Context where
  state : CtxState := .free
  port : Port := 0
  tag : BitVec 16 := 0
  kind : OpKind := .read
  bay : Bay := 0
  serial : Word48 := 0
  block : Word48 := 0
  count : Nat := 0
  lane : Option Lane := Option.none
  attempts : Nat := 0
  outcome : OpOutcome := .good
  trailing : Bool := false
  endCause : EndCause := .none
  checkWarn : Bool := false
  orphaned : Bool := false
  data : List Byte := []
  admission : Nat := 0
deriving DecidableEq, Repr

/-- The Context Pool beside its contexts (R63, R65, R69, R84). -/
structure Pool where
  contexts : Vector Context 64
  live : Vector Nat 8
  quota : Vector Nat 8
  replies : Vector (List CtxId) 8
  lastGranted : Port
  /-- The model's own: contexts allocated so far, the next `admission` number. -/
  admitted : Nat
deriving DecidableEq, Repr

/-! ## Bay Service and plan -/

/-- A Bay Service Unit (R90). -/
structure Service where
  lists : Vector (List CtxId) 8
  reissue : List CtxId
  credits : Vector Nat 8
  bank : Bank
  lastServed : Port
deriving DecidableEq, Repr

/-- The weights of a plan bank, by bay and port (R100). -/
abbrev Weights := Vector (Vector (Fin 16) 8) 12

/-- The Plan Store (R100). -/
structure Plan where
  bankA : Weights
  bankB : Weights
  current : Bank
  swapPending : Bool
deriving DecidableEq, Repr

/-! ## Drive Engine -/

/-- The drive settings of the bay policy (R109, R122). -/
structure DrivePolicy where
  checkMode : CheckMode
  timeout : ResponseTimeout
  preferred : Lane
  failLimit : Nat
  retryCount : Nat
  firstRetry : RetryLane
  secondRetry : RetryLane
  retryMedium : Bool
deriving DecidableEq, Repr

/-- A command as the Drive Engine sends it on a lane (R111, R112); work limits are in ms. -/
inductive LaneCommand
  | probe (number : Nat) (clear : Bool) (workLimit : Nat)
  | read (c : CtxId) (attempt : Nat) (block : Word48) (count : Nat) (workLimit : Nat)
  | write (c : CtxId) (attempt : Nat) (block : Word48) (count : Nat) (sectors : List Sector) (workLimit : Nat)
  | sync (c : CtxId) (attempt : Nat) (workLimit : Nat)
deriving DecidableEq, Repr

/-- An outstanding PROBE: CLEAR probe or plain probe, and its response timer (R109). -/
structure Probe where
  clear : Bool
  deadline : Nat
deriving DecidableEq, Repr

/-- One lane of a Drive Engine (R109). `number` is the probe number of the last PROBE sent (R111); `sent` is the
command last put on the lane (log 23). -/
structure LaneRecord where
  state : LaneState
  failures : Nat
  probe : Option Probe
  number : Nat
  sent : Option LaneCommand
deriving DecidableEq, Repr

/-- An occupied issue slot with its response timer (R109), and the command of its attempt as it was sent on the lane
(R111, R116 step 3). -/
structure Slot where
  ctx : CtxId
  lane : Lane
  attempt : Nat
  deadline : Nat
  command : LaneCommand
deriving DecidableEq, Repr

/-- A Drive Engine (R109): its slots stand in the order of issue. `learnt` is the capacity learnt in this probing
(R114). -/
structure DriveEngine where
  laneA : LaneRecord
  laneB : LaneRecord
  slots : List Slot
  learnt : Option Word48
  policy : DrivePolicy
deriving DecidableEq, Repr

/-! ## Node Port and Presence Monitor -/

/-- A Node Port (R132). -/
structure NodePort where
  carrier : Carrier
  receiver : Receiver
  silent : Bool
  intake : List InFrame
  /-- The head reservation: held while the head is an admitted operation that waits for a context (R138). -/
  reserved : Bool
  hold : HoldState
  repeatCount : Nat
  holdTimer : Option Nat
  flowSlot : Option FlowFrame
  /-- The Answer Queue's entries that are not in transmission; the entry in transmission is `tx` (R140, R146). -/
  answers : List Answer
  notices : List Notice
  eventNews : Bool
  tx : Option TxFrame
  highWater : Nat
  lowWater : Nat
  holdTime : Byte
  repeatLimit : Nat
  role : Role
deriving DecidableEq, Repr

/-- A Presence Monitor (R153). -/
structure Presence where
  state : PortState
  enabled : Bool
  beatTimer : Option Nat
  miss : Nat
  lastBeat : Option Nat
  early : Nat
  earlyFrozen : Bool
  patternError : Bool
  window : Nat
  missLimit : Nat
  earlyLimit : Nat
deriving DecidableEq, Repr

/-! ## Journal and statistics -/

/-- The note of a PORT record (R172). -/
inductive PortNote
  | admission
  | rehello
  | lapse
  | disable
  | enable
deriving DecidableEq, Repr

/-- The note of a BAY record (R172, R196). -/
inductive BayNote
  | inService
  | faulted
  | withdrawn
  | laneDown (l : Lane)
  | laneUp (l : Lane)
  | mismatch (l : Lane)
deriving DecidableEq, Repr

/-- The note of a RESET record (R172). -/
inductive ResetNote
  | hard
  | soft
deriving DecidableEq, Repr

/-- The kind of a journal record with its cause field (R172, R196). -/
inductive Note
  | grant (mode : Mode)
  | loanEnd (cause : Cause)
  | refuse (cause : Cause)
  | meter
  | port (note : PortNote)
  | bay (note : BayNote)
  | plan (bank : Bank)
  | reset (note : ResetNote)
deriving DecidableEq, Repr

/-- A record as the rule that owns the event hands it to the Journal (R171, R172). -/
structure Entry where
  note : Note
  port : Option Port := Option.none
  bay : Option Bay := Option.none
  serial : Word48 := 0
  count1 : Word32 := 0
  count2 : Word32 := 0
deriving DecidableEq, Repr

/-- A record of the ring (R171, R172). -/
structure Record where
  seq : Word32
  time : Word32
  entry : Entry
deriving DecidableEq, Repr

/-- The Journal (R170); the occupancy is the ring's length. -/
structure Journal where
  ring : List Record
  seq : Word32
  lost : Word32
  meterInterval : BitVec 16
deriving DecidableEq, Repr

/-- The statistics of a port (R176). -/
structure PortStats where
  accepted : Word32 := 0
  checkDiscards : Word32 := 0
  lengthDiscards : Word32 := 0
  overruns : Word32 := 0
  holdsSent : Word32 := 0
  repliesLost : Word32 := 0
  carrierDrops : Word32 := 0
  mismatches : Word32 := 0
deriving DecidableEq, Repr

/-- The statistics of a bay (R177). -/
structure BayStats where
  completed : Word32 := 0
  blocksRead : Word32 := 0
  blocksWritten : Word32 := 0
  retries : Word32 := 0
  checkMismatches : Word32 := 0
  noResponseA : Word32 := 0
  noResponseB : Word32 := 0
  laneErrorA : Word32 := 0
  laneErrorB : Word32 := 0
deriving DecidableEq, Repr

/-! ## The part -/

/-- The time tag (R184): its value, its resolution, and the microseconds of the current period that have passed. -/
structure TimeTag where
  value : Word32
  resolution : Resolution
  elapsed : Nat
deriving DecidableEq, Repr

/-- A pending soft reset (R191): the requesting ports, the one taken first at the head, and the reset timer. -/
structure SoftPending where
  first : Port
  others : List Port
  deadline : Nat
deriving DecidableEq, Repr

/-- The state of the SL8, and the commands that wait. -/
structure State where
  phase : ResetPhase
  /-- The microsecond time base (R1). -/
  now : Nat
  timeTag : TimeTag
  bays : Vector BayRecord 12
  /-- The loan serial counter (R10). -/
  nextSerial : Word48
  /-- The serial counter's exhaustion (R11). -/
  exhausted : Bool
  /-- The Access Table, by bay and port (R12). -/
  access : Vector (Vector Right 8) 12
  pool : Pool
  services : Vector Service 12
  plan : Plan
  drives : Vector DriveEngine 12
  ports : Vector NodePort 8
  presences : Vector Presence 8
  journal : Journal
  portStats : Vector PortStats 8
  bayStats : Vector BayStats 12
  /-- The raised set (R185). -/
  raised : EventSet
  /-- The enable set (R185). -/
  enabled : EventSet
  /-- The ALERT output (R187). -/
  alert : Bool
  softReset : Option SoftPending
  /-- The commands that wait, first in, first out. -/
  pending : List Instr
deriving DecidableEq, Repr

/-- Why a command could stop the part. The spec has no event that stops the SL8: what goes wrong is a state of the part
or a status of an answer, so no reason stands here and no command faults. Safe. -/
inductive Fault
deriving DecidableEq, Repr

/-- Why the model could refuse a command. -/
inductive Refusal
  /-- Raised by an arm of Dispatch for a command without a meaning; no arm raises it now. Safe: the model stops where
  the part goes on. -/
  | notModelled (mnemonic : String)
deriving DecidableEq, Repr

/-! ## Reset -/

/-- Twelve values, by bay. -/
def byBay {α : Type} (f : Bay → α) : Vector α 12 :=
  #v[f 0, f 1, f 2, f 3, f 4, f 5, f 6, f 7, f 8, f 9, f 10, f 11]

/-- Eight values, by port. -/
def byPort {α : Type} (f : Port → α) : Vector α 8 :=
  #v[f 0, f 1, f 2, f 3, f 4, f 5, f 6, f 7]

/-- The machine right after a hard reset that found no image: every field at the value the rule of its block gives
(R34, R89, R107, R131, R152, R169, R179, R190), with the defaults of R189. Carrier UP is log 4; the time base at 0 is
log 31; the first probe number is log 5. -/
def State.reset : State where
  phase := .running
  now := 0
  timeTag := { value := 0, resolution := .us64, elapsed := 0 }
  bays := byBay fun _ =>
    { availability := .probing, holders := Vector.replicate 8 none, claims := [], phase := .none,
      patienceTimer := none, subject := none, recallTimer := none, trailing := 0, capacity := 0,
      patienceTime := 5000, recallTime := 30000 }
  nextSerial := 1
  exhausted := false
  access := byBay fun _ => byPort fun _ => .full
  pool :=
    { contexts := Vector.replicate 64 {}, live := byPort fun _ => 0, quota := byPort fun _ => 12,
      replies := byPort fun _ => [], lastGranted := 7, admitted := 0 }
  services := byBay fun _ =>
    { lists := byPort fun _ => [], reissue := [], credits := byPort fun _ => 4, bank := .a, lastServed := 7 }
  plan :=
    { bankA := byBay fun _ => byPort fun _ => 4, bankB := byBay fun _ => byPort fun _ => 4, current := .a,
      swapPending := false }
  drives := byBay fun b =>
    let lane : LaneRecord :=
      { state := .probing, failures := 0, probe := some { clear := true, deadline := 3200000 }, number := 1,
        sent := some (.probe 1 true 2400) }
    { laneA := lane, laneB := lane, slots := [], learnt := none,
      policy :=
        { checkMode := .enforce, timeout := .ms200, preferred := if b.val % 2 = 0 then .a else .b, failLimit := 3,
          retryCount := 2, firstRetry := .alternate, secondRetry := .same, retryMedium := false } }
  ports := byPort fun p =>
    { carrier := .up, receiver := .idle, silent := true, intake := [], reserved := false, hold := .isOpen,
      repeatCount := 0, holdTimer := none, flowSlot := none, answers := [], notices := [], eventNews := false,
      tx := none, highWater := 12, lowWater := 4, holdTime := 20, repeatLimit := 8,
      role := if p = 0 then .supervisor else .node }
  presences := byPort fun _ =>
    { state := .new, enabled := true, beatTimer := none, miss := 0, lastBeat := none, early := 0,
      earlyFrozen := false, patternError := false, window := 500, missLimit := 6, earlyLimit := 16 }
  journal :=
    { ring := [{ seq := 0, time := 0, entry := { note := .reset .hard } }], seq := 1, lost := 0,
      meterInterval := 4096 }
  portStats := byPort fun _ => {}
  bayStats := byBay fun _ => {}
  raised := 0
  enabled := BitVec.allOnes 77
  alert := false
  softReset := none
  pending := []

end Sys2Proof.Machine
end

