-- ==== Sys2Proof/Machine/Flags.lean ====
section
/-! DEFINITION. Event sets and their numbers (R185, R193), and the saturating counters (R151, R171, R173). -/

namespace Sys2Proof.Machine

/-- The offset of a lane among a bay's two. -/
def laneIndex : Lane → Nat
  | .a => 0
  | .b => 1

/-- R193: the number of an event. -/
def eventNumber : Event → Nat
  | .portLapsed p => p.val
  | .beatErratic p => 8 + p.val
  | .intakeOverrun p => 16 + p.val
  | .laneDown b l => 24 + 2 * b.val + laneIndex l
  | .bayFaulted b => 48 + b.val
  | .recallForced b => 60 + b.val
  | .journalHigh => 72
  | .journalLost => 73
  | .planAdopted => 74
  | .serialExhausted => 75
  | .configFault => 76

/-- The set that holds one event. -/
def eventBit (e : Event) : EventSet := 1#77 <<< eventNumber e

/-- Whether a set holds an event. -/
def hasEvent (set : EventSet) (e : Event) : Bool := set.getLsbD (eventNumber e)

/-- R187: whether two sets share an event. -/
def shareEvent (x y : EventSet) : Bool := x &&& y != 0

/-- A 32-bit counter that stops at 2^32 − 1 (R151, R176, R177). -/
def satAdd (c : Word32) (n : Nat) : Word32 := BitVec.ofNat 32 (min (c.toNat + n) (2 ^ 32 - 1))

/-- A counter of 0 to 255 that stops at 255 (R158, R161). -/
def satByte (n : Nat) : Nat := min (n + 1) 255

end Sys2Proof.Machine
end

