-- ==== Sys2Proof/Machine/Operands.lean ====
section
/-! DEFINITION. The forms in which operands arrive and results leave: check values, frames, codes, payloads, journal
records, block trailers, test patterns and the configuration image (R120, R166, R189, R192 to R197). -/

namespace Sys2Proof.Machine

/-! ## Bytes -/

/-- `n` bytes of a number, most significant byte first (R192). -/
def bytesOf : Nat → Nat → List Byte
  | 0, _ => []
  | n + 1, v => BitVec.ofNat 8 (v >>> (8 * n)) :: bytesOf n v

/-- The number that bytes hold, most significant byte first (R192). -/
def natOf (bytes : List Byte) : Nat := bytes.foldl (fun acc x => acc * 256 + x.toNat) 0

/-- The `n` bytes from offset `off`. -/
def slice (bytes : List Byte) (off n : Nat) : List Byte := (bytes.drop off).take n

/-- The number in the `n` bytes from offset `off`. -/
def fieldAt (bytes : List Byte) (off n : Nat) : Nat := natOf (slice bytes off n)

/-- One byte of a small number. -/
def byte (n : Nat) : Byte := BitVec.ofNat 8 n

/-- 0 for no, 1 for yes (R193). -/
def flagByte (x : Bool) : Byte := if x then 1 else 0

/-- The bay a byte names, if it is 0 to 11. -/
def bayOf (x : Byte) : Option Bay := if h : x.toNat < 12 then some ⟨x.toNat, h⟩ else none

/-- The port a byte names, if it is 0 to 7. -/
def portOf (x : Byte) : Option Port := if h : x.toNat < 8 then some ⟨x.toNat, h⟩ else none

/-- All values of a list of options, if each is present. -/
def allSome {α : Type} : List (Option α) → Option (List α)
  | [] => some []
  | x :: rest =>
    match x, allSome rest with
    | some y, some ys => some (y :: ys)
    | _, _ => none

/-- Every byte string of `len` bytes from the front of `bytes`, `n` of them. -/
def chunks (bytes : List Byte) (len n : Nat) : List (List Byte) :=
  (List.range n).map fun i => slice bytes (i * len) len

/-- Twelve values out of a list of options, if all are present. -/
def vec12 {α : Type} (xs : List (Option α)) : Option (Vector α 12) :=
  match allSome xs with
  | some ys => if h : ys.length = 12 then some ⟨ys.toArray, by simpa using h⟩ else none
  | none => none

/-- Eight values out of a list of options, if all are present. -/
def vec8 {α : Type} (xs : List (Option α)) : Option (Vector α 8) :=
  match allSome xs with
  | some ys => if h : ys.length = 8 then some ⟨ys.toArray, by simpa using h⟩ else none
  | none => none

/-! ## The check value -/

/-- R192: one bit fed into the check register, generator 0x04C11DB7. -/
def crcFeed (r : Word32) (bit : Bool) : Word32 :=
  if r.msb != bit then (r <<< 1) ^^^ 0x04C11DB7#32 else r <<< 1

/-- R192: one byte fed in, most significant bit first. -/
def crcByte (r : Word32) (x : Byte) : Word32 :=
  [x.getMsbD 0, x.getMsbD 1, x.getMsbD 2, x.getMsbD 3, x.getMsbD 4, x.getMsbD 5, x.getMsbD 6,
    x.getMsbD 7].foldl crcFeed r

/-- R192: the 32-bit check value: the register starts at all ones and is complemented at the end. -/
def checkValue (bytes : List Byte) : Word32 := ~~~(bytes.foldl crcByte 0xFFFFFFFF#32)

/-! ## Codes -/

/-- R193: status codes. -/
def statusCode : Status → Byte
  | .ok => 0x00
  | .granted => 0x01
  | .waiting => 0x02
  | .busy => 0x10
  | .denied => 0x11
  | .held => 0x12
  | .alreadyWaiting => 0x13
  | .notWaiting => 0x14
  | .stale => 0x15
  | .notAdmitted => 0x20
  | .lapsed => 0x21
  | .faulted => 0x28
  | .withdrawn => 0x29
  | .range => 0x30
  | .format => 0x31
  | .length => 0x32
  | .dupTag => 0x33
  | .notPermitted => 0x34
  | .bankInUse => 0x40
  | .swapPending => 0x41
  | .portBusy => 0x42
  | .bayBusy => 0x43
  | .exhausted => 0x48
  | .good => 0x80
  | .mediumError => 0x81
  | .checkFail => 0x82
  | .noResponse => 0x83
  | .laneFault => 0x84
  | .loanEnded => 0x85
  | .revoked => 0x86
  | .bayFaulted => 0x87

/-- The status that carries an operation's outcome (R85, R193). -/
def outcomeStatus : OpOutcome → Status
  | .good => .good
  | .mediumError => .mediumError
  | .checkFail => .checkFail
  | .noResponse => .noResponse
  | .laneFault => .laneFault
  | .loanEnded => .loanEnded
  | .revoked => .revoked
  | .bayFaulted => .bayFaulted

/-- R193: cause codes. -/
def causeCode : Cause → Byte
  | .none => 0
  | .recallExpired => 1
  | .lapse => 2
  | .rehello => 3
  | .disabled => 4
  | .forced => 5
  | .withdrawn => 6
  | .fault => 7
  | .access => 8
  | .release => 9

/-- R193: end cause codes. -/
def endCauseCode : EndCause → Byte
  | .none => 0
  | .release => 1
  | .revoked => 2
  | .fault => 3

/-- R193: notice kind codes. -/
def noticeCode : NoticeKind → Byte
  | .granted => 1
  | .recall => 2
  | .revoked => 3
  | .refused => 4

/-- R193: mode codes. -/
def modeCode : Mode → Byte
  | .shared => 1
  | .exclusive => 2

/-- R192: the mode that a CLAIM's arg field names. -/
def modeOf (x : Byte) : Option Mode := if x = 1 then some .shared else if x = 2 then some .exclusive else none

/-- R193: loan mode codes. -/
def loanModeCode : LoanMode → Byte
  | .vacant => 0
  | .shared => 1
  | .exclusive => 2

/-- R193: availability codes. -/
def availabilityCode : Availability → Byte
  | .probing => 1
  | .inService => 2
  | .withdrawing => 3
  | .withdrawn => 4
  | .faulted => 5

/-- R193: recall phase codes. -/
def phaseCode : RecallPhase → Byte
  | .none => 0
  | .patience => 1
  | .recalled => 2

/-- R193: port state codes. -/
def portStateCode : PortState → Byte
  | .off => 0
  | .new => 1
  | .active => 2
  | .lapsed => 3
  | .test => 4

/-- R193: role codes. -/
def roleCode : Role → Byte
  | .node => 0
  | .supervisor => 1

/-- R193: the role that a code names. -/
def roleOf (x : Byte) : Option Role := if x = 0 then some .node else if x = 1 then some .supervisor else none

/-- R195: carrier codes of PORT_STATUS. -/
def carrierCode : Carrier → Byte
  | .down => 0
  | .up => 1

/-- R193: hold state codes. -/
def holdCode : HoldState → Byte
  | .isOpen => 0
  | .held => 1
  | .spent => 2

/-- R193: lane codes. -/
def laneCode : Lane → Byte
  | .a => 1
  | .b => 2

/-- R193: the lane that a code names. -/
def laneOf (n : Nat) : Option Lane := if n = 1 then some .a else if n = 2 then some .b else none

/-- R193: lane state codes. -/
def laneStateCode : LaneState → Byte
  | .probing => 1
  | .up => 2
  | .down => 3

/-- R193: right codes. -/
def rightCode : Right → Byte
  | .none => 0
  | .read => 1
  | .full => 2

/-- R193: the right that a code names. -/
def rightOf (x : Byte) : Option Right :=
  if x = 0 then some .none else if x = 1 then some .read else if x = 2 then some .full else none

/-- R193: bank codes. -/
def bankCode : Bank → Byte
  | .a => 1
  | .b => 2

/-- R193: the bank that a code names. -/
def bankOf (x : Byte) : Option Bank := if x = 1 then some .a else if x = 2 then some .b else none

/-- R193: the check mode that a code names. -/
def checkModeOf (x : Byte) : Option CheckMode :=
  if x = 1 then some .enforce else if x = 2 then some .report else if x = 3 then some .off else none

/-- R193: the retry lane that a code names. -/
def retryLaneOf (x : Byte) : Option RetryLane :=
  if x = 1 then some .same else if x = 2 then some .alternate else none

/-- R193: the yes or no that a code names. -/
def boolOf (x : Byte) : Option Bool := if x = 0 then some false else if x = 1 then some true else none

/-- R193: resolution codes. -/
def resolutionCode : Resolution → Byte
  | .us1 => 0
  | .us8 => 1
  | .us64 => 2
  | .us512 => 3

/-- R193: the resolution that a code names. -/
def resolutionOf (x : Byte) : Option Resolution :=
  if x = 0 then some .us1 else if x = 1 then some .us8 else if x = 2 then some .us64
  else if x = 3 then some .us512 else none

/-- R184: the period of a resolution, in microseconds. -/
def resolutionUs : Resolution → Nat
  | .us1 => 1
  | .us8 => 8
  | .us64 => 64
  | .us512 => 512

/-- R182: the response timeout that a number of ms names. -/
def timeoutOf (n : Nat) : Option ResponseTimeout :=
  if n = 50 then some .ms50 else if n = 200 then some .ms200 else if n = 800 then some .ms800
  else if n = 3200 then some .ms3200 else none

/-- R109: a response timeout in ms. -/
def timeoutMs : ResponseTimeout → Nat
  | .ms50 => 50
  | .ms200 => 200
  | .ms800 => 800
  | .ms3200 => 3200

/-- R112: the work limit of a response timeout, in ms. -/
def workLimitMs : ResponseTimeout → Nat
  | .ms50 => 37
  | .ms200 => 150
  | .ms800 => 600
  | .ms3200 => 2400

/-! ## Node-to-part frames -/

/-- R192: the code of HELLO. -/
def kindHello : Byte := 0x01
/-- R192: the code of BEAT. -/
def kindBeat : Byte := 0x02
/-- R192: the code of CLAIM. -/
def kindClaim : Byte := 0x03
/-- R192: the code of CANCEL. -/
def kindCancel : Byte := 0x04
/-- R192: the code of RELEASE. -/
def kindRelease : Byte := 0x05
/-- R192: the code of READ. -/
def kindRead : Byte := 0x06
/-- R192: the code of WRITE. -/
def kindWrite : Byte := 0x07
/-- R192: the code of SYNC. -/
def kindSync : Byte := 0x08
/-- R192: the code of PATTERN. -/
def kindPattern : Byte := 0x09
/-- R192: the code of MANAGE. -/
def kindManage : Byte := 0x0A

/-- The operation that a kind code names (R138, R192). -/
def opKindOf (x : Byte) : Option OpKind :=
  if x = kindRead then some .read else if x = kindWrite then some .write
  else if x = kindSync then some .sync else none

/-- R138: PATTERN, or a kind not among the node-to-part kinds. -/
def isRefusedKind (x : Byte) : Bool := x = kindPattern || !(decide (1 ≤ x.toNat ∧ x.toNat ≤ 0x0A))

/-- The fields and payload of a frame's bytes (R192). -/
def parseFields (bytes : List Byte) : FrameFields where
  flags := byte (fieldAt bytes 5 1)
  tag := BitVec.ofNat 16 (fieldAt bytes 6 2)
  bay := byte (fieldAt bytes 8 1)
  arg := byte (fieldAt bytes 9 1)
  count := BitVec.ofNat 16 (fieldAt bytes 10 2)
  serial := BitVec.ofNat 48 (fieldAt bytes 12 6)
  block := BitVec.ofNat 48 (fieldAt bytes 18 6)
  payload := slice bytes 24 (bytes.length - 28)

/-- R192: the bytes of a node-to-part frame, with length and check value. -/
def inBytes (f : InFrame) : List Byte :=
  let body := bytesOf 4 (28 + f.fields.payload.length) ++ [f.kind, f.fields.flags] ++ bytesOf 2 f.fields.tag.toNat ++
    [f.fields.bay, f.fields.arg] ++ bytesOf 2 f.fields.count.toNat ++ bytesOf 6 f.fields.serial.toNat ++
    bytesOf 6 f.fields.block.toNat ++ f.fields.payload
  body ++ bytesOf 4 (checkValue body).toNat

/-- The length field of an intake frame: header, payload and check value (R136, R192). -/
def frameLength (f : InFrame) : Nat := Config.minFrameBytes + f.fields.payload.length

/-- R136: the intake occupancy in bytes. -/
def occupancy (frames : List InFrame) : Nat := (frames.map frameLength).sum

/-- What the Link Receiver makes of a frame (R134). -/
inductive Verdict
  | overLength
  | checkDiscard
  | accepted (f : InFrame)
deriving DecidableEq, Repr

/-- R134: the bytes received pass the length field, once it is there, or 65,600. -/
def passesLength (bytes : List Byte) : Bool :=
  decide (Config.maxFrameBytes < bytes.length) ||
    (decide (4 ≤ bytes.length) && decide (fieldAt bytes 0 4 < bytes.length))

/-- R134: the checks of a frame whose end mark has arrived. -/
def judgeFrame (bytes : List Byte) : Verdict :=
  if passesLength bytes then .overLength
  else if bytes.length < 4 || decide (bytes.length < fieldAt bytes 0 4)
      || decide (fieldAt bytes 0 4 < Config.minFrameBytes) then .checkDiscard
  else if (checkValue (bytes.take (bytes.length - 4))).toNat ≠ fieldAt bytes (bytes.length - 4) 4 then .checkDiscard
  else .accepted { kind := byte (fieldAt bytes 4 1), fields := parseFields bytes }

/-! ## Part-to-node frames -/

/-- R192: part-to-node kind codes. -/
def outKindCode : OutKind → Byte
  | .answer => 0x81
  | .reply => 0x82
  | .notice => 0x83
  | .hold => 0x84
  | .resume => 0x85
  | .event => 0x86

/-- R192, R194: the bytes of a part-to-node frame, with length and check value. -/
def outBytes (f : OutFrame) : List Byte :=
  let body := bytesOf 4 (28 + f.payload.length) ++
    [outKindCode f.kind, statusCode f.status] ++ bytesOf 2 f.tag.toNat ++ [f.bay, f.laneAttempts] ++
    bytesOf 2 f.count.toNat ++ bytesOf 6 f.serial.toNat ++ f.detail ++ f.payload
  body ++ bytesOf 4 (checkValue body).toNat

/-- R194: six detail bytes, those not named being zero. -/
def detailOf (xs : List Byte) : List Byte := (xs ++ [0, 0, 0, 0, 0, 0]).take 6

/-- R192: the lane-and-attempts field. -/
def laneAttemptsOf (l : Option Lane) (attempts : Nat) : Byte :=
  byte ((match l with
    | none => 0
    | some .a => 1
    | some .b => 2) * 16 + attempts)

/-- The ten bytes of an event set: event n is bit 7 − (n mod 8) of byte n div 8 (R193). -/
def eventBytes (x : EventSet) : List Byte := bytesOf 10 (x.reverse.toNat <<< 3)

/-- The event set that a payload holds: ten bytes, the three bits after event 76 zero (R188, R193). -/
def eventsOf (payload : List Byte) : Option EventSet :=
  if payload.length = 10 ∧ natOf payload % 8 = 0 then some (BitVec.ofNat 77 (natOf payload >>> 3)).reverse else none

/-! ## Management requests -/

/-- R195: the sub-kinds of MANAGE. -/
inductive SubKind
  | accessSet | accessGet | loanQuery | revoke | bayWithdraw | bayRestore | laneRestore | bayPolicySet
  | planWrite | planSwap | planStatus | portEnable | portDisable | portTestOn | portTestOff
  | portStatus | portResync | limitsSet | journalRead | statsRead | eventRead | eventEnable
  | eventSet | eventClear | timeSet | resetPart
deriving DecidableEq, Repr

/-- R195: the arg code of a sub-kind. -/
def subKindCode : SubKind → Byte
  | .accessSet => 0x01
  | .accessGet => 0x02
  | .loanQuery => 0x03
  | .revoke => 0x04
  | .bayWithdraw => 0x05
  | .bayRestore => 0x06
  | .laneRestore => 0x07
  | .bayPolicySet => 0x08
  | .planWrite => 0x09
  | .planSwap => 0x0A
  | .planStatus => 0x0B
  | .portEnable => 0x0C
  | .portDisable => 0x0D
  | .portTestOn => 0x0E
  | .portTestOff => 0x0F
  | .portStatus => 0x10
  | .portResync => 0x11
  | .limitsSet => 0x12
  | .journalRead => 0x13
  | .statsRead => 0x14
  | .eventRead => 0x15
  | .eventEnable => 0x16
  | .eventSet => 0x17
  | .eventClear => 0x18
  | .timeSet => 0x19
  | .resetPart => 0x1A

/-- R180 step 3, R195: the arg field holds a known sub-kind. -/
def isSubKind (x : Byte) : Bool := decide (1 ≤ x.toNat ∧ x.toNat ≤ 0x1A)

/-- R195: the header fields that no argument uses are zero, where bay and count carry none. -/
def unusedZero (f : FrameFields) : Bool := f.bay = 0 && f.count = 0 && f.serial = 0 && f.block = 0

/-- R195: the header fields other than bay are zero. -/
def unusedZeroButBay (f : FrameFields) : Bool := f.count = 0 && f.serial = 0 && f.block = 0

/-- R195: the header fields other than bay and count are zero. -/
def unusedZeroButBayCount (f : FrameFields) : Bool := f.serial = 0 && f.block = 0

/-- The whole policy of a bay (R182). -/
structure BayPolicy where
  drive : DrivePolicy
  patienceTime : BitVec 16
  recallTime : BitVec 16
deriving DecidableEq, Repr

/-- R182, R195: a bay policy record, if it is 14 bytes and every setting is in range. -/
def bayPolicyOf (x : List Byte) : Option BayPolicy :=
  match checkModeOf (byte (fieldAt x 0 1)), timeoutOf (fieldAt x 2 2), laneOf (fieldAt x 4 1),
    retryLaneOf (byte (fieldAt x 7 1)), retryLaneOf (byte (fieldAt x 8 1)), boolOf (byte (fieldAt x 9 1)) with
  | some mode, some timeout, some lane, some first, some second, some medium =>
    if x.length = 14 ∧ fieldAt x 1 1 = 0 ∧ 1 ≤ fieldAt x 5 1 ∧ fieldAt x 5 1 ≤ 15 ∧ fieldAt x 6 1 ≤ 2 ∧
        fieldAt x 12 2 ≠ 0 then
      some
        { drive :=
            { checkMode := mode, timeout := timeout, preferred := lane, failLimit := fieldAt x 5 1,
              retryCount := fieldAt x 6 1, firstRetry := first, secondRetry := second, retryMedium := medium },
          patienceTime := BitVec.ofNat 16 (fieldAt x 10 2), recallTime := BitVec.ofNat 16 (fieldAt x 12 2) }
    else none
  | _, _, _, _, _, _ => none

/-- The settings of a port (R181). -/
structure PortLimits where
  quota : Nat
  highWater : Nat
  lowWater : Nat
  holdTime : Byte
  repeatLimit : Nat
  missLimit : Nat
  earlyLimit : Nat
  window : Nat
deriving DecidableEq, Repr

/-- R181, R195: a port limits record, if it is 10 bytes, every setting is in range and low water is below high water. -/
def portLimitsOf (x : List Byte) : Option PortLimits :=
  if x.length = 10 ∧ 1 ≤ fieldAt x 0 1 ∧ fieldAt x 0 1 ≤ 64 ∧ 1 ≤ fieldAt x 1 1 ∧ fieldAt x 1 1 ≤ 16 ∧
      1 ≤ fieldAt x 2 1 ∧ fieldAt x 2 1 ≤ 15 ∧ 1 ≤ fieldAt x 3 1 ∧ fieldAt x 4 1 ≤ 15 ∧ fieldAt x 7 1 = 0 ∧
      10 ≤ fieldAt x 8 2 ∧ fieldAt x 8 2 ≤ 10000 ∧ fieldAt x 2 1 < fieldAt x 1 1 then
    some
      { quota := fieldAt x 0 1, highWater := fieldAt x 1 1, lowWater := fieldAt x 2 1,
        holdTime := byte (fieldAt x 3 1), repeatLimit := fieldAt x 4 1, missLimit := fieldAt x 5 1,
        earlyLimit := fieldAt x 6 1, window := fieldAt x 8 2 }
  else none

/-- A weight of one byte, 0 to 15 (R101, R195). -/
def weightOf (x : Byte) : Option (Fin 16) := if h : x.toNat < 16 then some ⟨x.toNat, h⟩ else none

/-- Eight values of one byte each, in port order. -/
def portRow {α : Type} (one : Byte → Option α) (x : List Byte) : Option (Vector α 8) := vec8 (x.map one)

/-- 96 values of one byte each, bay by bay, in port order within each bay (R195, R197). -/
def bayTable {α : Type} (one : Byte → Option α) (x : List Byte) : Option (Vector (Vector α 8) 12) :=
  if x.length = 96 then vec12 ((chunks x 8 12).map (portRow one)) else none

/-! ## Journal records -/

/-- R196: record kind codes. -/
def noteKindCode : Note → Byte
  | .grant _ => 1
  | .loanEnd _ => 2
  | .refuse _ => 3
  | .meter => 4
  | .port _ => 5
  | .bay _ => 6
  | .plan _ => 7
  | .reset _ => 8

/-- R196: the cause field. -/
def noteCauseCode : Note → Byte
  | .grant mode => modeCode mode
  | .loanEnd cause => causeCode cause
  | .refuse cause => causeCode cause
  | .meter => 0
  | .port .admission => 1
  | .port .rehello => 2
  | .port .lapse => 3
  | .port .disable => 4
  | .port .enable => 5
  | .bay .inService => 1
  | .bay .faulted => 2
  | .bay .withdrawn => 3
  | .bay (.laneDown .a) => 4
  | .bay (.laneDown .b) => 5
  | .bay (.laneUp .a) => 6
  | .bay (.laneUp .b) => 7
  | .bay (.mismatch .a) => 8
  | .bay (.mismatch .b) => 9
  | .plan bank => bankCode bank
  | .reset .hard => 1
  | .reset .soft => 2

/-- 0xFF for none (R196). -/
def portByte : Option Port → Byte
  | none => 0xFF
  | some p => byte p.val

/-- 0xFF for none (R196). -/
def bayByte : Option Bay → Byte
  | none => 0xFF
  | some b => byte b.val

/-- R196: the 32 bytes of a journal record. -/
def recordBytes (r : Record) : List Byte :=
  bytesOf 4 r.seq.toNat ++ bytesOf 4 r.time.toNat ++
    [noteKindCode r.entry.note, portByte r.entry.port, bayByte r.entry.bay, noteCauseCode r.entry.note] ++
    bytesOf 6 r.entry.serial.toNat ++ bytesOf 4 r.entry.count1.toNat ++ bytesOf 4 r.entry.count2.toNat ++
    [0, 0, 0, 0, 0, 0]

/-! ## Block trailers -/

/-- R120: the address part of a block's trailer: the low 32 bits of first block plus position. -/
def trailerAddress (first : Word48) (position : Nat) : Word32 := BitVec.ofNat 32 (first.toNat + position)

/-- R120: the sector of one block. -/
def sectorOf (first : Word48) (position : Nat) (block : List Byte) : Sector :=
  { data := block, check := checkValue block, address := trailerAddress first position }

/-- R116, R120: the sectors of a WRITE. -/
def writeSectors (first : Word48) (count : Nat) (data : List Byte) : List Sector :=
  (List.range count).map fun i => sectorOf first i (slice data (i * Config.blockBytes) Config.blockBytes)

/-- R120: a block read back matches its trailer. -/
def sectorMatches (first : Word48) (position : Nat) (x : Sector) : Bool :=
  x.check = checkValue x.data && x.address = trailerAddress first position

/-- R121: how many of the sectors of a READ mismatch, the first standing at `position`. -/
def mismatchCount (first : Word48) : Nat → List Sector → Nat
  | _, [] => 0
  | position, x :: rest =>
    (if sectorMatches first position x then 0 else 1) + mismatchCount first (position + 1) rest

/-! ## Test pattern -/

/-- R166: one step of the generator: the new register, whose bit 0 is the output bit. -/
def patternStep (r : Word32) : Word32 :=
  (r <<< 1) ||| (if r.getLsbD 31 != r.getLsbD 28 then 1#32 else 0#32)

/-- R166: `n` output bits as a number, the first most significant, and the register after them. -/
def patternBits : Nat → Word32 → Nat → Nat × Word32
  | 0, r, acc => (acc, r)
  | n + 1, r, acc =>
    let r' := patternStep r
    patternBits n r' (acc * 2 + (if r'.getLsbD 0 then 1 else 0))

/-- R166: `n` bytes of the payload a register generates. -/
def patternBytes : Nat → Word32 → List Byte
  | 0, _ => []
  | n + 1, r =>
    let x := patternBits 8 r 0
    byte x.1 :: patternBytes n x.2

/-- R166: a PATTERN frame is well formed and carries the payload its seed generates. -/
def patternMatches (f : FrameFields) : Bool :=
  decide (f.payload.length = 1024) && f.flags = 0 && f.tag = 0 && f.bay = 0 && f.arg = 0 && f.count = 0 &&
    f.block = 0 && decide (f.serial.toNat < 2 ^ 32) &&
    decide (f.payload = patternBytes 1024 (BitVec.ofNat 32 f.serial.toNat))

/-! ## Configuration image -/

/-- The settings a hard reset uses (R189). -/
structure Settings where
  roles : Vector (Role × Bool) 8
  limits : Vector PortLimits 8
  policies : Vector BayPolicy 12
  access : Vector (Vector Right 8) 12
  bankA : Weights
  enabled : EventSet
  meterInterval : BitVec 16
  resolution : Resolution
deriving DecidableEq, Repr

/-- R189: the defaults. -/
def defaultSettings : Settings where
  roles := byPort fun p => (if p = 0 then .supervisor else .node, true)
  limits := byPort fun _ =>
    { quota := 12, highWater := 12, lowWater := 4, holdTime := 20, repeatLimit := 8, missLimit := 6,
      earlyLimit := 16, window := 500 }
  policies := byBay fun b =>
    { drive :=
        { checkMode := .enforce, timeout := .ms200, preferred := if b.val % 2 = 0 then .a else .b, failLimit := 3,
          retryCount := 2, firstRetry := .alternate, secondRetry := .same, retryMedium := false },
      patienceTime := 5000, recallTime := 30000 }
  access := byBay fun _ => byPort fun _ => .full
  bankA := byBay fun _ => byPort fun _ => 4
  enabled := BitVec.allOnes 77
  meterInterval := 4096
  resolution := .us64

/-- R197: a role and an enable setting. -/
def roleEnableOf (x : List Byte) : Option (Role × Bool) :=
  match roleOf (byte (fieldAt x 0 1)), boolOf (byte (fieldAt x 1 1)) with
  | some role, some enable => some (role, enable)
  | _, _ => none

/-- R197: the body of one section put into the settings; none where the identifier is unknown, the body length is
wrong or a field is out of range. -/
def sectionInto (identifier : Nat) (body : List Byte) (t : Settings) : Option Settings :=
  match identifier with
  | 1 => if body.length = 16 then (vec8 ((chunks body 2 8).map roleEnableOf)).map fun v => { t with roles := v } else none
  | 2 => if body.length = 80 then (vec8 ((chunks body 10 8).map portLimitsOf)).map fun v => { t with limits := v } else none
  | 3 =>
    if body.length = 168 then (vec12 ((chunks body 14 12).map bayPolicyOf)).map fun v => { t with policies := v }
    else none
  | 4 => (bayTable rightOf body).map fun v => { t with access := v }
  | 5 => (bayTable weightOf body).map fun v => { t with bankA := v }
  | 6 => (eventsOf body).map fun v => { t with enabled := v }
  | 7 => if body.length = 2 then some { t with meterInterval := BitVec.ofNat 16 (natOf body) } else none
  | 8 => if body.length = 1 then (resolutionOf (byte (natOf body))).map fun v => { t with resolution := v } else none
  | _ => none

/-- R197: `n` sections one after another, none given twice and nothing after them. -/
def sectionsInto : Nat → List Byte → List Nat → Settings → Option Settings
  | 0, rest, _, t => if rest = [] then some t else none
  | n + 1, rest, seen, t =>
    let identifier := fieldAt rest 0 1
    let len := fieldAt rest 1 2
    if rest.length < 3 + len then none
    else if seen.contains identifier then none
    else
      match sectionInto identifier (slice rest 3 len) t with
      | some t' => sectionsInto n (rest.drop (3 + len)) (identifier :: seen) t'
      | none => none

/-- R189: what the Configuration Loader finds: settings, and whether CONFIG_FAULT is raised. -/
structure LoadResult where
  settings : Settings
  fault : Bool
deriving DecidableEq, Repr

/-- R189: port 0 is made SUPERVISOR and enabled where no port is an enabled supervisor. -/
def withSupervisor (t : Settings) : Settings :=
  if [0, 1, 2, 3, 4, 5, 6, 7].any fun p : Port => decide (t.roles[p] = (Role.supervisor, true)) then t
  else { t with roles := t.roles.set 0 (Role.supervisor, true) }

/-- R189, R197: the first row that applies, before the supervisor check. -/
def readImage (memory : List Byte) : LoadResult :=
  let faulty : LoadResult := { settings := defaultSettings, fault := true }
  let len := fieldAt memory 6 2
  if memory.length < 4 || fieldAt memory 0 4 ≠ 0x5B4C0E21 then { settings := defaultSettings, fault := false }
  else if memory.length < 8 || fieldAt memory 4 1 ≠ 1 || memory.length < len || len < 12 then faulty
  else if (checkValue (memory.take (len - 4))).toNat ≠ fieldAt memory (len - 4) 4 then faulty
  else
    match sectionsInto (fieldAt memory 5 1) (slice memory 8 (len - 12)) [] defaultSettings with
    | some t => { settings := t, fault := false }
    | none => faulty

/-- R189: the settings that a hard reset uses. -/
def loadImage (memory : List Byte) : LoadResult :=
  let r := readImage memory
  { r with settings := withSupervisor r.settings }

end Sys2Proof.Machine
end

