-- ==== Sys2Proof/Machine/Ops.lean ====
section
/-! DEFINITION. The named reads and updates of State, the Journal, the Event Unit, the Node Port's queues, Flow Control
and the Port Transmitter: what every command's meaning is built from. -/

namespace Sys2Proof.Machine

/-! ## Reads and updates of one record -/

/-- The bay record of a bay. -/
def State.bay (s : State) (b : Bay) : BayRecord := s.bays[b]

/-- A bay record changed. -/
def State.modBay (s : State) (b : Bay) (f : BayRecord → BayRecord) : State :=
  { s with bays := s.bays.set b (f s.bays[b]) }

/-- The Bay Service Unit of a bay. -/
def State.service (s : State) (b : Bay) : Service := s.services[b]

/-- A Bay Service Unit changed. -/
def State.modService (s : State) (b : Bay) (f : Service → Service) : State :=
  { s with services := s.services.set b (f s.services[b]) }

/-- The Drive Engine of a bay. -/
def State.drive (s : State) (b : Bay) : DriveEngine := s.drives[b]

/-- A Drive Engine changed. -/
def State.modDrive (s : State) (b : Bay) (f : DriveEngine → DriveEngine) : State :=
  { s with drives := s.drives.set b (f s.drives[b]) }

/-- The Node Port of a port. -/
def State.port (s : State) (p : Port) : NodePort := s.ports[p]

/-- A Node Port changed. -/
def State.modPort (s : State) (p : Port) (f : NodePort → NodePort) : State :=
  { s with ports := s.ports.set p (f s.ports[p]) }

/-- The Presence Monitor of a port. -/
def State.presence (s : State) (p : Port) : Presence := s.presences[p]

/-- A Presence Monitor changed. -/
def State.modPresence (s : State) (p : Port) (f : Presence → Presence) : State :=
  { s with presences := s.presences.set p (f s.presences[p]) }

/-- A context of the pool. -/
def State.ctx (s : State) (c : CtxId) : Context := s.pool.contexts[c]

/-- A context changed. -/
def State.modCtx (s : State) (c : CtxId) (f : Context → Context) : State :=
  { s with pool := { s.pool with contexts := s.pool.contexts.set c (f s.pool.contexts[c]) } }

/-- The live-context count of a port (R65). -/
def State.live (s : State) (p : Port) : Nat := s.pool.live[p]

/-- A port's live-context count changed. -/
def State.modLive (s : State) (p : Port) (f : Nat → Nat) : State :=
  { s with pool := { s.pool with live := s.pool.live.set p (f s.pool.live[p]) } }

/-- The quota of a port (R69). -/
def State.quota (s : State) (p : Port) : Nat := s.pool.quota[p]

/-- A port's quota replaced. -/
def State.setQuota (s : State) (p : Port) (n : Nat) : State :=
  { s with pool := { s.pool with quota := s.pool.quota.set p n } }

/-- The Reply List of a port (R84). -/
def State.replies (s : State) (p : Port) : List CtxId := s.pool.replies[p]

/-- A port's Reply List changed. -/
def State.modReplies (s : State) (p : Port) (f : List CtxId → List CtxId) : State :=
  { s with pool := { s.pool with replies := s.pool.replies.set p (f s.pool.replies[p]) } }

/-- The statistics of a port changed. -/
def State.modPortStats (s : State) (p : Port) (f : PortStats → PortStats) : State :=
  { s with portStats := s.portStats.set p (f s.portStats[p]) }

/-- The statistics of a bay changed. -/
def State.modBayStats (s : State) (b : Bay) (f : BayStats → BayStats) : State :=
  { s with bayStats := s.bayStats.set b (f s.bayStats[b]) }

/-- The right of a port at a bay (R12). -/
def State.right (s : State) (p : Port) (b : Bay) : Right := s.access[b][p]

/-- A right replaced. -/
def State.setRight (s : State) (p : Port) (b : Bay) (r : Right) : State :=
  { s with access := s.access.set b (s.access[b].set p r) }

/-- The ports in increasing order. -/
def allPorts : List Port := [0, 1, 2, 3, 4, 5, 6, 7]

/-- The bays in increasing order. -/
def allBays : List Bay := [0, 1, 2, 3, 4, 5, 6, 7, 8, 9, 10, 11]

/-- The contexts in increasing order. -/
def allContexts : List CtxId := List.finRange 64

/-- The ports in turn, beginning with the port after `q` and going from port 7 on to port 0 (R71, R96). -/
def turnAfter (q : Port) : List Port := allPorts.map fun i => q + 1 + i

/-- The lanes of a bay's Drive Engine. -/
def DriveEngine.lane (d : DriveEngine) : Lane → LaneRecord
  | .a => d.laneA
  | .b => d.laneB

/-- A lane of a Drive Engine changed. -/
def DriveEngine.modLane (d : DriveEngine) (l : Lane) (f : LaneRecord → LaneRecord) : DriveEngine :=
  match l with
  | .a => { d with laneA := f d.laneA }
  | .b => { d with laneB := f d.laneB }

/-- The other lane. -/
def otherLane : Lane → Lane
  | .a => .b
  | .b => .a

/-- The other bank. -/
def otherBank : Bank → Bank
  | .a => .b
  | .b => .a

/-- A plan bank's weights (R100). -/
def Plan.bank (t : Plan) : Bank → Weights
  | .a => t.bankA
  | .b => t.bankB

/-! ## Timers -/

/-- R1: the earliest instant at which a timer started now for `ms` expires. -/
def State.after (s : State) (ms : Nat) : Nat := s.now + ms * Config.usPerMs

/-- R1: a running timer may expire now. -/
def timerDue (timer : Option Nat) (now : Nat) : Bool :=
  match timer with
  | some t => decide (t ≤ now)
  | none => false

/-- R33: whole milliseconds left until a running timer's earliest expiry; 0 when it is stopped (R195). -/
def msLeft (timer : Option Nat) (now : Nat) : Nat :=
  match timer with
  | some t => (t - now) / Config.usPerMs
  | none => 0

/-! ## The loan mode -/

/-- The holder entry of a port at a bay (R5). -/
def BayRecord.holder (r : BayRecord) (p : Port) : Option Holder := r.holders[p]

/-- The ports that hold loans, in increasing order. -/
def BayRecord.holderPorts (r : BayRecord) : List Port := allPorts.filter fun p => (r.holder p).isSome

/-- The holders in the recall set, in increasing port order (R36). -/
def BayRecord.recallSet (r : BayRecord) : List Port :=
  allPorts.filter fun p =>
    match r.holder p with
    | some h => h.recalled
    | none => false

/-- R4: the loan mode follows the holder set. -/
def BayRecord.loanMode (r : BayRecord) : LoanMode :=
  if r.holderPorts = [] then .vacant
  else if r.holderPorts.any fun p => decide ((r.holder p).map Holder.mode = some Mode.exclusive) then .exclusive
  else .shared

/-! ## Event Unit -/

/-- R186: the ports that are told of an event: supervisor ports that are ACTIVE. -/
def hearsEvents (s : State) (p : Port) : Bool :=
  decide ((s.port p).role = .supervisor) && decide ((s.presence p).state = .active)

/-- R186: the event-news flag of every ACTIVE supervisor port is set. -/
def tellSupervisors (s : State) : State :=
  allPorts.foldl (fun s p => if hearsEvents s p then s.modPort p fun n => { n with eventNews := true } else s) s

/-- R187: ALERT follows whether the raised set and the enable set share an event. -/
def driveAlert (s : State) : State := { s with alert := shareEvent s.raised s.enabled }

/-- R185, R186: an event is raised. -/
def raiseEvent (e : Event) (s : State) : State :=
  if hasEvent s.raised e then s
  else
    let s := driveAlert { s with raised := s.raised ||| eventBit e }
    if hasEvent s.enabled e then tellSupervisors s else s

/-! ## Journal -/

/-- R171: a record is produced. -/
def appendRecord (x : Entry) (s : State) : State :=
  let j := s.journal
  let record : Record := { seq := j.seq, time := s.timeTag.value, entry := x }
  if j.ring.length < Config.journalRecords then
    let s := { s with journal := { j with ring := j.ring ++ [record], seq := j.seq + 1 } }
    if j.ring.length + 1 = Config.journalHigh then raiseEvent .journalHigh s else s
  else
    raiseEvent .journalLost { s with journal := { j with seq := j.seq + 1, lost := satAdd j.lost 1 } }

/-- A BAY record (R172). -/
def bayRecordEntry (b : Bay) (note : BayNote) (count1 count2 : Word32) : Entry :=
  { note := .bay note, bay := some b, count1 := count1, count2 := count2 }

/-- R172: the upper 16 bits of a capacity. -/
def capacityHigh (c : Word48) : Word32 := BitVec.ofNat 32 (c.toNat / 2 ^ 32)

/-- R172: the lower 32 bits of a capacity. -/
def capacityLow (c : Word48) : Word32 := BitVec.ofNat 32 c.toNat

/-! ## Notice List -/

/-- R148: a notice put into a Notice List. -/
def noticeInto (x : Notice) : List Notice → List Notice
  | [] => [x]
  | y :: rest => if y.bay = x.bay then x :: rest else y :: noticeInto x rest

/-- R148: loan news is posted to a port. -/
def postNotice (p : Port) (x : Notice) (s : State) : State :=
  s.modPort p fun n => { n with notices := noticeInto x n.notices }

/-! ## Flow Control -/

/-- R142, R144: Flow Control acts on the intake occupancy. -/
def flowAct (n : NodePort) : NodePort :=
  match n.hold with
  | .isOpen =>
    if n.highWater * Config.waterUnit ≤ occupancy n.intake then
      { n with flowSlot := some (.hold n.holdTime), hold := .held, repeatCount := 1 }
    else n
  | .held | .spent =>
    if occupancy n.intake ≤ n.lowWater * Config.waterUnit then
      { n with
        flowSlot :=
          match n.flowSlot with
          | some (.hold _) => none
          | _ => some .resume,
        holdTimer := none, repeatCount := 0, hold := .isOpen }
    else n

/-- R144, R150: a hold is ended whatever the occupancy. -/
def flowEnd (n : NodePort) : NodePort :=
  match n.hold with
  | .isOpen => n
  | .held | .spent =>
    { n with
      flowSlot :=
        match n.flowSlot with
        | some (.hold _) => none
        | _ => some .resume,
      holdTimer := none, repeatCount := 0, hold := .isOpen }

/-! ## Answers and the intake head -/

/-- R138: entries of the Answer Queue in use: answers queued, the answer being sent, the head reservation. -/
def entriesInUse (n : NodePort) : Nat :=
  n.answers.length +
    (match n.tx with
      | some { source := .answer _, .. } => 1
      | _ => 0) +
    (if n.reserved then 1 else 0)

/-- R138: free entries of the Answer Queue. -/
def freeEntries (n : NodePort) : Nat := Config.answerEntries - entriesInUse n

/-- An answer is placed at the tail of a port's Answer Queue (R140). -/
def placeAnswer (p : Port) (a : Answer) (s : State) : State :=
  s.modPort p fun n => { n with answers := n.answers ++ [a] }

/-- R137, R138: the head leaves the Intake Queue, its reservation is released, and Flow Control acts. -/
def leaveHead (p : Port) (s : State) : State :=
  s.modPort p fun n => flowAct { n with intake := n.intake.drop 1, reserved := false }

/-- R138: the head's answer is placed, and the head leaves. -/
def answerHead (p : Port) (frame : OutFrame) (s : State) : State :=
  leaveHead p (placeAnswer p { frame := frame } s)

/-- R180, R194: an ANSWER with a status that echoes the tag and the bay field. -/
def answerTo (f : FrameFields) (status : Status) : OutFrame :=
  { kind := .answer, status := status, tag := f.tag, bay := f.bay }

/-- The head is refused with a status and nothing else happens (R14, R180). -/
def refuseHead (p : Port) (f : FrameFields) (status : Status) (s : State) : State :=
  answerHead p (answerTo f status) s

/-- R191: a port whose Request Handler takes no further head. -/
def handlerStopped (s : State) (p : Port) : Bool :=
  match s.softReset with
  | some r => decide (r.first = p) || r.others.contains p
  | none => false

/-- R138, R139: the head that the Request Handler of a port can take now. -/
def servedHead (s : State) (p : Port) : Option InFrame :=
  if s.phase = .running && !handlerStopped s p && !(s.port p).reserved && decide (2 ≤ freeEntries (s.port p)) then
    (s.port p).intake.head?
  else none

/-- R14 step 1, R154: the status that refuses a port that is not ACTIVE. -/
def portRefusal (s : State) (p : Port) : Option Status :=
  match (s.presence p).state with
  | .active => none
  | .lapsed => some .lapsed
  | .off | .new | .test => some .notAdmitted

/-! ## Port Transmitter -/

/-- R192, R194: a NOTICE frame. -/
def noticeFrame (x : Notice) : OutFrame :=
  { kind := .notice, tag := x.tag, bay := byte x.bay.val, serial := x.serial,
    detail := detailOf [noticeCode x.kind, causeCode x.cause] }

/-- R85, R194: the REPLY frame of a context. -/
def replyFrame (c : Context) : OutFrame :=
  { kind := .reply, status := outcomeStatus c.outcome, tag := c.tag, bay := byte c.bay.val,
    laneAttempts := laneAttemptsOf c.lane c.attempts, count := BitVec.ofNat 16 c.count, serial := c.serial,
    detail := detailOf [flagByte c.trailing ||| (flagByte c.checkWarn <<< 1), endCauseCode c.endCause],
    payload := if c.kind = .read && c.outcome = .good then c.data.take (c.count * Config.blockBytes) else [] }

/-- R186: an EVENT frame with the events both raised and enabled. -/
def eventFrame (s : State) : OutFrame := { kind := .event, payload := eventBytes (s.raised &&& s.enabled) }

/-- R146: the idle Port Transmitter of a port whose carrier is UP takes the first frame by priority. -/
def takeFrame (s : State) (p : Port) : State :=
  let n := s.port p
  if n.tx.isSome || n.carrier = .down then s
  else
    match n.flowSlot with
    | some (.hold time) =>
      s.modPort p fun n =>
        { n with flowSlot := none, tx := some { source := .hold, frame := { kind := .hold, detail := detailOf [time] } } }
    | some .resume =>
      s.modPort p fun n => { n with flowSlot := none, tx := some { source := .resume, frame := { kind := .resume } } }
    | none =>
      match n.answers with
      | a :: rest =>
        s.modPort p fun n => { n with answers := rest, tx := some { source := .answer a.resetPart, frame := a.frame } }
      | [] =>
        match n.notices with
        | x :: rest =>
          s.modPort p fun n => { n with notices := rest, tx := some { source := .notice, frame := noticeFrame x } }
        | [] =>
          if n.role = .supervisor && n.eventNews then
            s.modPort p fun n => { n with eventNews := false, tx := some { source := .event, frame := eventFrame s } }
          else
            match s.replies p with
            | c :: rest =>
              (s.modReplies p fun _ => rest).modPort p fun n =>
                { n with tx := some { source := .reply c, frame := replyFrame (s.ctx c) } }
            | [] => s

/-- R146: every idle Port Transmitter takes what has been posted to it. -/
def transmit (s : State) : State := allPorts.foldl takeFrame s

end Sys2Proof.Machine
end

