-- ==== Sys2Proof/Machine/Clock.lean ====
section
/-! DEFINITION. The Time Base: one microsecond of it, and the timers that must expire before another passes (R1, R184).
What a step does on an empty queue is log 2. -/

namespace Sys2Proof.Machine

/-- R184: the time tag one microsecond later: at the end of a period of its resolution it counts, modulo 2^32. -/
def tickTag (t : TimeTag) : TimeTag :=
  if t.elapsed + 1 < resolutionUs t.resolution then { t with elapsed := t.elapsed + 1 }
  else { t with value := t.value + 1, elapsed := 0 }

/-- R1, R184: one microsecond passes. The time tag stands at 0 in a hard reset (R190). -/
def tick (s : State) : State :=
  if s.phase = .running then { s with now := s.now + 1, timeTag := tickTag s.timeTag }
  else { s with now := s.now + 1 }

/-- R1: a timer of T ms expires before T + 1 ms have passed: a running timer that has reached that end. -/
def overdue (timer : Option Nat) (now : Nat) : Bool :=
  match timer with
  | some t => decide (t + Config.usPerMs ≤ now)
  | none => false

/-- The expiries of a bay's loan timers that are overdue. -/
def overdueLoans (s : State) (b : Bay) : List Instr :=
  (if overdue (s.bay b).patienceTimer s.now then [.patienceTimerExpiry b] else []) ++
    (if overdue (s.bay b).recallTimer s.now then [.recallTimerExpiry b] else [])

/-- The expiries of a port's timers that are overdue. -/
def overduePort (s : State) (p : Port) : List Instr :=
  (if overdue (s.presence p).beatTimer s.now then [.beatTimerExpiry p] else []) ++
    (if overdue (s.port p).holdTimer s.now then [.holdTimerExpiry p] else [])

/-- The expiry of a lane's probe timer, if it is overdue. -/
def overdueProbe (s : State) (b : Bay) (l : Lane) : List Instr :=
  if overdue (((s.drive b).lane l).probe.map Probe.deadline) s.now then [.probeTimerExpiry b l] else []

/-- The expiries of a bay's drive timers that are overdue. -/
def overdueDrive (s : State) (b : Bay) : List Instr :=
  overdueProbe s b .a ++ overdueProbe s b .b ++
    ((s.drive b).slots.filter fun slot => overdue (some slot.deadline) s.now).map fun slot =>
      .responseTimerExpiry b slot.ctx

/-- The expiry of the reset timer, if it is overdue. -/
def overdueReset (s : State) : List Instr :=
  if overdue (s.softReset.map SoftPending.deadline) s.now then [.resetTimerExpiry] else []

/-- The expiry that must be taken before time passes, if there is one: a timer runs only while the part runs. -/
def overdueCommand (s : State) : Option Instr :=
  if s.phase = .running then
    (allBays.flatMap (overdueLoans s) ++ allPorts.flatMap (overduePort s) ++ allBays.flatMap (overdueDrive s) ++
      overdueReset s).head?
  else none

end Sys2Proof.Machine
end

