-- ==== Sys2Proof/Machine/Service.lean ====
section
/-! DEFINITION. Bay service and the lending plan: adoption of a bank, the choice of the next context, and its issue on
a lane (R90 to R104, R116). -/

namespace Sys2Proof.Machine

/-! ## Adoption of a bank -/

/-- A context in a live state (R63). -/
def isLive (c : Context) : Bool := c.state = .queued || c.state = .reissue || c.state = .issued

/-- R102: a bay is idle while it has no live context. -/
def bayIdle (s : State) (b : Bay) : Bool := allContexts.all fun c => !(isLive (s.ctx c) && (s.ctx c).bay = b)

/-- R93: a bay's credits set from the weights of its bank in use. -/
def refill (b : Bay) (s : State) : State :=
  s.modService b fun v => { v with credits := byPort fun p => ((s.plan.bank v.bank)[b][p]).val }

/-- R104: a swap completes when every bay's bank in use is the current bank. -/
def swapCheck (s : State) : State :=
  if s.plan.swapPending && allBays.all fun b => decide ((s.service b).bank = s.plan.current) then
    raiseEvent .planAdopted { s with plan := { s.plan with swapPending := false } }
  else s

/-- R103: an adoption is due at a bay. -/
def adoptionDue (s : State) (b : Bay) : Bool :=
  s.plan.swapPending && !decide ((s.service b).bank = s.plan.current)

/-- R103: a bay adopts the current bank, with its PLAN record and the completion check of R104. -/
def adopt (b : Bay) (s : State) : State :=
  let s := s.modService b fun v => { v with bank := s.plan.current }
  swapCheck (appendRecord { note := .plan s.plan.current, bay := some b } s)

/-- R103: an idle bay adopts a pending bank and takes its credits from it. -/
def adoptIfIdle (b : Bay) (s : State) : State :=
  if adoptionDue s b && bayIdle s b then adopt b (refill b (s.modService b fun v => { v with bank := s.plan.current }))
  else s

/-! ## The choice -/

/-- R95: the block ranges of two contexts share a block. -/
def overlaps (x y : Context) : Bool :=
  decide (x.block.toNat < y.block.toNat + y.count) && decide (y.block.toNat < x.block.toNat + x.count)

/-- R95: a context is eligible for issue at its bay. -/
def eligible (s : State) (b : Bay) (c : CtxId) : Bool :=
  let x := s.ctx c
  match x.kind with
  | .sync => decide ((s.drive b).slots = [])
  | .read | .write =>
    (s.drive b).slots.all fun slot => (s.ctx slot.ctx).kind = .sync || !overlaps x (s.ctx slot.ctx)

/-- R94: fewer than 4 contexts ISSUED, no SYNC among them, and a lane UP. -/
def canIssue (s : State) (b : Bay) : Bool :=
  let d := s.drive b
  decide (d.slots.length < Config.issueSlots) &&
    (d.slots.all fun slot => !decide ((s.ctx slot.ctx).kind = .sync)) &&
    (decide (d.laneA.state = .up) || decide (d.laneB.state = .up))

/-- The head of a port's service list at a bay, if it is eligible (R91, R96). -/
def eligibleHead (s : State) (b : Bay) (p : Port) : Option CtxId :=
  match ((s.service b).lists[p]).head? with
  | some c => if eligible s b c then some c else none
  | none => none

/-- R96 step 2: the first port in turn whose credit is above 0 and whose head is eligible. -/
def creditedPort (s : State) (b : Bay) : Option Port :=
  (turnAfter (s.service b).lastServed).find? fun p =>
    decide (0 < (s.service b).credits[p]) && (eligibleHead s b p).isSome

/-- R98: the first port in turn whose head is eligible, credit or not. -/
def uncreditedPort (s : State) (b : Bay) : Option Port :=
  (turnAfter (s.service b).lastServed).find? fun p => (eligibleHead s b p).isSome

/-- R116 step 1: the wanted lane if it is UP, and the other lane otherwise. -/
def issueLane (d : DriveEngine) (wanted : Lane) : Lane :=
  if (d.lane wanted).state = .up then wanted else otherLane wanted

/-- R111, R112, R116 step 3: the command of a context's attempt. -/
def contextCommand (c : CtxId) (x : Context) (workLimit : Nat) : LaneCommand :=
  match x.kind with
  | .read => .read c x.attempts x.block x.count workLimit
  | .write => .write c x.attempts x.block x.count (writeSectors x.block x.count x.data) workLimit
  | .sync => .sync c x.attempts workLimit

/-- R116: a context is issued on a lane. -/
def issue (b : Bay) (c : CtxId) (wanted : Lane) (s : State) : State :=
  let l := issueLane (s.drive b) wanted
  let timeout := (s.drive b).policy.timeout
  let s := s.modCtx c fun x => { x with state := .issued, lane := some l, attempts := x.attempts + 1 }
  let x := s.ctx c
  let command := contextCommand c x (workLimitMs timeout)
  s.modDrive b fun d =>
    { d.modLane l (fun r => { r with sent := some command }) with
      slots := d.slots ++
        [{ ctx := c, lane := l, attempt := x.attempts, deadline := s.after (timeoutMs timeout),
           command := command }] }

/-- R96 step 1: a context of the reissue list is issued on the lane chosen at its retry. -/
def issueRetry (b : Bay) (c : CtxId) (s : State) : State :=
  issue b c ((s.ctx c).lane.getD (s.drive b).policy.preferred)
    (s.modService b fun v => { v with reissue := v.reissue.filter fun c' => !decide (c' = c) })

/-- R96 step 2, R98: the head of a port's service list is issued, taking `cost` from the port's credit. -/
def issueHead (b : Bay) (p : Port) (cost : Nat) (s : State) : State :=
  match ((s.service b).lists[p]) with
  | [] => s
  | c :: rest =>
    issue b c (s.drive b).policy.preferred
      (s.modService b fun v =>
        { v with lists := v.lists.set p rest, credits := v.credits.set p (v.credits[p] - cost), lastServed := p })

/-- R97 steps 1 and 2: the end of a round adopts a pending bank and refills the credits. -/
def roundEnd (b : Bay) (s : State) : State := refill b (if adoptionDue s b then adopt b s else s)

/-- R96, R97, R98: one choice at a bay; none where it issues nothing. -/
def choose (b : Bay) (s : State) : Option State :=
  if canIssue s b then
    match (s.service b).reissue.find? (eligible s b) with
    | some c => some (issueRetry b c s)
    | none =>
      match creditedPort s b with
      | some p => some (issueHead b p 1 s)
      | none =>
        if (uncreditedPort s b).isSome then
          let s := roundEnd b s
          match creditedPort s b with
          | some p => some (issueHead b p 1 s)
          | none =>
            match uncreditedPort s b with
            | some p => some (issueHead b p 0 s)
            | none => some s
        else none
  else none

/-- R94: choices follow one another until one issues nothing. -/
def chooseLoop (b : Bay) : Nat → State → State
  | 0, s => s
  | n + 1, s =>
    match choose b s with
    | some s' => chooseLoop b n s'
    | none => s

/-- R94: the choices after an event at a bay; each takes one of the issue slots. -/
def chooseAll (b : Bay) (s : State) : State := chooseLoop b Config.issueSlots s

end Sys2Proof.Machine
end

