-- ==== Sys2Proof/Machine/Pool.lean ====
section
/-! DEFINITION. The Context Pool: admission, allocation, hand-out, entry to REPLY and loan end (R63 to R89). -/

namespace Sys2Proof.Machine

/-! ## Leaving the live states -/

/-- A context becomes FREE; its other fields have no meaning any more (R64) and are cleared. -/
def freeContext (c : CtxId) (s : State) : State := s.modCtx c fun _ => {}

/-- R81 step 5, R84: a context enters REPLY with its outcome and joins the tail of its port's Reply List; a bay left
without live contexts adopts a pending bank (R103). -/
def enterReply (c : CtxId) (outcome : OpOutcome) (s : State) : State :=
  let x := s.ctx c
  let s := s.modCtx c fun x => { x with state := .reply, outcome := outcome }
  adoptIfIdle x.bay (s.modReplies x.port fun l => l ++ [c])

/-- R88, R177: an orphaned context that completes becomes FREE as a lost reply. -/
def freeOrphan (c : CtxId) (s : State) : State :=
  let x := s.ctx c
  let s := freeContext c s
  adoptIfIdle x.bay (s.modPortStats x.port fun t => { t with repliesLost := satAdd t.repliesLost 1 })

/-! ## Loan end as the contexts see it -/

/-- R77: the outcome of the QUEUED and REISSUE contexts of an ended loan. -/
def causeOutcome : Cause → OpOutcome
  | .release => .loanEnded
  | .fault => .bayFaulted
  | .recallExpired | .lapse | .rehello | .disabled | .forced | .withdrawn | .none | .access => .revoked

/-- R77: the end cause recorded in the contexts of an ended loan. -/
def causeEnd : Cause → EndCause
  | .release => .release
  | .fault => .fault
  | .recallExpired | .lapse | .rehello | .disabled | .forced | .withdrawn | .none | .access => .revoked

/-- A context put into a list kept in the order of admission (R77). -/
def admissionInsert (s : State) (c : CtxId) : List CtxId → List CtxId
  | [] => [c]
  | d :: rest => if (s.ctx c).admission < (s.ctx d).admission then c :: d :: rest else d :: admissionInsert s c rest

/-- Contexts in the order in which they were admitted (R77). -/
def inAdmissionOrder (s : State) : List CtxId → List CtxId
  | [] => []
  | c :: rest => admissionInsert s c (inAdmissionOrder s rest)

/-- R78: a QUEUED or REISSUE context of an ended loan goes to REPLY. -/
def endUnissued (cause : Cause) (s : State) (c : CtxId) : State :=
  let x := s.ctx c
  let s := s.modService x.bay fun v =>
    { v with
      lists := v.lists.set x.port (v.lists[x.port].filter fun d => !decide (d = c)),
      reissue := v.reissue.filter fun d => !decide (d = c) }
  let s := if x.state = .reissue then s.modBayStats x.bay fun t => { t with completed := satAdd t.completed 1 } else s
  let s := s.modCtx c fun x => { x with endCause := causeEnd cause }
  enterReply c (causeOutcome cause) (s.modLive x.port fun n => n - 1)

/-- R79: an ISSUED context of an ended loan becomes trailing. -/
def makeTrailing (cause : Cause) (s : State) (c : CtxId) : State :=
  let b := (s.ctx c).bay
  (s.modCtx c fun x => { x with trailing := true, endCause := causeEnd cause }).modBay b fun r =>
    { r with trailing := r.trailing + 1 }

/-- The contexts of a loan in REISSUE or QUEUED, in the order of admission (R77). -/
def unissuedOf (s : State) (serial : Word48) : List CtxId :=
  inAdmissionOrder s (allContexts.filter fun c =>
    ((s.ctx c).state = .queued || (s.ctx c).state = .reissue) && (s.ctx c).serial = serial)

/-- The contexts of a loan in ISSUED (R79). -/
def issuedOf (s : State) (serial : Word48) : List CtxId :=
  allContexts.filter fun c => (s.ctx c).state = .issued && (s.ctx c).serial = serial

/-- R77: the Loan Manager hands a loan end to the Context Pool. -/
def endLoanContexts (serial : Word48) (cause : Cause) (s : State) : State :=
  let s := (issuedOf s serial).foldl (makeTrailing cause) s
  (unissuedOf s serial).foldl (endUnissued cause) s

/-! ## Admission -/

/-- R66 step 6: a live context of the port that is not orphaned has the tag. -/
def tagInUse (s : State) (p : Port) (tag : BitVec 16) : Bool :=
  allContexts.any fun c =>
    isLive (s.ctx c) && !(s.ctx c).orphaned && (s.ctx c).port = p && (s.ctx c).tag = tag

/-- R66 step 2: the fields an operation does not use are zero. -/
def operationFieldsOk (kind : OpKind) (f : FrameFields) : Bool :=
  f.flags = 0 && f.arg = 0 && (!decide (kind = .sync) || (f.count = 0 && f.block = 0))

/-- R66 step 4: the payload has the length the kind asks for, and a WRITE's count is 1 to 16. -/
def operationLengthOk (kind : OpKind) (f : FrameFields) : Bool :=
  match kind with
  | .write =>
    decide (1 ≤ f.count.toNat ∧ f.count.toNat ≤ 16) && decide (f.payload.length = f.count.toNat * Config.blockBytes)
  | .read | .sync => decide (f.payload = [])

/-- R66 step 5: a READ's count is 1 to 16. -/
def operationCountOk (kind : OpKind) (f : FrameFields) : Bool :=
  !decide (kind = .read) || decide (1 ≤ f.count.toNat ∧ f.count.toNat ≤ 16)

/-- R66: the checks of an operation, in order: the status of the first that fails, or the bay it is admitted at. -/
def admissionCheck (s : State) (p : Port) (kind : OpKind) (f : FrameFields) : Except Status Bay :=
  match portRefusal s p with
  | some status => .error status
  | none =>
    if !operationFieldsOk kind f then .error .format
    else
      match bayOf f.bay with
      | none => .error .range
      | some b =>
        if !operationLengthOk kind f then .error .length
        else if !operationCountOk kind f then .error .range
        else if tagInUse s p f.tag then .error .dupTag
        else
          match (s.bay b).holder p with
          | none => .error .stale
          | some h =>
            if h.serial ≠ f.serial then .error .stale
            else if kind = .write ∧ h.mode ≠ .exclusive then .error .denied
            else if kind ≠ .sync ∧ (s.bay b).capacity.toNat < f.block.toNat + f.count.toNat then .error .range
            else .ok b

/-- R68: a refused operation's ANSWER carries count and serial as received. -/
def refuseOperation (p : Port) (f : FrameFields) (status : Status) (s : State) : State :=
  answerHead p { answerTo f status with count := f.count, serial := f.serial } s

/-- The lowest-numbered FREE context (R70). -/
def firstFree (s : State) : Option CtxId := allContexts.find? fun c => decide ((s.ctx c).state = .free)

/-- R70 steps 1 and 2: the record of a newly allocated context. -/
def newContext (p : Port) (kind : OpKind) (b : Bay) (f : FrameFields) (admission : Nat) : Context :=
  { state := .queued, port := p, tag := f.tag, kind := kind, bay := b, serial := f.serial, block := f.block,
    count := f.count.toNat, data := if kind = .write then f.payload else [], admission := admission }

/-- R5, R65: a holder's live-context count changed. -/
def modHolder (b : Bay) (p : Port) (f : Holder → Holder) (s : State) : State :=
  s.modBay b fun r => { r with holders := r.holders.set p ((r.holders[p]).map f) }

/-- R70: an admitted operation at the head is given a context, which joins its service list. -/
def seat (c : CtxId) (p : Port) (kind : OpKind) (b : Bay) (f : FrameFields) (s : State) : State :=
  let s := s.modCtx c fun _ => newContext p kind b f s.pool.admitted
  let s := leaveHead p s
  let s := modHolder b p (fun h => { h with live := h.live + 1 }) (s.modLive p fun n => n + 1)
  let s := s.modService b fun v => { v with lists := v.lists.set p (v.lists[p] ++ [c]) }
  { s with pool := { s.pool with lastGranted := p, admitted := s.pool.admitted + 1 } }

/-- R70, R94: an admitted operation at the head is given a context, and a choice follows at its bay. -/
def allocate (c : CtxId) (p : Port) (kind : OpKind) (b : Bay) (f : FrameFields) (s : State) : State :=
  chooseAll b (seat c p kind b f s)

/-- R70, R125: an operation is given a context within an event that ends attempts at the bay `held`; that bay makes its
choices when the event has freed all its slots. -/
def allocateHolding (held : Option Bay) (c : CtxId) (p : Port) (kind : OpKind) (b : Bay) (f : FrameFields)
    (s : State) : State :=
  if held = some b then seat c p kind b f s else allocate c p kind b f s

/-- R69, R71: the admitted operation that waits for a context at the head of a port's Intake Queue. -/
def waitingHead (s : State) (p : Port) : Option (OpKind × FrameFields) :=
  if (s.port p).reserved then
    match (s.port p).intake with
    | f :: _ => (opKindOf f.kind).map fun kind => (kind, f.fields)
    | [] => none
  else none

/-- R69: the port's live-context count is below its quota. -/
def belowQuota (s : State) (p : Port) : Bool := decide (s.live p < s.quota p)

/-- R71: the first eligible port after the last-granted port. -/
def nextEligible (s : State) : Option Port :=
  (turnAfter s.pool.lastGranted).find? fun p => (waitingHead s p).isSome && belowQuota s p

/-- R72: a FREE context offered to a port is taken up after the checks have been made again on the head that waits; a
check that fails refuses the head. -/
def takeUp (held : Option Bay) (c : CtxId) (p : Port) (s : State) : State :=
  match waitingHead s p with
  | some (kind, f) =>
    match admissionCheck s p kind f with
    | .ok b => allocateHolding held c p kind b f s
    | .error status => refuseOperation p f status s
  | none => s

/-- R71: a FREE context is offered to the next eligible port; none where no context is FREE or no port is eligible. -/
def offerHolding (held : Option Bay) (s : State) : Option State :=
  match firstFree s, nextEligible s with
  | some c, some p => some (takeUp held c p s)
  | _, _ => none

/-- R71, R72: an offer at a moment at which every bay makes its choices. -/
def offer (s : State) : Option State := offerHolding none s

/-- R71: contexts are handed out one after another; each offer ends the wait of one port. -/
def handOutLoop (held : Option Bay) : Nat → State → State
  | 0, s => s
  | n + 1, s =>
    match offerHolding held s with
    | some s' => handOutLoop held n s'
    | none => s

/-- R71: the hand-out, until no context is FREE or no port is eligible. -/
def handOutHolding (held : Option Bay) (s : State) : State := handOutLoop held 8 s

/-- R71: the hand-out at a moment at which every bay makes its choices. -/
def handOut (s : State) : State := handOutHolding none s

/-- R69, R71: a port whose wait at quota ends while a context is FREE is given that context at once, without an offer to
any other port. -/
def giveAtQuota (held : Option Bay) (p : Port) (s : State) : State :=
  match firstFree s with
  | some c => if (waitingHead s p).isSome && belowQuota s p then takeUp held c p s else s
  | none => s

end Sys2Proof.Machine
end

