-- ==== Sys2Proof/Machine/Lending.lean ====
section
/-! DEFINITION. The Loan Manager's shared operations: grants, the grant pass, patience, recall, revocation, refusal,
withdrawal completion, bay fault at the Loan Table, and a port's clean-up there (R19 to R62). -/

namespace Sys2Proof.Machine

/-! ## Grants -/

/-- R12: a right permits a mode. -/
def permits : Right → Mode → Bool
  | .none, _ => false
  | .read, .shared => true
  | .read, .exclusive => false
  | .full, _ => true

/-- R15, R20: a claim's mode fits the loan mode. -/
def modeFits (loan : LoanMode) (mode : Mode) : Bool :=
  match loan, mode with
  | .vacant, _ => true
  | .shared, .shared => true
  | .shared, .exclusive => false
  | .exclusive, _ => false

/-- R10, R11: the grant takes the counter's value; the grant of 2^48 − 1 exhausts the counter. -/
def takeSerial (s : State) : State :=
  let s' := { s with nextSerial := s.nextSerial + 1 }
  if s.nextSerial = BitVec.allOnes 48 then raiseEvent .serialExhausted { s' with exhausted := true } else s'

/-- R22 steps 1, 2 and 4: a grant; its serial is the counter's value before it. -/
def grant (b : Bay) (p : Port) (mode : Mode) (s : State) : State :=
  let serial := s.nextSerial
  let s := takeSerial s
  let s := s.modBay b fun r =>
    { r with
      holders := r.holders.set p (some
        { mode := mode, serial := serial, grantTag := s.timeTag.value, recalled := false, live := 0, blocksRead := 0,
          blocksWritten := 0 }) }
  appendRecord { note := .grant mode, port := some p, bay := some b, serial := serial } s

/-- R6: a port's claim record leaves a bay's queue. -/
def removeClaim (b : Bay) (p : Port) (s : State) : State :=
  s.modBay b fun r => { r with claims := r.claims.filter fun x => !decide (x.port = p) }

/-- R22: the grant pass grants a waiting claim and posts its GRANTED notice. -/
def grantClaim (b : Bay) (x : Claim) (s : State) : State :=
  let serial := s.nextSerial
  let s := grant b x.port x.mode (removeClaim b x.port s)
  postNotice x.port { bay := b, kind := .granted, tag := x.tag, serial := serial, cause := .none } s

/-- R31: a waiting claim is refused; a silent removal posts no notice. -/
def refuseClaim (b : Bay) (cause : Cause) (silent : Bool) (x : Claim) (s : State) : State :=
  let s := removeClaim b x.port s
  let s :=
    if silent then s
    else postNotice x.port { bay := b, kind := .refused, tag := x.tag, serial := 0, cause := cause } s
  appendRecord { note := .refuse cause, port := some x.port, bay := some b } s

/-- R20: the conditions under which the grant pass grants at all. -/
def grantsOpen (s : State) (b : Bay) : Bool :=
  (s.bay b).availability = .inService && decide ((s.bay b).trailing = 0) && !s.exhausted

/-- R20, R21, R23: the grant pass looks at the head, grants it or refuses it by its right, and goes on. An EXCLUSIVE
grant, or the EXCLUSIVE claim behind a shared batch, blocks the next head, so one run grants one group. -/
def grantPassLoop (b : Bay) : Nat → State → State
  | 0, s => s
  | n + 1, s =>
    if grantsOpen s b then
      match (s.bay b).claims with
      | [] => s
      | x :: _ =>
        if modeFits (s.bay b).loanMode x.mode then
          if permits (s.right x.port b) x.mode then grantPassLoop b n (grantClaim b x s)
          else grantPassLoop b n (refuseClaim b .access false x s)
        else s
    else s

/-- R19: the grant pass of a bay. -/
def grantPass (b : Bay) (s : State) : State := grantPassLoop b (s.bay b).claims.length s

/-! ## Patience and recall -/

/-- R24: the head claim is blocked by holders. -/
def headBlocked (r : BayRecord) : Option Port :=
  match r.claims with
  | [] => none
  | x :: _ =>
    match x.mode with
    | .exclusive => if r.holderPorts = [] then none else some x.port
    | .shared => if r.loanMode = .exclusive then some x.port else none

/-- R26, R52: the holder of a port is recalled, with a RECALL notice, unless it is already recalled (R36). -/
def recallHolder (b : Bay) (s : State) (p : Port) : State :=
  match (s.bay b).holder p with
  | some h =>
    if h.recalled then s
    else
      postNotice p { bay := b, kind := .recall, tag := 0, serial := h.serial, cause := .none }
        (modHolder b p (fun h => { h with recalled := true }) s)
  | none => s

/-- R26, R52: every holder of a bay is recalled, in increasing port order. -/
def recallHolders (b : Bay) (s : State) : State := (s.bay b).holderPorts.foldl (recallHolder b) s

/-- R26: the patience timer's expiry starts a recall. -/
def startRecall (b : Bay) (s : State) : State :=
  let s := s.modBay b fun r => { r with patienceTimer := none, subject := none, phase := .recalled }
  let s := recallHolders b s
  s.modBay b fun r => { r with recallTimer := some (s.after r.recallTime.toNat) }

/-- R24, R25: the patience timer starts, or restarts, for the head's port; with time 0 it expires at that moment. -/
def startPatience (b : Bay) (p : Port) (s : State) : State :=
  let s := s.modBay b fun r =>
    { r with patienceTimer := some (s.after r.patienceTime.toNat), subject := some p, phase := .patience }
  if (s.bay b).patienceTime = 0 then startRecall b s else s

/-- R24: the patience timer stops. -/
def stopPatience (b : Bay) (s : State) : State :=
  s.modBay b fun r => { r with patienceTimer := none, subject := none, phase := .none }

/-- R24, R25: the patience check of a bay. A timer that runs for the head goes on although the patience time has been
set to 65535 since (R25). -/
def patienceCheck (b : Bay) (s : State) : State :=
  let r := s.bay b
  let off := decide (r.patienceTime.toNat = Config.patienceOff)
  let blocked := if r.availability = .inService then headBlocked r else none
  match r.phase, blocked with
  | .none, some p => if off then s else startPatience b p s
  | .none, none => s
  | .patience, some p => if r.subject = some p then s else if off then stopPatience b s else startPatience b p s
  | .patience, none => stopPatience b s
  | .recalled, _ => s

/-- R54: the completion check of a withdrawal. -/
def completionCheck (b : Bay) (s : State) : State :=
  let r := s.bay b
  if r.availability = .withdrawing ∧ r.holderPorts = [] ∧ r.trailing = 0 then
    appendRecord (bayRecordEntry b .withdrawn 0 0) (s.modBay b fun r => { r with availability := .withdrawn })
  else s

/-- R29 step 4, R42 step 5: the grant pass, and then the patience check, or the completion check at a WITHDRAWING bay. -/
def settleBay (b : Bay) (s : State) : State :=
  if (s.bay b).availability = .withdrawing then completionCheck b (grantPass b s) else patienceCheck b (grantPass b s)

/-! ## Loan ends -/

/-- R29 step 1, R37, R42 step 1: the holder entry is removed, and an emptied recall set ends the recall. -/
def removeHolder (b : Bay) (p : Port) (s : State) : State :=
  s.modBay b fun r =>
    let r' := { r with holders := r.holders.set p none }
    if r.phase = .recalled ∧ r'.recallSet = [] then { r' with phase := .none, recallTimer := none } else r'

/-- R29 step 3, R42 step 4: the END record with the meters' residue. -/
def endRecord (b : Bay) (p : Port) (h : Holder) (cause : Cause) : Entry :=
  { note := .loanEnd cause, port := some p, bay := some b, serial := h.serial, count1 := h.blocksRead,
    count2 := h.blocksWritten }

/-- R42 step 3: the causes whose port can still listen. -/
def postsRevoked : Cause → Bool
  | .lapse | .rehello | .disabled => false
  | .none | .recallExpired | .forced | .withdrawn | .fault | .access | .release => true

/-- R29 steps 1 to 3: a loan ended by RELEASE. -/
def releaseLoan (b : Bay) (p : Port) (h : Holder) (s : State) : State :=
  appendRecord (endRecord b p h .release) (endLoanContexts h.serial .release (removeHolder b p s))

/-- R42 steps 1 to 4: one loan ended by revocation. -/
def revokeLoan (b : Bay) (cause : Cause) (p : Port) (h : Holder) (s : State) : State :=
  let s := endLoanContexts h.serial cause (removeHolder b p s)
  let s :=
    if postsRevoked cause then
      postNotice p { bay := b, kind := .revoked, tag := 0, serial := h.serial, cause := cause } s
    else s
  appendRecord (endRecord b p h cause) s

/-- R45, R71: the loan of a port at a bay, if it holds one, is revoked; where that ends the port's wait at quota, the
port is given a FREE context before the next revocation. That it comes after the END record is the model's choice
(log 8). -/
def revokePort (b : Bay) (cause : Cause) (s : State) (p : Port) : State :=
  match (s.bay b).holder p with
  | some h => giveAtQuota none p (revokeLoan b cause p h s)
  | none => s

/-- R45: the loans of several ports at a bay are revoked in the order given. -/
def revokePorts (b : Bay) (cause : Cause) (ps : List Port) (s : State) : State := ps.foldl (revokePort b cause) s

/-- R31: every waiting claim of a bay is refused in queue order. -/
def refuseAll (b : Bay) (cause : Cause) (s : State) : State :=
  (s.bay b).claims.foldl (fun s x => refuseClaim b cause false x s) s

/-- R38: the recall timer's expiry at a bay. -/
def recallExpiry (b : Bay) (s : State) : State :=
  let cause : Cause := if (s.bay b).availability = .withdrawing then .withdrawn else .recallExpired
  let s := revokePorts b cause (s.bay b).recallSet s
  let s := s.modBay b fun r => { r with phase := .none, recallTimer := none }
  settleBay b (raiseEvent (.recallForced b) s)

/-! ## Availability -/

/-- R58: the Drive Engine hands over the result of probing. -/
def probingResult (b : Bay) (anyUp : Bool) (s : State) : State :=
  if anyUp then
    let s := s.modBay b fun r => { r with availability := .inService }
    let c := (s.bay b).capacity
    settleBay b (appendRecord (bayRecordEntry b .inService (capacityHigh c) (capacityLow c)) s)
  else
    let s := refuseAll b .fault (s.modBay b fun r => { r with availability := .faulted })
    raiseEvent (.bayFaulted b) (appendRecord (bayRecordEntry b .faulted 0 0) s)

/-- R59: the Drive Engine hands a bay fault to the Loan Manager. -/
def faultLoans (b : Bay) (s : State) : State :=
  let s := s.modBay b fun r =>
    { r with availability := .faulted, patienceTimer := none, recallTimer := none, subject := none, phase := .none }
  let s := refuseAll b .fault (revokePorts b .fault (s.bay b).holderPorts s)
  let s := raiseEvent (.bayFaulted b) (appendRecord (bayRecordEntry b .faulted 0 0) s)
  settleBay b s

/-! ## A port's clean-up at the Loan Table -/

/-- R46: what a clean-up has done so far: the state, the loans revoked and the claims removed. -/
structure CleanUp where
  state : State
  loans : Nat
  claims : Nat

/-- R46: a clean-up at one bay. -/
def cleanBay (cause : Cause) (p : Port) (t : CleanUp) (b : Bay) : CleanUp :=
  match (t.state.bay b).holder p with
  | some h => { t with state := settleBay b (revokeLoan b cause p h t.state), loans := t.loans + 1 }
  | none =>
    match (t.state.bay b).claims.find? fun x => decide (x.port = p) with
    | some x => { t with state := settleBay b (refuseClaim b cause true x t.state), claims := t.claims + 1 }
    | none => t

/-- R46: a clean-up goes through the bays in increasing bay number. -/
def cleanLoans (cause : Cause) (p : Port) (s : State) : CleanUp :=
  allBays.foldl (cleanBay cause p) { state := s, loans := 0, claims := 0 }

end Sys2Proof.Machine
end

