-- ==== Sys2Proof/Machine/Engine.lean ====
section
/-! DEFINITION. The Drive Engine's shared operations: completions, attempt results, retries, lanes going DOWN, bay
fault and probing (R81 to R83, R88, R113 to R129, R173). -/

namespace Sys2Proof.Machine

/-! ## Completion -/

/-- R177: a context leaving ISSUED counts as completed, and a GOOD READ or WRITE adds its blocks. -/
def countCompletion (x : Context) (outcome : OpOutcome) (t : BayStats) : BayStats :=
  let t := { t with completed := satAdd t.completed 1 }
  match outcome, x.kind with
  | .good, .read => { t with blocksRead := satAdd t.blocksRead x.count }
  | .good, .write => { t with blocksWritten := satAdd t.blocksWritten x.count }
  | _, _ => t

/-- R82: a GOOD completion advances the meters of its loan. -/
def advanceMeters (x : Context) (h : Holder) : Holder :=
  match x.kind with
  | .read => { h with blocksRead := satAdd h.blocksRead x.count }
  | .write => { h with blocksWritten := satAdd h.blocksWritten x.count }
  | .sync => h

/-- R173: a METER record is produced when the sum of a loan's meters has reached the interval, and they restart. -/
def meterCheck (b : Bay) (p : Port) (s : State) : State :=
  match (s.bay b).holder p with
  | some h =>
    let interval := s.journal.meterInterval.toNat
    if 0 < interval ∧ interval ≤ h.blocksRead.toNat + h.blocksWritten.toNat then
      modHolder b p (fun h => { h with blocksRead := 0, blocksWritten := 0 })
        (appendRecord
          { note := .meter, port := some p, bay := some b, serial := h.serial, count1 := h.blocksRead,
            count2 := h.blocksWritten } s)
    else s
  | none => s

/-- R81: a context that is not trailing enters REPLY with its final outcome. That the METER record of step 4 comes before
the PLAN record of an adoption that the bay's becoming idle makes (R103) is the model's choice (log 35). -/
def completeFinal (b : Bay) (c : CtxId) (outcome : OpOutcome) (s : State) : State :=
  let x := s.ctx c
  let s := s.modLive x.port fun n => n - 1
  let s := modHolder b x.port (fun h => if h.serial = x.serial then { h with live := h.live - 1 } else h) s
  let s :=
    if outcome = .good then
      meterCheck b x.port (modHolder b x.port (fun h => if h.serial = x.serial then advanceMeters x h else h) s)
    else s
  enterReply c outcome s

/-- R83 step 4, R54, R126: the trailing count has fallen to 0; in the course of a bay fault no completion check runs. -/
def trailingGone (faulting : Bool) (b : Bay) (s : State) : State :=
  if faulting && (s.bay b).availability = .withdrawing then s else settleBay b s

/-- R83, R88: a trailing context ends with the outcome of its attempt, to REPLY, or to FREE if it is orphaned. -/
def completeTrailing (faulting : Bool) (b : Bay) (c : CtxId) (outcome : OpOutcome) (s : State) : State :=
  let x := s.ctx c
  let s := s.modCtx c fun x => { x with state := .reply, outcome := outcome }
  let s := if x.orphaned then s else s.modLive x.port fun n => n - 1
  let s := s.modBay b fun r => { r with trailing := r.trailing - 1 }
  let s := if (s.bay b).trailing = 0 then trailingGone faulting b s else s
  if x.orphaned then freeOrphan c s else enterReply c outcome s

/-- R118, R177: a context leaves its issue slot. -/
def freeSlot (b : Bay) (c : CtxId) (s : State) : State :=
  s.modDrive b fun d => { d with slots := d.slots.filter fun slot => !decide (slot.ctx = c) }

/-- R71, R88 step 4: what the Context Pool does for the other operations when a context has left the live states: the
FREE context of an orphan is handed out in turn, and a port whose wait at quota has ended is given a FREE context. It
does so before the choice that the freed slot starts, and in a bay fault before the next context is ended; both are the
model's choice (log 8). -/
def afterEnd (b : Bay) (x : Context) (s : State) : State :=
  if x.orphaned then handOutHolding (some b) s else giveAtQuota (some b) x.port s

/-- R118: a context leaves ISSUED for REPLY or FREE with an outcome. -/
def complete (faulting : Bool) (b : Bay) (c : CtxId) (outcome : OpOutcome) (s : State) : State :=
  let x := s.ctx c
  let s := freeSlot b c (s.modBayStats b (countCompletion x outcome))
  afterEnd b x
    (if x.trailing || x.orphaned then completeTrailing faulting b c outcome s else completeFinal b c outcome s)

/-! ## The retry decision -/

/-- R123 step 1: a result is retryable. -/
def retryable (policy : DrivePolicy) : AttemptResult → Bool
  | .checkFail | .noResponse | .laneError | .laneDown => true
  | .mediumError => policy.retryMedium
  | .good => false

/-- R123 step 4, R124: the outcome of an attempt result. -/
def resultOutcome : AttemptResult → OpOutcome
  | .good => .good
  | .checkFail => .checkFail
  | .mediumError => .mediumError
  | .noResponse => .noResponse
  | .laneError | .laneDown => .laneFault

/-- R122, R123 step 3: the lane of the next attempt, after an attempt on `l`. -/
def retryLane (d : DriveEngine) (attempts : Nat) (l : Lane) : Lane :=
  let wanted :=
    match if attempts ≤ 1 then d.policy.firstRetry else d.policy.secondRetry with
    | .same => l
    | .alternate => otherLane l
  if (d.lane wanted).state = .down then otherLane wanted else wanted

/-- R123 step 3: a context goes to REISSUE with its next lane and joins the tail of the reissue list. -/
def toReissue (b : Bay) (c : CtxId) (l : Lane) (s : State) : State :=
  let next := retryLane (s.drive b) (s.ctx c).attempts l
  let s := freeSlot b c (s.modBayStats b fun t => { t with retries := satAdd t.retries 1 })
  let s := s.modCtx c fun x => { x with state := .reissue, lane := some next }
  s.modService b fun v => { v with reissue := v.reissue ++ [c] }

/-- R123, R124: the attempt of a context on a lane ends with a result. -/
def endAttempt (b : Bay) (c : CtxId) (l : Lane) (result : AttemptResult) (s : State) : State :=
  let x := s.ctx c
  let policy := (s.drive b).policy
  if !(x.trailing || x.orphaned) && retryable policy result && decide (x.attempts ≤ policy.retryCount) then
    toReissue b c l s
  else complete false b c (resultOutcome result) s

/-! ## Lanes going DOWN -/

/-- R110, R119 steps 1 and 2: a lane goes DOWN with a BAY record and its event. -/
def laneFalls (b : Bay) (l : Lane) (note : BayNote) (count1 count2 : Word32) (s : State) : State :=
  let s := s.modDrive b fun d => d.modLane l fun r => { r with state := .down, probe := none }
  raiseEvent (.laneDown b l) (appendRecord (bayRecordEntry b note count1 count2) s)

/-- R172: the counts of a LANE_DOWN record: the failure counter as it was frozen, and 0. -/
def laneFallsDown (b : Bay) (l : Lane) (s : State) : State :=
  laneFalls b l (.laneDown l) (BitVec.ofNat 32 ((s.drive b).lane l).failures) 0 s

/-- R126 step 3: a context of the reissue list ends with outcome BAY_FAULTED. -/
def faultReissue (b : Bay) (s : State) (c : CtxId) : State :=
  let x := s.ctx c
  let s := s.modService b fun v => { v with reissue := v.reissue.filter fun d => !decide (d = c) }
  let s := s.modBayStats b fun t => { t with completed := satAdd t.completed 1 }
  afterEnd b x (completeFinal b c .bayFaulted s)

/-- R126 steps 2 to 4, R129: with both lanes DOWN, every ISSUED and REISSUE context ends with BAY_FAULTED, in order,
and the bay fault is handed to the Loan Manager. An operation that a port waiting at quota is given a context for on the
way, at this bay, is QUEUED when step 4 ends it (log 8). -/
def faultBay (b : Bay) (s : State) : State :=
  let s := ((s.drive b).slots.map Slot.ctx).foldl (fun s c => complete true b c .bayFaulted s) s
  faultLoans b ((s.service b).reissue.foldl (faultReissue b) s)

/-- R125: the contexts ISSUED on a lane that has gone DOWN end their attempts in the order of issue; the one that
brought the counter to the limit keeps its own result. -/
def endLaneAttempts (b : Bay) (l : Lane) (bringer : CtxId) (result : AttemptResult) (s : State) : State :=
  (((s.drive b).slots.filter fun slot => decide (slot.lane = l)).map Slot.ctx).foldl
    (fun s c => endAttempt b c l (if c = bringer then result else .laneDown) s) s

/-- R119, R125, R126: a context's failure takes its lane DOWN. -/
def laneFails (b : Bay) (l : Lane) (bringer : CtxId) (result : AttemptResult) (s : State) : State :=
  let s := laneFallsDown b l s
  if ((s.drive b).lane (otherLane l)).state = .down then faultBay b s
  else chooseAll b (endLaneAttempts b l bringer result s)

/-- R177: NO_RESPONSE counts against a lane. -/
def countNoResponse (b : Bay) (l : Lane) (s : State) : State :=
  s.modBayStats b fun t =>
    match l with
    | .a => { t with noResponseA := satAdd t.noResponseA 1 }
    | .b => { t with noResponseB := satAdd t.noResponseB 1 }

/-- R177: LANE_ERROR counts against a lane. -/
def countLaneError (b : Bay) (l : Lane) (s : State) : State :=
  s.modBayStats b fun t =>
    match l with
    | .a => { t with laneErrorA := satAdd t.laneErrorA 1 }
    | .b => { t with laneErrorB := satAdd t.laneErrorB 1 }

/-- R118, R119: a failure of the lane is counted; at the lane fail limit the lane goes DOWN. -/
def laneFailure (b : Bay) (l : Lane) (c : CtxId) (result : AttemptResult) (s : State) : State :=
  let s := s.modDrive b fun d => d.modLane l fun r => { r with failures := r.failures + 1 }
  if (s.drive b).policy.failLimit ≤ ((s.drive b).lane l).failures then laneFails b l c result s
  else chooseAll b (endAttempt b c l result s)

/-- R118: the lane answered correctly; its failure counter becomes 0, and the attempt ends. -/
def laneAnswered (b : Bay) (l : Lane) (c : CtxId) (result : AttemptResult) (s : State) : State :=
  let s := s.modDrive b fun d => d.modLane l fun r => { r with failures := 0 }
  chooseAll b (endAttempt b c l result s)

/-- R118: an attempt result is taken: it acts on the lane first, and then the context leaves ISSUED. -/
def takeResult (b : Bay) (l : Lane) (c : CtxId) (result : AttemptResult) (s : State) : State :=
  match result with
  | .good | .checkFail | .mediumError => laneAnswered b l c result s
  | .noResponse => laneFailure b l c result (countNoResponse b l s)
  | .laneError => laneFailure b l c result (countLaneError b l s)
  | .laneDown => chooseAll b (endAttempt b c l result s)

/-- R111, R121: the result of a GOOD answer to a READ that carries `sectors`, and the state with the buffer filled and
the mismatches counted. -/
def readResult (b : Bay) (c : CtxId) (sectors : List Sector) (s : State) : AttemptResult × State :=
  let x := s.ctx c
  if sectors.length ≠ x.count then (.laneError, s)
  else
    let s := s.modCtx c fun x => { x with data := (sectors.map Sector.data).flatten }
    let n := mismatchCount x.block 0 sectors
    let counted := s.modBayStats b fun t => { t with checkMismatches := satAdd t.checkMismatches n }
    match (s.drive b).policy.checkMode with
    | .off => (.good, s)
    | .enforce => (if n = 0 then .good else .checkFail, counted)
    | .report =>
      (.good, if n = 0 then counted else counted.modCtx c fun x => { x with checkWarn := true })

/-! ## Probing -/

/-- R113, R128: a PROBE is sent on a lane, which becomes PROBING; its probe number is stepped by 1 (R111). -/
def sendProbe (b : Bay) (l : Lane) (clear : Bool) (s : State) : State :=
  let deadline := s.after Config.probeTimeoutMs
  s.modDrive b fun d => d.modLane l fun r =>
    { r with
      state := .probing, probe := some { clear := clear, deadline := deadline }, number := r.number + 1,
      sent := some (.probe (r.number + 1) clear Config.probeWorkLimitMs) }

/-- R113: probing of a bay starts. -/
def startProbing (b : Bay) (s : State) : State :=
  let s := s.modDrive b fun d => { d with slots := [], learnt := none }
  let s := s.modBay b fun r => { r with capacity := 0 }
  sendProbe b .b true (sendProbe b .a true s)

/-- R115: probing ends when both lanes are resolved. -/
def probingCheck (b : Bay) (s : State) : State :=
  let d := s.drive b
  if d.laneA.state = .probing ∨ d.laneB.state = .probing then s
  else
    let anyUp := decide (d.laneA.state = .up) || decide (d.laneB.state = .up)
    let s := s.modDrive b fun d =>
      (d.modLane .a fun r => { r with failures := 0 }).modLane .b fun r => { r with failures := 0 }
    let s := if anyUp then s.modBay b fun r => { r with capacity := d.learnt.getD 0 } else s
    probingResult b anyUp s

/-- A lane becomes UP; its probe is resolved (R114, R129). -/
def laneRises (b : Bay) (l : Lane) (s : State) : State :=
  s.modDrive b fun d => d.modLane l fun r => { r with state := .up, probe := none }

/-- R114: a GOOD answer to a CLEAR probe resolves its lane by the capacity it carries. -/
def probeGood (b : Bay) (l : Lane) (capacity : Word48) (s : State) : State :=
  if capacity = 0 then laneFallsDown b l s
  else
    match (s.drive b).learnt with
    | none => laneRises b l (s.modDrive b fun d => { d with learnt := some capacity })
    | some c =>
      if c = capacity then laneRises b l s
      else laneFalls b l (.mismatch l) (capacityHigh capacity) (capacityLow capacity) s

/-- R129: a restored lane goes back to DOWN; with both lanes DOWN the bay faults. -/
def restoreFails (b : Bay) (l : Lane) (s : State) : State :=
  if ((s.drive b).lane (otherLane l)).state = .down then faultBay b s else s

/-- R129: a GOOD answer to a restored lane's probe. -/
def restoreGood (b : Bay) (l : Lane) (capacity : Word48) (s : State) : State :=
  if capacity = (s.bay b).capacity then
    let s := laneRises b l (s.modDrive b fun d => d.modLane l fun r => { r with failures := 0 })
    chooseAll b (appendRecord (bayRecordEntry b (.laneUp l) 0 0) s)
  else restoreFails b l (laneFalls b l (.mismatch l) (capacityHigh capacity) (capacityLow capacity) s)

end Sys2Proof.Machine
end

