-- ==== Sys2Proof/Machine/Presence.lean ====
section
/-! DEFINITION. A port's clean-up, the two resets as shared operations, and what an accepted frame does: acceptance,
HELLO, BEAT, PATTERN and entry to the Intake Queue (R135, R136, R149, R155 to R166, R190, R191). -/

namespace Sys2Proof.Machine

/-! ## Soft reset -/

/-- A receiver that restarts at the next start mark: the rest of a frame under way is ignored (R149, R150, R191). -/
def restartReceiver : Receiver → Receiver
  | .idle => .idle
  | .receiving _ => .ignoring
  | .ignoring => .ignoring

/-- R152, soft-reset column. -/
def softPort (n : NodePort) : NodePort :=
  { n with
    receiver := restartReceiver n.receiver, silent := true, intake := [], reserved := false, hold := .isOpen,
    repeatCount := 0, holdTimer := none, flowSlot := none, answers := [], notices := [], eventNews := false,
    tx := none }

/-- R169, soft-reset column. -/
def softPresence (m : Presence) : Presence :=
  { m with
    state := if m.enabled then .new else .off, beatTimer := none, miss := 0, lastBeat := none, early := 0,
    earlyFrozen := false, patternError := false }

/-- R35, R62: a bay record after a soft reset. -/
def softBay (r : BayRecord) : BayRecord :=
  { availability := .probing, holders := Vector.replicate 8 none, claims := [], phase := .none,
    patienceTimer := none, subject := none, recallTimer := none, trailing := 0, capacity := 0,
    patienceTime := r.patienceTime, recallTime := r.recallTime }

/-- R89: the Context Pool after either reset, with the quotas given. -/
def emptyPool (quota : Vector Nat 8) : Pool :=
  { contexts := Vector.replicate 64 {}, live := byPort fun _ => 0, quota := quota, replies := byPort fun _ => [],
    lastGranted := 7, admitted := 0 }

/-- R107, R108: a Bay Service Unit after either reset, serving by a bank. -/
def emptyService (bank : Bank) (weights : Vector (Fin 16) 8) : Service :=
  { lists := byPort fun _ => [], reissue := [], credits := byPort fun p => (weights[p]).val, bank := bank,
    lastServed := 7 }

/-- R131: a Drive Engine after either reset, before probing starts. The probe number goes on (R111). -/
def emptyDrive (policy : DrivePolicy) (d : DriveEngine) : DriveEngine :=
  { laneA := { d.laneA with state := .probing, failures := 0, probe := none },
    laneB := { d.laneB with state := .probing, failures := 0, probe := none },
    slots := [], learnt := none, policy := policy }

/-- R113: probing starts at every bay. -/
def startAllProbing (s : State) : State := allBays.foldl (fun s b => startProbing b s) s

/-- R191 steps 1 and 2: every block takes its soft-reset values. -/
def softValues (s : State) : State :=
  { s with
    bays := byBay fun b => softBay s.bays[b]
    pool := emptyPool s.pool.quota
    services := byBay fun b => emptyService s.plan.current ((s.plan.bank s.plan.current)[b])
    plan := { s.plan with swapPending := false }
    drives := byBay fun b => emptyDrive (s.drives[b]).policy s.drives[b]
    ports := byPort fun p => softPort s.ports[p]
    presences := byPort fun p => softPresence s.presences[p]
    portStats := byPort fun _ => {}
    bayStats := byBay fun _ => {}
    softReset := none }

/-- R191 step 4, R179: the RESET record SOFT, and JOURNAL_HIGH when the ring stands at 384 records or more after it. -/
def softRecord (first : Port) (s : State) : State :=
  let s := appendRecord { note := .reset .soft, port := some first } s
  if Config.journalHigh ≤ s.journal.ring.length then raiseEvent .journalHigh s else s

/-- R191: the soft reset, carrying the port of the RESET_PART that was taken first. -/
def performSoftReset (first : Port) (s : State) : State :=
  startAllProbing (softRecord first (driveAlert { softValues s with raised := 0 }))

/-- R191: the RESET_PART answer of a port stands in its Answer Queue or is being sent. -/
def resetAnswerHeld (n : NodePort) : Bool :=
  n.answers.any Answer.resetPart ||
    (match n.tx with
      | some { source := .answer r, .. } => r
      | _ => false)

/-- R191: the answer to the RESET_PART that was taken first is no longer held: it has left or has been removed. Of a
later requester's answer the rule names its departure alone as a start of the reset (log 9). -/
def resetAnswerGone (s : State) (r : SoftPending) : Bool := !resetAnswerHeld (s.port r.first)

/-- R191: a pending soft reset starts. -/
def startPending (s : State) : State :=
  match s.softReset with
  | some r => performSoftReset r.first s
  | none => s

/-- R191: a pending soft reset starts in the event that ends a clean-up by which the first requester's RESET_PART answer
has been removed. -/
def startIfAnswerGone (s : State) : State :=
  match s.softReset with
  | some r => if resetAnswerGone s r then performSoftReset r.first s else s
  | none => s

/-! ## Hard reset -/

/-- R152, hard-reset column. -/
def hardPort (role : Role) (limits : PortLimits) (carrier : Carrier) : NodePort :=
  { carrier := carrier, receiver := .idle, silent := true, intake := [], reserved := false, hold := .isOpen,
    repeatCount := 0, holdTimer := none, flowSlot := none, answers := [], notices := [], eventNews := false, tx := none,
    highWater := limits.highWater, lowWater := limits.lowWater, holdTime := limits.holdTime,
    repeatLimit := limits.repeatLimit, role := role }

/-- R169, hard-reset column. -/
def hardPresence (enabled : Bool) (limits : PortLimits) : Presence :=
  { state := if enabled then .new else .off, enabled := enabled, beatTimer := none, miss := 0, lastBeat := none,
    early := 0, earlyFrozen := false, patternError := false, window := limits.window, missLimit := limits.missLimit,
    earlyLimit := limits.earlyLimit }

/-- R34, R62: a bay record after a hard reset. -/
def hardBay (t : BayPolicy) : BayRecord :=
  { availability := .probing, holders := Vector.replicate 8 none, claims := [], phase := .none,
    patienceTimer := none, subject := none, recallTimer := none, trailing := 0, capacity := 0,
    patienceTime := t.patienceTime, recallTime := t.recallTime }

/-- R190 steps 1, 2 and 4: every block takes its hard-reset values from the settings. -/
def hardValues (t : Settings) (s : State) : State :=
  { phase := .running
    now := s.now
    timeTag := { value := 0, resolution := t.resolution, elapsed := 0 }
    bays := byBay fun b => hardBay t.policies[b]
    nextSerial := 1
    exhausted := false
    access := t.access
    pool := emptyPool (byPort fun p => (t.limits[p]).quota)
    services := byBay fun b => emptyService .a t.bankA[b]
    plan := { bankA := t.bankA, bankB := t.bankA, current := .a, swapPending := false }
    drives := byBay fun b => emptyDrive (t.policies[b]).drive s.drives[b]
    ports := byPort fun p => hardPort (t.roles[p]).1 t.limits[p] (s.ports[p]).carrier
    presences := byPort fun p => hardPresence (t.roles[p]).2 t.limits[p]
    journal := { ring := [], seq := 0, lost := 0, meterInterval := t.meterInterval }
    portStats := byPort fun _ => {}
    bayStats := byBay fun _ => {}
    raised := 0
    enabled := t.enabled
    alert := false
    softReset := none
    pending := s.pending }

/-- R190: the hard reset's one event, when the Configuration Loader has read the image. -/
def performHardReset (r : LoadResult) (s : State) : State :=
  let s := hardValues r.settings s
  let s := if r.fault then raiseEvent .configFault s else s
  startAllProbing (appendRecord { note := .reset .hard } s)

/-! ## Port clean-up -/

/-- R149: what the Node Port does at a clean-up. -/
def cleanPort (n : NodePort) : NodePort :=
  { n with
    intake := [], reserved := false, answers := [], notices := [], flowSlot := none, holdTimer := none,
    repeatCount := 0, hold := .isOpen, eventNews := false, receiver := restartReceiver n.receiver }

/-- R87 step 1: an ISSUED context of the port is orphaned. -/
def orphanContext (p : Port) (s : State) (c : CtxId) : State :=
  if (s.ctx c).state = .issued && (s.ctx c).port = p && !(s.ctx c).orphaned then
    (s.modCtx c fun x => { x with orphaned := true }).modLive p fun n => n - 1
  else s

/-- R87 step 2: a context of the Reply List becomes FREE as a lost reply. -/
def loseReply (p : Port) (s : State) (c : CtxId) : State :=
  freeContext c (s.modPortStats p fun t => { t with repliesLost := satAdd t.repliesLost 1 })

/-- R87: a clean-up at the Context Pool. -/
def cleanContexts (p : Port) (s : State) : State :=
  let s := allContexts.foldl (orphanContext p) s
  let lost := s.replies p
  handOut (lost.foldl (loseReply p) (s.modReplies p fun _ => []))

/-- R149, R46, R87: a port clean-up at the Node Port, the Loan Manager and the Context Pool, in this order. -/
def cleanUp (cause : Cause) (p : Port) (s : State) : CleanUp :=
  let t := cleanLoans cause p (s.modPort p cleanPort)
  { t with state := cleanContexts p t.state }

/-- R172: a PORT record with the loans revoked and the claims removed. -/
def portRecord (p : Port) (note : PortNote) (loans claims : Nat) : Entry :=
  { note := .port note, port := some p, count1 := BitVec.ofNat 32 loans, count2 := BitVec.ofNat 32 claims }

/-- R159, R163: no EVENT frame is owed to a port that has lapsed or is disabled. An event that steps 3 and 4 of the
clean-up raise while the port is still ACTIVE sets the flag again after step 2 has cleared it (R186); that it is clear
when the port has left ACTIVE is the model's choice (log 32). -/
def dropNews (p : Port) (s : State) : State := s.modPort p fun n => { n with eventNews := false }

/-- R159: a port lapses. -/
def lapse (p : Port) (s : State) : State :=
  let t := cleanUp .lapse p (s.modPresence p fun m => { m with beatTimer := none })
  let s := dropNews p (t.state.modPresence p fun m => { m with state := .lapsed })
  raiseEvent (.portLapsed p) (appendRecord (portRecord p .lapse t.loans t.claims) s)

/-- R163: the clean-up of a port that is disabled. -/
def disable (p : Port) (s : State) : State :=
  let t := cleanUp .disabled p (s.modPresence p fun m => { m with beatTimer := none })
  let s := dropNews p (t.state.modPresence p fun m => { m with state := .off, enabled := false })
  appendRecord (portRecord p .disable t.loans t.claims) s

/-! ## HELLO -/

/-- R155: a HELLO whose fields other than its tag are zero, without payload. -/
def helloOk (f : FrameFields) : Bool :=
  f.flags = 0 && f.bay = 0 && f.arg = 0 && f.count = 0 && f.serial = 0 && f.block = 0 && decide (f.payload = [])

/-- R155 step 5, R194: the OK answer to a HELLO. -/
def helloAnswer (s : State) (p : Port) (f : FrameFields) (loans : Nat) : OutFrame :=
  { kind := .answer, status := .ok, tag := f.tag,
    detail := detailOf ([byte loans, roleCode (s.port p).role] ++ bytesOf 2 (s.presence p).window ++
      [byte (s.presence p).missLimit]) }

/-- R155 step 2 and 3, R156 step 4: counters cleared, last-beat time none, beat timer started. -/
def startBeats (p : Port) (s : State) : State :=
  s.modPresence p fun m =>
    { m with
      miss := 0, early := 0, earlyFrozen := false, lastBeat := none, beatTimer := some (s.after m.window) }

/-- R155 step 6: a supervisor admitted while an enabled event is raised is owed an EVENT frame. -/
def oweNews (p : Port) (s : State) : State :=
  if (s.port p).role = .supervisor && shareEvent s.raised s.enabled then
    s.modPort p fun n => { n with eventNews := true }
  else s

/-- R155: a HELLO admits a NEW or LAPSED port. -/
def admitPort (p : Port) (f : FrameFields) (s : State) : State :=
  let s := startBeats p (s.modPresence p fun m => { m with state := .active })
  let s := appendRecord (portRecord p .admission 0 0) s
  oweNews p (placeAnswer p { frame := helloAnswer s p f 0 } s)

/-- R156: a HELLO at an ACTIVE port ends everything the old node held. -/
def rehello (p : Port) (f : FrameFields) (s : State) : State :=
  let t := cleanUp .rehello p s
  let s := appendRecord (portRecord p .rehello t.loans t.claims) (startBeats p t.state)
  oweNews p (placeAnswer p { frame := helloAnswer s p f t.loans } s)

/-- R155, R156: the FORMAT answer to a malformed HELLO. -/
def helloFormat (p : Port) (f : FrameFields) (s : State) : State :=
  placeAnswer p { frame := { kind := .answer, status := .format, tag := f.tag } } s

/-- R140, R155 to R157: the Presence Monitor takes a HELLO. -/
def takeHello (p : Port) (f : FrameFields) (s : State) : State :=
  match (s.presence p).state with
  | .off | .test => s
  | .active =>
    if helloOk f then startIfAnswerGone (rehello p f s)
    else if freeEntries (s.port p) = 0 then s else helloFormat p f s
  | .new | .lapsed =>
    if freeEntries (s.port p) = 0 then s
    else if helloOk f then admitPort p f s
    else helloFormat p f s

/-! ## BEAT and PATTERN -/

/-- R161: a BEAT comes less than W × 250 µs after the one before. -/
def beatEarly (m : Presence) (now : Nat) : Bool :=
  match m.lastBeat with
  | some t => decide (now - t < m.window * 250)
  | none => false

/-- R161: the Presence Monitor takes a BEAT at an ACTIVE port. -/
def takeBeat (p : Port) (s : State) : State :=
  let m := s.presence p
  let s' := s.modPresence p fun m => { m with lastBeat := some s.now }
  if m.state ≠ .active then s
  else if beatEarly m s.now && !m.earlyFrozen then
    let early := satByte m.early
    if 0 < m.earlyLimit ∧ m.earlyLimit ≤ early then
      raiseEvent (.beatErratic p) (s'.modPresence p fun m => { m with early := early, earlyFrozen := true })
    else s'.modPresence p fun m => { m with early := early }
  else s'

/-- R166: the Presence Monitor compares a PATTERN frame at a TEST port. -/
def takePattern (p : Port) (f : FrameFields) (s : State) : State :=
  if patternMatches f then s
  else
    (s.modPresence p fun m => { m with patternError := true }).modPortStats p fun t =>
      { t with mismatches := satAdd t.mismatches 1 }

/-! ## Acceptance -/

/-- R136: an accepted frame enters the Intake Queue at the tail, or overruns it. -/
def enterIntake (p : Port) (f : InFrame) (s : State) : State :=
  let n := s.port p
  if n.intake.length + 1 ≤ Config.intakeFrames ∧ occupancy n.intake + frameLength f ≤ Config.intakeBytes then
    s.modPort p fun n => flowAct { n with intake := n.intake ++ [f] }
  else
    raiseEvent (.intakeOverrun p) (s.modPortStats p fun t => { t with overruns := satAdd t.overruns 1 })

/-- R158: a sign of life restarts the beat timer of an ACTIVE port and clears its miss counter. -/
def signOfLife (p : Port) (s : State) : State :=
  s.modPresence p fun m =>
    if m.state = .active then { m with miss := 0, beatTimer := some (s.after m.window) } else m

/-- R135: what every accepted frame does, of every kind, in every state other than OFF. -/
def noteAccepted (p : Port) (s : State) : State :=
  let s := s.modPort p fun n => { n with silent := false }
  signOfLife p (s.modPortStats p fun t => { t with accepted := satAdd t.accepted 1 })

/-- R135: an accepted frame goes where its kind and the port state send it. -/
def routeFrame (p : Port) (f : InFrame) (s : State) : State :=
  match (s.presence p).state with
  | .off => s
  | .test => if f.kind = kindPattern then takePattern p f.fields s else s
  | .new | .active | .lapsed =>
    if f.kind = kindHello then takeHello p f.fields s
    else if f.kind = kindBeat then takeBeat p s
    else enterIntake p f s

/-- R134, R135: a frame whose length and check value are right is accepted, unless the port is OFF. -/
def acceptFrame (p : Port) (f : InFrame) (s : State) : State :=
  if (s.presence p).state = .off then s else routeFrame p f (noteAccepted p s)

end Sys2Proof.Machine
end

