-- ==== Sys2Proof/Machine/Serve.lean ====
section
/-! DEFINITION. How a command takes its event: the intake head a request row serves, the checks that every management
request passes first, and the events that reach a running part (R138, R180, R190). -/

namespace Sys2Proof.Machine

/-- The outcome type of every meaning. -/
abbrev Result := Host.Outcome State Fault Refusal

/-- R190: an event reaches the blocks only while the part runs; during a hard reset it is discarded. After the event
every idle Port Transmitter takes what has been posted to it (R146). -/
def whenRunning (s : State) (event : State → State) : Result :=
  if s.phase = .running then .next (transmit (event s)) else .next s

/-- R138: the Request Handler of a port serves its head, if it can take it now and it is of the kind that the row
names; otherwise the event does not occur and nothing changes. -/
def serveHead (p : Port) (names : InFrame → Bool) (event : FrameFields → State → State) (s : State) : Result :=
  match servedHead s p with
  | some f => if names f then .next (transmit (event f.fields s)) else .next s
  | none => .next s

/-- R138: the head is of a kind. -/
def ofKind (kind : Byte) (f : InFrame) : Bool := f.kind = kind

/-- R138, R180: the head is a MANAGE frame of a sub-kind. -/
def ofSubKind (sub : SubKind) (f : InFrame) : Bool := f.kind = kindManage && f.fields.arg = subKindCode sub

/-- R180: the checks before any check of a management request's own: the status of the first that fails. -/
def manageRefusal (s : State) (p : Port) (f : FrameFields) : Option Status :=
  match portRefusal s p with
  | some status => some status
  | none =>
    if (s.port p).role ≠ .supervisor then some .notPermitted
    else if !isSubKind f.arg || f.flags ≠ 0 then some .format
    else none

/-- R180: a management request at the head is refused by the first check that fails, or passed to its block. -/
def serveManage (p : Port) (sub : SubKind) (request : FrameFields → State → State) (s : State) : Result :=
  serveHead p (ofSubKind sub)
    (fun f s =>
      match manageRefusal s p f with
      | some status => refuseHead p f status s
      | none => request f s) s

/-- R180: the OK answer of a management request, with nothing beyond its header. -/
def okHead (p : Port) (f : FrameFields) (s : State) : State := answerHead p (answerTo f .ok) s

/-- R194: the OK answer with detail bytes. -/
def okDetail (p : Port) (f : FrameFields) (detail : List Byte) (s : State) : State :=
  answerHead p { answerTo f .ok with detail := detailOf detail } s

/-- R195: the OK answer with a payload. -/
def okPayload (p : Port) (f : FrameFields) (payload : List Byte) (s : State) : State :=
  answerHead p { answerTo f .ok with payload := payload } s

end Sys2Proof.Machine
end

