-- ==== Sys2Proof/Machine/Drives.lean ====
section
/-! DEFINITION. The drive's answers and the Drive Engine's timers (R111, R114, R117, R118, R129). -/

namespace Sys2Proof.Machine

/-! ## Probes -/

/-- R111: an answer that cannot be read is discarded. -/
def probeReadable : ProbeReply → Bool
  | .good _ => true
  | .mediumError => true
  | .laneError => true
  | .unreadable => false

/-- R111: the PROBE outstanding on a lane, if an answer with this probe number names it. -/
def namedProbe (s : State) (b : Bay) (l : Lane) (number : Nat) : Option Probe :=
  let r := (s.drive b).lane l
  if r.number = number then r.probe else none

/-- R114: an answer to a CLEAR probe resolves its lane. -/
def probeResolved (b : Bay) (l : Lane) (reply : ProbeReply) (s : State) : State :=
  match reply with
  | .good capacity => probeGood b l capacity s
  | .mediumError => laneFallsDown b l s
  | .laneError => laneFallsDown b l (countLaneError b l s)
  | .unreadable => s

/-- PROBE_ANSWER (R114): an answer that names the outstanding CLEAR probe; any other is discarded (R111). -/
def execProbeAnswer (b : Bay) (l : Lane) (number : Nat) (reply : ProbeReply) (s : State) : Result :=
  match namedProbe s b l number with
  | some probe =>
    if probe.clear && probeReadable reply then
      whenRunning s fun s => handOut (probingCheck b (probeResolved b l reply s))
    else .next s
  | none => .next s

/-- R129: an answer to a restored lane's probe resolves it. -/
def restoreResolved (b : Bay) (l : Lane) (reply : ProbeReply) (s : State) : State :=
  match reply with
  | .good capacity => restoreGood b l capacity s
  | .mediumError => restoreFails b l (laneFallsDown b l s)
  | .laneError => restoreFails b l (laneFallsDown b l (countLaneError b l s))
  | .unreadable => s

/-- RESTORE_PROBE_ANSWER (R129): an answer that names the outstanding plain probe; any other is discarded (R111). -/
def execRestoreProbeAnswer (b : Bay) (l : Lane) (number : Nat) (reply : ProbeReply) (s : State) : Result :=
  match namedProbe s b l number with
  | some probe =>
    if !probe.clear && probeReadable reply then whenRunning s fun s => handOut (restoreResolved b l reply s)
    else .next s
  | none => .next s

/-- R114, R129: the response timer of a probe has expired. -/
def probeExpired (b : Bay) (l : Lane) (clear : Bool) (s : State) : State :=
  let s := laneFallsDown b l (countNoResponse b l s)
  if clear then probingCheck b s else restoreFails b l s

/-- PROBE_TIMER_EXPIRY (R114, R129): a running probe timer whose time has passed expires; else nothing happens. -/
def execProbeTimerExpiry (b : Bay) (l : Lane) (s : State) : Result :=
  match ((s.drive b).lane l).probe with
  | some probe =>
    if probe.deadline ≤ s.now then whenRunning s fun s => handOut (probeExpired b l probe.clear s) else .next s
  | none => .next s

/-! ## Attempts -/

/-- R111: the issue slot that an answer on a lane names by context and attempt number. -/
def namedSlot (s : State) (b : Bay) (l : Lane) (c : CtxId) (attempt : Nat) : Option Slot :=
  (s.drive b).slots.find? fun slot =>
    decide (slot.ctx = c) && decide (slot.lane = l) && decide (slot.attempt = attempt)

/-- R111: every sector of an answer has the size of a block. -/
def sectorsReadable (sectors : List Sector) : Bool :=
  sectors.all fun x => decide (x.data.length = Config.blockBytes)

/-- R118: the result of an answer, and the state with a READ's blocks taken and checked (R121). -/
def answerResult (b : Bay) (c : CtxId) (reply : DriveReply) (s : State) : Option (AttemptResult × State) :=
  match reply with
  | .good sectors =>
    match (s.ctx c).kind with
    | .read => if sectorsReadable sectors then some (readResult b c sectors s) else none
    | .write | .sync => some (.good, s)
  | .mediumError => some (.mediumError, s)
  | .laneError => some (.laneError, s)
  | .unreadable => none

/-- DRIVE_ANSWER (R118): an answer that names a command outstanding on the lane; any other is discarded (R111). A port
whose wait at quota the completion ends receives its FREE context before the choice that the freed slot starts (R71,
R99): the model's choice (log 8). -/
def execDriveAnswer (b : Bay) (l : Lane) (c : CtxId) (attempt : Nat) (reply : DriveReply) (s : State) : Result :=
  match namedSlot s b l c attempt with
  | some _ =>
    match answerResult b c reply s with
    | some (result, s') =>
      if s.phase = .running then .next (transmit (handOut (takeResult b l c result s'))) else .next s
    | none => .next s
  | none => .next s

/-- R117: the issue slot of a context whose response timer may expire now. -/
def expiredSlot (s : State) (b : Bay) (c : CtxId) : Option Slot :=
  (s.drive b).slots.find? fun slot => decide (slot.ctx = c) && decide (slot.deadline ≤ s.now)

/-- RESPONSE_TIMER_EXPIRY (R117): a running response timer whose time has passed expires; else nothing happens. The
order of hand-outs and choices is that of DRIVE_ANSWER (log 8). -/
def execResponseTimerExpiry (b : Bay) (c : CtxId) (s : State) : Result :=
  match expiredSlot s b c with
  | some slot => whenRunning s fun s => handOut (takeResult b slot.lane c .noResponse s)
  | none => .next s

end Sys2Proof.Machine
end

