-- ==== Sys2Proof/Machine/Links.lean ====
section
/-! DEFINITION. The node links: carrier, receiving, the frames handled at arrival, sending, and the beat and hold timers
(R133 to R136, R142, R143, R146, R155 to R161, R166). -/

namespace Sys2Proof.Machine

/-! ## Carrier -/

/-- R133: carrier goes from UP to DOWN. -/
def loseCarrier (p : Port) (s : State) : State :=
  (s.modPort p fun n => { n with carrier := .down, receiver := .idle, silent := true }).modPortStats p fun t =>
    { t with carrierDrops := satAdd t.carrierDrops 1 }

/-- CARRIER_DOWN (R133). During a hard reset the report is kept and nothing is counted (R152, R190). -/
def execCarrierDown (p : Port) (s : State) : Result :=
  if (s.port p).carrier = .down then .next s
  else if s.phase = .running then .next (transmit (loseCarrier p s))
  else .next (s.modPort p fun n => { n with carrier := .down })

/-- CARRIER_UP (R133): the Port Transmitter resumes; a frame in transmission is sent again whole (R146). -/
def execCarrierUp (p : Port) (s : State) : Result :=
  let s' := s.modPort p fun n => { n with carrier := .up }
  if (s.port p).carrier = .up then .next s
  else if s.phase = .running then .next (transmit s')
  else .next s'

/-! ## Receiving -/

/-- The bytes in the receive buffer. -/
def received : Receiver → List Byte
  | .receiving bytes => bytes
  | .idle => []
  | .ignoring => []

/-- R134: a discarded frame is counted, unless the port is OFF. -/
def countDiscard (p : Port) (f : PortStats → PortStats) (s : State) : State :=
  if (s.presence p).state = .off then s else s.modPortStats p f

/-- R134: the checks of a frame whose end mark has arrived, and what follows from them. -/
def endFrame (p : Port) (bytes : List Byte) (s : State) : State :=
  match judgeFrame bytes with
  | .overLength => countDiscard p (fun t => { t with lengthDiscards := satAdd t.lengthDiscards 1 }) s
  | .checkDiscard => countDiscard p (fun t => { t with checkDiscards := satAdd t.checkDiscards 1 }) s
  | .accepted f => acceptFrame p f s

/-- FRAME_RECEIVE (R134): the last bytes of a frame and its end mark arrive. -/
def execFrameReceive (p : Port) (bytes : List Byte) (s : State) : Result :=
  if (s.port p).carrier = .down then .next s
  else
    whenRunning s fun s =>
      let idle := s.modPort p fun n => { n with receiver := .idle }
      match (s.port p).receiver with
      | .ignoring => idle
      | r => endFrame p (received r ++ bytes) idle

/-- OVER_LENGTH_CUT (R134): bytes of a frame arrive, and the length watchdog cuts a frame that passes its length. -/
def execOverLengthCut (p : Port) (bytes : List Byte) (s : State) : Result :=
  if (s.port p).carrier = .down then .next s
  else
    whenRunning s fun s =>
      match (s.port p).receiver with
      | .ignoring => s
      | r =>
        if passesLength (received r ++ bytes) then
          countDiscard p (fun t => { t with lengthDiscards := satAdd t.lengthDiscards 1 })
            (s.modPort p fun n => { n with receiver := .ignoring })
        else s.modPort p fun n => { n with receiver := .receiving (received r ++ bytes) }

/-- R134, R135: a frame whose length and check value are right has arrived whole at a port. At a receiver that holds
part of a frame, or ignores the rest of one, the start mark of this frame ends that one, which is dropped without being
counted: the model's choice (log 13). -/
def arrive (p : Port) (kind : Byte) (f : FrameFields) (s : State) : Result :=
  if (s.port p).carrier = .down then .next s
  else
    whenRunning s fun s =>
      acceptFrame p { kind := kind, fields := f } (s.modPort p fun n => { n with receiver := .idle })

/-- HELLO (R155 to R157). -/
def execHello (p : Port) (f : FrameFields) (s : State) : Result := arrive p kindHello f s

/-- BEAT (R161). -/
def execBeat (p : Port) (f : FrameFields) (s : State) : Result := arrive p kindBeat f s

/-- PATTERN (R166). -/
def execPattern (p : Port) (f : FrameFields) (s : State) : Result := arrive p kindPattern f s

/-! ## Sending -/

/-- R142: a HOLD's last byte has left: it is counted, and the hold timer starts if the state is still HELD. That it
starts too where the hold of that frame has ended and a later one has made the state HELD again, with its own HOLD
unsent, is the model's choice (log 33). -/
def holdSent (p : Port) (s : State) : State :=
  (s.modPort p fun n =>
      if n.hold = .held then { n with holdTimer := some (s.after n.holdTime.toNat) } else n).modPortStats p fun t =>
    { t with holdsSent := satAdd t.holdsSent 1 }

/-- R146: what the last byte of a frame does, by the frame's source. R191: the departure of a RESET_PART answer, of the
port that asked first or of one that asked later, starts the pending soft reset. -/
def frameLeft (p : Port) (source : TxSource) (s : State) : State :=
  match source with
  | .hold => holdSent p s
  | .resume => s
  | .answer reset => if reset then startPending s else s
  | .notice => s
  | .event => s
  | .reply c => handOut (freeContext c s)

/-- FRAME_SENT (R146): the last byte of the frame in transmission leaves; carrier DOWN pauses the Port Transmitter. -/
def execFrameSent (p : Port) (s : State) : Result :=
  match (s.port p).tx with
  | some t =>
    if (s.port p).carrier = .down then .next s
    else whenRunning s fun s => frameLeft p t.source (s.modPort p fun n => { n with tx := none })
  | none => .next s

/-! ## The port's timers -/

/-- R143: the hold timer has expired. -/
def holdExpired (n : NodePort) : NodePort :=
  let n := { n with holdTimer := none }
  if n.lowWater * Config.waterUnit < occupancy n.intake then
    if n.repeatCount < n.repeatLimit then
      { n with flowSlot := some (.hold n.holdTime), repeatCount := n.repeatCount + 1 }
    else { n with hold := .spent }
  else flowEnd n

/-- HOLD_TIMER_EXPIRY (R143): a running hold timer whose time has passed expires; else nothing happens. -/
def execHoldTimerExpiry (p : Port) (s : State) : Result :=
  if timerDue (s.port p).holdTimer s.now then whenRunning s fun s => s.modPort p holdExpired else .next s

/-- R158, R159: the beat timer has expired: the miss counter rises, the timer restarts, and at the miss limit the port
lapses. -/
def beatExpired (p : Port) (s : State) : State :=
  let s := s.modPresence p fun m => { m with miss := satByte m.miss, beatTimer := some (s.after m.window) }
  if 0 < (s.presence p).missLimit ∧ (s.presence p).missLimit ≤ (s.presence p).miss then
    startIfAnswerGone (lapse p s)
  else s

/-- BEAT_TIMER_EXPIRY (R158): a running beat timer whose time has passed expires; else nothing happens. -/
def execBeatTimerExpiry (p : Port) (s : State) : Result :=
  if timerDue (s.presence p).beatTimer s.now then whenRunning s (beatExpired p) else .next s

end Sys2Proof.Machine
end

