-- ==== Sys2Proof/Machine/Loans.lean ====
section
/-! DEFINITION. CLAIM, CANCEL, RELEASE and the two loan timers of a bay (R14 to R18, R26, R28 to R30, R38). -/

namespace Sys2Proof.Machine

/-! ## CLAIM -/

/-- R14 step 2: the flags hold NOWAIT or nothing, and count, serial and block are zero. -/
def claimFieldsOk (f : FrameFields) : Bool :=
  (f.flags = 0 || f.flags = 1) && f.count = 0 && f.serial = 0 && f.block = 0

/-- R15: a claim is granted at once. -/
def grantsAtOnce (s : State) (b : Bay) (mode : Mode) : Bool :=
  decide ((s.bay b).claims = []) && decide ((s.bay b).availability = .inService) &&
    decide ((s.bay b).trailing = 0) && modeFits (s.bay b).loanMode mode

/-- R15: the grant at once, with its news in the ANSWER. -/
def claimGranted (p : Port) (f : FrameFields) (b : Bay) (mode : Mode) (s : State) : State :=
  answerHead p { answerTo f .granted with serial := s.nextSerial } (patienceCheck b (grant b p mode s))

/-- R16: the BUSY answer. -/
def claimBusy (p : Port) (f : FrameFields) (b : Bay) (s : State) : State :=
  answerHead p
    { answerTo f .busy with
      detail := detailOf [byte (s.bay b).claims.length, loanModeCode (s.bay b).loanMode] } s

/-- R17: the claim is queued and answered WAITING with its position. -/
def claimQueued (p : Port) (f : FrameFields) (b : Bay) (mode : Mode) (s : State) : State :=
  let position := (s.bay b).claims.length + 1
  let s := s.modBay b fun r =>
    { r with claims := r.claims ++ [{ port := p, mode := mode, tag := f.tag, arrivalTag := s.timeTag.value }] }
  answerHead p { answerTo f .waiting with detail := detailOf [byte position] } (settleBay b s)

/-- R14: the position, from 1, of a port's claim in a queue. -/
def positionOf (p : Port) : List Claim → Nat
  | [] => 0
  | x :: rest => if x.port = p then 1 else positionOf p rest + 1

/-- R14 steps 4 to 9 and R15 to R17: a claim at a bay. -/
def claimAt (p : Port) (f : FrameFields) (b : Bay) (mode : Mode) (s : State) : State :=
  let r := s.bay b
  if r.availability = .faulted then refuseHead p f .faulted s
  else if r.availability = .withdrawing ∨ r.availability = .withdrawn then refuseHead p f .withdrawn s
  else if !permits (s.right p b) mode then refuseHead p f .denied s
  else
    match r.holder p with
    | some h =>
      answerHead p { answerTo f .held with serial := h.serial, detail := detailOf [modeCode h.mode] } s
    | none =>
      if r.claims.any fun x => decide (x.port = p) then
        answerHead p { answerTo f .alreadyWaiting with detail := detailOf [byte (positionOf p r.claims)] } s
      else if s.exhausted then refuseHead p f .exhausted s
      else if grantsAtOnce s b mode then claimGranted p f b mode s
      else if f.flags = 1 then claimBusy p f b s
      else claimQueued p f b mode s

/-- R14: a CLAIM that the Loan Manager takes. -/
def claimTaken (p : Port) (f : FrameFields) (s : State) : State :=
  match portRefusal s p with
  | some status => refuseHead p f status s
  | none =>
    match modeOf f.arg with
    | none => refuseHead p f .format s
    | some mode =>
      if !claimFieldsOk f then refuseHead p f .format s
      else
        match bayOf f.bay with
        | none => refuseHead p f .range s
        | some b => claimAt p f b mode s

/-- CLAIM (R14). -/
def execClaim (p : Port) (s : State) : Result := serveHead p (ofKind kindClaim) (claimTaken p) s

/-! ## CANCEL -/

/-- R30 step 2: every field that a CANCEL does not use is zero. -/
def cancelFieldsOk (f : FrameFields) : Bool :=
  f.flags = 0 && f.arg = 0 && f.count = 0 && f.serial = 0 && f.block = 0

/-- R30: the port's claim leaves the queue; a removed head is followed by the grant pass and the patience check. -/
def cancelAt (p : Port) (b : Bay) (s : State) : State :=
  let wasHead := decide ((s.bay b).claims.head?.map Claim.port = some p)
  let s := removeClaim b p s
  if wasHead then settleBay b s else s

/-- R30: a CANCEL that the Loan Manager takes. -/
def cancelTaken (p : Port) (f : FrameFields) (s : State) : State :=
  match portRefusal s p with
  | some status => refuseHead p f status s
  | none =>
    if !cancelFieldsOk f then refuseHead p f .format s
    else
      match bayOf f.bay with
      | none => refuseHead p f .range s
      | some b =>
        if (s.bay b).claims.any fun x => decide (x.port = p) then okHead p f (cancelAt p b s)
        else refuseHead p f .notWaiting s

/-- CANCEL (R30). -/
def execCancel (p : Port) (s : State) : Result := serveHead p (ofKind kindCancel) (cancelTaken p) s

/-! ## RELEASE -/

/-- R28 step 2: every field that a RELEASE does not use is zero. -/
def releaseFieldsOk (f : FrameFields) : Bool := f.flags = 0 && f.arg = 0 && f.count = 0 && f.block = 0

/-- R28: OK and STALE answers echo the serial. -/
def releaseAnswer (f : FrameFields) (status : Status) : OutFrame := { answerTo f status with serial := f.serial }

/-- R28 step 4, R29: the port's loan with that serial is ended; else STALE. -/
def releaseAt (p : Port) (f : FrameFields) (b : Bay) (s : State) : State :=
  match (s.bay b).holder p with
  | some h =>
    if h.serial = f.serial then
      handOut (answerHead p (releaseAnswer f .ok) (settleBay b (releaseLoan b p h s)))
    else answerHead p (releaseAnswer f .stale) s
  | none => answerHead p (releaseAnswer f .stale) s

/-- R28: a RELEASE that the Loan Manager takes. -/
def releaseTaken (p : Port) (f : FrameFields) (s : State) : State :=
  match portRefusal s p with
  | some status => refuseHead p f status s
  | none =>
    if !releaseFieldsOk f then refuseHead p f .format s
    else
      match bayOf f.bay with
      | none => refuseHead p f .range s
      | some b => releaseAt p f b s

/-- RELEASE (R29). -/
def execRelease (p : Port) (s : State) : Result := serveHead p (ofKind kindRelease) (releaseTaken p) s

/-! ## The loan timers -/

/-- PATIENCE_TIMER_EXPIRY (R26): a running patience timer whose time has passed expires; else nothing happens. -/
def execPatienceTimerExpiry (b : Bay) (s : State) : Result :=
  if timerDue (s.bay b).patienceTimer s.now then whenRunning s (startRecall b) else .next s

/-- RECALL_TIMER_EXPIRY (R38): a running recall timer whose time has passed expires; else nothing happens. -/
def execRecallTimerExpiry (b : Bay) (s : State) : Result :=
  if timerDue (s.bay b).recallTimer s.now then whenRunning s (fun s => handOut (recallExpiry b s)) else .next s

end Sys2Proof.Machine
end

