-- ==== Sys2Proof/Machine/ManageLending.lean ====
section
/-! DEFINITION. The management requests of the Loan Manager, the Plan Store and the Drive Engine (R13, R33, R48 to R57,
R101 to R106, R128, R182, R183). -/

namespace Sys2Proof.Machine

/-! ## ACCESS_SET and ACCESS_GET -/

/-- R13: a right is replaced, and a waiting claim it no longer permits is refused with cause ACCESS. -/
def replaceRight (q : Port) (b : Bay) (r : Right) (s : State) : State :=
  let s := s.setRight q b r
  match (s.bay b).claims.find? fun x => decide (x.port = q) with
  | some x =>
    if permits r x.mode then s
    else
      let wasHead := decide ((s.bay b).claims.head?.map Claim.port = some q)
      let s := refuseClaim b .access false x s
      if wasHead then settleBay b s else s
  | none => s

/-- R13: the checks and the effect of ACCESS_SET. That RANGE comes before a FORMAT for an unused header field or an
overlong payload is the model's choice (log 34). -/
def accessSet (p : Port) (f : FrameFields) (s : State) : State :=
  match f.payload with
  | [] => refuseHead p f .format s
  | x :: rest =>
    match bayOf f.bay, portOf x with
    | some b, some q =>
      match rest with
      | [y] =>
        match rightOf y with
        | some r => if unusedZeroButBay f then okHead p f (replaceRight q b r s) else refuseHead p f .format s
        | none => refuseHead p f .format s
      | _ => refuseHead p f .format s
    | _, _ => refuseHead p f .range s

/-- ACCESS_SET (R13). -/
def execAccessSet (p : Port) (s : State) : Result := serveManage p .accessSet (accessSet p) s

/-- R183: the checks and the answer of ACCESS_GET. That RANGE comes before FORMAT is the model's choice (log 34). -/
def accessGet (p : Port) (f : FrameFields) (s : State) : State :=
  match f.payload with
  | [] => refuseHead p f .format s
  | x :: rest =>
    match bayOf f.bay, portOf x with
    | some b, some q =>
      if rest = [] ∧ unusedZeroButBay f then okDetail p f [byte q.val, rightCode (s.right q b)] s
      else refuseHead p f .format s
    | _, _ => refuseHead p f .range s

/-- ACCESS_GET (R183). -/
def execAccessGet (p : Port) (s : State) : Result := serveManage p .accessGet (accessGet p) s

/-! ## LOAN_QUERY -/

/-- R195: a holder entry of a LOAN_QUERY answer, 24 bytes. -/
def holderBytes (p : Port) (h : Holder) : List Byte :=
  [byte p.val, modeCode h.mode, flagByte h.recalled, byte h.live] ++ bytesOf 6 h.serial.toNat ++
    bytesOf 4 h.grantTag.toNat ++ bytesOf 4 h.blocksRead.toNat ++ bytesOf 4 h.blocksWritten.toNat ++ [0, 0]

/-- R195: a claim record of a LOAN_QUERY answer, 8 bytes. -/
def claimBytes (x : Claim) : List Byte :=
  [byte x.port.val, modeCode x.mode] ++ bytesOf 2 x.tag.toNat ++ bytesOf 4 x.arrivalTag.toNat

/-- R33, R195: the payload of a LOAN_QUERY answer. -/
def loanQueryPayload (s : State) (b : Bay) : List Byte :=
  let r := s.bay b
  [availabilityCode r.availability, loanModeCode r.loanMode, phaseCode r.phase, portByte r.subject,
      flagByte r.patienceTimer.isSome] ++ bytesOf 2 (msLeft r.patienceTimer s.now) ++
    [flagByte r.recallTimer.isSome] ++ bytesOf 2 (msLeft r.recallTimer s.now) ++ [byte r.trailing] ++
    bytesOf 6 r.capacity.toNat ++ bytesOf 2 r.patienceTime.toNat ++ bytesOf 2 r.recallTime.toNat ++
    bytesOf 6 s.nextSerial.toNat ++
    [flagByte s.exhausted, byte r.holderPorts.length, byte r.claims.length, 0, 0] ++
    (allPorts.map fun q =>
      match r.holder q with
      | some h => holderBytes q h
      | none => []).flatten ++
    (r.claims.map claimBytes).flatten

/-- R33: the checks and the answer of LOAN_QUERY, in the order in which R33 lists them (log 34). -/
def loanQuery (p : Port) (f : FrameFields) (s : State) : State :=
  match bayOf f.bay with
  | none => refuseHead p f .range s
  | some b =>
    if f.payload = [] ∧ unusedZeroButBay f then okPayload p f (loanQueryPayload s b) s else refuseHead p f .format s

/-- LOAN_QUERY (R33). -/
def execLoanQuery (p : Port) (s : State) : Result := serveManage p .loanQuery (loanQuery p) s

/-! ## REVOKE -/

/-- R48: the named port's loan is revoked, or its claim refused, with cause FORCED; else STALE. -/
def revokeAt (p : Port) (f : FrameFields) (b : Bay) (q : Port) (s : State) : State :=
  match (s.bay b).holder q with
  | some h =>
    handOut (answerHead p { answerTo f .ok with serial := h.serial, detail := detailOf [1] }
      (settleBay b (revokeLoan b .forced q h s)))
  | none =>
    match (s.bay b).claims.find? fun x => decide (x.port = q) with
    | some x =>
      let wasHead := decide ((s.bay b).claims.head?.map Claim.port = some q)
      let s := refuseClaim b .forced false x s
      okDetail p f [2] (if wasHead then settleBay b s else s)
    | none => refuseHead p f .stale s

/-- R48: the checks of REVOKE. -/
def revoke (p : Port) (f : FrameFields) (s : State) : State :=
  match f.payload with
  | [] => refuseHead p f .format s
  | x :: rest =>
    match bayOf f.bay, portOf x with
    | some b, some q => if rest = [] ∧ unusedZeroButBay f then revokeAt p f b q s else refuseHead p f .format s
    | _, _ => refuseHead p f .range s

/-- REVOKE (R48). -/
def execRevoke (p : Port) (s : State) : Result := serveManage p .revoke (revoke p) s

/-! ## BAY_WITHDRAW and BAY_RESTORE -/

/-- R50 steps 1 and 2: availability becomes WITHDRAWING, patience stops, every claim is refused. -/
def startWithdrawal (b : Bay) (s : State) : State :=
  let s := s.modBay b fun r =>
    let r := { r with availability := .withdrawing }
    if r.phase = .patience then { r with patienceTimer := none, subject := none, phase := .none } else r
  refuseAll b .withdrawn s

/-- R52: every holder is recalled and the recall timer is set; with no holders the completion check runs. -/
def withdrawByRecall (b : Bay) (ms : Nat) (s : State) : State :=
  if (s.bay b).holderPorts = [] then completionCheck b s
  else
    let s := recallHolders b s
    s.modBay b fun r =>
      { r with
        phase := .recalled,
        recallTimer := some (s.after (if r.recallTimer.isSome then min (msLeft r.recallTimer s.now) ms else ms)) }

/-- R51, R52: the holders are dealt with by the recall time. -/
def withdrawHolders (b : Bay) (ms : Nat) (s : State) : State :=
  if ms = 0 then completionCheck b (revokePorts b .withdrawn (s.bay b).holderPorts s) else withdrawByRecall b ms s

/-- R50: a BAY_WITHDRAW that is taken, with the three numbers of its answer. -/
def withdraw (p : Port) (f : FrameFields) (b : Bay) (ms : Nat) (s : State) : State :=
  let claims := (s.bay b).claims.length
  let holders := (s.bay b).holderPorts.length
  let s := withdrawHolders b ms (startWithdrawal b s)
  handOut (okDetail p f
    [byte claims, byte (if ms = 0 then holders else 0), byte (s.bay b).recallSet.length] s)

/-- R50: the checks of BAY_WITHDRAW. -/
def bayWithdraw (p : Port) (f : FrameFields) (s : State) : State :=
  match bayOf f.bay with
  | none => refuseHead p f .range s
  | some b =>
    if f.payload.length = 2 ∧ unusedZeroButBay f then
      match (s.bay b).availability with
      | .inService => withdraw p f b (natOf f.payload) s
      | .probing => refuseHead p f .bayBusy s
      | .withdrawing => refuseHead p f .withdrawn s
      | .withdrawn => refuseHead p f .withdrawn s
      | .faulted => refuseHead p f .faulted s
    else refuseHead p f .format s

/-- BAY_WITHDRAW (R50). -/
def execBayWithdraw (p : Port) (s : State) : Result := serveManage p .bayWithdraw (bayWithdraw p) s

/-- R57: the checks and the effect of BAY_RESTORE. -/
def bayRestore (p : Port) (f : FrameFields) (s : State) : State :=
  match bayOf f.bay with
  | none => refuseHead p f .range s
  | some b =>
    if f.payload = [] ∧ unusedZeroButBay f then
      match (s.bay b).availability with
      | .withdrawn | .faulted =>
        okHead p f (startProbing b (s.modBay b fun r => { r with availability := .probing }))
      | .probing | .inService | .withdrawing => refuseHead p f .bayBusy s
    else refuseHead p f .format s

/-- BAY_RESTORE (R57). -/
def execBayRestore (p : Port) (s : State) : Result := serveManage p .bayRestore (bayRestore p) s

/-! ## LANE_RESTORE and BAY_POLICY_SET -/

/-- R128, R194: the detail of the OK answer: both lanes' states and failure counters. -/
def laneDetail (d : DriveEngine) (l : Lane) : List Byte :=
  [laneStateCode (d.lane l).state, byte (d.lane l).failures, laneStateCode (d.lane (otherLane l)).state,
    byte (d.lane (otherLane l)).failures]

/-- R128: a LANE_RESTORE that is taken, by the lane's state. -/
def restoreLane (p : Port) (f : FrameFields) (b : Bay) (l : Lane) (s : State) : State :=
  match ((s.drive b).lane l).state with
  | .probing => refuseHead p f .bayBusy s
  | .up => okDetail p f (laneDetail (s.drive b) l) s
  | .down =>
    let s := sendProbe b l false s
    okDetail p f (laneDetail (s.drive b) l) s

/-- R128: the checks of LANE_RESTORE. -/
def laneRestore (p : Port) (f : FrameFields) (s : State) : State :=
  match bayOf f.bay, laneOf f.count.toNat with
  | some b, some l =>
    if f.payload = [] ∧ unusedZeroButBayCount f then
      match (s.bay b).availability with
      | .faulted => refuseHead p f .faulted s
      | .probing | .withdrawing => refuseHead p f .bayBusy s
      | .inService | .withdrawn => restoreLane p f b l s
    else refuseHead p f .format s
  | _, _ => refuseHead p f .range s

/-- LANE_RESTORE (R128). -/
def execLaneRestore (p : Port) (s : State) : Result := serveManage p .laneRestore (laneRestore p) s

/-- R9, R130, R182: every setting of a bay's policy is replaced. -/
def setPolicy (b : Bay) (t : BayPolicy) (s : State) : State :=
  (s.modDrive b fun d => { d with policy := t.drive }).modBay b fun r =>
    { r with patienceTime := t.patienceTime, recallTime := t.recallTime }

/-- R182: the checks and the effect of BAY_POLICY_SET. That RANGE comes before a FORMAT for a nonzero unused header field
or a wrong payload length is the model's choice (log 34). -/
def bayPolicySet (p : Port) (f : FrameFields) (s : State) : State :=
  match bayOf f.bay with
  | none => refuseHead p f .range s
  | some b =>
    match bayPolicyOf f.payload with
    | some t => if unusedZeroButBay f then okHead p f (setPolicy b t s) else refuseHead p f .format s
    | none => refuseHead p f .format s

/-- BAY_POLICY_SET (R182). -/
def execBayPolicySet (p : Port) (s : State) : Result := serveManage p .bayPolicySet (bayPolicySet p) s

/-! ## The plan -/

/-- R101: the bank and the 96 weights that a PLAN_WRITE payload carries. -/
def planWriteOf (payload : List Byte) : Option (Bank × Weights) :=
  if payload.length = 100 ∧ fieldAt payload 1 3 = 0 then
    match bankOf (byte (fieldAt payload 0 1)), bayTable weightOf (payload.drop 4) with
    | some bank, some weights => some (bank, weights)
    | _, _ => none
  else none

/-- R101: a bank is the bank in use of some bay. -/
def bankInUse (s : State) (bank : Bank) : Bool := allBays.any fun b => decide ((s.service b).bank = bank)

/-- R101: all 96 weights of a bank are replaced. -/
def writeBank (bank : Bank) (weights : Weights) (s : State) : State :=
  match bank with
  | .a => { s with plan := { s.plan with bankA := weights } }
  | .b => { s with plan := { s.plan with bankB := weights } }

/-- R101: the checks and the effect of PLAN_WRITE. -/
def planWrite (p : Port) (f : FrameFields) (s : State) : State :=
  match planWriteOf f.payload with
  | some (bank, weights) =>
    if unusedZero f then
      if bankInUse s bank then refuseHead p f .bankInUse s
      else okDetail p f [bankCode bank] (writeBank bank weights s)
    else refuseHead p f .format s
  | none => refuseHead p f .format s

/-- PLAN_WRITE (R101). -/
def execPlanWrite (p : Port) (s : State) : Result := serveManage p .planWrite (planWrite p) s

/-- R102: the swap: the current bank changes, swap-pending is set, and the idle bays adopt, in bay order. -/
def swapBanks (s : State) : State :=
  let s := { s with plan := { s.plan with current := otherBank s.plan.current, swapPending := true } }
  swapCheck (allBays.foldl (fun s b => adoptIfIdle b s) s)

/-- R102: the checks, the effect and the answer of PLAN_SWAP. -/
def planSwap (p : Port) (f : FrameFields) (s : State) : State :=
  if f.payload = [] ∧ unusedZero f then
    if s.plan.swapPending then refuseHead p f .swapPending s
    else
      let idle := allBays.filter fun b =>
        bayIdle s b && !decide ((s.service b).bank = otherBank s.plan.current)
      let s := swapBanks s
      okDetail p f [bankCode s.plan.current, byte idle.length] s
  else refuseHead p f .format s

/-- PLAN_SWAP (R102). -/
def execPlanSwap (p : Port) (s : State) : Result := serveManage p .planSwap (planSwap p) s

/-- R106, R195: the payload of a PLAN_STATUS answer. -/
def planStatusPayload (s : State) : List Byte :=
  [bankCode s.plan.current, flagByte s.plan.swapPending] ++ allBays.map fun b => bankCode (s.service b).bank

/-- R106: the checks and the answer of PLAN_STATUS. -/
def planStatus (p : Port) (f : FrameFields) (s : State) : State :=
  if f.payload = [] ∧ unusedZero f then okPayload p f (planStatusPayload s) s else refuseHead p f .format s

/-- PLAN_STATUS (R106). -/
def execPlanStatus (p : Port) (s : State) : Result := serveManage p .planStatus (planStatus p) s

end Sys2Proof.Machine
end

