-- ==== Sys2Proof/Machine/ManagePorts.lean ====
section
/-! DEFINITION. The management requests of the Presence Monitors, the Node Ports, the Journal, the statistics, the Event
Unit, the Time Base and RESET_PART (R150, R163 to R168, R174, R178, R181, R184, R188, R191). -/

namespace Sys2Proof.Machine

/-- R150, R163 to R168, R195: the port that a request names in its bay field, its other fields unused and its payload
empty; else the status that refuses it. -/
def namedPort (f : FrameFields) : Except Status Port :=
  match portOf f.bay with
  | none => .error .range
  | some q => if f.payload = [] ∧ unusedZeroButBay f then .ok q else .error .format

/-! ## PORT_ENABLE and PORT_DISABLE -/

/-- R164: an OFF port becomes NEW. -/
def enablePort (q : Port) (s : State) : State :=
  match (s.presence q).state with
  | .off =>
    let s := s.modPresence q fun m =>
      { m with state := .new, enabled := true, miss := 0, early := 0, earlyFrozen := false, lastBeat := none }
    appendRecord (portRecord q .enable 0 0) (s.modPort q fun n => { n with silent := true })
  | .new | .active | .lapsed | .test => s

/-- R164: the checks and the effect of PORT_ENABLE. -/
def portEnable (p : Port) (f : FrameFields) (s : State) : State :=
  match namedPort f with
  | .error status => refuseHead p f status s
  | .ok q => okHead p f (enablePort q s)

/-- PORT_ENABLE (R164). -/
def execPortEnable (p : Port) (s : State) : Result := serveManage p .portEnable (portEnable p) s

/-- R163: a port that is not OFF is cleaned up and taken to OFF. -/
def disablePort (q : Port) (s : State) : State :=
  match (s.presence q).state with
  | .off => s
  | .new | .active | .lapsed | .test => startIfAnswerGone (disable q s)

/-- R163: the checks and the effect of PORT_DISABLE; the answer is placed before the named port is touched. -/
def portDisable (p : Port) (f : FrameFields) (s : State) : State :=
  match namedPort f with
  | .error status => refuseHead p f status s
  | .ok q => if q = p then refuseHead p f .portBusy s else disablePort q (okHead p f s)

/-- PORT_DISABLE (R163). -/
def execPortDisable (p : Port) (s : State) : Result := serveManage p .portDisable (portDisable p) s

/-! ## PORT_TEST -/

/-- R165: loans that a port holds. -/
def loansHeld (s : State) (q : Port) : Nat := (allBays.filter fun b => ((s.bay b).holder q).isSome).length

/-- R165: claims of a port that wait. -/
def claimsWaiting (s : State) (q : Port) : Nat :=
  (allBays.filter fun b => (s.bay b).claims.any fun x => decide (x.port = q)).length

/-- R165: the cases in which PORT_TEST ON is refused PORT_BUSY. -/
def testBusy (s : State) (p q : Port) : Bool :=
  decide (q = p) || decide ((s.presence q).state = .off) || decide (0 < loansHeld s q) ||
    decide (0 < claimsWaiting s q) || decide (0 < s.live q)

/-- R165: a port enters TEST, or its test is restarted. -/
def enterTest (q : Port) (s : State) : State :=
  (s.modPresence q fun m =>
    { m with
      state := .test, beatTimer := none, miss := 0, early := 0, earlyFrozen := false, lastBeat := none,
      patternError := false }).modPort q fun n => { n with silent := true }

/-- R165: the checks and the effect of PORT_TEST ON. -/
def portTestOn (p : Port) (f : FrameFields) (s : State) : State :=
  match namedPort f with
  | .error status => refuseHead p f status s
  | .ok q => if testBusy s p q then refuseHead p f .portBusy s else okHead p f (enterTest q s)

/-- PORT_TEST_ON (R165). -/
def execPortTestOn (p : Port) (s : State) : Result := serveManage p .portTestOn (portTestOn p) s

/-- R167: a port in TEST becomes NEW. -/
def leaveTest (q : Port) (s : State) : State :=
  s.modPresence q fun m => if m.state = .test then { m with state := .new } else m

/-- R167: the checks and the effect of PORT_TEST OFF. -/
def portTestOff (p : Port) (f : FrameFields) (s : State) : State :=
  match namedPort f with
  | .error status => refuseHead p f status s
  | .ok q => okHead p f (leaveTest q s)

/-- PORT_TEST_OFF (R167). -/
def execPortTestOff (p : Port) (s : State) : Result := serveManage p .portTestOff (portTestOff p) s

/-! ## PORT_STATUS and PORT_RESYNC -/

/-- R168, R195: the 20 bytes of a PORT_STATUS answer. -/
def portStatusPayload (s : State) (q : Port) : List Byte :=
  let n := s.port q
  let m := s.presence q
  [portStateCode m.state, flagByte m.enabled, roleCode n.role, carrierCode n.carrier,
    flagByte n.silent ||| (flagByte m.patternError <<< 1) ||| (flagByte m.earlyFrozen <<< 2), byte m.miss,
    byte m.early, holdCode n.hold] ++ bytesOf 2 m.window ++ [byte m.missLimit, byte m.earlyLimit] ++
    bytesOf 4 (occupancy n.intake) ++
    [byte n.intake.length, byte (s.live q), byte (loansHeld s q), byte (claimsWaiting s q)]

/-- R168: the checks and the answer of PORT_STATUS, in the order in which R168 lists them (log 34); the request has left
the intake when the snapshot is taken. -/
def portStatus (p : Port) (f : FrameFields) (s : State) : State :=
  match namedPort f with
  | .error status => refuseHead p f status s
  | .ok q => okPayload p f (portStatusPayload (leaveHead p s) q) s

/-- PORT_STATUS (R168). -/
def execPortStatus (p : Port) (s : State) : Result := serveManage p .portStatus (portStatus p) s

/-- R150: what the named port does. -/
def resyncPort (n : NodePort) : NodePort :=
  { flowEnd { n with receiver := restartReceiver n.receiver, intake := [], reserved := false } with silent := true }

/-- R150: the checks and the effect of PORT_RESYNC; the answer is placed before the named port is touched. -/
def portResync (p : Port) (f : FrameFields) (s : State) : State :=
  match namedPort f with
  | .error status => refuseHead p f status s
  | .ok q => (okHead p f s).modPort q resyncPort

/-- PORT_RESYNC (R150). -/
def execPortResync (p : Port) (s : State) : Result := serveManage p .portResync (portResync p) s

/-! ## LIMITS_SET -/

/-- R145, R162, R181: all settings of a port are replaced, and each block takes them up. -/
def setLimits (q : Port) (t : PortLimits) (s : State) : State :=
  ((s.setQuota q t.quota).modPort q fun n =>
      flowAct
        { n with
          highWater := t.highWater, lowWater := t.lowWater, holdTime := t.holdTime,
          repeatLimit := t.repeatLimit }).modPresence q fun m =>
    { m with
      window := t.window, missLimit := t.missLimit, earlyLimit := t.earlyLimit, miss := 0, early := 0,
      earlyFrozen := false }

/-- R181: the checks and the effect of LIMITS_SET; a raised quota may end a port's wait (R69). That RANGE comes before a
FORMAT for a nonzero unused header field or a wrong payload length is the model's choice (log 34). -/
def limitsSet (p : Port) (f : FrameFields) (s : State) : State :=
  match portOf f.bay with
  | none => refuseHead p f .range s
  | some q =>
    match portLimitsOf f.payload with
    | some t => if unusedZeroButBay f then handOut (okHead p f (setLimits q t s)) else refuseHead p f .format s
    | none => refuseHead p f .format s

/-- LIMITS_SET (R181). -/
def execLimitsSet (p : Port) (s : State) : Result := serveManage p .limitsSet (limitsSet p) s

/-! ## JOURNAL_READ and STATS_READ -/

/-- R174, R195: the payload of a JOURNAL_READ answer, from the journal before the read. -/
def journalPayload (j : Journal) (n : Nat) : List Byte :=
  let records := j.ring.take n
  [byte records.length, 0, 0, 0] ++ bytesOf 4 j.lost.toNat ++ bytesOf 2 (j.ring.drop n).length ++ [0, 0] ++
    bytesOf 4 j.seq.toNat ++ (records.map recordBytes).flatten

/-- R174: the oldest records leave the ring and the lost counter is reset. -/
def takeRecords (n : Nat) (s : State) : State :=
  { s with journal := { s.journal with ring := s.journal.ring.drop n, lost := 0 } }

/-- R174: the checks, the effect and the answer of JOURNAL_READ. -/
def journalRead (p : Port) (f : FrameFields) (s : State) : State :=
  if f.payload.length = 1 ∧ 1 ≤ natOf f.payload ∧ natOf f.payload ≤ 16 ∧ unusedZero f then
    okPayload p f (journalPayload s.journal (natOf f.payload)) (takeRecords (natOf f.payload) s)
  else refuseHead p f .format s

/-- JOURNAL_READ (R174). -/
def execJournalRead (p : Port) (s : State) : Result := serveManage p .journalRead (journalRead p) s

/-- R176, R178: a port's eight counters in order. -/
def portCounters (t : PortStats) : List Word32 :=
  [t.accepted, t.checkDiscards, t.lengthDiscards, t.overruns, t.holdsSent, t.repliesLost, t.carrierDrops, t.mismatches]

/-- R177, R178: a bay's nine counters in order. -/
def bayCounters (t : BayStats) : List Word32 :=
  [t.completed, t.blocksRead, t.blocksWritten, t.retries, t.checkMismatches, t.noResponseA, t.noResponseB,
    t.laneErrorA, t.laneErrorB]

/-- R178, R195: the payload of a STATS_READ answer. -/
def statsPayload (scope index : Byte) (counters : List Word32) : List Byte :=
  [scope, index, 0, 0] ++ (counters.map fun c => bytesOf 4 c.toNat).flatten

/-- R178: STATS_READ of a port's counters. -/
def portStatsRead (p : Port) (f : FrameFields) (index : Byte) (clear : Bool) (s : State) : State :=
  match portOf index with
  | some q =>
    okPayload p f (statsPayload 1 index (portCounters s.portStats[q]))
      (if clear then s.modPortStats q fun _ => {} else s)
  | none => refuseHead p f .range s

/-- R178: STATS_READ of a bay's counters. -/
def bayStatsRead (p : Port) (f : FrameFields) (index : Byte) (clear : Bool) (s : State) : State :=
  match bayOf index with
  | some b =>
    okPayload p f (statsPayload 2 index (bayCounters s.bayStats[b]))
      (if clear then s.modBayStats b fun _ => {} else s)
  | none => refuseHead p f .range s

/-- R178: the checks of STATS_READ. -/
def statsRead (p : Port) (f : FrameFields) (s : State) : State :=
  match f.payload with
  | [scope, index, flag] =>
    match boolOf flag with
    | some clear =>
      if !unusedZero f then refuseHead p f .format s
      else if scope = 1 then portStatsRead p f index clear s
      else if scope = 2 then bayStatsRead p f index clear s
      else refuseHead p f .format s
    | none => refuseHead p f .format s
  | _ => refuseHead p f .format s

/-- STATS_READ (R178). -/
def execStatsRead (p : Port) (s : State) : Result := serveManage p .statsRead (statsRead p) s

/-! ## The Event Unit -/

/-- R188: the checks and the answer of EVENT_READ. -/
def eventRead (p : Port) (f : FrameFields) (s : State) : State :=
  if f.payload = [] ∧ unusedZero f then okPayload p f (eventBytes s.raised ++ eventBytes s.enabled) s
  else refuseHead p f .format s

/-- EVENT_READ (R188). -/
def execEventRead (p : Port) (s : State) : Result := serveManage p .eventRead (eventRead p) s

/-- R188: the enable set is replaced; an event newly enabled that is already raised sets the event-news flags. -/
def replaceEnabled (x : EventSet) (s : State) : State :=
  let added := x &&& ~~~s.enabled
  let news := shareEvent added s.raised
  let s := driveAlert { s with enabled := x }
  if news then tellSupervisors s else s

/-- R188: the checks, the effect and the answer of EVENT_ENABLE. -/
def eventEnable (p : Port) (f : FrameFields) (s : State) : State :=
  match eventsOf f.payload with
  | some x =>
    if unusedZero f then okPayload p f (eventBytes x) (replaceEnabled x s) else refuseHead p f .format s
  | none => refuseHead p f .format s

/-- EVENT_ENABLE (R188). -/
def execEventEnable (p : Port) (s : State) : Result := serveManage p .eventEnable (eventEnable p) s

/-- R188: each named event is raised as R185 gives. -/
def raiseAll (x : EventSet) (s : State) : State :=
  let added := x &&& ~~~s.raised
  let news := shareEvent added s.enabled
  let s := driveAlert { s with raised := s.raised ||| x }
  if news then tellSupervisors s else s

/-- R188: the checks, the effect and the answer of EVENT_SET. -/
def eventSet (p : Port) (f : FrameFields) (s : State) : State :=
  match eventsOf f.payload with
  | some x =>
    if unusedZero f then
      let s := raiseAll x s
      okPayload p f (eventBytes s.raised) s
    else refuseHead p f .format s
  | none => refuseHead p f .format s

/-- EVENT_SET (R188). -/
def execEventSet (p : Port) (s : State) : Result := serveManage p .eventSet (eventSet p) s

/-- R188: the named events are removed from the raised set. -/
def clearEvents (x : EventSet) (s : State) : State := driveAlert { s with raised := s.raised &&& ~~~x }

/-- R188: the checks, the effect and the answer of EVENT_CLEAR. -/
def eventClear (p : Port) (f : FrameFields) (s : State) : State :=
  match eventsOf f.payload with
  | some x =>
    if unusedZero f then
      let s := clearEvents x s
      okPayload p f (eventBytes s.raised) s
    else refuseHead p f .format s
  | none => refuseHead p f .format s

/-- EVENT_CLEAR (R188). -/
def execEventClear (p : Port) (s : State) : Result := serveManage p .eventClear (eventClear p) s

/-! ## TIME_SET and RESET_PART -/

/-- R184: the checks, the effect and the answer of TIME_SET. -/
def timeSet (p : Port) (f : FrameFields) (s : State) : State :=
  match resolutionOf (byte (fieldAt f.payload 0 1)) with
  | some resolution =>
    if f.payload.length = 5 ∧ unusedZero f then
      okDetail p f (resolutionCode s.timeTag.resolution :: bytesOf 4 s.timeTag.value.toNat)
        { s with
          timeTag := { value := BitVec.ofNat 32 (fieldAt f.payload 1 4), resolution := resolution, elapsed := 0 } }
    else refuseHead p f .format s
  | none => refuseHead p f .format s

/-- TIME_SET (R184). -/
def execTimeSet (p : Port) (s : State) : Result := serveManage p .timeSet (timeSet p) s

/-- R191: a soft reset becomes pending, or one that is pending serves this port too. -/
def pendSoftReset (p : Port) (s : State) : State :=
  match s.softReset with
  | none => { s with softReset := some { first := p, others := [], deadline := s.after Config.resetTimerMs } }
  | some r => { s with softReset := some { r with others := r.others ++ [p] } }

/-- R191: the checks and the effect of RESET_PART. -/
def resetPart (p : Port) (f : FrameFields) (s : State) : State :=
  if f.payload = [] ∧ unusedZero f then
    pendSoftReset p (leaveHead p (placeAnswer p { frame := answerTo f .ok, resetPart := true } s))
  else refuseHead p f .format s

/-- RESET_PART (R191). -/
def execResetPart (p : Port) (s : State) : Result := serveManage p .resetPart (resetPart p) s

end Sys2Proof.Machine
end

