-- ==== Sys2Proof/Machine/Operations.lean ====
section
/-! DEFINITION. OPERATION_ADMISSION, CONTEXT_HANDOUT and HEAD_FORMAT_REFUSE (R66 to R72, R138). -/

namespace Sys2Proof.Machine

/-- R69: an admitted operation stays at the head with its reservation and waits for a context. -/
def waitForContext (p : Port) (s : State) : State := s.modPort p fun n => { n with reserved := true }

/-- R66, R68, R69, R70: the operation at the head is refused, given a context, or left waiting for one. -/
def admitOperation (p : Port) (kind : OpKind) (f : FrameFields) (s : State) : State :=
  match admissionCheck s p kind f with
  | .error status => refuseOperation p f status s
  | .ok b =>
    match firstFree s with
    | some c => if belowQuota s p then allocate c p kind b f s else waitForContext p s
    | none => waitForContext p s

/-- OPERATION_ADMISSION (R66). -/
def execOperationAdmission (p : Port) (s : State) : Result :=
  match servedHead s p with
  | some f =>
    match opKindOf f.kind with
    | some kind => .next (transmit (admitOperation p kind f.fields s))
    | none => .next s
  | none => .next s

/-- CONTEXT_HANDOUT (R71). -/
def execContextHandout (s : State) : Result := whenRunning s handOut

/-- R138, R180: a head that no block owns: PATTERN or an unknown kind, or a MANAGE frame of no known sub-kind. -/
def isFormatHead (f : InFrame) : Bool :=
  isRefusedKind f.kind || (f.kind = kindManage && !isSubKind f.fields.arg)

/-- R138, R180: FORMAT, or for a MANAGE frame the first of its checks that fails. -/
def formatRefusal (s : State) (p : Port) (f : InFrame) : Status :=
  if f.kind = kindManage then (manageRefusal s p f.fields).getD .format else .format

/-- HEAD_FORMAT_REFUSE (R138). -/
def execHeadFormatRefuse (p : Port) (s : State) : Result :=
  match servedHead s p with
  | some f =>
    if isFormatHead f then .next (transmit (refuseHead p f.fields (formatRefusal s p f) s)) else .next s
  | none => .next s

end Sys2Proof.Machine
end

