-- ==== Sys2Proof/Machine/Resets.lean ====
section
/-! DEFINITION. The hard reset's three events, the soft reset and its timer (R189 to R191). -/

namespace Sys2Proof.Machine

/-- R190: every frame in transmission is cut off, and the link stands stopped. -/
def stopLink (n : NodePort) : NodePort := { n with tx := none, receiver := .idle }

/-- RESET_ASSERT (R190): a hard reset begins; a pending soft reset is replaced (R191). -/
def execResetAssert (s : State) : Result :=
  .next
    { s with
      phase := .asserted, timeTag := { s.timeTag with value := 0, elapsed := 0 },
      ports := byPort fun p => stopLink s.ports[p], alert := false, softReset := none }

/-- RESET_RELEASE (R190): the Configuration Loader starts reading the image from its first byte. -/
def execResetRelease (s : State) : Result :=
  if s.phase = .asserted then .next { s with phase := .loading } else .next s

/-- CONFIG_LOAD_DONE (R189, R190): the image has been read, and the hard reset's one event is made. -/
def execConfigLoadDone (memory : List Byte) (s : State) : Result :=
  if s.phase = .loading then .next (transmit (performHardReset (loadImage memory) s)) else .next s

/-- R191: a start condition of the pending soft reset holds: the first requester's answer has gone, or the reset timer's
time has passed. -/
def softResetDue (s : State) (r : SoftPending) : Bool := resetAnswerGone s r || decide (r.deadline ≤ s.now)

/-- SOFT_RESET (R191): the pending soft reset starts, if a start condition holds. -/
def execSoftReset (s : State) : Result :=
  match s.softReset with
  | some r => if softResetDue s r then whenRunning s (performSoftReset r.first) else .next s
  | none => .next s

/-- RESET_TIMER_EXPIRY (R191): a running reset timer whose time has passed expires and starts the soft reset. -/
def execResetTimerExpiry (s : State) : Result :=
  match s.softReset with
  | some r => if r.deadline ≤ s.now then whenRunning s (performSoftReset r.first) else .next s
  | none => .next s

end Sys2Proof.Machine
end

