-- ==== Sys2Proof/Machine/Dispatch.lean ====
section
/-! DEFINITION. One arm for each command: one direct call of its meaning. -/

namespace Sys2Proof.Machine

def exec (i : Instr) (s : State) : Host.Outcome State Fault Refusal :=
  match i with
  | .resetAssert => Sys2Proof.Machine.execResetAssert s
  | .configLoadDone memory => Sys2Proof.Machine.execConfigLoadDone memory s
  | .softReset => Sys2Proof.Machine.execSoftReset s
  | .resetTimerExpiry => Sys2Proof.Machine.execResetTimerExpiry s
  | .carrierDown p => Sys2Proof.Machine.execCarrierDown p s
  | .carrierUp p => Sys2Proof.Machine.execCarrierUp p s
  | .frameReceive p bytes => Sys2Proof.Machine.execFrameReceive p bytes s
  | .hello p f => Sys2Proof.Machine.execHello p f s
  | .beat p f => Sys2Proof.Machine.execBeat p f s
  | .pattern p f => Sys2Proof.Machine.execPattern p f s
  | .headFormatRefuse p => Sys2Proof.Machine.execHeadFormatRefuse p s
  | .claim p => Sys2Proof.Machine.execClaim p s
  | .cancel p => Sys2Proof.Machine.execCancel p s
  | .release p => Sys2Proof.Machine.execRelease p s
  | .operationAdmission p => Sys2Proof.Machine.execOperationAdmission p s
  | .contextHandout => Sys2Proof.Machine.execContextHandout s
  | .accessSet p => Sys2Proof.Machine.execAccessSet p s
  | .accessGet p => Sys2Proof.Machine.execAccessGet p s
  | .loanQuery p => Sys2Proof.Machine.execLoanQuery p s
  | .revoke p => Sys2Proof.Machine.execRevoke p s
  | .bayWithdraw p => Sys2Proof.Machine.execBayWithdraw p s
  | .bayRestore p => Sys2Proof.Machine.execBayRestore p s
  | .laneRestore p => Sys2Proof.Machine.execLaneRestore p s
  | .bayPolicySet p => Sys2Proof.Machine.execBayPolicySet p s
  | .planWrite p => Sys2Proof.Machine.execPlanWrite p s
  | .planSwap p => Sys2Proof.Machine.execPlanSwap p s
  | .planStatus p => Sys2Proof.Machine.execPlanStatus p s
  | .portEnable p => Sys2Proof.Machine.execPortEnable p s
  | .portDisable p => Sys2Proof.Machine.execPortDisable p s
  | .portTestOn p => Sys2Proof.Machine.execPortTestOn p s
  | .portTestOff p => Sys2Proof.Machine.execPortTestOff p s
  | .portStatus p => Sys2Proof.Machine.execPortStatus p s
  | .portResync p => Sys2Proof.Machine.execPortResync p s
  | .limitsSet p => Sys2Proof.Machine.execLimitsSet p s
  | .journalRead p => Sys2Proof.Machine.execJournalRead p s
  | .statsRead p => Sys2Proof.Machine.execStatsRead p s
  | .eventRead p => Sys2Proof.Machine.execEventRead p s
  | .eventEnable p => Sys2Proof.Machine.execEventEnable p s
  | .eventSet p => Sys2Proof.Machine.execEventSet p s
  | .eventClear p => Sys2Proof.Machine.execEventClear p s
  | .timeSet p => Sys2Proof.Machine.execTimeSet p s
  | .resetPart p => Sys2Proof.Machine.execResetPart p s
  | .patienceTimerExpiry b => Sys2Proof.Machine.execPatienceTimerExpiry b s
  | .recallTimerExpiry b => Sys2Proof.Machine.execRecallTimerExpiry b s
  | .beatTimerExpiry p => Sys2Proof.Machine.execBeatTimerExpiry p s
  | .holdTimerExpiry p => Sys2Proof.Machine.execHoldTimerExpiry p s
  | .frameSent p => Sys2Proof.Machine.execFrameSent p s
  | .probeAnswer b l number reply => Sys2Proof.Machine.execProbeAnswer b l number reply s
  | .probeTimerExpiry b l => Sys2Proof.Machine.execProbeTimerExpiry b l s
  | .restoreProbeAnswer b l number reply => Sys2Proof.Machine.execRestoreProbeAnswer b l number reply s
  | .driveAnswer b l c attempt reply => Sys2Proof.Machine.execDriveAnswer b l c attempt reply s
  | .responseTimerExpiry b c => Sys2Proof.Machine.execResponseTimerExpiry b c s
  | .resetRelease => Sys2Proof.Machine.execResetRelease s
  | .overLengthCut p bytes => Sys2Proof.Machine.execOverLengthCut p bytes s

end Sys2Proof.Machine
end

