-- ==== Sys2Proof/Safety.lean ====
section
/-! DEFINITION. What a safe run of the SL8 keeps: the part never stops, its loans exclude one another as the Loan Table
promises, its queues stay within their bounds, ALERT and the time tag stand as their rules say. -/

namespace Sys2Proof.Machine

/-- An outcome in which the part goes on. -/
def Goes (o : Host.Outcome State Fault Refusal) : Prop := ∃ t, o = .next t

/-! ## What a command needs to take effect -/

/-- R138, R191: the Request Handler of a port can take its head now, and the head is `f`: the part runs, the port has
asked for no soft reset, its head waits for no context, and two entries of its Answer Queue are free. -/
def HeadReady (s : State) (p : Port) (f : InFrame) : Prop :=
  s.phase = .running ∧ (∀ r, s.softReset = some r → r.first ≠ p ∧ p ∉ r.others) ∧ (s.port p).reserved = false ∧
    2 ≤ freeEntries (s.port p) ∧ (s.port p).intake.head? = some f

/-- R180: the head is a management request that passes the checks before its own: an ACTIVE supervisor port, a known
sub-kind, flags zero. -/
def ManageReady (s : State) (p : Port) (sub : SubKind) (f : FrameFields) : Prop :=
  HeadReady s p { kind := kindManage, fields := f } ∧ (s.presence p).state = .active ∧
    (s.port p).role = .supervisor ∧ f.arg = subKindCode sub ∧ f.flags = 0

/-- R14, R28, R30, R66: the head is a request of a kind from an ACTIVE port. -/
def RequestReady (s : State) (p : Port) (kind : Byte) (f : FrameFields) : Prop :=
  HeadReady s p { kind := kind, fields := f } ∧ (s.presence p).state = .active

/-- R133, R134: a frame can arrive at a port: the part runs, carrier is UP, and no frame is under way. -/
def LinkReady (s : State) (p : Port) : Prop :=
  s.phase = .running ∧ (s.port p).carrier = .up ∧ (s.port p).receiver = .idle

/-- A command's whole effect is the answer to the head of a port's Intake Queue. -/
def AnswersOnly (c : Instr) (p : Port) (frame : OutFrame) (s : State) : Prop :=
  exec c s = .next (transmit (answerHead p frame s))

/-- R68: an operation at the head is refused with a status, and nothing else happens. -/
def RefusesOperation (p : Port) (f : FrameFields) (s : State) (status : Status) : Prop :=
  AnswersOnly (.operationAdmission p) p
    { kind := .answer, status := status, tag := f.tag, bay := f.bay, count := f.count, serial := f.serial } s

/-- The row of a management request's sub-kind. -/
def manageRow : SubKind → Port → Instr
  | .accessSet => .accessSet
  | .accessGet => .accessGet
  | .loanQuery => .loanQuery
  | .revoke => .revoke
  | .bayWithdraw => .bayWithdraw
  | .bayRestore => .bayRestore
  | .laneRestore => .laneRestore
  | .bayPolicySet => .bayPolicySet
  | .planWrite => .planWrite
  | .planSwap => .planSwap
  | .planStatus => .planStatus
  | .portEnable => .portEnable
  | .portDisable => .portDisable
  | .portTestOn => .portTestOn
  | .portTestOff => .portTestOff
  | .portStatus => .portStatus
  | .portResync => .portResync
  | .limitsSet => .limitsSet
  | .journalRead => .journalRead
  | .statsRead => .statsRead
  | .eventRead => .eventRead
  | .eventEnable => .eventEnable
  | .eventSet => .eventSet
  | .eventClear => .eventClear
  | .timeSet => .timeSet
  | .resetPart => .resetPart

/-! ## Loans -/

/-- A port has a claim waiting at a bay (R6). -/
def waitsAt (s : State) (p : Port) (b : Bay) : Prop := ∃ x ∈ (s.bay b).claims, x.port = p

/-- R4: at every bay an EXCLUSIVE holder is the only holder. -/
def ExclusiveAlone (s : State) : Prop :=
  ∀ b p q h k, (s.bay b).holder p = some h → (s.bay b).holder q = some k → h.mode = .exclusive → q = p

/-- R10: every loan's serial was granted: it is not 0, and it is below the counter until the counter is exhausted. -/
def SerialsGranted (s : State) : Prop :=
  ∀ b p h, (s.bay b).holder p = some h → h.serial ≠ 0 ∧ (s.exhausted = true ∨ h.serial < s.nextSerial)

/-- R10: no two loans share a serial. -/
def SerialsDistinct (s : State) : Prop :=
  ∀ b p h c q k, (s.bay b).holder p = some h → (s.bay c).holder q = some k → h.serial = k.serial → b = c ∧ p = q

/-- R10, R11: the counter holds 0 only when it is exhausted. -/
def CounterRight (s : State) : Prop := s.exhausted = false → s.nextSerial ≠ 0

/-- The safety of the Loan Table. -/
def LoansSafe (s : State) : Prop := ExclusiveAlone s ∧ SerialsGranted s ∧ SerialsDistinct s ∧ CounterRight s

/-- R6: at most one claim for each port waits at a bay, and a port that waits there holds no loan there. -/
def ClaimsSingle (s : State) : Prop :=
  ∀ b, (s.bay b).claims.Pairwise (fun x y => x.port ≠ y.port) ∧ ∀ p, waitsAt s p b → (s.bay b).holder p = none

/-- R5, R153: a port in any state other than ACTIVE holds no loans and waits at no bay. -/
def OnlyActiveHold (s : State) : Prop :=
  ∀ p, (s.presence p).state ≠ .active → ∀ b, (s.bay b).holder p = none ∧ ¬ waitsAt s p b

/-- The admission discipline of the Loan Table. -/
def ClaimsSafe (s : State) : Prop := ClaimsSingle s ∧ OnlyActiveHold s

/-! ## Bounds -/

/-- R136, R148, R170: the Intake Queues, the Notice Lists and the journal ring stay within their bounds. -/
def QueuesBounded (s : State) : Prop :=
  (∀ p, (s.port p).intake.length ≤ Config.intakeFrames ∧ occupancy (s.port p).intake ≤ Config.intakeBytes ∧
    (s.port p).notices.Pairwise fun x y => x.bay ≠ y.bay) ∧
  s.journal.ring.length ≤ Config.journalRecords

/-! ## Outputs and clocks -/

/-- R187, R190: ALERT is asserted exactly while the part runs and the raised set and the enable set share an event. -/
def AlertRight (s : State) : Prop :=
  s.alert = (decide (s.phase = .running) && shareEvent s.raised s.enabled)

/-- R184: the time tag's period is under way. -/
def PeriodRight (s : State) : Prop := s.timeTag.elapsed < resolutionUs s.timeTag.resolution

end Sys2Proof.Machine
end

