-- ==== Sys2Proof/WellFormed.lean ====
section
/-! DEFINITION. Which commands the outside can give: an operand that no frame and no drive answer can carry is
ill-formed. Ports, bays, lanes and contexts are in range by their types. -/

namespace Sys2Proof

/-- A frame's payload fits between the header and the check value of a frame the receiver can hold (R134). -/
def FrameFields.wellFormed (f : FrameFields) : Bool :=
  f.payload.length + Config.minFrameBytes ≤ Config.maxFrameBytes

/-- A sector is 4104 bytes: the 4096 bytes of a block and an 8-byte trailer (05_drive_lanes, 5.6). -/
def Sector.wellFormed (x : Sector) : Bool := x.data.length == Config.blockBytes

/-- A GOOD answer carries whole sectors (R111, R120). -/
def DriveReply.wellFormed : DriveReply → Bool
  | .good sectors => sectors.all Sector.wellFormed
  | .mediumError => true
  | .laneError => true
  | .unreadable => true

/-- The checks on a command's operands. -/
def Instr.wellFormed : Instr → Bool
  | .hello _ f => f.wellFormed
  | .beat _ f => f.wellFormed
  | .pattern _ f => f.wellFormed
  | .driveAnswer _ _ _ attempt reply => decide (1 ≤ attempt ∧ attempt ≤ 3) && reply.wellFormed
  | .probeAnswer _ _ number _ => decide (1 ≤ number)
  | .restoreProbeAnswer _ _ number _ => decide (1 ≤ number)
  | _ => true

end Sys2Proof
end

