-- ==== Sys2Proof/Certificates/Slice0/Obligations.lean ====
section
/-! DEFINITION. The statements for the provers: what a step is, what the resets leave, what each command does, the
shared operations the commands are made of, and the invariants that every step keeps. -/

open Sys2Proof Sys2Proof.Machine

/-! ## A step -/

/-- A step with a command at the front of the queue is that command's effect, with the rest of the queue. -/
def Obligations.StepTakesFront : Prop :=
  ∀ (c : Instr) (rest : List Instr) (s : State),
    step { s with pending := c :: rest } = exec c { s with pending := rest }

/-- R1, R184, and the model's choice of log 2: on an empty queue a timer that has reached the end of its range
expires, the first such in the order of log 2: the loan timers of the bays, the timers of the ports, the drive timers
of the bays, the reset timer; where there is none, one microsecond passes, the time tag counts at the end of its
period, and every running timer is still within 1 ms of its earliest expiry. While the part is held in a hard reset
only the time base goes on (log 31). -/
def Obligations.StepIdles : Prop :=
  (∀ s : State, s.pending = [] → s.phase ≠ .running → step s = .next { s with now := s.now + 1 }) ∧
  ∀ s : State, s.pending = [] → s.phase = .running →
    (∀ (c : Instr) (timers : List (Instr × Option Nat)), overdueCommand s = some c →
      timers =
        (allBays.flatMap fun b =>
          [(.patienceTimerExpiry b, (s.bay b).patienceTimer), (.recallTimerExpiry b, (s.bay b).recallTimer)]) ++
        (allPorts.flatMap fun p =>
          [(.beatTimerExpiry p, (s.presence p).beatTimer), (.holdTimerExpiry p, (s.port p).holdTimer)]) ++
        (allBays.flatMap fun b =>
          [(.probeTimerExpiry b .a, ((s.drive b).lane .a).probe.map Probe.deadline),
            (.probeTimerExpiry b .b, ((s.drive b).lane .b).probe.map Probe.deadline)] ++
          (s.drive b).slots.map fun x => (.responseTimerExpiry b x.ctx, some x.deadline)) ++
        [(.resetTimerExpiry, s.softReset.map SoftPending.deadline)] →
      step s = exec c s ∧
      ∃ before t after, timers = before ++ (c, some t) :: after ∧ t + 1000 ≤ s.now ∧
        ∀ x ∈ before, ∀ u, x.2 = some u → s.now < u + 1000) ∧
    (overdueCommand s = none →
      step s = .next
        { s with
          now := s.now + 1,
          timeTag :=
            if s.timeTag.elapsed + 1 = resolutionUs s.timeTag.resolution ∨
                resolutionUs s.timeTag.resolution < s.timeTag.elapsed + 1 then
              { s.timeTag with value := s.timeTag.value + 1, elapsed := 0 }
            else { s.timeTag with elapsed := s.timeTag.elapsed + 1 } } ∧
      (∀ b t, (s.bay b).patienceTimer = some t ∨ (s.bay b).recallTimer = some t → s.now < t + 1000) ∧
      (∀ p t, (s.presence p).beatTimer = some t ∨ (s.port p).holdTimer = some t → s.now < t + 1000) ∧
      (∀ b l x, ((s.drive b).lane l).probe = some x → s.now < x.deadline + 1000) ∧
      (∀ b, ∀ x ∈ (s.drive b).slots, s.now < x.deadline + 1000) ∧
      (∀ r, s.softReset = some r → s.now < r.deadline + 1000))

/-- No command ends in a fault or a refusal. No command touches the queue of commands, or the microsecond time base:
that a command takes no time is log 2, and that both resets keep the time base is log 31, the model's choices. -/
def Obligations.CommandsGoOn : Prop :=
  (∀ (c : Instr) (s : State), Goes (exec c s)) ∧
  (∀ (c : Instr) (s t : State), exec c s = .next t → t.pending = s.pending ∧ t.now = s.now)

/-- Seven things that most commands leave alone: the roles and the meter interval change by CONFIG_LOAD_DONE alone; the
Access Table, the quotas, the enable set and the time tag by that and by the one request each that sets them, the time
tag also by RESET_ASSERT; and the reset phase by the hard reset's three events alone. -/
def Obligations.SettingsChangeByTheirRequests : Prop :=
  ∀ (c : Instr) (s t : State), exec c s = .next t → (∀ m, c ≠ .configLoadDone m) →
    t.journal.meterInterval = s.journal.meterInterval ∧
    (∀ p, (t.port p).role = (s.port p).role) ∧
    ((∀ p, c ≠ .accessSet p) → t.access = s.access) ∧
    ((∀ p, c ≠ .limitsSet p) → t.pool.quota = s.pool.quota) ∧
    ((∀ p, c ≠ .eventEnable p) → t.enabled = s.enabled) ∧
    (c ≠ .resetAssert → (∀ p, c ≠ .timeSet p) → t.timeTag = s.timeTag) ∧
    (c ≠ .resetAssert → c ≠ .resetRelease → t.phase = s.phase)

/-! ## Invariants -/

/-- R4, R10, R11: a step keeps the safety of the Loan Table: an EXCLUSIVE holder is alone at its bay, every serial was
granted and is not 0, and no two loans share one. -/
def Obligations.LoansSafeKept : Prop := ∀ s t : State, LoansSafe s → step s = .next t → LoansSafe t

/-- R5, R6, R153: a step keeps the admission discipline: one claim for each port at a bay, never beside a loan there,
and no loan or claim of a port that is not ACTIVE. -/
def Obligations.ClaimsSafeKept : Prop := ∀ s t : State, ClaimsSafe s → step s = .next t → ClaimsSafe t

/-- R136, R148, R170: a step keeps the Intake Queues, the Notice Lists and the journal ring within their bounds. -/
def Obligations.QueuesBoundedKept : Prop := ∀ s t : State, QueuesBounded s → step s = .next t → QueuesBounded t

/-- R187, R190: a step keeps ALERT asserted exactly while the part runs and an enabled event is raised. R184: a step
keeps the time tag's period under way. -/
def Obligations.OutputsKept : Prop :=
  (∀ s t : State, AlertRight s → step s = .next t → AlertRight t) ∧
  (∀ s t : State, PeriodRight s → step s = .next t → PeriodRight t)

/-! ## Resets -/

/-- Every invariant holds right after reset. R34, R89, R107, R131, R152, R169, R179, R190 with the defaults of R189:
the state after a hard reset without an image. (Carrier UP is log 4; the first PROBE's number is log 5; the time base
at 0 is log 31.) -/
def Obligations.ResetState : Prop :=
  (LoansSafe State.reset ∧ ClaimsSafe State.reset ∧ QueuesBounded State.reset ∧ AlertRight State.reset ∧
     PeriodRight State.reset) ∧
  (let s := State.reset
   s.phase = .running ∧ s.timeTag = { value := 0, resolution := .us64, elapsed := 0 } ∧
     (∀ b, s.bay b =
       { availability := .probing, holders := Vector.replicate 8 none, claims := [], phase := .none,
         patienceTimer := none, subject := none, recallTimer := none, trailing := 0, capacity := 0,
         patienceTime := 5000, recallTime := 30000 }) ∧
     s.nextSerial = 1 ∧ s.exhausted = false ∧ (∀ p b, s.right p b = .full) ∧
     (∀ c, (s.ctx c).state = .free) ∧ (∀ p, s.live p = 0 ∧ s.quota p = 12 ∧ s.replies p = []) ∧
     s.pool.lastGranted = 7 ∧
     (∀ b (p : Port), (s.service b).lists[p] = [] ∧ (s.service b).credits[p] = 4 ∧ (s.plan.bankA[b][p]).val = 4 ∧
       (s.plan.bankB[b][p]).val = 4) ∧
     (∀ b, (s.service b).reissue = [] ∧ (s.service b).bank = .a ∧ (s.service b).lastServed = 7) ∧
     s.plan.current = .a ∧ s.plan.swapPending = false ∧
     (∀ b l, ((s.drive b).lane l).state = .probing ∧ ((s.drive b).lane l).failures = 0 ∧
       ((s.drive b).lane l).probe = some { clear := true, deadline := 3200000 }) ∧
     (∀ b, (s.drive b).slots = [] ∧ (s.drive b).learnt = none ∧
       (s.drive b).policy =
         { checkMode := .enforce, timeout := .ms200, preferred := if b.val % 2 = 0 then .a else .b, failLimit := 3,
           retryCount := 2, firstRetry := .alternate, secondRetry := .same, retryMedium := false }) ∧
     (∀ p, s.port p =
       { carrier := .up, receiver := .idle, silent := true, intake := [], reserved := false, hold := .isOpen,
         repeatCount := 0, holdTimer := none, flowSlot := none, answers := [], notices := [], eventNews := false,
         tx := none, highWater := 12, lowWater := 4, holdTime := 20, repeatLimit := 8,
         role := if p = 0 then .supervisor else .node }) ∧
     (∀ p, s.presence p =
       { state := .new, enabled := true, beatTimer := none, miss := 0, lastBeat := none, early := 0,
         earlyFrozen := false, patternError := false, window := 500, missLimit := 6, earlyLimit := 16 }) ∧
     s.journal =
       { ring := [{ seq := 0, time := 0, entry := { note := .reset .hard } }], seq := 1, lost := 0,
         meterInterval := 4096 } ∧
     (∀ p : Port, s.portStats[p] = {}) ∧ (∀ b : Bay, s.bayStats[b] = {}) ∧
     s.raised = 0 ∧ s.enabled = BitVec.allOnes 77 ∧ s.alert = false ∧ s.softReset = none ∧ s.pending = [])

/-- R190: RESET_ASSERT stops the part: the links stand stopped and frames in transmission are cut off, ALERT is
deasserted and the time tag stands at 0; until the image has been read every frame and drive answer is discarded
without trace; RESET_RELEASE starts the reading. Log 29: the rest of the state waits for the load. -/
def Obligations.ResetAsserted : Prop :=
  (∀ s : State, ∃ t, exec .resetAssert s = .next t ∧
    (∀ p, t.port p = { s.port p with tx := none, receiver := .idle }) ∧
    t = { s with
      phase := .asserted, timeTag := { s.timeTag with value := 0, elapsed := 0 }, ports := t.ports, alert := false,
      softReset := none }) ∧
  (∀ s : State, s.phase = .asserted → exec .resetRelease s = .next { s with phase := .loading }) ∧
  (∀ s : State, s.phase ≠ .running →
    (∀ p bytes, exec (.frameReceive p bytes) s = .next s ∧ exec (.overLengthCut p bytes) s = .next s) ∧
    (∀ b l n r, exec (.probeAnswer b l n r) s = .next s ∧ exec (.restoreProbeAnswer b l n r) s = .next s) ∧
    (∀ b l c a r, exec (.driveAnswer b l c a r) s = .next s))

/-- R190 (with R34, R89, R107, R131, R152, R169, R179): what CONFIG_LOAD_DONE makes in its one event, from the settings
that the Configuration Loader supplies. The time base goes on as log 31 has it, and the probe numbers go on across the
reset as log 5 has it, the model's choices. The command last sent on a lane is held as its output (log 23). -/
def Obligations.HardResetDone : Prop :=
  ∀ (m : List Byte) (s : State), s.phase = .loading →
    ∃ u, exec (.configLoadDone m) s = .next (transmit u) ∧
      u.phase = .running ∧ u.now = s.now ∧ u.pending = s.pending ∧
      u.timeTag = { value := 0, resolution := (loadImage m).settings.resolution, elapsed := 0 } ∧
      (∀ b, u.bay b =
        { availability := .probing, holders := Vector.replicate 8 none, claims := [], phase := .none,
          patienceTimer := none, subject := none, recallTimer := none, trailing := 0, capacity := 0,
          patienceTime := ((loadImage m).settings.policies[b]).patienceTime,
          recallTime := ((loadImage m).settings.policies[b]).recallTime }) ∧
      u.nextSerial = 1 ∧ u.exhausted = false ∧ u.access = (loadImage m).settings.access ∧
      (∀ c, (u.ctx c).state = .free) ∧
      (∀ p, u.live p = 0 ∧ u.quota p = ((loadImage m).settings.limits[p]).quota ∧ u.replies p = []) ∧
      u.pool.lastGranted = 7 ∧
      (∀ b (p : Port), (u.service b).lists[p] = [] ∧
        (u.service b).credits[p] = (((loadImage m).settings.bankA)[b][p]).val) ∧
      (∀ b, (u.service b).reissue = [] ∧ (u.service b).bank = .a ∧ (u.service b).lastServed = 7) ∧
      u.plan =
        { bankA := (loadImage m).settings.bankA, bankB := (loadImage m).settings.bankA, current := .a,
          swapPending := false } ∧
      (∀ b l, ((u.drive b).lane l) =
        { state := .probing, failures := 0, probe := some { clear := true, deadline := s.now + 3200 * 1000 },
          number := ((s.drive b).lane l).number + 1,
          sent := some (.probe (((s.drive b).lane l).number + 1) true 2400) }) ∧
      (∀ b, (u.drive b).slots = [] ∧ (u.drive b).learnt = none ∧
        (u.drive b).policy = ((loadImage m).settings.policies[b]).drive) ∧
      (∀ p, u.port p =
        { carrier := (s.port p).carrier, receiver := .idle, silent := true, intake := [], reserved := false,
          hold := .isOpen, repeatCount := 0, holdTimer := none, flowSlot := none, answers := [], notices := [],
          eventNews := false, tx := none, highWater := ((loadImage m).settings.limits[p]).highWater,
          lowWater := ((loadImage m).settings.limits[p]).lowWater,
          holdTime := ((loadImage m).settings.limits[p]).holdTime,
          repeatLimit := ((loadImage m).settings.limits[p]).repeatLimit,
          role := ((loadImage m).settings.roles[p]).1 }) ∧
      (∀ p, u.presence p =
        { state := if ((loadImage m).settings.roles[p]).2 then .new else .off,
          enabled := ((loadImage m).settings.roles[p]).2, beatTimer := none, miss := 0, lastBeat := none, early := 0,
          earlyFrozen := false, patternError := false, window := ((loadImage m).settings.limits[p]).window,
          missLimit := ((loadImage m).settings.limits[p]).missLimit,
          earlyLimit := ((loadImage m).settings.limits[p]).earlyLimit }) ∧
      u.journal =
        { ring := [{ seq := 0, time := 0, entry := { note := .reset .hard } }], seq := 1, lost := 0,
          meterInterval := (loadImage m).settings.meterInterval } ∧
      (∀ p : Port, u.portStats[p] = {}) ∧ (∀ b : Bay, u.bayStats[b] = {}) ∧
      u.enabled = (loadImage m).settings.enabled ∧
      u.raised = (if (loadImage m).fault then eventBit .configFault else 0) ∧
      u.alert = ((loadImage m).fault && hasEvent (loadImage m).settings.enabled .configFault) ∧
      u.softReset = none

/-- R189, R197: which settings the Configuration Loader supplies, by the first finding that applies; the image is used
whole or not at all, and some enabled port is a supervisor: where none is, port 0 is made one and every other port
keeps its role and enable setting. R197: the sections follow one another, none twice and nothing after them; what each
of the eight gives, and that a wrong length or a field out of its range is a fault. R189: the defaults. -/
def Obligations.ImageFindings : Prop :=
  (∀ m : List Byte,
    ((m.length < 4 ∨ fieldAt m 0 4 ≠ 0x5B4C0E21) → loadImage m = { settings := defaultSettings, fault := false }) ∧
    (4 ≤ m.length → fieldAt m 0 4 = 0x5B4C0E21 →
      (m.length < 8 ∨ fieldAt m 4 1 ≠ 1 ∨ m.length < fieldAt m 6 2 ∨ fieldAt m 6 2 < 12 ∨
        (checkValue (m.take (fieldAt m 6 2 - 4))).toNat ≠ fieldAt m (fieldAt m 6 2 - 4) 4) →
      loadImage m = { settings := defaultSettings, fault := true }) ∧
    (8 ≤ m.length → fieldAt m 0 4 = 0x5B4C0E21 → fieldAt m 4 1 = 1 → fieldAt m 6 2 ≤ m.length →
      12 ≤ fieldAt m 6 2 →
      (checkValue (m.take (fieldAt m 6 2 - 4))).toNat = fieldAt m (fieldAt m 6 2 - 4) 4 →
      (∀ t, sectionsInto (fieldAt m 5 1) (slice m 8 (fieldAt m 6 2 - 12)) [] defaultSettings = some t →
        loadImage m = { settings := withSupervisor t, fault := false }) ∧
      (sectionsInto (fieldAt m 5 1) (slice m 8 (fieldAt m 6 2 - 12)) [] defaultSettings = none →
        loadImage m = { settings := defaultSettings, fault := true })) ∧
    ∃ p : Port, (loadImage m).settings.roles[p] = (Role.supervisor, true)) ∧
  (∀ t : Settings,
     ((∃ p : Port, t.roles[p] = (Role.supervisor, true)) → withSupervisor t = t) ∧
     ((∀ p : Port, t.roles[p] ≠ (Role.supervisor, true)) →
       withSupervisor t = { t with roles := t.roles.set 0 (Role.supervisor, true) })) ∧
  (∀ (n : Nat) (rest : List Byte) (seen : List Nat) (t : Settings),
     (sectionsInto 0 [] seen t = some t ∧ (rest ≠ [] → sectionsInto 0 rest seen t = none)) ∧
     (rest.length < 3 + fieldAt rest 1 2 ∨ fieldAt rest 0 1 ∈ seen → sectionsInto (n + 1) rest seen t = none) ∧
     (3 + fieldAt rest 1 2 ≤ rest.length → fieldAt rest 0 1 ∉ seen →
       (sectionInto (fieldAt rest 0 1) (slice rest 3 (fieldAt rest 1 2)) t = none →
         sectionsInto (n + 1) rest seen t = none) ∧
       (∀ u, sectionInto (fieldAt rest 0 1) (slice rest 3 (fieldAt rest 1 2)) t = some u →
         sectionsInto (n + 1) rest seen t =
           sectionsInto n (rest.drop (3 + fieldAt rest 1 2)) (fieldAt rest 0 1 :: seen) u))) ∧
  (∀ (x : List Byte) (t u : Settings),
     (∀ i, i = 0 ∨ 8 < i → sectionInto i x t = none) ∧
     (sectionInto 1 x t = some u ↔ x.length = 16 ∧ u = { t with roles := u.roles } ∧ ∀ p : Port,
       fieldAt x (2 * p.val) 1 = (if (u.roles[p]).1 = .supervisor then 1 else 0) ∧
       fieldAt x (2 * p.val + 1) 1 = if (u.roles[p]).2 = true then 1 else 0) ∧
     (sectionInto 2 x t = some u ↔ x.length = 80 ∧ u = { t with limits := u.limits } ∧
       ∀ p : Port, portLimitsOf (slice x (10 * p.val) 10) = some u.limits[p]) ∧
     (sectionInto 3 x t = some u ↔ x.length = 168 ∧ u = { t with policies := u.policies } ∧
       ∀ b : Bay, bayPolicyOf (slice x (14 * b.val) 14) = some u.policies[b]) ∧
     (sectionInto 4 x t = some u ↔ x.length = 96 ∧ u = { t with access := u.access } ∧ ∀ (b : Bay) (p : Port),
       fieldAt x (8 * b.val + p.val) 1 =
         match u.access[b][p] with
         | .none => 0
         | .read => 1
         | .full => 2) ∧
     (sectionInto 5 x t = some u ↔ x.length = 96 ∧ u = { t with bankA := u.bankA } ∧
       ∀ (b : Bay) (p : Port), fieldAt x (8 * b.val + p.val) 1 = (u.bankA[b][p]).val) ∧
     (sectionInto 6 x t = some u ↔ ∃ v, eventsOf x = some v ∧ u = { t with enabled := v }) ∧
     (sectionInto 7 x t = some u ↔
       x.length = 2 ∧ u = { t with meterInterval := BitVec.ofNat 16 (fieldAt x 0 2) }) ∧
     (sectionInto 8 x t = some u ↔ x.length = 1 ∧ u = { t with resolution := u.resolution } ∧
       fieldAt x 0 1 =
         match u.resolution with
         | .us1 => 0
         | .us8 => 1
         | .us64 => 2
         | .us512 => 3)) ∧
  ((∀ p : Port, defaultSettings.roles[p] = (if p = 0 then .supervisor else .node, true) ∧
      defaultSettings.limits[p] =
        { quota := 12, highWater := 12, lowWater := 4, holdTime := 20, repeatLimit := 8, missLimit := 6,
          earlyLimit := 16, window := 500 }) ∧
    (∀ b : Bay, defaultSettings.policies[b] =
        { drive :=
            { checkMode := .enforce, timeout := .ms200, preferred := if b.val % 2 = 0 then .a else .b, failLimit := 3,
              retryCount := 2, firstRetry := .alternate, secondRetry := .same, retryMedium := false },
          patienceTime := 5000, recallTime := 30000 } ∧
      ∀ p : Port, defaultSettings.access[b][p] = .full ∧ (defaultSettings.bankA[b][p]).val = 4) ∧
    defaultSettings.enabled = BitVec.allOnes 77 ∧ defaultSettings.meterInterval = 4096 ∧
    defaultSettings.resolution = .us64)

/-- R191 (with R35, R62, R89, R108, R131, R152, R169, R179): what the soft reset makes in its one event, when a start
condition holds; the reset timer's expiry starts it too. Log 9: the SOFT_RESET row acts only while a start condition
holds. R191: the clean-up of the port that asked first may take away its RESET_PART answer: the reset then starts in the
same event. While that answer is held a clean-up starts nothing, whatever has become of a later requester's answer,
whose departure is the start condition (FrameLeaves says so). The time base goes on as log 31 has it, and the probe
numbers as log 5 has it, the model's choices. The command last sent on a lane is held as its output (log 23). -/
def Obligations.SoftResetDone : Prop :=
  (∀ (r : SoftPending) (s : State), s.phase = .running → s.softReset = some r →
     (r.deadline ≤ s.now → exec .resetTimerExpiry s = exec .softReset s) ∧
     ((¬ (resetAnswerHeld (s.port r.first)) ∨ r.deadline ≤ s.now) →
     ∃ u, exec .softReset s = .next (transmit u) ∧
       u.phase = .running ∧ u.now = s.now ∧ u.pending = s.pending ∧ u.timeTag = s.timeTag ∧
       (∀ b, u.bay b =
         { availability := .probing, holders := Vector.replicate 8 none, claims := [], phase := .none,
           patienceTimer := none, subject := none, recallTimer := none, trailing := 0, capacity := 0,
           patienceTime := (s.bay b).patienceTime, recallTime := (s.bay b).recallTime }) ∧
       u.nextSerial = s.nextSerial ∧ u.exhausted = s.exhausted ∧ u.access = s.access ∧
       (∀ c, (u.ctx c).state = .free) ∧ (∀ p, u.live p = 0 ∧ u.quota p = s.quota p ∧ u.replies p = []) ∧
       u.pool.lastGranted = 7 ∧
       (∀ b (p : Port), (u.service b).lists[p] = [] ∧
         (u.service b).credits[p] = ((s.plan.bank s.plan.current)[b][p]).val) ∧
       (∀ b, (u.service b).reissue = [] ∧ (u.service b).bank = s.plan.current ∧ (u.service b).lastServed = 7) ∧
       u.plan = { s.plan with swapPending := false } ∧
       (∀ b l, ((u.drive b).lane l) =
         { state := .probing, failures := 0, probe := some { clear := true, deadline := s.now + 3200 * 1000 },
           number := ((s.drive b).lane l).number + 1,
           sent := some (.probe (((s.drive b).lane l).number + 1) true 2400) }) ∧
       (∀ b, (u.drive b).slots = [] ∧ (u.drive b).learnt = none ∧ (u.drive b).policy = (s.drive b).policy) ∧
       (∀ p, u.port p =
         { s.port p with
           receiver := if (s.port p).receiver = .idle then .idle else .ignoring, silent := true, intake := [],
           reserved := false, hold := .isOpen, repeatCount := 0, holdTimer := none, flowSlot := none, answers := [],
           notices := [], eventNews := false, tx := none }) ∧
       (∀ p, u.presence p =
         { s.presence p with
           state := if (s.presence p).enabled then .new else .off, beatTimer := none, miss := 0, lastBeat := none,
           early := 0, earlyFrozen := false, patternError := false }) ∧
       u.journal =
         (if s.journal.ring.length < 512 then
           { s.journal with
             ring := s.journal.ring ++
               [{ seq := s.journal.seq, time := s.timeTag.value,
                  entry := { note := .reset .soft, port := some r.first } }],
             seq := s.journal.seq + 1 }
         else { s.journal with seq := s.journal.seq + 1, lost := satAdd s.journal.lost 1 }) ∧
       (∀ p : Port, u.portStats[p] = {}) ∧ (∀ b : Bay, u.bayStats[b] = {}) ∧
       u.enabled = s.enabled ∧
       u.raised =
         (if s.journal.ring.length < 383 then 0
         else if s.journal.ring.length < 512 then eventBit .journalHigh
         else eventBit .journalLost ||| eventBit .journalHigh) ∧
       u.alert = shareEvent u.raised s.enabled ∧ u.softReset = none)) ∧
  (∀ s : State,
     (s.softReset = none → startIfAnswerGone s = s) ∧
     (∀ r, s.softReset = some r →
       (resetAnswerHeld (s.port r.first) →
         startIfAnswerGone s = s ∧ (s.now < r.deadline → exec .softReset s = .next s)) ∧
       (¬ (resetAnswerHeld (s.port r.first)) → s.phase = .running →
         exec .softReset s = .next (transmit (startIfAnswerGone s)))) ∧
     (∀ p, resetAnswerHeld (s.port p) ↔
       (∃ x ∈ (s.port p).answers, x.resetPart = true) ∨
         ∃ f, (s.port p).tx = some { source := .answer true, frame := f }))

/-! ## Links -/

/-- R133: the link reports a change of carrier. -/
def Obligations.CarrierReported : Prop :=
  ∀ (p : Port) (s : State), s.phase = .running →
    ((s.port p).carrier = .up →
      exec (.carrierDown p) s = .next (transmit
        ((s.modPort p fun n => { n with carrier := .down, receiver := .idle, silent := true }).modPortStats p fun t =>
          { t with carrierDrops := satAdd t.carrierDrops 1 }))) ∧
    ((s.port p).carrier = .down →
      exec (.carrierUp p) s = .next (transmit (s.modPort p fun n => { n with carrier := .up })))

/-- R134: a frame that passes its length field, or 65,600 bytes, is over-length; one that is short, names a length
below 28 or carries a wrong check value is a check-value discard; while the port is OFF neither is counted. The bytes
are those in the receive buffer and those that arrive (log 11); the order of the first two rows is log 12. R134: while
the rest of a frame is ignored, bytes that arrive change nothing, and its end mark frees the receiver. A frame that
arrives in pieces does what it does when it arrives at once. -/
def Obligations.FramesDiscarded : Prop :=
  (∀ (p : Port) (bytes : List Byte) (s : State), s.phase = .running → (s.port p).carrier = .up →
    ((s.port p).receiver = .ignoring →
      exec (.frameReceive p bytes) s = .next (transmit (s.modPort p fun n => { n with receiver := .idle })) ∧
      exec (.overLengthCut p bytes) s = .next (transmit s)) ∧
    (∀ before, (s.port p).receiver = .receiving before →
      exec (.frameReceive p bytes) s =
        exec (.frameReceive p (before ++ bytes)) (s.modPort p fun n => { n with receiver := .idle }) ∧
      exec (.overLengthCut p bytes) s =
        exec (.overLengthCut p (before ++ bytes)) (s.modPort p fun n => { n with receiver := .idle }))) ∧
  ∀ (p : Port) (before bytes all : List Byte) (s : State),
    s.phase = .running → (s.port p).carrier = .up →
    ((s.port p).receiver = .receiving before ∨ (s.port p).receiver = .idle ∧ before = []) → all = before ++ bytes →
    ((65600 < all.length ∨ 4 ≤ all.length ∧ fieldAt all 0 4 < all.length) →
      (exec (.frameReceive p bytes) s = .next (transmit
        (if (s.presence p).state = .off then s.modPort p fun n => { n with receiver := .idle }
        else (s.modPort p fun n => { n with receiver := .idle }).modPortStats p fun t =>
          { t with lengthDiscards := satAdd t.lengthDiscards 1 })) ∧
      exec (.overLengthCut p bytes) s = .next (transmit
        (if (s.presence p).state = .off then s.modPort p fun n => { n with receiver := .ignoring }
        else (s.modPort p fun n => { n with receiver := .ignoring }).modPortStats p fun t =>
          { t with lengthDiscards := satAdd t.lengthDiscards 1 })))) ∧
    (all.length ≤ 65600 → (4 ≤ all.length → all.length ≤ fieldAt all 0 4) →
      exec (.overLengthCut p bytes) s = .next (transmit (s.modPort p fun n => { n with receiver := .receiving all })) ∧
      ((all.length < 4 ∨ all.length < fieldAt all 0 4 ∨ fieldAt all 0 4 < 28 ∨
          (checkValue (all.take (all.length - 4))).toNat ≠ fieldAt all (all.length - 4) 4) →
        exec (.frameReceive p bytes) s = .next (transmit
          (if (s.presence p).state = .off then s.modPort p fun n => { n with receiver := .idle }
          else (s.modPort p fun n => { n with receiver := .idle }).modPortStats p fun t =>
            { t with checkDiscards := satAdd t.checkDiscards 1 }))))

/-- R192, R134: the Link Receiver reads back every frame that a node can send: the kind, every field and the payload.
R193: an event set read from ten bytes is the set those bytes are made from. R188: no other bytes are an event set: a
wrong length, or a bit outside the 77 events, is none. R193: the number of each event, and that event n is bit 7 − (n mod
8) of byte n div 8. R192: the bytes of a number, most significant first; the check value; the bytes of a part-to-node
frame, with its kind codes. R193: the status codes. -/
def Obligations.BytesReadBack : Prop :=
  (∀ f : InFrame, f.fields.wellFormed = true → judgeFrame (inBytes f) = .accepted f) ∧
  ((∀ x : EventSet, eventsOf (eventBytes x) = some x) ∧
    (∀ (x : List Byte) (v : EventSet), eventsOf x = some v → x = eventBytes v) ∧
    (∀ x : List Byte, (∃ v, eventsOf x = some v) ↔ x.length = 10 ∧ ∃ y : Byte, x[9]? = some y ∧ y.toNat % 8 = 0) ∧
    ∀ (x : EventSet) (e : Event) (n : Nat),
      (n =
        match e with
        | .portLapsed p => p.val
        | .beatErratic p => 8 + p.val
        | .intakeOverrun p => 16 + p.val
        | .laneDown b .a => 24 + 2 * b.val
        | .laneDown b .b => 25 + 2 * b.val
        | .bayFaulted b => 48 + b.val
        | .recallForced b => 60 + b.val
        | .journalHigh => 72
        | .journalLost => 73
        | .planAdopted => 74
        | .serialExhausted => 75
        | .configFault => 76) →
      (eventBytes x).length = 10 ∧
        ((eventBytes x)[n / 8]?).map (fun y => y.getLsbD (7 - n % 8)) = some (hasEvent x e)) ∧
  (∀ n v : Nat, (bytesOf n v).length = n ∧ natOf (bytesOf n v) = v % 256 ^ n ∧
    ∀ i, i < n → (bytesOf n v)[i]? = some (byte (v / 256 ^ (n - 1 - i)))) ∧
  (∀ bytes : List Byte, checkValue bytes =
    ~~~((bytes.flatMap fun x => (List.range 8).map fun i => x.getMsbD i).foldl
      (fun (r : Word32) bit => (r <<< 1) ^^^ (if r.msb = bit then 0#32 else 0x04C11DB7#32)) (BitVec.allOnes 32))) ∧
  (∀ (f : OutFrame) (body : List Byte),
    body = bytesOf 4 (28 + f.payload.length) ++ [outKindCode f.kind, statusCode f.status] ++ bytesOf 2 f.tag.toNat ++
      [f.bay, f.laneAttempts] ++ bytesOf 2 f.count.toNat ++ bytesOf 6 f.serial.toNat ++ f.detail ++ f.payload →
    outBytes f = body ++ bytesOf 4 (checkValue body).toNat) ∧
  ([OutKind.answer, .reply, .notice, .hold, .resume, .event].map outKindCode =
      [0x81, 0x82, 0x83, 0x84, 0x85, 0x86] ∧
    [Status.ok, .granted, .waiting, .busy, .denied, .held, .alreadyWaiting, .notWaiting, .stale, .notAdmitted, .lapsed,
        .faulted, .withdrawn, .range, .format, .length, .dupTag, .notPermitted, .bankInUse, .swapPending, .portBusy,
        .bayBusy, .exhausted, .good, .mediumError, .checkFail, .noResponse, .laneFault, .loanEnded, .revoked,
        .bayFaulted].map statusCode =
      [0x00, 0x01, 0x02, 0x10, 0x11, 0x12, 0x13, 0x14, 0x15, 0x20, 0x21, 0x28, 0x29, 0x30, 0x31, 0x32, 0x33, 0x34, 0x40,
        0x41, 0x42, 0x43, 0x48, 0x80, 0x81, 0x82, 0x83, 0x84, 0x85, 0x86, 0x87])

/-- R134, R155, R161, R166: the rows HELLO, BEAT and PATTERN are the arrival of such a frame (log 13). -/
def Obligations.ArrivalRowsAreFrames : Prop :=
  ∀ (p : Port) (f : FrameFields) (s : State), f.wellFormed = true → LinkReady s p →
    exec (.hello p f) s = exec (.frameReceive p (inBytes { kind := kindHello, fields := f })) s ∧
    exec (.beat p f) s = exec (.frameReceive p (inBytes { kind := kindBeat, fields := f })) s ∧
    exec (.pattern p f) s = exec (.frameReceive p (inBytes { kind := kindPattern, fields := f })) s

/-- R135, R136, R158: an accepted frame that is neither HELLO nor BEAT, at a port that is NEW, ACTIVE or LAPSED,
clears SILENT, is counted, is a sign of life for an ACTIVE port, and enters the Intake Queue where both limits allow
it; where they do not, it is lost, counted as an overrun, and INTAKE_OVERRUN is raised. R135, R157, R161: an accepted
frame at an OFF port is discarded without counting; one at a TEST port that is no PATTERN, and a BEAT at a NEW or
LAPSED port, is counted, clears SILENT, and does nothing else. The frame may have arrived at once or in pieces (log
11). -/
def Obligations.FramesEnterIntake : Prop :=
  (∀ (p : Port) (before bytes : List Byte) (f : InFrame) (s b : State), s.phase = .running →
     (s.port p).carrier = .up →
     ((s.port p).receiver = .receiving before ∨ (s.port p).receiver = .idle ∧ before = []) →
     judgeFrame (before ++ bytes) = .accepted f →
     f.kind ≠ kindHello → f.kind ≠ kindBeat → (s.presence p).state ≠ .off → (s.presence p).state ≠ .test →
     b = (((s.modPort p fun n => { n with receiver := .idle, silent := false }).modPortStats p fun t =>
           { t with accepted := satAdd t.accepted 1 }).modPresence p fun m =>
         if m.state = .active then { m with miss := 0, beatTimer := some (s.now + m.window * 1000) } else m) →
     ((s.port p).intake.length < 32 ∧ occupancy (s.port p).intake + (28 + f.fields.payload.length) ≤ 262144 →
       exec (.frameReceive p bytes) s =
         .next (transmit (b.modPort p fun n => flowAct { n with intake := n.intake ++ [f] }))) ∧
     (¬ ((s.port p).intake.length < 32 ∧ occupancy (s.port p).intake + (28 + f.fields.payload.length) ≤ 262144) →
       exec (.frameReceive p bytes) s =
         .next (transmit (raiseEvent (.intakeOverrun p)
           (b.modPortStats p fun t => { t with overruns := satAdd t.overruns 1 }))))) ∧
  (∀ (p : Port) (before bytes : List Byte) (f : InFrame) (s : State), s.phase = .running →
     (s.port p).carrier = .up →
     ((s.port p).receiver = .receiving before ∨ (s.port p).receiver = .idle ∧ before = []) →
     judgeFrame (before ++ bytes) = .accepted f →
     ((s.presence p).state = .off →
       exec (.frameReceive p bytes) s = .next (transmit (s.modPort p fun n => { n with receiver := .idle }))) ∧
     ((s.presence p).state = .test ∧ f.kind ≠ kindPattern ∨
         f.kind = kindBeat ∧ ((s.presence p).state = .new ∨ (s.presence p).state = .lapsed) →
       exec (.frameReceive p bytes) s = .next (transmit
         ((s.modPort p fun n => { n with receiver := .idle, silent := false }).modPortStats p fun t =>
           { t with accepted := satAdd t.accepted 1 }))))

/-- R142, R144: what Flow Control does at a change of the intake occupancy. R137, R138: the answer to the head goes to
the tail of the Answer Queue, the head leaves the Intake Queue, its reservation is released, and Flow Control acts;
nothing else changes. R143: the hold timer's expiry, by the occupancy and the repeat count. -/
def Obligations.IntakeFlows : Prop :=
  (∀ n : NodePort,
     (n.hold = .isOpen → n.highWater * 16384 ≤ occupancy n.intake →
       flowAct n = { n with flowSlot := some (.hold n.holdTime), hold := .held, repeatCount := 1 }) ∧
     (n.hold = .isOpen → occupancy n.intake < n.highWater * 16384 → flowAct n = n) ∧
     (n.hold ≠ .isOpen → n.lowWater * 16384 < occupancy n.intake → flowAct n = n) ∧
     (n.hold ≠ .isOpen → occupancy n.intake ≤ n.lowWater * 16384 →
       (∀ t, n.flowSlot = some (.hold t) →
         flowAct n = { n with flowSlot := none, holdTimer := none, repeatCount := 0, hold := .isOpen }) ∧
       ((n.flowSlot = none ∨ n.flowSlot = some .resume) →
         flowAct n = { n with flowSlot := some .resume, holdTimer := none, repeatCount := 0, hold := .isOpen }))) ∧
  (∀ (p : Port) (frame : OutFrame) (s : State),
     answerHead p frame s =
       s.modPort p fun n =>
         flowAct
           { n with
             answers := n.answers ++ [{ frame := frame }], intake := n.intake.drop 1, reserved := false }) ∧
  (∀ (p : Port) (t : Nat) (s : State), s.phase = .running → (s.port p).holdTimer = some t → t ≤ s.now →
     ((s.port p).lowWater * 16384 < occupancy (s.port p).intake → (s.port p).repeatCount < (s.port p).repeatLimit →
       exec (.holdTimerExpiry p) s = .next (transmit (s.modPort p fun n =>
         { n with holdTimer := none, flowSlot := some (.hold n.holdTime), repeatCount := n.repeatCount + 1 }))) ∧
     ((s.port p).lowWater * 16384 < occupancy (s.port p).intake → (s.port p).repeatLimit ≤ (s.port p).repeatCount →
       exec (.holdTimerExpiry p) s =
         .next (transmit (s.modPort p fun n => { n with holdTimer := none, hold := .spent }))) ∧
     ((s.port p).hold ≠ .isOpen → occupancy (s.port p).intake ≤ (s.port p).lowWater * 16384 →
       exec (.holdTimerExpiry p) s = .next (transmit (s.modPort p fun n =>
         { n with
           holdTimer := none, repeatCount := 0, hold := .isOpen,
           flowSlot := match n.flowSlot with
             | some (.hold _) => none
             | _ => some .resume }))))

/-- R146: which frame an idle Port Transmitter takes, what the taking does, and that every port's transmitter acts on
its own port alone; a busy transmitter, or one whose carrier is DOWN, takes nothing. Log 24: an answer that is taken
leaves the list, and holds its entry by being the frame in transmission. R85, R193, R194: the fields of a NOTICE and of
a REPLY. -/
def Obligations.TransmittersTake : Prop :=
  (∀ (s : State) (p : Port),
    ((s.port p).tx ≠ none ∨ (s.port p).carrier = .down → takeFrame s p = s) ∧
    ((s.port p).tx = none → (s.port p).carrier = .up →
      (∀ t, (s.port p).flowSlot = some (.hold t) →
        takeFrame s p = s.modPort p fun n =>
          { n with
            flowSlot := none,
            tx := some { source := .hold, frame := { kind := .hold, detail := [t, 0, 0, 0, 0, 0] } } }) ∧
      ((s.port p).flowSlot = some .resume →
        takeFrame s p = s.modPort p fun n =>
          { n with flowSlot := none, tx := some { source := .resume, frame := { kind := .resume } } }) ∧
      ((s.port p).flowSlot = none →
        (∀ a rest, (s.port p).answers = a :: rest →
          takeFrame s p = s.modPort p fun n =>
            { n with answers := rest, tx := some { source := .answer a.resetPart, frame := a.frame } }) ∧
        ((s.port p).answers = [] →
          (∀ x rest, (s.port p).notices = x :: rest →
            takeFrame s p = s.modPort p fun n =>
              { n with notices := rest, tx := some { source := .notice, frame := noticeFrame x } }) ∧
          ((s.port p).notices = [] →
            ((s.port p).role = .supervisor → (s.port p).eventNews = true →
              takeFrame s p = s.modPort p fun n =>
                { n with
                  eventNews := false,
                  tx := some
                    { source := .event,
                      frame := { kind := .event, payload := eventBytes (s.raised &&& s.enabled) } } }) ∧
            ((s.port p).role = .node ∨ (s.port p).eventNews = false →
              (∀ c rest, s.replies p = c :: rest →
                takeFrame s p = (s.modReplies p fun _ => rest).modPort p fun n =>
                  { n with tx := some { source := .reply c, frame := replyFrame (s.ctx c) } }) ∧
              (s.replies p = [] → takeFrame s p = s))))))) ∧
  (∀ s : State,
    (∀ p, (transmit s).port p = (takeFrame s p).port p ∧ (transmit s).replies p = (takeFrame s p).replies p) ∧
    transmit s =
      { s with ports := (transmit s).ports, pool := { s.pool with replies := (transmit s).pool.replies } }) ∧
  (∀ x : Notice, noticeFrame x =
    { kind := .notice, status := .ok, tag := x.tag, bay := byte x.bay.val, laneAttempts := 0, count := 0,
      serial := x.serial,
      detail :=
        [match x.kind with
          | .granted => 1
          | .recall => 2
          | .revoked => 3
          | .refused => 4,
        match x.cause with
          | .none => 0
          | .recallExpired => 1
          | .lapse => 2
          | .rehello => 3
          | .disabled => 4
          | .forced => 5
          | .withdrawn => 6
          | .fault => 7
          | .access => 8
          | .release => 9,
        0, 0, 0, 0],
      payload := [] }) ∧
  (∀ x : Context, replyFrame x =
    { kind := .reply,
      status :=
        match x.outcome with
        | .good => .good
        | .mediumError => .mediumError
        | .checkFail => .checkFail
        | .noResponse => .noResponse
        | .laneFault => .laneFault
        | .loanEnded => .loanEnded
        | .revoked => .revoked
        | .bayFaulted => .bayFaulted,
      tag := x.tag, bay := byte x.bay.val,
      laneAttempts :=
        byte (match x.lane with
          | none => x.attempts
          | some .a => 16 + x.attempts
          | some .b => 32 + x.attempts),
      count := BitVec.ofNat 16 x.count, serial := x.serial,
      detail :=
        [byte ((if x.trailing = true then 1 else 0) + (if x.checkWarn = true then 2 else 0)),
        match x.endCause with
          | .none => 0
          | .release => 1
          | .revoked => 2
          | .fault => 3,
        0, 0, 0, 0],
      payload := if x.kind = .read ∧ x.outcome = .good then x.data.take (x.count * 4096) else [] })

/-- R146, R142, R86: the last byte of a frame leaves, by the frame's source. R191: while a soft reset is pending, an
ordinary answer only leaves, and the RESET_PART answer of the first or of a later requester starts the reset. Log 24:
an answer in transmission holds its entry by being the frame in transmission. Log 27: the hold timer takes the hold
time set at that moment. Log 33: it starts in every state HELD, also where the hold of that frame has ended and a later
one has begun. Log 6: the fields of the context that becomes FREE are cleared. -/
def Obligations.FrameLeaves : Prop :=
  ∀ (p : Port) (x : TxFrame) (s : State), s.phase = .running → (s.port p).carrier = .up → (s.port p).tx = some x →
    (x.source = .hold →
      exec (.frameSent p) s = .next (transmit
        ((s.modPort p fun n =>
            if n.hold = .held then { n with tx := none, holdTimer := some (s.now + n.holdTime.toNat * 1000) }
            else { n with tx := none }).modPortStats p fun t => { t with holdsSent := satAdd t.holdsSent 1 }))) ∧
    ((x.source = .resume ∨ x.source = .notice ∨ x.source = .event ∨ x.source = .answer false ∨
        x.source = .answer true ∧ s.softReset = none) →
      exec (.frameSent p) s = .next (transmit (s.modPort p fun n => { n with tx := none }))) ∧
    (∀ c, x.source = .reply c →
      exec (.frameSent p) s = .next (transmit (handOut
        ((s.modPort p fun n => { n with tx := none }).modCtx c fun _ => { state := .free })))) ∧
    (∀ r, s.softReset = some r → x.source = .answer true →
      exec (.frameSent p) s =
        .next (transmit (performSoftReset r.first (s.modPort p fun n => { n with tx := none }))))

/-! ## Presence -/

/-- R155, R135: a well-formed HELLO admits a NEW or LAPSED port. R155, R156, R157, R140: a HELLO that is not well
formed is answered FORMAT and changes nothing else; one that finds no free entry, and any HELLO in TEST, is discarded
without answer; each is accepted first, as R135 gives. At an OFF port it is discarded without counting. Log 15: the
FORMAT answer's bay field is 0. Log 13: at a receiver that is not idle, the frame under way is dropped uncounted. -/
def Obligations.HelloAnswered : Prop :=
  (∀ (p : Port) (f : FrameFields) (s : State), s.phase = .running → (s.port p).carrier = .up →
     ((s.presence p).state = .new ∨ (s.presence p).state = .lapsed) → 0 < freeEntries (s.port p) →
     f.flags = 0 → f.bay = 0 → f.arg = 0 → f.count = 0 → f.serial = 0 → f.block = 0 → f.payload = [] →
     ∃ u v, exec (.hello p f) s = .next (transmit v) ∧
       u = appendRecord { note := .port .admission, port := some p }
         (((s.modPort p fun n => { n with receiver := .idle, silent := false }).modPortStats p fun t =>
             { t with accepted := satAdd t.accepted 1 }).modPresence p fun m =>
           { m with
             state := .active, miss := 0, early := 0, earlyFrozen := false, lastBeat := none,
             beatTimer := some (s.now + m.window * 1000) }) ∧
       v = u.modPort p fun n =>
         { n with
           answers := n.answers ++
             [{ frame :=
                 { kind := .answer, status := .ok, tag := f.tag,
                   detail := [0, roleCode (s.port p).role] ++ bytesOf 2 (s.presence p).window ++
                     [byte (s.presence p).missLimit, 0] } }],
           eventNews := n.eventNews ||
             (decide ((s.port p).role = .supervisor) && shareEvent u.raised u.enabled) }) ∧
  (∀ (p : Port) (f : FrameFields) (s b : State), s.phase = .running → (s.port p).carrier = .up →
     b = (((s.modPort p fun n => { n with receiver := .idle, silent := false }).modPortStats p fun t =>
           { t with accepted := satAdd t.accepted 1 }).modPresence p fun m =>
         if m.state = .active then { m with miss := 0, beatTimer := some (s.now + m.window * 1000) } else m) →
     ((s.presence p).state = .off →
       exec (.hello p f) s = .next (transmit (s.modPort p fun n => { n with receiver := .idle }))) ∧
     ((s.presence p).state = .test → exec (.hello p f) s = .next (transmit b)) ∧
     ((s.presence p).state ≠ .off → freeEntries (s.port p) = 0 → helloOk f = false →
       exec (.hello p f) s = .next (transmit b)) ∧
     ((s.presence p).state = .new ∨ (s.presence p).state = .lapsed → freeEntries (s.port p) = 0 →
       exec (.hello p f) s = .next (transmit b)) ∧
     ((s.presence p).state = .new ∨ (s.presence p).state = .active ∨ (s.presence p).state = .lapsed →
       0 < freeEntries (s.port p) →
       (f.flags ≠ 0 ∨ f.bay ≠ 0 ∨ f.arg ≠ 0 ∨ f.count ≠ 0 ∨ f.serial ≠ 0 ∨ f.block ≠ 0 ∨ f.payload ≠ []) →
       exec (.hello p f) s = .next (transmit (b.modPort p fun n =>
         { n with answers := n.answers ++ [{ frame := { kind := .answer, status := .format, tag := f.tag } }] }))))

/-- R156, R46, R87, R149: a well-formed HELLO at an ACTIVE port ends every loan and claim the port held, and its
contexts as a clean-up does; the port stays ACTIVE with its counters cleared and its beat timer restarted, and no other
port's presence changes. A pending soft reset whose first requester's answer the clean-up has removed starts in the same
event (R191, log 9). Log 13: at a receiver that is not idle, the frame under way is dropped uncounted. The premise is the
invariant of the Loan Table. R87: a clean-up at the Context Pool: each ISSUED context of the port is
orphaned and no longer counted in its live-context count; each context of its Reply List becomes FREE (log 6) and is
counted as a lost reply; the list is empty, and the FREE contexts are handed out. R156 steps 5 to 7: a PORT record
carries the loans revoked and the claims removed; the OK answer carries the loans dropped, the role, the beat window and
the miss limit; a supervisor is owed an EVENT frame where an enabled event is raised. R46: a clean-up at the Loan Table,
bay by bay, and R149: at the Node Port. -/
def Obligations.HelloEndsTheOldNode : Prop :=
  (∀ (p : Port) (f : FrameFields) (s a t : State) (loans claims : Nat), ClaimsSafe s → s.phase = .running →
     (s.port p).carrier = .up → (s.presence p).state = .active →
     f.flags = 0 → f.bay = 0 → f.arg = 0 → f.count = 0 → f.serial = 0 → f.block = 0 → f.payload = [] →
     a = (((s.modPort p fun n => { n with receiver := .idle, silent := false }).modPortStats p fun t =>
           { t with accepted := satAdd t.accepted 1 }).modPresence p fun m =>
         { m with miss := 0, beatTimer := some (s.now + m.window * 1000) }) →
     t = (cleanLoans .rehello p (a.modPort p cleanPort)).state →
     loans = (allBays.filter fun b => decide ((s.bay b).holder p ≠ none)).length →
     claims = (allBays.filter fun b => (s.bay b).claims.any fun x => decide (x.port = p)).length →
     ∃ u v, exec (.hello p f) s = .next (transmit (startIfAnswerGone u)) ∧
       v = appendRecord
         { note := .port .rehello, port := some p, count1 := BitVec.ofNat 32 loans, count2 := BitVec.ofNat 32 claims }
         ((cleanContexts p t).modPresence p fun m =>
           { m with
             miss := 0, early := 0, earlyFrozen := false, lastBeat := none,
             beatTimer := some (s.now + m.window * 1000) }) ∧
       u = (v.modPort p fun n =>
         { n with
           answers := n.answers ++
             [{ frame :=
                 { kind := .answer, status := .ok, tag := f.tag,
                   detail := [byte loans, roleCode (s.port p).role] ++ bytesOf 2 (s.presence p).window ++
                     [byte (s.presence p).missLimit, 0] } }],
           eventNews := n.eventNews ||
             (decide ((s.port p).role = .supervisor) && shareEvent v.raised v.enabled) }) ∧
       (∀ b, (u.bay b).holder p = none ∧ ¬ waitsAt u p b) ∧ (u.port p).intake = [] ∧
       (u.presence p).state = .active ∧ (u.presence p).miss = 0 ∧ (u.presence p).early = 0 ∧
       (u.presence p).lastBeat = none ∧ (u.presence p).beatTimer = some (s.now + (s.presence p).window * 1000) ∧
       (∀ q, q ≠ p → u.presence q = s.presence q) ∧ u.softReset = s.softReset ∧
       u.pool = (cleanContexts p t).pool ∧ u.portStats = (cleanContexts p t).portStats) ∧
  (∀ (cause : Cause) (p : Port),
     (∀ s : State, cleanLoans cause p s =
       allBays.foldl (cleanBay cause p) { state := s, loans := 0, claims := 0 }) ∧
     (∀ (t : CleanUp) (b : Bay),
       (∀ h, (t.state.bay b).holder p = some h →
         cleanBay cause p t b =
           { state := settleBay b (revokeLoan b cause p h t.state), loans := t.loans + 1, claims := t.claims }) ∧
       ((t.state.bay b).holder p = none →
         (∀ x, (t.state.bay b).claims.find? (fun x => decide (x.port = p)) = some x →
           cleanBay cause p t b =
             { state := settleBay b (refuseClaim b cause true x t.state), loans := t.loans,
               claims := t.claims + 1 }) ∧
         (¬ waitsAt t.state p b → cleanBay cause p t b = t)))) ∧
  (∀ n : NodePort, cleanPort n =
     { n with
       intake := [], reserved := false, answers := [], notices := [], flowSlot := none, holdTimer := none,
       repeatCount := 0, hold := .isOpen, eventNews := false,
       receiver := if n.receiver = .idle then .idle else .ignoring }) ∧
  (∀ (p : Port) (s : State), ∃ w, cleanContexts p s = handOut w ∧
     (∀ c, w.ctx c =
       if c ∈ s.replies p then { state := .free }
       else if (s.ctx c).state = .issued ∧ (s.ctx c).port = p then { s.ctx c with orphaned := true }
       else s.ctx c) ∧
     w.replies p = [] ∧ (∀ q, q ≠ p → w.replies q = s.replies q) ∧
     w.live p = s.live p - (allContexts.filter fun c =>
       decide ((s.ctx c).state = .issued ∧ (s.ctx c).port = p ∧ (s.ctx c).orphaned = false)).length ∧
     (∀ q, q ≠ p → w.live q = s.live q) ∧
     (w.portStats[p]).repliesLost = satAdd (s.portStats[p]).repliesLost (s.replies p).length ∧
     w = { s with
       portStats := s.portStats.set p { s.portStats[p] with repliesLost := (w.portStats[p]).repliesLost },
       pool := { s.pool with contexts := w.pool.contexts, live := w.pool.live, replies := w.pool.replies } })

/-- R161, R158, R135: a BEAT at an ACTIVE port: the sign of life, the new last-beat time, and the early counter, which
raises BEAT_ERRATIC and is frozen when it reaches the early limit. R166, R135: a PATTERN at a TEST port is compared
with the payload its seed generates; a mismatch, or a frame that is not well formed, sets PATTERN_ERROR and is counted
once. R166: the payload of seed 1 begins with 0x00, 0x00, 0x00, 0x09, and that of seed 0 is zeros. Log 13: at a receiver
that is not idle, the frame under way is dropped uncounted. -/
def Obligations.BeatsAndPatternsJudged : Prop :=
  (∀ (p : Port) (f : FrameFields) (s b : State), s.phase = .running → (s.port p).carrier = .up →
     (s.presence p).state = .active →
     b = (((s.modPort p fun n => { n with receiver := .idle, silent := false }).modPortStats p fun t =>
           { t with accepted := satAdd t.accepted 1 }).modPresence p fun m =>
         { m with miss := 0, beatTimer := some (s.now + m.window * 1000), lastBeat := some s.now }) →
     ((∀ t, (s.presence p).lastBeat = some t → (s.presence p).window * 250 ≤ s.now - t) ∨
         (s.presence p).earlyFrozen = true →
       exec (.beat p f) s = .next (transmit b)) ∧
     (∀ t, (s.presence p).lastBeat = some t → s.now - t < (s.presence p).window * 250 →
       (s.presence p).earlyFrozen = false →
       ((s.presence p).earlyLimit = 0 ∨ min ((s.presence p).early + 1) 255 < (s.presence p).earlyLimit →
         exec (.beat p f) s = .next (transmit
           (b.modPresence p fun m => { m with early := min (m.early + 1) 255 }))) ∧
       (0 < (s.presence p).earlyLimit → (s.presence p).earlyLimit ≤ min ((s.presence p).early + 1) 255 →
         exec (.beat p f) s = .next (transmit (raiseEvent (.beatErratic p)
           (b.modPresence p fun m => { m with early := min (m.early + 1) 255, earlyFrozen := true })))))) ∧
  (∀ (p : Port) (f : FrameFields) (s b : State), s.phase = .running → (s.port p).carrier = .up →
     (s.presence p).state = .test →
     b = ((s.modPort p fun n => { n with receiver := .idle, silent := false }).modPortStats p fun t =>
         { t with accepted := satAdd t.accepted 1 }) →
     ((f.payload.length = 1024 ∧ f.flags = 0 ∧ f.tag = 0 ∧ f.bay = 0 ∧ f.arg = 0 ∧ f.count = 0 ∧ f.block = 0 ∧
         f.serial.toNat < 2 ^ 32 ∧ f.payload = patternBytes 1024 (BitVec.ofNat 32 f.serial.toNat) →
       exec (.pattern p f) s = .next (transmit b)) ∧
     (¬ (f.payload.length = 1024 ∧ f.flags = 0 ∧ f.tag = 0 ∧ f.bay = 0 ∧ f.arg = 0 ∧ f.count = 0 ∧ f.block = 0 ∧
         f.serial.toNat < 2 ^ 32 ∧ f.payload = patternBytes 1024 (BitVec.ofNat 32 f.serial.toNat)) →
       exec (.pattern p f) s = .next (transmit
         ((b.modPresence p fun m => { m with patternError := true }).modPortStats p fun t =>
           { t with mismatches := satAdd t.mismatches 1 }))))) ∧
  (patternBytes 4 1 = [0x00, 0x00, 0x00, 0x09] ∧ ∀ n, patternBytes n 0 = List.replicate n 0)

/-- R158, R159, R46, R87: the beat timer's expiry counts a miss and restarts the timer; at the miss limit the port
lapses, and then holds no loan and waits at no bay, its contexts have ended as a clean-up ends them, a PORT record
carries the loans revoked and the claims removed, PORT_LAPSED is raised, and no other port's presence changes. Log 32:
no EVENT frame is owed to it. A pending soft reset whose first requester's answer the clean-up has removed starts in the
same event (R191, log 9). The premise of the lapse is the invariant of the Loan Table. -/
def Obligations.BeatTimerExpires : Prop :=
  ∀ (p : Port) (t : Nat) (s : State), s.phase = .running → (s.presence p).beatTimer = some t → t ≤ s.now →
    ((s.presence p).missLimit = 0 ∨ min ((s.presence p).miss + 1) 255 < (s.presence p).missLimit →
      exec (.beatTimerExpiry p) s = .next (transmit (s.modPresence p fun m =>
        { m with miss := min (m.miss + 1) 255, beatTimer := some (s.now + m.window * 1000) }))) ∧
    (∀ (a v : State) (loans claims : Nat), ClaimsSafe s → 0 < (s.presence p).missLimit →
      (s.presence p).missLimit ≤ min ((s.presence p).miss + 1) 255 →
      a = (s.modPresence p fun m => { m with miss := min (m.miss + 1) 255, beatTimer := none }) →
      v = cleanContexts p (cleanLoans .lapse p (a.modPort p cleanPort)).state →
      loans = (allBays.filter fun b => decide ((s.bay b).holder p ≠ none)).length →
      claims = (allBays.filter fun b => (s.bay b).claims.any fun x => decide (x.port = p)).length →
      ∃ u, exec (.beatTimerExpiry p) s = .next (transmit (startIfAnswerGone u)) ∧
        (u.presence p).state = .lapsed ∧ (u.presence p).beatTimer = none ∧
        (u.presence p).miss = min ((s.presence p).miss + 1) 255 ∧
        (∀ b, (u.bay b).holder p = none ∧ ¬ waitsAt u p b) ∧ (u.port p).intake = [] ∧
        hasEvent u.raised (.portLapsed p) = true ∧
        (∀ q, q ≠ p → u.presence q = s.presence q) ∧ u.softReset = s.softReset ∧ (u.port p).eventNews = false ∧
        u.pool = v.pool ∧ u.portStats = v.portStats ∧
        u = raiseEvent (.portLapsed p) (appendRecord
          { note := .port .lapse, port := some p, count1 := BitVec.ofNat 32 loans, count2 := BitVec.ofNat 32 claims }
          ((v.modPresence p fun m => { m with state := .lapsed }).modPort p fun n => { n with eventNews := false })))

/-! ## Loans and claims -/

/-- R138, R180, R193: the Request Handler itself answers FORMAT to PATTERN, to a kind that no node-to-part frame has,
and (log 18) to a MANAGE frame of an unknown sub-kind that passes the checks before; a MANAGE frame of an unknown
sub-kind that fails one is refused by it. -/
def Obligations.UnknownHeadsRefused : Prop :=
  ∀ (p : Port) (k : Byte) (f : FrameFields) (s : State), HeadReady s p { kind := k, fields := f } →
    ((k = 0x09 ∨ k = 0 ∨ 0x0A < k.toNat) →
      AnswersOnly (.headFormatRefuse p) p { kind := .answer, status := .format, tag := f.tag, bay := f.bay } s) ∧
    (k = 0x0A → (f.arg = 0 ∨ 0x1A < f.arg.toNat) →
      AnswersOnly (.headFormatRefuse p) p
        { kind := .answer, tag := f.tag, bay := f.bay,
          status :=
            if (s.presence p).state = .lapsed then .lapsed
            else if (s.presence p).state ≠ .active then .notAdmitted
            else if (s.port p).role = .node then .notPermitted
            else .format } s)

/-- R14: the refusals of a CLAIM, in the order of its nine checks; the bay record is left as it is. R12: which rights
permit which modes. R192: the modes that the arg field names. R14, R17: the position of a port's claim is its place in
the queue, counted from 1; with one claim for each port (the invariant of the Loan Table) it is 1 to 8. Log 28: the
payload is not examined. -/
def Obligations.ClaimRefused : Prop :=
  (∀ (p : Port) (f : FrameFields) (s : State), HeadReady s p { kind := kindClaim, fields := f } →
     ((s.presence p).state = .new ∨ (s.presence p).state = .off ∨ (s.presence p).state = .test →
       AnswersOnly (.claim p) p { kind := .answer, status := .notAdmitted, tag := f.tag, bay := f.bay } s) ∧
     ((s.presence p).state = .lapsed →
       AnswersOnly (.claim p) p { kind := .answer, status := .lapsed, tag := f.tag, bay := f.bay } s) ∧
     ((s.presence p).state = .active →
       ((f.flags ≠ 0 ∧ f.flags ≠ 1 ∨ f.arg ≠ 1 ∧ f.arg ≠ 2 ∨ f.count ≠ 0 ∨ f.serial ≠ 0 ∨ f.block ≠ 0) →
         AnswersOnly (.claim p) p { kind := .answer, status := .format, tag := f.tag, bay := f.bay } s) ∧
       (∀ mode, modeOf f.arg = some mode → (f.flags = 0 ∨ f.flags = 1) → f.count = 0 → f.serial = 0 → f.block = 0 →
         (12 ≤ f.bay.toNat →
           AnswersOnly (.claim p) p { kind := .answer, status := .range, tag := f.tag, bay := f.bay } s) ∧
         (∀ b, bayOf f.bay = some b →
           ((s.bay b).availability = .faulted →
             AnswersOnly (.claim p) p { kind := .answer, status := .faulted, tag := f.tag, bay := f.bay } s) ∧
           ((s.bay b).availability = .withdrawing ∨ (s.bay b).availability = .withdrawn →
             AnswersOnly (.claim p) p { kind := .answer, status := .withdrawn, tag := f.tag, bay := f.bay } s) ∧
           ((s.bay b).availability = .inService ∨ (s.bay b).availability = .probing →
             (permits (s.right p b) mode = false →
               AnswersOnly (.claim p) p { kind := .answer, status := .denied, tag := f.tag, bay := f.bay } s) ∧
             (permits (s.right p b) mode = true →
               (∀ h, (s.bay b).holder p = some h →
                 AnswersOnly (.claim p) p
                   { kind := .answer, status := .held, tag := f.tag, bay := f.bay, serial := h.serial,
                     detail := [modeCode h.mode, 0, 0, 0, 0, 0] } s) ∧
               ((s.bay b).holder p = none →
                 (waitsAt s p b →
                   AnswersOnly (.claim p) p
                     { kind := .answer, status := .alreadyWaiting, tag := f.tag, bay := f.bay,
                       detail := [byte (positionOf p (s.bay b).claims), 0, 0, 0, 0, 0] } s) ∧
                 (¬ waitsAt s p b → s.exhausted = true →
                   AnswersOnly (.claim p) p
                     { kind := .answer, status := .exhausted, tag := f.tag, bay := f.bay } s)))))))) ∧
  ((∀ m, permits .none m = false) ∧ permits .read .shared = true ∧ permits .read .exclusive = false ∧
     ∀ m, permits .full m = true) ∧
  (∀ x : Byte, (modeOf x = some .shared ↔ x = 1) ∧ (modeOf x = some .exclusive ↔ x = 2)) ∧
  (∀ (p : Port) (ahead behind : List Claim) (x : Claim), (∀ y ∈ ahead, y.port ≠ p) → x.port = p →
     positionOf p (ahead ++ x :: behind) = ahead.length + 1) ∧
  (∀ (s : State) (p : Port) (b : Bay), ClaimsSingle s → waitsAt s p b →
     1 ≤ positionOf p (s.bay b).claims ∧ positionOf p (s.bay b).claims ≤ 8)

/-- R15, R22: a CLAIM that passes its checks is granted at once where the queue is empty, the bay IN_SERVICE, the
trailing count 0 and the mode fits the holders; the news goes in the ANSWER. R16, R17: a CLAIM that passes its checks
and cannot be granted at once is answered BUSY with NOWAIT, and changes nothing; without NOWAIT it joins the tail of the
queue, is answered WAITING with its position, and the grant pass and the patience check run. R4: the loan mode of a bay
follows its holder set. Log 28: the payload is not examined. -/
def Obligations.ClaimTaken : Prop :=
  (∀ (p : Port) (f : FrameFields) (b : Bay) (mode : Mode) (s : State), RequestReady s p kindClaim f →
     (f.flags = 0 ∨ f.flags = 1) → modeOf f.arg = some mode → f.count = 0 → f.serial = 0 → f.block = 0 →
     bayOf f.bay = some b → (s.bay b).availability = .inService → permits (s.right p b) mode = true →
     (s.bay b).claims = [] → s.exhausted = false → (s.bay b).trailing = 0 →
     (s.bay b).loanMode = .vacant ∨ (s.bay b).loanMode = .shared ∧ mode = .shared ∧ (s.bay b).holder p = none →
     exec (.claim p) s =
       .next (transmit (answerHead p
         { kind := .answer, status := .granted, tag := f.tag, bay := f.bay, serial := s.nextSerial }
         (patienceCheck b (grant b p mode s))))) ∧
  (∀ (p : Port) (f : FrameFields) (b : Bay) (mode : Mode) (s : State), RequestReady s p kindClaim f →
     modeOf f.arg = some mode → f.count = 0 → f.serial = 0 → f.block = 0 → bayOf f.bay = some b →
     ((s.bay b).availability = .inService ∨ (s.bay b).availability = .probing) → permits (s.right p b) mode = true →
     (s.bay b).holder p = none → ¬ waitsAt s p b → s.exhausted = false →
     ((s.bay b).claims ≠ [] ∨ (s.bay b).availability = .probing ∨ (s.bay b).trailing ≠ 0 ∨
       (s.bay b).loanMode = .exclusive ∨ (s.bay b).loanMode = .shared ∧ mode = .exclusive) →
     (f.flags = 1 →
       AnswersOnly (.claim p) p
         { kind := .answer, status := .busy, tag := f.tag, bay := f.bay,
           detail := [byte (s.bay b).claims.length, loanModeCode (s.bay b).loanMode, 0, 0, 0, 0] } s) ∧
     (f.flags = 0 →
       exec (.claim p) s = .next (transmit (answerHead p
         { kind := .answer, status := .waiting, tag := f.tag, bay := f.bay,
           detail := [byte ((s.bay b).claims.length + 1), 0, 0, 0, 0, 0] }
         (patienceCheck b (grantPass b (s.modBay b fun r =>
           { r with
             claims := r.claims ++
               [{ port := p, mode := mode, tag := f.tag, arrivalTag := s.timeTag.value }] }))))))) ∧
  (∀ r : BayRecord,
     (r.loanMode = .vacant ↔ ∀ q, r.holder q = none) ∧
     (r.loanMode = .exclusive ↔ ∃ q h, r.holder q = some h ∧ h.mode = .exclusive) ∧
     (r.loanMode = .shared ↔
       (∃ q h, r.holder q = some h) ∧ ∀ q h, r.holder q = some h → h.mode = .shared))

/-- R28, R30, R154: the refusals of a CANCEL and of a RELEASE before they reach a bay. R30: a CANCEL removes the port's
claim; where it was the head, the bay is settled. With no claim there it is answered NOT_WAITING. Log 14: the ANSWER to
a RELEASE refused NOT_ADMITTED, LAPSED, FORMAT or RANGE carries serial 0. Log 28: the payload is not examined. -/
def Obligations.ClaimCancelled : Prop :=
  (∀ (p : Port) (f : FrameFields) (c : Instr) (k : Byte) (s : State), HeadReady s p { kind := k, fields := f } →
     (c = .cancel p ∧ k = kindCancel ∨ c = .release p ∧ k = kindRelease) →
     ((s.presence p).state = .new ∨ (s.presence p).state = .off ∨ (s.presence p).state = .test →
       AnswersOnly c p { kind := .answer, status := .notAdmitted, tag := f.tag, bay := f.bay } s) ∧
     ((s.presence p).state = .lapsed →
       AnswersOnly c p { kind := .answer, status := .lapsed, tag := f.tag, bay := f.bay } s) ∧
     ((s.presence p).state = .active →
       ((f.flags ≠ 0 ∨ f.arg ≠ 0 ∨ f.count ≠ 0 ∨ f.block ≠ 0 ∨ c = .cancel p ∧ f.serial ≠ 0) →
         AnswersOnly c p { kind := .answer, status := .format, tag := f.tag, bay := f.bay } s) ∧
       (f.flags = 0 → f.arg = 0 → f.count = 0 → f.block = 0 → (c = .cancel p → f.serial = 0) → 12 ≤ f.bay.toNat →
         AnswersOnly c p { kind := .answer, status := .range, tag := f.tag, bay := f.bay } s))) ∧
  (∀ (p : Port) (f : FrameFields) (b : Bay) (s : State), RequestReady s p kindCancel f →
     f.flags = 0 → f.arg = 0 → f.count = 0 → f.serial = 0 → f.block = 0 → bayOf f.bay = some b →
     (waitsAt s p b →
       exec (.cancel p) s = .next (transmit (answerHead p
         { kind := .answer, status := .ok, tag := f.tag, bay := f.bay }
         (if (s.bay b).claims.head?.map Claim.port = some p then
           settleBay b (s.modBay b fun r => { r with claims := r.claims.filter fun x => x.port ≠ p })
         else s.modBay b fun r => { r with claims := r.claims.filter fun x => x.port ≠ p })))) ∧
     (¬ waitsAt s p b →
       AnswersOnly (.cancel p) p { kind := .answer, status := .notWaiting, tag := f.tag, bay := f.bay } s))

/-- R28, R29: a RELEASE with the serial of the port's loan ends the loan: the entry is removed, the loan's contexts are
ended with cause RELEASE, the END record is appended, and the bay is settled; the loan is gone. With any other serial it
is answered STALE. Log 14: OK and STALE echo the serial. Log 8: contexts are handed out after the answer and the grants
of the event. The premise of the last clause is the invariant of the Loan Table. Log 28: the payload is not examined. -/
def Obligations.LoanReleased : Prop :=
  ∀ (p : Port) (f : FrameFields) (b : Bay) (s : State), RequestReady s p kindRelease f →
    f.flags = 0 → f.arg = 0 → f.count = 0 → f.block = 0 → bayOf f.bay = some b →
    (∀ h, (s.bay b).holder p = some h → h.serial = f.serial →
      exec (.release p) s = .next (transmit (handOut (answerHead p
        { kind := .answer, status := .ok, tag := f.tag, bay := f.bay, serial := f.serial }
        (settleBay b (appendRecord
          { note := .loanEnd .release, port := some p, bay := some b, serial := h.serial, count1 := h.blocksRead,
            count2 := h.blocksWritten }
          (endLoanContexts h.serial .release (removeHolder b p s))))))) ∧
      (ClaimsSafe s → ∀ t, exec (.release p) s = .next t → (t.bay b).holder p = none)) ∧
    ((∀ h, (s.bay b).holder p = some h → h.serial ≠ f.serial) →
      AnswersOnly (.release p) p
        { kind := .answer, status := .stale, tag := f.tag, bay := f.bay, serial := f.serial } s)

/-- R10, R11, R22: a grant takes the serial counter's value, makes the holder entry, and appends the GRANT record; the
grant of 2^48 − 1 exhausts the counter and raises SERIAL_EXHAUSTED. R19, R20, R21, R23: when a grant pass ends, no
further head can be granted: the bay is closed to grants, its queue is empty, or its head's mode does not fit the
holders. It keeps the loans it finds, and each claim that has left the queue is granted or was not permitted. R21, R22,
R23: what a grant pass does with the head: a head that fits and is permitted leaves the queue, is granted with the
counter's value, so that the grants of one pass take their serials in queue order, and its port is posted a GRANTED
notice; a head that fits and is not permitted is refused with cause ACCESS; after either the pass goes on. The premise
is the invariant of the Loan Table. The loan mode follows the holder set as ClaimTaken says. -/
def Obligations.GrantsMade : Prop :=
  (∀ (b : Bay) (p : Port) (mode : Mode) (s u : State),
     u = { s with
           nextSerial := s.nextSerial + 1,
           exhausted := s.exhausted || decide (s.nextSerial = BitVec.allOnes 48) } →
     grant b p mode s =
       appendRecord { note := .grant mode, port := some p, bay := some b, serial := s.nextSerial }
         ((if s.nextSerial = BitVec.allOnes 48 then raiseEvent .serialExhausted u else u).modBay b fun r =>
           { r with
             holders := r.holders.set p (some
               { mode := mode, serial := s.nextSerial, grantTag := s.timeTag.value, recalled := false, live := 0,
                 blocksRead := 0, blocksWritten := 0 }) })) ∧
  (∀ (b : Bay) (s t : State), ClaimsSingle s → t = grantPass b s →
     (((t.bay b).availability = .inService → (t.bay b).trailing = 0 → t.exhausted = false →
       ∀ x rest, (t.bay b).claims = x :: rest →
         (t.bay b).loanMode = .exclusive ∨ (t.bay b).loanMode = .shared ∧ x.mode = .exclusive) ∧
     (∀ q h, (s.bay b).holder q = some h → (t.bay b).holder q = some h) ∧
     (t.bay b).claims <:+ (s.bay b).claims ∧
     (∀ x ∈ (s.bay b).claims, x ∉ (t.bay b).claims → permits (s.right x.port b) x.mode = true →
       ∃ h, (t.bay b).holder x.port = some h ∧ h.mode = x.mode) ∧
     (∀ c, c ≠ b → t.bay c = s.bay c))) ∧
  (∀ (b : Bay) (s : State),
     ((s.bay b).availability ≠ .inService ∨ (s.bay b).trailing ≠ 0 ∨ s.exhausted = true ∨ (s.bay b).claims = [] →
       grantPass b s = s) ∧
     (∀ x rest, ClaimsSingle s → (s.bay b).claims = x :: rest → (s.bay b).availability = .inService →
       (s.bay b).trailing = 0 → s.exhausted = false →
       ((s.bay b).loanMode = .exclusive ∨ (s.bay b).loanMode = .shared ∧ x.mode = .exclusive → grantPass b s = s) ∧
       ((s.bay b).loanMode = .vacant ∨ (s.bay b).loanMode = .shared ∧ x.mode = .shared →
         (permits (s.right x.port b) x.mode = true →
           grantPass b s = grantPass b
             ((grant b x.port x.mode (s.modBay b fun r => { r with claims := rest })).modPort x.port fun n =>
               { n with
                 notices := noticeInto
                   { bay := b, kind := .granted, tag := x.tag, serial := s.nextSerial, cause := .none } n.notices })) ∧
         (permits (s.right x.port b) x.mode = false →
           grantPass b s = grantPass b (refuseClaim b .access false x s)))))

/-- R24, R25: the patience check of a bay, by the recall phase and whether the head is blocked by holders. Log 16: a
timer that runs for the head goes on at a patience time of 65535; one that runs for another port stops. R24: which heads
are blocked by holders. R29, R42, R54: settling a bay is the grant pass and then the patience check; at a WITHDRAWING
bay it is the completion check, which makes a bay without holders and trailing contexts WITHDRAWN with a BAY record. -/
def Obligations.PatienceChecked : Prop :=
  (∀ (b : Bay) (s : State) (r : BayRecord), r = s.bay b →
     (r.phase = .recalled → patienceCheck b s = s) ∧
     ((r.availability ≠ .inService ∨ headBlocked r = none) →
       (r.phase = .none → patienceCheck b s = s) ∧
       (r.phase = .patience →
         patienceCheck b s =
           s.modBay b fun r => { r with patienceTimer := none, subject := none, phase := .none })) ∧
     (∀ p, r.availability = .inService → headBlocked r = some p →
       (r.phase = .patience → r.subject = some p → patienceCheck b s = s) ∧
       ((r.phase = .none ∨ r.phase = .patience ∧ r.subject ≠ some p) →
         (r.patienceTime ≠ 65535 → r.patienceTime ≠ 0 →
           patienceCheck b s = s.modBay b fun r =>
             { r with
               patienceTimer := some (s.now + r.patienceTime.toNat * 1000), subject := some p, phase := .patience }) ∧
         (r.patienceTime = 0 →
           patienceCheck b s = startRecall b (s.modBay b fun r =>
             { r with patienceTimer := some s.now, subject := some p, phase := .patience })) ∧
         (r.patienceTime = 65535 →
           (r.phase = .none → patienceCheck b s = s) ∧
           (r.phase = .patience →
             patienceCheck b s =
               s.modBay b fun r => { r with patienceTimer := none, subject := none, phase := .none }))))) ∧
  (∀ r : BayRecord,
     (r.claims = [] → headBlocked r = none) ∧
     (∀ x rest, r.claims = x :: rest →
       (x.mode = .exclusive → (∀ q, r.holder q = none) → headBlocked r = none) ∧
       (x.mode = .exclusive → (∃ q h, r.holder q = some h) → headBlocked r = some x.port) ∧
       (x.mode = .shared → (∃ q h, r.holder q = some h ∧ h.mode = .exclusive) → headBlocked r = some x.port) ∧
       (x.mode = .shared → (∀ q h, r.holder q = some h → h.mode = .shared) → headBlocked r = none))) ∧
  (∀ (b : Bay) (s : State),
     ((s.bay b).availability ≠ .withdrawing → settleBay b s = patienceCheck b (grantPass b s)) ∧
     ((s.bay b).availability = .withdrawing →
       ((∃ q h, (s.bay b).holder q = some h) ∨ (s.bay b).trailing ≠ 0 → settleBay b s = s) ∧
       ((∀ q, (s.bay b).holder q = none) → (s.bay b).trailing = 0 →
         settleBay b s = appendRecord { note := .bay .withdrawn, port := none, bay := some b }
           (s.modBay b fun r => { r with availability := .withdrawn }))))

/-- R26: the patience timer's expiry starts a recall of every current holder, with a RECALL notice to each (a holder
that was already recalled gets no second one, R36), and the recall timer starts; nothing else changes. -/
def Obligations.RecallStarts : Prop :=
  ∀ (b : Bay) (d : Nat) (s : State), s.phase = .running → (s.bay b).patienceTimer = some d → d ≤ s.now →
    ∃ u, exec (.patienceTimerExpiry b) s = .next (transmit u) ∧
      (∃ v, u.bay b =
        { s.bay b with
          patienceTimer := none, subject := none, phase := .recalled, holders := v,
          recallTimer := some (s.now + (s.bay b).recallTime.toNat * 1000) }) ∧
      (∀ q, (u.bay b).holder q = ((s.bay b).holder q).map fun h => { h with recalled := true }) ∧
      (∀ c, c ≠ b → u.bay c = s.bay c) ∧
      (∀ q, u.port q =
        match (s.bay b).holder q with
        | some h =>
          if h.recalled = true then s.port q
          else
            { s.port q with
              notices := noticeInto { bay := b, kind := .recall, tag := 0, serial := h.serial, cause := .none }
                (s.port q).notices }
        | none => s.port q) ∧
      u = { s with bays := u.bays, ports := u.ports }

/-- R38: the recall timer's expiry revokes, in increasing port order, every holder still in the recall set, with cause
RECALL_EXPIRED, or WITHDRAWN at a WITHDRAWING bay; then the phase is NONE, RECALL_FORCED is raised, and the bay is
settled. The recalled loans are gone. Log 8: a port whose wait at quota ends is given a FREE context after the END record
of its loan, and the last hand-out follows the settling. The premise of the last clause is the invariant of the Loan
Table. -/
def Obligations.RecallExpires : Prop :=
  ∀ (b : Bay) (d : Nat) (s : State) (cause : Cause), s.phase = .running → (s.bay b).recallTimer = some d → d ≤ s.now →
    ((s.bay b).availability = .withdrawing → cause = .withdrawn) →
    ((s.bay b).availability ≠ .withdrawing → cause = .recallExpired) →
    exec (.recallTimerExpiry b) s = .next (transmit (handOut (settleBay b (raiseEvent (.recallForced b)
      ((revokePorts b cause (s.bay b).recallSet s).modBay b fun r =>
        { r with phase := .none, recallTimer := none }))))) ∧
    (ClaimsSafe s → ∀ t, exec (.recallTimerExpiry b) s = .next t →
      ∀ q h, (s.bay b).holder q = some h → h.recalled = true → (t.bay b).holder q = none)

/-- R42 steps 1 to 4, R37: one loan ended by revocation. R45, R71: the loans of several ports at a bay are revoked one
after another, and a port whose wait at quota that ends is given a FREE context before the next (log 8: after its END
record). R31: a waiting claim is refused, or removed silently. R148: a notice for a bay replaces the one the list holds
for that bay, in its place; else it joins at the tail. -/
def Obligations.LoansAndClaimsEnded : Prop :=
  (∀ (b : Bay) (cause : Cause) (p : Port) (h : Holder) (s u : State),
     u = endLoanContexts h.serial cause (removeHolder b p s) →
     (cause = .lapse ∨ cause = .rehello ∨ cause = .disabled →
       revokeLoan b cause p h s = appendRecord
         { note := .loanEnd cause, port := some p, bay := some b, serial := h.serial, count1 := h.blocksRead,
           count2 := h.blocksWritten } u) ∧
     (cause = .recallExpired ∨ cause = .forced ∨ cause = .withdrawn ∨ cause = .fault →
       revokeLoan b cause p h s = appendRecord
         { note := .loanEnd cause, port := some p, bay := some b, serial := h.serial, count1 := h.blocksRead,
           count2 := h.blocksWritten }
         (u.modPort p fun n =>
           { n with
             notices := noticeInto { bay := b, kind := .revoked, tag := 0, serial := h.serial, cause := cause }
               n.notices })) ∧
     ((s.bay b).phase = .recalled → (∀ q k, q ≠ p → (s.bay b).holder q = some k → k.recalled = false) →
       removeHolder b p s = s.modBay b fun r =>
         { r with holders := r.holders.set p none, phase := .none, recallTimer := none }) ∧
     (((s.bay b).phase ≠ .recalled ∨ ∃ q k, q ≠ p ∧ (s.bay b).holder q = some k ∧ k.recalled = true) →
       removeHolder b p s = s.modBay b fun r => { r with holders := r.holders.set p none })) ∧
  (∀ (b : Bay) (cause : Cause) (s : State),
     revokePorts b cause [] s = s ∧
     (∀ p rest, ((s.bay b).holder p = none → revokePorts b cause (p :: rest) s = revokePorts b cause rest s) ∧
       (∀ h, (s.bay b).holder p = some h →
         revokePorts b cause (p :: rest) s =
           revokePorts b cause rest (giveAtQuota none p (revokeLoan b cause p h s))))) ∧
  (∀ (b : Bay) (cause : Cause) (x : Claim) (s u : State),
     u = (s.modBay b fun r => { r with claims := r.claims.filter fun y => y.port ≠ x.port }) →
     refuseClaim b cause false x s = appendRecord { note := .refuse cause, port := some x.port, bay := some b }
       (u.modPort x.port fun n =>
         { n with
           notices := noticeInto { bay := b, kind := .refused, tag := x.tag, serial := 0, cause := cause }
             n.notices }) ∧
     refuseClaim b cause true x s = appendRecord { note := .refuse cause, port := some x.port, bay := some b } u) ∧
  (∀ x : Notice,
     (∀ l, (∀ y ∈ l, y.bay ≠ x.bay) → noticeInto x l = l ++ [x]) ∧
     (∀ l y r, (∀ z ∈ l, z.bay ≠ x.bay) → y.bay = x.bay → noticeInto x (l ++ y :: r) = l ++ x :: r))

/-- R77, R78, R79: when a loan has ended, none of its contexts is QUEUED or REISSUE, every one that is ISSUED is
trailing with the end cause, and every context that has left those states stands in REPLY with the outcome and the end
cause that the cause gives; no other context has changed. R79 step 3: the trailing count of a bay has risen by the
loan's ISSUED contexts there. R77, R78: the contexts that enter REPLY have left the service list or the reissue list,
have joined their port's Reply List in the order in which they were admitted, and are no longer counted in the port's
live-context count. R177: each REISSUE context that enters REPLY is counted at its bay as an operation completed, and a
QUEUED one is not; no other statistic changes. -/
def Obligations.LoanEndDrainsContexts : Prop :=
  ∀ (serial : Word48) (cause : Cause) (s t : State), t = endLoanContexts serial cause s →
    (∀ c : CtxId,
      ((s.ctx c).serial = serial → (s.ctx c).state = .issued →
        t.ctx c = { s.ctx c with
          trailing := true,
          endCause := if cause = .release then .release else if cause = .fault then .fault else .revoked }) ∧
      ((s.ctx c).serial = serial → (s.ctx c).state = .queued ∨ (s.ctx c).state = .reissue →
        t.ctx c = { s.ctx c with
          state := .reply,
          endCause := if cause = .release then .release else if cause = .fault then .fault else .revoked,
          outcome := if cause = .release then .loanEnded else if cause = .fault then .bayFaulted else .revoked }) ∧
      ((s.ctx c).serial ≠ serial ∨ (s.ctx c).state = .free ∨ (s.ctx c).state = .reply → t.ctx c = s.ctx c)) ∧
    (∀ b, t.bay b =
      { s.bay b with
        trailing := (s.bay b).trailing + (allContexts.filter fun c =>
          decide ((s.ctx c).state = .issued ∧ (s.ctx c).serial = serial ∧ (s.ctx c).bay = b)).length }) ∧
    (∀ p : Port, ∃ l : List CtxId, l.Nodup ∧
      (∀ c, c ∈ l ↔ (s.ctx c).serial = serial ∧ ((s.ctx c).state = .queued ∨ (s.ctx c).state = .reissue) ∧
        (s.ctx c).port = p) ∧
      l.Pairwise (fun c d => (s.ctx c).admission ≤ (s.ctx d).admission) ∧
      t.replies p = s.replies p ++ l ∧ t.live p = s.live p - l.length) ∧
    (∀ b, (t.service b).reissue = (s.service b).reissue.filter (fun c =>
        decide (¬ ((s.ctx c).serial = serial ∧ ((s.ctx c).state = .queued ∨ (s.ctx c).state = .reissue) ∧
          (s.ctx c).bay = b))) ∧
      ∀ p : Port, (t.service b).lists[p] = ((s.service b).lists[p]).filter (fun c =>
        decide (¬ ((s.ctx c).serial = serial ∧ ((s.ctx c).state = .queued ∨ (s.ctx c).state = .reissue) ∧
          (s.ctx c).bay = b ∧ (s.ctx c).port = p)))) ∧
    (∀ b : Bay, t.bayStats[b] =
      { s.bayStats[b] with
        completed := satAdd (s.bayStats[b]).completed (allContexts.filter fun c =>
          decide ((s.ctx c).state = .reissue ∧ (s.ctx c).serial = serial ∧ (s.ctx c).bay = b)).length }) ∧
    t.portStats = s.portStats

/-! ## The Journal and the Event Unit -/

/-- R171: a record is produced: its sequence number and time tag, the ring or the loss, and the events of both. -/
def Obligations.RecordProduced : Prop :=
  ∀ (x : Entry) (s u : State),
    u = { s with
          journal := { s.journal with
            ring := s.journal.ring ++ [{ seq := s.journal.seq, time := s.timeTag.value, entry := x }],
            seq := s.journal.seq + 1 } } →
    (s.journal.ring.length < 512 → s.journal.ring.length ≠ 383 → appendRecord x s = u) ∧
    (s.journal.ring.length = 383 → appendRecord x s = raiseEvent .journalHigh u) ∧
    (512 ≤ s.journal.ring.length →
      appendRecord x s = raiseEvent .journalLost
        { s with
          journal := { s.journal with
            seq := s.journal.seq + 1,
            lost := if s.journal.lost = BitVec.allOnes 32 then s.journal.lost else s.journal.lost + 1 } })

/-- R185, R186, R187: an event not in the raised set joins it, ALERT follows, and where it is enabled the event-news
flag of every ACTIVE supervisor port is set; an event already raised changes nothing. -/
def Obligations.EventRaised : Prop :=
  ∀ (e : Event) (s : State),
    (hasEvent s.raised e = true → raiseEvent e s = s) ∧
    (hasEvent s.raised e = false → ∃ t, raiseEvent e s = t ∧
      (∀ x, hasEvent t.raised x = (hasEvent s.raised x || decide (x = e))) ∧
      t.alert = shareEvent t.raised s.enabled ∧
      (∀ p, t.port p =
        if hasEvent s.enabled e = true ∧ (s.port p).role = .supervisor ∧ (s.presence p).state = .active then
          { s.port p with eventNews := true }
        else s.port p) ∧
      t = { s with raised := t.raised, alert := t.alert, ports := t.ports })

/-! ## Operations -/

/-- R66, R68, R67: the refusals of a READ, WRITE or SYNC by its nine checks, in their order; the ANSWER carries count
and serial as received. Log 17 gives the order of effect, answer and leaving. -/
def Obligations.OperationRefused : Prop :=
  ∀ (p : Port) (k : Byte) (kind : OpKind) (f : FrameFields) (s : State),
    HeadReady s p { kind := k, fields := f } → opKindOf k = some kind →
    ((s.presence p).state = .new ∨ (s.presence p).state = .off ∨ (s.presence p).state = .test →
      RefusesOperation p f s .notAdmitted) ∧
    ((s.presence p).state = .lapsed → RefusesOperation p f s .lapsed) ∧
    ((s.presence p).state = .active →
      ((f.flags ≠ 0 ∨ f.arg ≠ 0 ∨ kind = .sync ∧ (f.count ≠ 0 ∨ f.block ≠ 0)) → RefusesOperation p f s .format) ∧
      (f.flags = 0 → f.arg = 0 → (kind = .sync → f.count = 0 ∧ f.block = 0) →
        (12 ≤ f.bay.toNat → RefusesOperation p f s .range) ∧
        (∀ b, bayOf f.bay = some b →
          (kind = .write → (f.count = 0 ∨ 16 < f.count.toNat ∨ f.payload.length ≠ f.count.toNat * 4096) →
            RefusesOperation p f s .length) ∧
          (kind ≠ .write → f.payload ≠ [] → RefusesOperation p f s .length) ∧
          (kind = .read → f.payload = [] → (f.count = 0 ∨ 16 < f.count.toNat) → RefusesOperation p f s .range) ∧
          (operationLengthOk kind f = true → operationCountOk kind f = true →
            ((∃ c, ((s.ctx c).state = .queued ∨ (s.ctx c).state = .reissue ∨ (s.ctx c).state = .issued) ∧
                (s.ctx c).orphaned = false ∧ (s.ctx c).port = p ∧ (s.ctx c).tag = f.tag) →
              RefusesOperation p f s .dupTag) ∧
            (tagInUse s p f.tag = false →
              ((∀ h, (s.bay b).holder p = some h → h.serial ≠ f.serial) → RefusesOperation p f s .stale) ∧
              (∀ h, (s.bay b).holder p = some h → h.serial = f.serial →
                (kind = .write → h.mode = .shared → RefusesOperation p f s .denied) ∧
                (kind ≠ .sync → (kind = .write → h.mode = .exclusive) →
                  (s.bay b).capacity.toNat < f.block.toNat + f.count.toNat → RefusesOperation p f s .range)))))))

/-- R66, R69, R70: an operation that passes its checks is given the lowest-numbered FREE context when there is one and
the port is below its quota: the record is filled, the head leaves, the counts rise, the context joins its service
list, the port is the last granted, and a choice follows at the bay; else it waits at the head and keeps its
reservation. Log 7: `admission` is the model's own. R66, R67: what an admitted operation has shown: its port holds a
loan on the bay with the serial it names, an EXCLUSIVE one for a WRITE, and its blocks lie within the capacity. -/
def Obligations.OperationAdmitted : Prop :=
  (∀ (p : Port) (k : Byte) (kind : OpKind) (f : FrameFields) (b : Bay) (s : State),
     HeadReady s p { kind := k, fields := f } → opKindOf k = some kind → admissionCheck s p kind f = .ok b →
     (∀ c, (s.ctx c).state = .free → (∀ d, d < c → (s.ctx d).state ≠ .free) → s.live p < s.quota p →
       exec (.operationAdmission p) s = .next (transmit (chooseAll b
         (let u := (((s.modCtx c fun _ =>
             { state := .queued, port := p, tag := f.tag, kind := kind, bay := b, serial := f.serial, block := f.block,
               count := f.count.toNat, lane := none, attempts := 0, outcome := .good, trailing := false,
               endCause := .none, checkWarn := false, orphaned := false,
               data := if kind = .write then f.payload else [], admission := s.pool.admitted }).modPort p fun n =>
           flowAct { n with intake := n.intake.drop 1, reserved := false }).modLive p fun n => n + 1)
         let u := (u.modBay b fun r =>
           { r with
             holders := r.holders.set p
               ((r.holder p).map fun h => { h with live := h.live + 1 }) }).modService b fun v =>
           { v with lists := v.lists.set p (v.lists[p] ++ [c]) }
         { u with pool := { u.pool with lastGranted := p, admitted := s.pool.admitted + 1 } })))) ∧
     ((∀ c, (s.ctx c).state ≠ .free) ∨ s.quota p ≤ s.live p →
       exec (.operationAdmission p) s = .next (transmit (s.modPort p fun n => { n with reserved := true })))) ∧
  (∀ (s : State) (p : Port) (kind : OpKind) (f : FrameFields) (b : Bay), admissionCheck s p kind f = .ok b →
     (s.presence p).state = .active ∧ bayOf f.bay = some b ∧
     (∀ c, isLive (s.ctx c) = true → (s.ctx c).orphaned = false → (s.ctx c).port = p → (s.ctx c).tag ≠ f.tag) ∧
     ∃ h, (s.bay b).holder p = some h ∧ h.serial = f.serial ∧ (kind = .write → h.mode = .exclusive) ∧
       (kind ≠ .sync → f.block.toNat + f.count.toNat ≤ (s.bay b).capacity.toNat))

/-- R71, R72: the hand-out offers the lowest-numbered FREE context to the first eligible port after the last-granted
one, in turn; an offer whose checks fail refuses the head; it goes on until no context is FREE or no port is eligible.
R69, R71: a port whose wait at quota ends while a context is FREE is given the lowest-numbered one at once, without an
offer to any other. Log 8: the row runs the hand-out that each freeing event makes, and within an event that ends
attempts at a bay an operation of that bay takes its place in its service list without a choice. R70: what taking its
place does. -/
def Obligations.ContextsHandedOut : Prop :=
  (∀ s : State, s.phase = .running → exec .contextHandout s = .next (transmit (handOut s))) ∧
  (∀ s : State, (∀ c, ((handOut s).ctx c).state ≠ .free) ∨
    ∀ p, waitingHead (handOut s) p = none ∨ (handOut s).quota p ≤ (handOut s).live p) ∧
  (∀ (s : State) (c : CtxId) (i : Port) (kind : OpKind) (f : FrameFields),
    (s.ctx c).state = .free → (∀ d, d < c → (s.ctx d).state ≠ .free) →
    waitingHead s (s.pool.lastGranted + 1 + i) = some (kind, f) →
    s.live (s.pool.lastGranted + 1 + i) < s.quota (s.pool.lastGranted + 1 + i) →
    (∀ j, j < i → waitingHead s (s.pool.lastGranted + 1 + j) = none ∨
      s.quota (s.pool.lastGranted + 1 + j) ≤ s.live (s.pool.lastGranted + 1 + j)) →
    (∀ b, admissionCheck s (s.pool.lastGranted + 1 + i) kind f = .ok b →
      offer s = some (allocate c (s.pool.lastGranted + 1 + i) kind b f s)) ∧
    (∀ st, admissionCheck s (s.pool.lastGranted + 1 + i) kind f = .error st →
      offer s = some (answerHead (s.pool.lastGranted + 1 + i)
        { kind := .answer, status := st, tag := f.tag, bay := f.bay, count := f.count, serial := f.serial } s))) ∧
  (∀ (held : Option Bay) (s : State) (c : CtxId) (p : Port) (kind : OpKind) (f : FrameFields),
    waitingHead s p = some (kind, f) →
    (∀ b, admissionCheck s p kind f = .ok b →
      takeUp held c p s = if held = some b then seat c p kind b f s else chooseAll b (seat c p kind b f s)) ∧
    (∀ st, admissionCheck s p kind f = .error st →
      takeUp held c p s = answerHead p
        { kind := .answer, status := st, tag := f.tag, bay := f.bay, count := f.count, serial := f.serial } s)) ∧
  (∀ (held : Option Bay) (s : State),
    ((∀ c, (s.ctx c).state ≠ .free) ∨ (∀ p, waitingHead s p = none ∨ s.quota p ≤ s.live p) →
      handOutHolding held s = s) ∧
    (∀ (c : CtxId) (i : Port), (s.ctx c).state = .free → (∀ d, d < c → (s.ctx d).state ≠ .free) →
      waitingHead s (s.pool.lastGranted + 1 + i) ≠ none →
      s.live (s.pool.lastGranted + 1 + i) < s.quota (s.pool.lastGranted + 1 + i) →
      (∀ j, j < i → waitingHead s (s.pool.lastGranted + 1 + j) = none ∨
        s.quota (s.pool.lastGranted + 1 + j) ≤ s.live (s.pool.lastGranted + 1 + j)) →
      handOutHolding held s = handOutHolding held (takeUp held c (s.pool.lastGranted + 1 + i) s)) ∧
    (∀ p, (∀ c, (s.ctx c).state ≠ .free) ∨ waitingHead s p = none ∨ s.quota p ≤ s.live p → giveAtQuota held p s = s) ∧
    (∀ (p : Port) (c : CtxId), (s.ctx c).state = .free → (∀ d, d < c → (s.ctx d).state ≠ .free) →
      waitingHead s p ≠ none → s.live p < s.quota p → giveAtQuota held p s = takeUp held c p s)) ∧
  (∀ s : State, handOut s = handOutHolding none s) ∧
  (∀ (c : CtxId) (p : Port) (kind : OpKind) (b : Bay) (f : FrameFields) (s u v : State),
    u = (((s.modCtx c fun _ =>
        { state := .queued, port := p, tag := f.tag, kind := kind, bay := b, serial := f.serial, block := f.block,
          count := f.count.toNat, lane := none, attempts := 0, outcome := .good, trailing := false,
          endCause := .none, checkWarn := false, orphaned := false,
          data := if kind = .write then f.payload else [], admission := s.pool.admitted }).modPort p fun n =>
      flowAct { n with intake := n.intake.drop 1, reserved := false }).modLive p fun n => n + 1) →
    v = ((u.modBay b fun r =>
      { r with holders := r.holders.set p ((r.holder p).map fun h => { h with live := h.live + 1 }) }).modService b
        fun w => { w with lists := w.lists.set p (w.lists[p] ++ [c]) }) →
    seat c p kind b f s = { v with pool := { v.pool with lastGranted := p, admitted := s.pool.admitted + 1 } })

/-- R94, R96, R97, R98: one choice at a bay: the oldest eligible retry; else the first port in turn with credit and an
eligible head; else the round ends and the choice is made again; else, with no credit anywhere, the first port in turn
with an eligible head. A bay that cannot issue, or has nothing eligible, chooses nothing. The choices at a bay follow
one another until one chooses nothing. R96, R98: a head that is issued has left its service list, its port is the last
served, and one credit or none is spent; a retry has left the reissue list. R97, R103, R104: a round's end adopts a
pending bank with a PLAN record and refills the credits from the bank in use; an idle bay adopts one when its last live
context has gone; the swap is complete when every bay uses the current bank. R75, R111, R112, R116: an issue: the lane,
the attempt, the command with its work limit, the slot, which keeps its command, and its timer. R95: which contexts are
eligible: a SYNC while no context of the bay is ISSUED; a READ or WRITE whose blocks are apart from those of every
ISSUED context of the bay. R94: a bay can issue while fewer than 4 of its contexts are ISSUED, none of them a SYNC, and
a lane is UP. R96, R98: the turn begins with the port after the last-served port; a port with credit has credit above 0
and an eligible head of its service list. R102: a bay is idle while no context of it is QUEUED, REISSUE or ISSUED. Each
outstanding command is held in its slot, and the command last sent on a lane as its output (log 23). -/
def Obligations.ContextsIssued : Prop :=
  (∀ (s : State) (b : Bay),
     (canIssue s b = true ↔
       (s.drive b).slots.length < 4 ∧ (∀ x ∈ (s.drive b).slots, (s.ctx x.ctx).kind ≠ .sync) ∧
       ((s.drive b).laneA.state = .up ∨ (s.drive b).laneB.state = .up)) ∧
     (bayIdle s b = true ↔
       ∀ c, (s.ctx c).bay = b →
         (s.ctx c).state ≠ .queued ∧ (s.ctx c).state ≠ .reissue ∧ (s.ctx c).state ≠ .issued) ∧
     (∀ (p : Port) (c : CtxId), eligibleHead s b p = some c ↔
       ((s.service b).lists[p]).head? = some c ∧ eligible s b c = true) ∧
     (∀ turn : Port → Nat, (∀ q, turn q = (q.val + 7 - (s.service b).lastServed.val) % 8) →
       (∀ p, creditedPort s b = some p ↔
         (0 < (s.service b).credits[p] ∧ ∃ c, eligibleHead s b p = some c) ∧
         ∀ q, turn q < turn p → ¬ (0 < (s.service b).credits[q] ∧ ∃ c, eligibleHead s b q = some c)) ∧
       (∀ p, uncreditedPort s b = some p ↔
         (∃ c, eligibleHead s b p = some c) ∧ ∀ q, turn q < turn p → eligibleHead s b q = none))) ∧
  (∀ (b : Bay) (s : State),
     (canIssue s b = false → choose b s = none) ∧
     (canIssue s b = true →
       (∀ c, (s.service b).reissue.find? (eligible s b) = some c → choose b s = some (issueRetry b c s)) ∧
       ((∀ c ∈ (s.service b).reissue, eligible s b c = false) →
         (∀ p, creditedPort s b = some p → choose b s = some (issueHead b p 1 s)) ∧
         (creditedPort s b = none →
           ((∀ p, eligibleHead s b p = none) → choose b s = none) ∧
           (∀ q c, eligibleHead s b q = some c →
             (∀ p, creditedPort (roundEnd b s) b = some p → choose b s = some (issueHead b p 1 (roundEnd b s))) ∧
             (∀ p, creditedPort (roundEnd b s) b = none → uncreditedPort (roundEnd b s) b = some p →
               choose b s = some (issueHead b p 0 (roundEnd b s)))))))) ∧
  (∀ (b : Bay) (s : State),
     (choose b s = none → chooseAll b s = s) ∧ (∀ t, choose b s = some t → chooseAll b s = chooseAll b t) ∧
     choose b (chooseAll b s) = none) ∧
  (∀ (b : Bay) (s : State),
     (∀ (p : Port) (c : CtxId) (rest : List CtxId) (cost : Nat), (s.service b).lists[p] = c :: rest →
       issueHead b p cost s = issue b c (s.drive b).policy.preferred (s.modService b fun v =>
         { v with
           lists := v.lists.set p rest, credits := v.credits.set p (v.credits[p] - cost), lastServed := p })) ∧
     (∀ (c : CtxId) (l : Lane), (s.ctx c).lane = some l →
       issueRetry b c s = issue b c l (s.modService b fun v =>
         { v with reissue := v.reissue.filter fun x => decide (x ≠ c) })) ∧
     (s.plan.swapPending = false ∨ (s.service b).bank = s.plan.current →
       roundEnd b s = (s.modService b fun v =>
         { v with credits := byPort fun p => ((s.plan.bank v.bank)[b][p]).val }) ∧
       adoptIfIdle b s = s) ∧
     (s.plan.swapPending = true → (s.service b).bank ≠ s.plan.current → ∀ t : State,
       t = swapCheck (appendRecord { note := .plan s.plan.current, bay := some b }
         (s.modService b fun v => { v with bank := s.plan.current })) →
       roundEnd b s = (t.modService b fun v =>
         { v with credits := byPort fun p => ((t.plan.bank v.bank)[b][p]).val }) ∧
       (bayIdle s b = false → adoptIfIdle b s = s) ∧
       (bayIdle s b = true → adoptIfIdle b s =
         swapCheck (appendRecord { note := .plan s.plan.current, bay := some b } (s.modService b fun v =>
           { v with
             bank := s.plan.current,
             credits := byPort fun p => ((s.plan.bank s.plan.current)[b][p]).val })))) ∧
     (s.plan.swapPending = true → (∀ d, (s.service d).bank = s.plan.current) →
       swapCheck s = raiseEvent .planAdopted { s with plan := { s.plan with swapPending := false } }) ∧
     (s.plan.swapPending = false ∨ (∃ d, (s.service d).bank ≠ s.plan.current) → swapCheck s = s)) ∧
  (∀ (b : Bay) (c : CtxId) (wanted : Lane) (s t : State), t = issue b c wanted s →
     ((s.drive b).laneA.state = .up ∨ (s.drive b).laneB.state = .up) →
     ∃ l, ((s.drive b).lane l).state = .up ∧ (((s.drive b).lane wanted).state = .up → l = wanted) ∧
       t.ctx c = { s.ctx c with state := .issued, lane := some l, attempts := (s.ctx c).attempts + 1 } ∧
       (∀ d, d ≠ c → t.ctx d = s.ctx d) ∧
       (t.drive b).slots = (s.drive b).slots ++
         [{ ctx := c, lane := l, attempt := (s.ctx c).attempts + 1,
            deadline := s.now + timeoutMs (s.drive b).policy.timeout * 1000,
            command := contextCommand c (t.ctx c) (workLimitMs (s.drive b).policy.timeout) }] ∧
       ((t.drive b).lane l).sent = some (contextCommand c (t.ctx c) (workLimitMs (s.drive b).policy.timeout)) ∧
       (t.drive b).lane (otherLane l) = (s.drive b).lane (otherLane l) ∧
       (∀ d, d ≠ b → t.drive d = s.drive d) ∧
       t = { s with drives := t.drives, pool := { s.pool with contexts := t.pool.contexts } }) ∧
  (∀ (c : CtxId) (x : Context) (n : Nat),
     (x.kind = .read → contextCommand c x n = .read c x.attempts x.block x.count n) ∧
     (x.kind = .write → contextCommand c x n = .write c x.attempts x.block x.count
       ((List.range x.count).map fun i =>
         { data := (x.data.drop (i * 4096)).take 4096,
           check := checkValue ((x.data.drop (i * 4096)).take 4096),
           address := BitVec.ofNat 32 (x.block.toNat + i) }) n) ∧
     (x.kind = .sync → contextCommand c x n = .sync c x.attempts n)) ∧
  (workLimitMs .ms50 = 37 ∧ workLimitMs .ms200 = 150 ∧ workLimitMs .ms800 = 600 ∧ workLimitMs .ms3200 = 2400) ∧
  (∀ (s : State) (b : Bay) (c : CtxId),
     ((s.ctx c).kind = .sync → (eligible s b c = true ↔ (s.drive b).slots = [])) ∧
     ((s.ctx c).kind ≠ .sync → (∀ x ∈ (s.drive b).slots, (s.ctx x.ctx).kind ≠ .sync) →
       (eligible s b c = true ↔
         ∀ x ∈ (s.drive b).slots,
           (s.ctx c).block.toNat + (s.ctx c).count ≤ (s.ctx x.ctx).block.toNat ∨
           (s.ctx x.ctx).block.toNat + (s.ctx x.ctx).count ≤ (s.ctx c).block.toNat)))

/-! ## Management requests -/

/-- R180, R154: the checks that every management request passes first, in order, for all 26 rows; a request that fails
one is answered with its status and does nothing else. R33, R50, R57, R128, R150, R163 to R168, R181, R182: a request
whose bay field names no bay, or no port, is answered RANGE; R101, R102, R106, R174, R184, R188, R191 and the others:
one with a field it does not use, or a payload where it takes none, is answered FORMAT. R48, R50, R101, R128, R181,
R182, R183, R188: what the requests that carry arguments are refused for: a bay, a port or a lane that there is not, a
payload that is not the record its rule gives, or a nonzero field that it does not use. R195: a payload of the wrong
length of JOURNAL_READ, STATS_READ and TIME_SET, and an empty one of REVOKE, ACCESS_GET and ACCESS_SET, is answered
FORMAT (log 19). That RANGE comes before FORMAT at LIMITS_SET, BAY_POLICY_SET, LOAN_QUERY and PORT_STATUS where the other
fault is an unused field or the payload's length is log 34. R195: the arg codes of the 26 sub-kinds. -/
def Obligations.ManagementRefused : Prop :=
  [SubKind.accessSet, .accessGet, .loanQuery, .revoke, .bayWithdraw, .bayRestore, .laneRestore, .bayPolicySet,
      .planWrite, .planSwap, .planStatus, .portEnable, .portDisable, .portTestOn, .portTestOff, .portStatus, .portResync,
      .limitsSet, .journalRead, .statsRead, .eventRead, .eventEnable, .eventSet, .eventClear, .timeSet,
      .resetPart].map subKindCode =
    [0x01, 0x02, 0x03, 0x04, 0x05, 0x06, 0x07, 0x08, 0x09, 0x0A, 0x0B, 0x0C, 0x0D, 0x0E, 0x0F, 0x10, 0x11, 0x12, 0x13,
      0x14, 0x15, 0x16, 0x17, 0x18, 0x19, 0x1A] ∧
  (∀ (sub : SubKind) (p : Port) (f : FrameFields) (s : State),
     HeadReady s p { kind := kindManage, fields := f } → f.arg = subKindCode sub →
     ((s.presence p).state = .new ∨ (s.presence p).state = .off ∨ (s.presence p).state = .test →
       AnswersOnly (manageRow sub p) p { kind := .answer, status := .notAdmitted, tag := f.tag, bay := f.bay } s) ∧
     ((s.presence p).state = .lapsed →
       AnswersOnly (manageRow sub p) p { kind := .answer, status := .lapsed, tag := f.tag, bay := f.bay } s) ∧
     ((s.presence p).state = .active → (s.port p).role = .node →
       AnswersOnly (manageRow sub p) p { kind := .answer, status := .notPermitted, tag := f.tag, bay := f.bay } s) ∧
     ((s.presence p).state = .active → (s.port p).role = .supervisor → f.flags ≠ 0 →
       AnswersOnly (manageRow sub p) p { kind := .answer, status := .format, tag := f.tag, bay := f.bay } s)) ∧
  (∀ (sub : SubKind) (p : Port) (f : FrameFields) (s : State), ManageReady s p sub f →
     (sub ∈ [SubKind.loanQuery, .bayWithdraw, .bayRestore, .laneRestore, .bayPolicySet] → 12 ≤ f.bay.toNat →
       AnswersOnly (manageRow sub p) p { kind := .answer, status := .range, tag := f.tag, bay := f.bay } s) ∧
     (sub ∈ [SubKind.portEnable, .portDisable, .portTestOn, .portTestOff, .portStatus, .portResync, .limitsSet] →
       8 ≤ f.bay.toNat →
       AnswersOnly (manageRow sub p) p { kind := .answer, status := .range, tag := f.tag, bay := f.bay } s) ∧
     (sub ∈ [SubKind.loanQuery, .bayRestore] → f.bay.toNat < 12 →
       (f.payload ≠ [] ∨ f.count ≠ 0 ∨ f.serial ≠ 0 ∨ f.block ≠ 0) →
       AnswersOnly (manageRow sub p) p { kind := .answer, status := .format, tag := f.tag, bay := f.bay } s) ∧
     (sub ∈ [SubKind.portEnable, .portDisable, .portTestOn, .portTestOff, .portStatus, .portResync] →
       f.bay.toNat < 8 → (f.payload ≠ [] ∨ f.count ≠ 0 ∨ f.serial ≠ 0 ∨ f.block ≠ 0) →
       AnswersOnly (manageRow sub p) p { kind := .answer, status := .format, tag := f.tag, bay := f.bay } s) ∧
     (sub ∈ [SubKind.planSwap, .planStatus, .eventRead, .resetPart] →
       (f.payload ≠ [] ∨ f.bay ≠ 0 ∨ f.count ≠ 0 ∨ f.serial ≠ 0 ∨ f.block ≠ 0) →
       AnswersOnly (manageRow sub p) p { kind := .answer, status := .format, tag := f.tag, bay := f.bay } s) ∧
     (sub ∈ [SubKind.planWrite, .journalRead, .statsRead, .eventEnable, .eventSet, .eventClear, .timeSet] →
       (f.bay ≠ 0 ∨ f.count ≠ 0 ∨ f.serial ≠ 0 ∨ f.block ≠ 0) →
       AnswersOnly (manageRow sub p) p { kind := .answer, status := .format, tag := f.tag, bay := f.bay } s)) ∧
  (∀ (sub : SubKind) (p : Port) (f : FrameFields) (s : State), ManageReady s p sub f →
     (sub = .revoke → ∀ x rest, f.payload = x :: rest →
       ((12 ≤ f.bay.toNat ∨ 8 ≤ x.toNat) →
         AnswersOnly (.revoke p) p { kind := .answer, status := .range, tag := f.tag, bay := f.bay } s) ∧
       (f.bay.toNat < 12 → x.toNat < 8 → (rest ≠ [] ∨ f.count ≠ 0 ∨ f.serial ≠ 0 ∨ f.block ≠ 0) →
         AnswersOnly (.revoke p) p { kind := .answer, status := .format, tag := f.tag, bay := f.bay } s)) ∧
     (sub = .accessGet → ∀ x rest, f.payload = x :: rest → f.bay.toNat < 12 → x.toNat < 8 →
       (rest ≠ [] ∨ f.count ≠ 0 ∨ f.serial ≠ 0 ∨ f.block ≠ 0) →
       AnswersOnly (.accessGet p) p { kind := .answer, status := .format, tag := f.tag, bay := f.bay } s) ∧
     (sub = .laneRestore → f.bay.toNat < 12 →
       (f.count ≠ 1 → f.count ≠ 2 →
         AnswersOnly (.laneRestore p) p { kind := .answer, status := .range, tag := f.tag, bay := f.bay } s) ∧
       ((f.count = 1 ∨ f.count = 2) → (f.payload ≠ [] ∨ f.serial ≠ 0 ∨ f.block ≠ 0) →
         AnswersOnly (.laneRestore p) p { kind := .answer, status := .format, tag := f.tag, bay := f.bay } s)) ∧
     (sub ∈ [SubKind.bayWithdraw, .bayPolicySet] → f.bay.toNat < 12 →
       (f.count ≠ 0 ∨ f.serial ≠ 0 ∨ f.block ≠ 0 ∨ sub = .bayWithdraw ∧ f.payload.length ≠ 2 ∨
         sub = .bayPolicySet ∧ bayPolicyOf f.payload = none) →
       AnswersOnly (manageRow sub p) p { kind := .answer, status := .format, tag := f.tag, bay := f.bay } s) ∧
     (sub = .limitsSet → f.bay.toNat < 8 →
       (f.count ≠ 0 ∨ f.serial ≠ 0 ∨ f.block ≠ 0 ∨ portLimitsOf f.payload = none) →
       AnswersOnly (.limitsSet p) p { kind := .answer, status := .format, tag := f.tag, bay := f.bay } s) ∧
     (sub ∈ [SubKind.planWrite, .eventEnable, .eventSet, .eventClear] →
       (sub = .planWrite ∧ planWriteOf f.payload = none ∨ sub ≠ .planWrite ∧ eventsOf f.payload = none) →
       AnswersOnly (manageRow sub p) p { kind := .answer, status := .format, tag := f.tag, bay := f.bay } s) ∧
     ((sub = .journalRead ∧ f.payload.length ≠ 1 ∨ sub = .statsRead ∧ f.payload.length ≠ 3 ∨
         sub = .timeSet ∧ f.payload.length ≠ 5 ∨
         sub ∈ [SubKind.revoke, .accessGet, .accessSet] ∧ f.payload = []) →
       AnswersOnly (manageRow sub p) p { kind := .answer, status := .format, tag := f.tag, bay := f.bay } s))

/-- R13, R12: ACCESS_SET replaces one right and answers OK; a waiting claim of the named port that the new right no
longer permits is refused with cause ACCESS, and where it was the head the grant pass and the patience check run. R13,
R183: ACCESS_SET and ACCESS_GET of a port above 7 or a bay above 11 are answered RANGE; ACCESS_SET of a value that is
no right is answered FORMAT. Log 34: RANGE comes first also where an unused field is not zero or the payload is too long.
Log 19: a payload without a port is answered FORMAT. R183, R194: ACCESS_GET answers OK
with the port, the bay and the right as it stands, and changes nothing. -/
def Obligations.RightsManaged : Prop :=
  (∀ (p q : Port) (b : Bay) (r : Right) (f : FrameFields) (s : State), ManageReady s p .accessSet f →
     bayOf f.bay = some b → f.payload = [byte q.val, rightCode r] → f.count = 0 → f.serial = 0 → f.block = 0 →
     ((∀ x ∈ (s.bay b).claims, x.port = q → permits r x.mode = true) →
       exec (.accessSet p) s = .next (transmit (answerHead p
         { kind := .answer, status := .ok, tag := f.tag, bay := f.bay } (s.setRight q b r)))) ∧
     (∀ x, (s.bay b).claims.find? (fun x => decide (x.port = q)) = some x → permits r x.mode = false →
       exec (.accessSet p) s = .next (transmit (answerHead p
         { kind := .answer, status := .ok, tag := f.tag, bay := f.bay }
         (if (s.bay b).claims.head?.map Claim.port = some q then
           settleBay b (refuseClaim b .access false x (s.setRight q b r))
         else refuseClaim b .access false x (s.setRight q b r))))) ∧
     ((s.setRight q b r).right q b = r ∧
       ∀ q' b', (q' ≠ q ∨ b' ≠ b) → (s.setRight q b r).right q' b' = s.right q' b')) ∧
  (∀ (p : Port) (f : FrameFields) (s : State) (x : Byte) (rest : List Byte), f.payload = x :: rest →
     (ManageReady s p .accessSet f →
       ((12 ≤ f.bay.toNat ∨ 8 ≤ x.toNat) →
         AnswersOnly (.accessSet p) p { kind := .answer, status := .range, tag := f.tag, bay := f.bay } s) ∧
       (f.bay.toNat < 12 → x.toNat < 8 →
         (f.count ≠ 0 ∨ f.serial ≠ 0 ∨ f.block ≠ 0 ∨ (∀ y, rest ≠ [y]) ∨ ∃ y, rest = [y] ∧ 2 < y.toNat) →
         AnswersOnly (.accessSet p) p { kind := .answer, status := .format, tag := f.tag, bay := f.bay } s)) ∧
     (ManageReady s p .accessGet f →
       (12 ≤ f.bay.toNat ∨ 8 ≤ x.toNat) →
       AnswersOnly (.accessGet p) p { kind := .answer, status := .range, tag := f.tag, bay := f.bay } s)) ∧
  (∀ (p : Port) (f : FrameFields) (s : State), f.payload = [] →
     (ManageReady s p .accessSet f →
       AnswersOnly (.accessSet p) p { kind := .answer, status := .format, tag := f.tag, bay := f.bay } s) ∧
     (ManageReady s p .accessGet f →
       AnswersOnly (.accessGet p) p { kind := .answer, status := .format, tag := f.tag, bay := f.bay } s)) ∧
  (∀ (p q : Port) (b : Bay) (f : FrameFields) (s : State), ManageReady s p .accessGet f →
     bayOf f.bay = some b → f.payload = [byte q.val] → f.count = 0 → f.serial = 0 → f.block = 0 →
     AnswersOnly (.accessGet p) p
       { kind := .answer, status := .ok, tag := f.tag, bay := f.bay,
         detail := [byte q.val, rightCode (s.right q b), 0, 0, 0, 0] } s)

/-- R33, R106, R168, R188, R195: the requests that read and change nothing: LOAN_QUERY, PLAN_STATUS, PORT_STATUS and
EVENT_READ answer OK with their payloads. PORT_STATUS of the requesting port finds its request gone (log 17). R193,
R195: the payloads of LOAN_QUERY and PORT_STATUS, byte by byte, and the codes they carry; log 20: the milliseconds left of
a timer are whole ones. -/
def Obligations.SnapshotsAnswered : Prop :=
  (∀ (p : Port) (f : FrameFields) (s : State), f.payload = [] → f.count = 0 → f.serial = 0 → f.block = 0 →
    (∀ b, ManageReady s p .loanQuery f → bayOf f.bay = some b →
      AnswersOnly (.loanQuery p) p
        { kind := .answer, status := .ok, tag := f.tag, bay := f.bay, payload := loanQueryPayload s b } s) ∧
    (ManageReady s p .planStatus f → f.bay = 0 →
      AnswersOnly (.planStatus p) p
        { kind := .answer, status := .ok, tag := f.tag, bay := 0,
          payload := [bankCode s.plan.current, flagByte s.plan.swapPending, bankCode (s.service 0).bank,
            bankCode (s.service 1).bank, bankCode (s.service 2).bank, bankCode (s.service 3).bank,
            bankCode (s.service 4).bank, bankCode (s.service 5).bank, bankCode (s.service 6).bank,
            bankCode (s.service 7).bank, bankCode (s.service 8).bank, bankCode (s.service 9).bank,
            bankCode (s.service 10).bank, bankCode (s.service 11).bank] } s) ∧
    (∀ q, ManageReady s p .portStatus f → portOf f.bay = some q →
      AnswersOnly (.portStatus p) p
        { kind := .answer, status := .ok, tag := f.tag, bay := f.bay,
          payload := portStatusPayload
            (s.modPort p fun n => flowAct { n with intake := n.intake.drop 1, reserved := false }) q } s) ∧
    (ManageReady s p .eventRead f → f.bay = 0 →
      AnswersOnly (.eventRead p) p
        { kind := .answer, status := .ok, tag := f.tag, bay := 0,
          payload := eventBytes s.raised ++ eventBytes s.enabled } s)) ∧
  (∀ (s : State) (b : Bay) (r : BayRecord) (left : Option Nat → Nat), r = s.bay b →
    left none = 0 → (∀ t, left (some t) = (t - s.now) / 1000) →
    loanQueryPayload s b =
      [availabilityCode r.availability, loanModeCode r.loanMode, phaseCode r.phase,
        (match r.subject with
          | none => 0xFF
          | some q => byte q.val),
        if r.patienceTimer = none then 0 else 1] ++ bytesOf 2 (left r.patienceTimer) ++
      [if r.recallTimer = none then 0 else 1] ++ bytesOf 2 (left r.recallTimer) ++ [byte r.trailing] ++
      bytesOf 6 r.capacity.toNat ++ bytesOf 2 r.patienceTime.toNat ++ bytesOf 2 r.recallTime.toNat ++
      bytesOf 6 s.nextSerial.toNat ++
      [if s.exhausted = true then 1 else 0,
        byte (allPorts.filter fun q => decide (r.holder q ≠ none)).length, byte r.claims.length, 0, 0] ++
      (allPorts.map fun q =>
        match r.holder q with
        | some h =>
          [byte q.val, modeCode h.mode, if h.recalled = true then 1 else 0, byte h.live] ++ bytesOf 6 h.serial.toNat ++
            bytesOf 4 h.grantTag.toNat ++ bytesOf 4 h.blocksRead.toNat ++ bytesOf 4 h.blocksWritten.toNat ++ [0, 0]
        | none => []).flatten ++
      (r.claims.map fun x =>
        [byte x.port.val, modeCode x.mode] ++ bytesOf 2 x.tag.toNat ++ bytesOf 4 x.arrivalTag.toNat).flatten) ∧
  (∀ (s : State) (q : Port) (n : NodePort) (m : Presence), n = s.port q → m = s.presence q →
    portStatusPayload s q =
      [portStateCode m.state, if m.enabled = true then 1 else 0, roleCode n.role, if n.carrier = .up then 1 else 0,
        byte ((if n.silent = true then 1 else 0) + (if m.patternError = true then 2 else 0) +
          (if m.earlyFrozen = true then 4 else 0)),
        byte m.miss, byte m.early, holdCode n.hold] ++ bytesOf 2 m.window ++ [byte m.missLimit, byte m.earlyLimit] ++
      bytesOf 4 (occupancy n.intake) ++
      [byte n.intake.length, byte (s.live q),
        byte (allBays.filter fun b => decide ((s.bay b).holder q ≠ none)).length,
        byte (allBays.filter fun b => (s.bay b).claims.any fun x => decide (x.port = q)).length]) ∧
  (availabilityCode .probing = 1 ∧ availabilityCode .inService = 2 ∧ availabilityCode .withdrawing = 3 ∧
    availabilityCode .withdrawn = 4 ∧ availabilityCode .faulted = 5 ∧ loanModeCode .vacant = 0 ∧
    loanModeCode .shared = 1 ∧ loanModeCode .exclusive = 2 ∧ phaseCode .none = 0 ∧ phaseCode .patience = 1 ∧
    phaseCode .recalled = 2 ∧ modeCode .shared = 1 ∧ modeCode .exclusive = 2 ∧ portStateCode .off = 0 ∧
    portStateCode .new = 1 ∧ portStateCode .active = 2 ∧ portStateCode .lapsed = 3 ∧ portStateCode .test = 4 ∧
    roleCode .node = 0 ∧ roleCode .supervisor = 1 ∧ holdCode .isOpen = 0 ∧ holdCode .held = 1 ∧ holdCode .spent = 2 ∧
    bankCode .a = 1 ∧ bankCode .b = 2)

/-- R48: REVOKE ends the named port's loan, or refuses its claim, with cause FORCED; with neither it is STALE. Log 8:
contexts are handed out after the answer and the settling. The premise of the last clause is the invariant of the Loan
Table. -/
def Obligations.LoanForced : Prop :=
  ∀ (p q : Port) (b : Bay) (f : FrameFields) (s : State), ManageReady s p .revoke f →
    bayOf f.bay = some b → f.payload = [byte q.val] → f.count = 0 → f.serial = 0 → f.block = 0 →
    (∀ h, (s.bay b).holder q = some h →
      exec (.revoke p) s = .next (transmit (handOut (answerHead p
        { kind := .answer, status := .ok, tag := f.tag, bay := f.bay, serial := h.serial,
          detail := [1, 0, 0, 0, 0, 0] }
        (settleBay b (revokeLoan b .forced q h s))))) ∧
      (ClaimsSafe s → ∀ t, exec (.revoke p) s = .next t → (t.bay b).holder q = none)) ∧
    ((s.bay b).holder q = none →
      (∀ x, (s.bay b).claims.find? (fun x => decide (x.port = q)) = some x →
        exec (.revoke p) s = .next (transmit (answerHead p
          { kind := .answer, status := .ok, tag := f.tag, bay := f.bay, detail := [2, 0, 0, 0, 0, 0] }
          (if (s.bay b).claims.head?.map Claim.port = some q then settleBay b (refuseClaim b .forced false x s)
          else refuseClaim b .forced false x s)))) ∧
      (¬ waitsAt s q b →
        AnswersOnly (.revoke p) p { kind := .answer, status := .stale, tag := f.tag, bay := f.bay } s))

/-- R50, R51, R52, R54: a BAY_WITHDRAW that is taken: every claim is gone; with recall time 0 every loan is gone, else
every holder is recalled and the recall timer runs, or runs on where it has less left; the bay is WITHDRAWN when it
has no holder and no trailing context, and else WITHDRAWING. R194: the OK answer carries the claims refused, the
holders revoked and the holders in the recall set. The state given is the one before contexts are handed out at the
event's end; with recall time 0 a port whose wait at quota has ended has been given its FREE context before (R71, log
8), so drives of other bays may have been issued to. R50, R51, R52: the steps: the patience timer stops and every claim is
refused with cause WITHDRAWN, in queue order, each with its REFUSED notice and REFUSE record; with recall time 0 every
holder is revoked with cause WITHDRAWN, in port order, each with its REVOKED notice and END record, which ends a recall:
the phase is NONE, the recall timer has stopped and RECALL_FORCED is not raised; else each holder that was not recalled
gets a RECALL notice; then the completion check, with the BAY record WITHDRAWN. R50: a BAY_WITHDRAW at a bay that is not
IN_SERVICE is refused by the bay's availability. -/
def Obligations.BayWithdrawn : Prop :=
  (∀ (p : Port) (b : Bay) (ms : Nat) (f : FrameFields) (s : State), ManageReady s p .bayWithdraw f →
     bayOf f.bay = some b → f.payload = bytesOf 2 ms → ms < 65536 → f.count = 0 → f.serial = 0 → f.block = 0 →
     (s.bay b).availability = .inService →
     ∃ u v w x, exec (.bayWithdraw p) s = .next (transmit (handOut u)) ∧
       v = (s.bay b).claims.foldl (fun t y => refuseClaim b .withdrawn false y t) (s.modBay b fun r =>
         if r.phase = .patience then
           { r with availability := .withdrawing, patienceTimer := none, subject := none, phase := .none }
         else { r with availability := .withdrawing }) ∧
       (ms = 0 → w = revokePorts b .withdrawn (allPorts.filter fun q => decide ((s.bay b).holder q ≠ none)) v) ∧
       (0 < ms → (∀ q, (s.bay b).holder q = none) → w = v) ∧
       (0 < ms → (∃ q h, (s.bay b).holder q = some h) →
         (∃ l, w.bay b =
           { v.bay b with holders := l, phase := .recalled, recallTimer := (u.bay b).recallTimer }) ∧
         (∀ c, c ≠ b → w.bay c = v.bay c) ∧
         (∀ q, w.port q =
           match (s.bay b).holder q with
           | some h =>
             if h.recalled = true then v.port q
             else
               { v.port q with
                 notices := noticeInto { bay := b, kind := .recall, tag := 0, serial := h.serial, cause := .none }
                   (v.port q).notices }
           | none => v.port q) ∧
         w = { v with bays := w.bays, ports := w.ports }) ∧
       x = (if (∀ q, (w.bay b).holder q = none) ∧ (w.bay b).trailing = 0 then
           appendRecord { note := .bay .withdrawn, port := none, bay := some b }
             (w.modBay b fun r => { r with availability := .withdrawn })
         else w) ∧
       ((s.bay b).phase = .recalled → (∃ q h, (s.bay b).holder q = some h ∧ h.recalled = true) → ms = 0 →
         (u.bay b).phase = .none ∧ (u.bay b).recallTimer = none) ∧
       ((s.bay b).phase ≠ .recalled → ms = 0 ∨ (∀ q, (s.bay b).holder q = none) →
         (u.bay b).phase = .none ∧ (u.bay b).recallTimer = (s.bay b).recallTimer) ∧
       (∀ c, hasEvent u.raised (.recallForced c) = hasEvent s.raised (.recallForced c)) ∧
       (u.bay b).claims = [] ∧
       (ms = 0 → ∀ q, (u.bay b).holder q = none) ∧
       (0 < ms → ∀ q, (u.bay b).holder q = ((s.bay b).holder q).map fun h => { h with recalled := true }) ∧
       (0 < ms → (∃ q h, (s.bay b).holder q = some h) →
         (u.bay b).phase = .recalled ∧
         ((s.bay b).recallTimer = none → (u.bay b).recallTimer = some (s.now + ms * 1000)) ∧
         (∀ d, (s.bay b).recallTimer = some d →
           (u.bay b).recallTimer = some (s.now + min ((d - s.now) / 1000) ms * 1000))) ∧
       ((u.bay b).availability =
         if (∀ q, (u.bay b).holder q = none) ∧ (u.bay b).trailing = 0 then .withdrawn else .withdrawing) ∧
       (u.bay b).recallTime = (s.bay b).recallTime ∧ u.presences = s.presences ∧ u.drive b = s.drive b ∧
       (0 < ms → u.drives = s.drives) ∧
       u = answerHead p
         { kind := .answer, status := .ok, tag := f.tag, bay := f.bay,
           detail :=
             [byte (s.bay b).claims.length,
              byte (if ms = 0 then (allPorts.filter fun q => decide ((s.bay b).holder q ≠ none)).length else 0),
              byte (allPorts.filter fun q =>
                match (u.bay b).holder q with
                | some h => h.recalled
                | none => false).length, 0, 0, 0] } x) ∧
  (∀ (p : Port) (b : Bay) (f : FrameFields) (s : State), ManageReady s p .bayWithdraw f → bayOf f.bay = some b →
     f.payload.length = 2 → f.count = 0 → f.serial = 0 → f.block = 0 →
     ((s.bay b).availability = .probing →
       AnswersOnly (.bayWithdraw p) p { kind := .answer, status := .bayBusy, tag := f.tag, bay := f.bay } s) ∧
     ((s.bay b).availability = .withdrawing ∨ (s.bay b).availability = .withdrawn →
       AnswersOnly (.bayWithdraw p) p { kind := .answer, status := .withdrawn, tag := f.tag, bay := f.bay } s) ∧
     ((s.bay b).availability = .faulted →
       AnswersOnly (.bayWithdraw p) p { kind := .answer, status := .faulted, tag := f.tag, bay := f.bay } s))

/-- R57, R113: BAY_RESTORE at a WITHDRAWN or FAULTED bay starts probing of both lanes, with capacity 0; at any other bay
it is answered BAY_BUSY. R128: LANE_RESTORE at an IN_SERVICE or WITHDRAWN bay sends a plain PROBE on a DOWN lane and
answers with both lanes' states and failure counters; on an UP lane it only answers; elsewhere it is refused. The probe
number goes on as log 5 has it, and the command last sent on a lane is held as its output (log 23). -/
def Obligations.BayAndLaneRestored : Prop :=
  (∀ (p : Port) (b : Bay) (f : FrameFields) (s : State), ManageReady s p .bayRestore f → bayOf f.bay = some b →
     f.payload = [] → f.count = 0 → f.serial = 0 → f.block = 0 →
     ((s.bay b).availability = .withdrawn ∨ (s.bay b).availability = .faulted →
       exec (.bayRestore p) s = .next (transmit (answerHead p
         { kind := .answer, status := .ok, tag := f.tag, bay := f.bay }
         ((s.modBay b fun r => { r with availability := .probing, capacity := 0 }).modDrive b fun d =>
           { d with
             slots := [], learnt := none,
             laneA := { d.laneA with
               state := .probing, probe := some { clear := true, deadline := s.now + 3200 * 1000 },
               number := d.laneA.number + 1, sent := some (.probe (d.laneA.number + 1) true 2400) },
             laneB := { d.laneB with
               state := .probing, probe := some { clear := true, deadline := s.now + 3200 * 1000 },
               number := d.laneB.number + 1, sent := some (.probe (d.laneB.number + 1) true 2400) } })))) ∧
     ((s.bay b).availability = .probing ∨ (s.bay b).availability = .inService ∨
         (s.bay b).availability = .withdrawing →
       AnswersOnly (.bayRestore p) p { kind := .answer, status := .bayBusy, tag := f.tag, bay := f.bay } s)) ∧
  (∀ (p : Port) (b : Bay) (l : Lane) (f : FrameFields) (s : State), ManageReady s p .laneRestore f →
     bayOf f.bay = some b → laneOf f.count.toNat = some l → f.payload = [] → f.serial = 0 → f.block = 0 →
     ((s.bay b).availability = .faulted →
       AnswersOnly (.laneRestore p) p { kind := .answer, status := .faulted, tag := f.tag, bay := f.bay } s) ∧
     ((s.bay b).availability = .probing ∨ (s.bay b).availability = .withdrawing →
       AnswersOnly (.laneRestore p) p { kind := .answer, status := .bayBusy, tag := f.tag, bay := f.bay } s) ∧
     ((s.bay b).availability = .inService ∨ (s.bay b).availability = .withdrawn →
       (((s.drive b).lane l).state = .probing →
         AnswersOnly (.laneRestore p) p { kind := .answer, status := .bayBusy, tag := f.tag, bay := f.bay } s) ∧
       (((s.drive b).lane l).state = .up →
         AnswersOnly (.laneRestore p) p
           { kind := .answer, status := .ok, tag := f.tag, bay := f.bay,
             detail := [2, byte ((s.drive b).lane l).failures, laneStateCode ((s.drive b).lane (otherLane l)).state,
               byte ((s.drive b).lane (otherLane l)).failures, 0, 0] } s) ∧
       (((s.drive b).lane l).state = .down →
         exec (.laneRestore p) s = .next (transmit (answerHead p
           { kind := .answer, status := .ok, tag := f.tag, bay := f.bay,
             detail := [1, byte ((s.drive b).lane l).failures, laneStateCode ((s.drive b).lane (otherLane l)).state,
               byte ((s.drive b).lane (otherLane l)).failures, 0, 0] }
           (s.modDrive b fun d => d.modLane l fun r =>
             { r with
               state := .probing, probe := some { clear := false, deadline := s.now + 3200 * 1000 },
               number := r.number + 1, sent := some (.probe (r.number + 1) false 2400) }))))))

/-- R9, R130, R181, R182, R145, R162: BAY_POLICY_SET replaces the whole policy of a bay, and LIMITS_SET the whole
settings of a port: the counters of presence restart, Flow Control acts, and a raised quota may end a wait (log 8: the
hand-out follows the answer). R181,
R182, R195: the port limits records that LIMITS_SET takes and the bay policy records that BAY_POLICY_SET takes, byte by
byte, and their ranges. -/
def Obligations.PoliciesSet : Prop :=
  (∀ (p : Port) (f : FrameFields) (s : State), f.count = 0 → f.serial = 0 → f.block = 0 →
     (∀ b t, ManageReady s p .bayPolicySet f → bayOf f.bay = some b → bayPolicyOf f.payload = some t →
       exec (.bayPolicySet p) s = .next (transmit (answerHead p
         { kind := .answer, status := .ok, tag := f.tag, bay := f.bay }
         ((s.modDrive b fun d => { d with policy := t.drive }).modBay b fun r =>
           { r with patienceTime := t.patienceTime, recallTime := t.recallTime })))) ∧
     (∀ q t, ManageReady s p .limitsSet f → portOf f.bay = some q → portLimitsOf f.payload = some t →
       exec (.limitsSet p) s = .next (transmit (handOut (answerHead p
         { kind := .answer, status := .ok, tag := f.tag, bay := f.bay }
         (((s.setQuota q t.quota).modPort q fun n =>
             flowAct
               { n with
                 highWater := t.highWater, lowWater := t.lowWater, holdTime := t.holdTime,
                 repeatLimit := t.repeatLimit }).modPresence q fun m =>
           { m with
             window := t.window, missLimit := t.missLimit, earlyLimit := t.earlyLimit, miss := 0, early := 0,
             earlyFrozen := false })))))) ∧
  (∀ q h l t r m e x w v : Byte,
     portLimitsOf [q, h, l, t, r, m, e, x, w, v] =
       if 1 ≤ q.toNat ∧ q.toNat ≤ 64 ∧ 1 ≤ h.toNat ∧ h.toNat ≤ 16 ∧ 1 ≤ l.toNat ∧ l.toNat ≤ 15 ∧ 1 ≤ t.toNat ∧
           r.toNat ≤ 15 ∧ x = 0 ∧ 10 ≤ w.toNat * 256 + v.toNat ∧ w.toNat * 256 + v.toNat ≤ 10000 ∧
           l.toNat < h.toNat then
         some
           { quota := q.toNat, highWater := h.toNat, lowWater := l.toNat, holdTime := t, repeatLimit := r.toNat,
             missLimit := m.toNat, earlyLimit := e.toNat, window := w.toNat * 256 + v.toNat }
       else none) ∧
  (∀ m z w v l n r x y e a c g h : Byte,
     bayPolicyOf [m, z, w, v, l, n, r, x, y, e, a, c, g, h] =
       if (m = 1 ∨ m = 2 ∨ m = 3) ∧ z = 0 ∧
           (w.toNat * 256 + v.toNat = 50 ∨ w.toNat * 256 + v.toNat = 200 ∨ w.toNat * 256 + v.toNat = 800 ∨
             w.toNat * 256 + v.toNat = 3200) ∧
           (l = 1 ∨ l = 2) ∧ 1 ≤ n.toNat ∧ n.toNat ≤ 15 ∧ r.toNat ≤ 2 ∧ (x = 1 ∨ x = 2) ∧ (y = 1 ∨ y = 2) ∧
           (e = 0 ∨ e = 1) ∧ g.toNat * 256 + h.toNat ≠ 0 then
         some
           { drive :=
               { checkMode := if m = 1 then .enforce else if m = 2 then .report else .off,
                 timeout :=
                   if w.toNat * 256 + v.toNat = 50 then .ms50
                   else if w.toNat * 256 + v.toNat = 200 then .ms200
                   else if w.toNat * 256 + v.toNat = 800 then .ms800
                   else .ms3200,
                 preferred := if l = 1 then .a else .b, failLimit := n.toNat, retryCount := r.toNat,
                 firstRetry := if x = 1 then .same else .alternate,
                 secondRetry := if y = 1 then .same else .alternate, retryMedium := decide (e = 1) },
             patienceTime := BitVec.ofNat 16 (a.toNat * 256 + c.toNat),
             recallTime := BitVec.ofNat 16 (g.toNat * 256 + h.toNat) }
       else none) ∧
  (∀ x : List Byte, (x.length ≠ 14 → bayPolicyOf x = none) ∧ (x.length ≠ 10 → portLimitsOf x = none))

/-- R101, R102, R103, R104: PLAN_WRITE replaces the 96 weights of a bank that no bay uses; PLAN_SWAP, unless a swap is
pending, makes the other bank current and has every idle bay adopt it, in increasing bay number, each with its PLAN
record and its credits from the new bank; where every bay then uses it the swap is complete and PLAN_ADOPTED is raised.
The answer carries the new current bank and the number of bays that adopted. R195: the PLAN_WRITE payload. -/
def Obligations.PlanChanged : Prop :=
  (∀ (x : List Byte) (bank : Bank) (weights : Weights), planWriteOf x = some (bank, weights) ↔
     x.length = 100 ∧ fieldAt x 0 1 = (if bank = .a then 1 else 2) ∧ fieldAt x 1 3 = 0 ∧
     ∀ (b : Bay) (p : Port), fieldAt x (4 + 8 * b.val + p.val) 1 = (weights[b][p]).val) ∧
  ∀ (p : Port) (f : FrameFields) (s : State), f.bay = 0 → f.count = 0 → f.serial = 0 → f.block = 0 →
    (∀ bank weights, ManageReady s p .planWrite f → planWriteOf f.payload = some (bank, weights) →
      ((∃ b, (s.service b).bank = bank) →
        AnswersOnly (.planWrite p) p { kind := .answer, status := .bankInUse, tag := f.tag, bay := 0 } s) ∧
      ((∀ b, (s.service b).bank ≠ bank) →
        exec (.planWrite p) s = .next (transmit (answerHead p
          { kind := .answer, status := .ok, tag := f.tag, bay := 0, detail := [bankCode bank, 0, 0, 0, 0, 0] }
          { s with
            plan := match bank with
              | .a => { s.plan with bankA := weights }
              | .b => { s.plan with bankB := weights } })))) ∧
    (ManageReady s p .planSwap f → f.payload = [] →
      (s.plan.swapPending = true →
        AnswersOnly (.planSwap p) p { kind := .answer, status := .swapPending, tag := f.tag, bay := 0 } s) ∧
      (s.plan.swapPending = false →
        ∀ adopting : List Bay,
        adopting = (allBays.filter fun b =>
          bayIdle s b && decide ((s.service b).bank ≠ otherBank s.plan.current)) →
        ∃ u, exec (.planSwap p) s = .next (transmit (answerHead p
            { kind := .answer, status := .ok, tag := f.tag, bay := 0,
              detail := [bankCode (otherBank s.plan.current), byte adopting.length, 0, 0, 0, 0] } u)) ∧
          u = swapCheck (allBays.foldl (fun t b => adoptIfIdle b t)
            { s with plan := { s.plan with current := otherBank s.plan.current, swapPending := true } }) ∧
          (∀ (b : Bay) (q : Port), (u.service b).credits[q] =
            if b ∈ adopting then ((s.plan.bank (otherBank s.plan.current))[b][q]).val
            else (s.service b).credits[q]) ∧
          u.journal.seq = s.journal.seq + BitVec.ofNat 32 adopting.length ∧
          ((∀ b, (u.service b).bank = u.plan.current) → hasEvent u.raised .planAdopted = true) ∧
          u.plan.current = otherBank s.plan.current ∧ u.plan.bankA = s.plan.bankA ∧ u.plan.bankB = s.plan.bankB ∧
          (∀ b, (u.service b).bank =
            if bayIdle s b then otherBank s.plan.current else (s.service b).bank) ∧
          (u.plan.swapPending = false ↔ ∀ b, (u.service b).bank = u.plan.current)))

/-- R163: PORT_DISABLE of the requesting port is refused PORT_BUSY; of an OFF port it is only answered; any other port
is cleaned up and taken to OFF, its contexts have ended as a clean-up ends them (R87), a PORT record carries the loans
revoked and the claims removed, and no other port's presence changes. Log 32: no EVENT frame is owed to it. A pending
soft reset whose first requester's answer the clean-up has removed starts in the same event (R191, log 9). The premise
of that clause is the invariant of the Loan Table. R164: PORT_ENABLE makes an OFF port NEW, enabled and SILENT, with its
counters cleared and a PORT record; of any other port it is only answered. Log 17: the named port is touched after the
head has left. -/
def Obligations.PortEnabledOrDisabled : Prop :=
  (∀ (p q : Port) (f : FrameFields) (s : State), ManageReady s p .portDisable f → portOf f.bay = some q →
     f.payload = [] → f.count = 0 → f.serial = 0 → f.block = 0 →
     (q = p → AnswersOnly (.portDisable p) p { kind := .answer, status := .portBusy, tag := f.tag, bay := f.bay } s) ∧
     (q ≠ p → (s.presence q).state = .off →
       AnswersOnly (.portDisable p) p { kind := .answer, status := .ok, tag := f.tag, bay := f.bay } s) ∧
     (q ≠ p → (s.presence q).state ≠ .off → ClaimsSafe s →
       ∀ (a v : State) (loans claims : Nat),
       a = ((answerHead p { kind := .answer, status := .ok, tag := f.tag, bay := f.bay } s).modPresence q fun m =>
         { m with beatTimer := none }) →
       v = cleanContexts q (cleanLoans .disabled q (a.modPort q cleanPort)).state →
       loans = (allBays.filter fun b => decide ((s.bay b).holder q ≠ none)).length →
       claims = (allBays.filter fun b => (s.bay b).claims.any fun x => decide (x.port = q)).length →
       ∃ u, exec (.portDisable p) s = .next (transmit (startIfAnswerGone u)) ∧ (u.presence q).state = .off ∧
         (u.presence q).enabled = false ∧ (u.presence q).beatTimer = none ∧ (u.port q).intake = [] ∧
         (∀ b, (u.bay b).holder q = none ∧ ¬ waitsAt u q b) ∧
         (∀ x, x ≠ q → u.presence x = s.presence x) ∧ u.softReset = s.softReset ∧ (u.port q).eventNews = false ∧
         u.pool = v.pool ∧ u.portStats = v.portStats ∧
         u = appendRecord
           { note := .port .disable, port := some q, count1 := BitVec.ofNat 32 loans,
             count2 := BitVec.ofNat 32 claims }
           ((v.modPresence q fun m => { m with state := .off, enabled := false }).modPort q fun n =>
             { n with eventNews := false }))) ∧
  (∀ (p q : Port) (f : FrameFields) (s : State), ManageReady s p .portEnable f → portOf f.bay = some q →
     f.payload = [] → f.count = 0 → f.serial = 0 → f.block = 0 →
     ((s.presence q).state = .off →
       exec (.portEnable p) s = .next (transmit (answerHead p
         { kind := .answer, status := .ok, tag := f.tag, bay := f.bay }
         (appendRecord { note := .port .enable, port := some q }
           ((s.modPresence q fun m =>
               { m with
                 state := .new, enabled := true, miss := 0, early := 0, earlyFrozen := false,
                 lastBeat := none }).modPort q fun n => { n with silent := true }))))) ∧
     ((s.presence q).state ≠ .off →
       AnswersOnly (.portEnable p) p { kind := .answer, status := .ok, tag := f.tag, bay := f.bay } s))

/-- R165, R167: PORT_TEST ON is refused PORT_BUSY for the requesting port, an OFF port, and a port that holds a loan, a
claim or a live context; else the port enters TEST. PORT_TEST OFF makes a port in TEST NEW. R150: PORT_RESYNC answers OK
first, and then restarts the named port's receiver, empties its Intake Queue, ends its hold and sets SILENT. Log 17:
PORT_RESYNC touches the named port after the head has left. -/
def Obligations.PortTestedOrResynchronised : Prop :=
  (∀ (p q : Port) (f : FrameFields) (s : State), portOf f.bay = some q → f.payload = [] → f.count = 0 →
     f.serial = 0 → f.block = 0 →
     (ManageReady s p .portTestOn f →
       ((q = p ∨ (s.presence q).state = .off ∨ (∃ b h, (s.bay b).holder q = some h) ∨ (∃ b, waitsAt s q b) ∨
           0 < s.live q) →
         AnswersOnly (.portTestOn p) p { kind := .answer, status := .portBusy, tag := f.tag, bay := f.bay } s) ∧
       (q ≠ p → (s.presence q).state ≠ .off → (∀ b, (s.bay b).holder q = none) → (∀ b, ¬ waitsAt s q b) →
         s.live q = 0 →
         exec (.portTestOn p) s = .next (transmit (answerHead p
           { kind := .answer, status := .ok, tag := f.tag, bay := f.bay }
           ((s.modPresence q fun m =>
               { m with
                 state := .test, beatTimer := none, miss := 0, early := 0, earlyFrozen := false, lastBeat := none,
                 patternError := false }).modPort q fun n => { n with silent := true }))))) ∧
     (ManageReady s p .portTestOff f →
       ((s.presence q).state = .test →
         exec (.portTestOff p) s = .next (transmit (answerHead p
           { kind := .answer, status := .ok, tag := f.tag, bay := f.bay }
           (s.modPresence q fun m => { m with state := .new })))) ∧
       ((s.presence q).state ≠ .test →
         AnswersOnly (.portTestOff p) p { kind := .answer, status := .ok, tag := f.tag, bay := f.bay } s))) ∧
  (∀ (p q : Port) (f : FrameFields) (s u : State), ManageReady s p .portResync f → portOf f.bay = some q →
     f.payload = [] → f.count = 0 → f.serial = 0 → f.block = 0 →
     u = answerHead p { kind := .answer, status := .ok, tag := f.tag, bay := f.bay } s →
     exec (.portResync p) s = .next (transmit (u.modPort q fun n =>
       { n with
         receiver := if n.receiver = .idle then .idle else .ignoring, intake := [], reserved := false, silent := true,
         flowSlot :=
           if n.hold = .isOpen then n.flowSlot
           else match n.flowSlot with
             | some (.hold _) => none
             | _ => some .resume,
         holdTimer := if n.hold = .isOpen then n.holdTimer else none,
         repeatCount := if n.hold = .isOpen then n.repeatCount else 0, hold := .isOpen })))

/-- R174, R195: JOURNAL_READ of n from 1 to 16 takes the n oldest records out of the ring, or all there are, and
returns and resets the lost counter. R178, R195: STATS_READ returns the counters of a port or a bay, and clears them
where it is asked to. R176, R177: the order of the counters. R196: the 32 bytes of a journal record. -/
def Obligations.JournalAndStatisticsRead : Prop :=
  (∀ (p : Port) (n : Nat) (f : FrameFields) (s : State), ManageReady s p .journalRead f → f.payload = [byte n] →
     f.bay = 0 → f.count = 0 → f.serial = 0 → f.block = 0 →
     (1 ≤ n → n ≤ 16 →
       exec (.journalRead p) s = .next (transmit (answerHead p
         { kind := .answer, status := .ok, tag := f.tag, bay := 0,
           payload := [byte (min n s.journal.ring.length), 0, 0, 0] ++ bytesOf 4 s.journal.lost.toNat ++
             bytesOf 2 (s.journal.ring.length - n) ++ [0, 0] ++ bytesOf 4 s.journal.seq.toNat ++
             ((s.journal.ring.take n).map recordBytes).flatten }
         { s with journal := { s.journal with ring := s.journal.ring.drop n, lost := 0 } }))) ∧
     (n = 0 ∨ 16 < n → n < 256 →
       AnswersOnly (.journalRead p) p { kind := .answer, status := .format, tag := f.tag, bay := 0 } s)) ∧
  (∀ (p : Port) (scope index flag : Byte) (f : FrameFields) (s : State), ManageReady s p .statsRead f →
     f.payload = [scope, index, flag] → f.bay = 0 → f.count = 0 → f.serial = 0 → f.block = 0 →
     ((scope ≠ 1 ∧ scope ≠ 2 ∨ flag ≠ 0 ∧ flag ≠ 1) →
       AnswersOnly (.statsRead p) p { kind := .answer, status := .format, tag := f.tag, bay := 0 } s) ∧
     (flag = 0 ∨ flag = 1 →
       ((scope = 1 ∧ 8 ≤ index.toNat ∨ scope = 2 ∧ 12 ≤ index.toNat) →
         AnswersOnly (.statsRead p) p { kind := .answer, status := .range, tag := f.tag, bay := 0 } s) ∧
       (∀ q, scope = 1 → portOf index = some q →
         exec (.statsRead p) s = .next (transmit (answerHead p
           { kind := .answer, status := .ok, tag := f.tag, bay := 0,
             payload := [1, index, 0, 0] ++ ((portCounters s.portStats[q]).map fun c => bytesOf 4 c.toNat).flatten }
           (if flag = 1 then s.modPortStats q fun _ =>
             { accepted := 0, checkDiscards := 0, lengthDiscards := 0, overruns := 0, holdsSent := 0, repliesLost := 0,
               carrierDrops := 0, mismatches := 0 }
           else s)))) ∧
       (∀ b, scope = 2 → bayOf index = some b →
         exec (.statsRead p) s = .next (transmit (answerHead p
           { kind := .answer, status := .ok, tag := f.tag, bay := 0,
             payload := [2, index, 0, 0] ++ ((bayCounters s.bayStats[b]).map fun c => bytesOf 4 c.toNat).flatten }
           (if flag = 1 then s.modBayStats b fun _ =>
             { completed := 0, blocksRead := 0, blocksWritten := 0, retries := 0, checkMismatches := 0,
               noResponseA := 0, noResponseB := 0, laneErrorA := 0, laneErrorB := 0 }
           else s)))))) ∧
  ((∀ x : PortStats, portCounters x =
     [x.accepted, x.checkDiscards, x.lengthDiscards, x.overruns, x.holdsSent, x.repliesLost, x.carrierDrops,
      x.mismatches]) ∧
   (∀ x : BayStats, bayCounters x =
     [x.completed, x.blocksRead, x.blocksWritten, x.retries, x.checkMismatches, x.noResponseA, x.noResponseB,
      x.laneErrorA, x.laneErrorB])) ∧
  (∀ (x : Record) (k c q b : Byte),
     (k, c) =
       (match x.entry.note with
        | .grant .shared => (1, 1)
        | .grant .exclusive => (1, 2)
        | .loanEnd y => (2, causeCode y)
        | .refuse y => (3, causeCode y)
        | .meter => (4, 0)
        | .port .admission => (5, 1)
        | .port .rehello => (5, 2)
        | .port .lapse => (5, 3)
        | .port .disable => (5, 4)
        | .port .enable => (5, 5)
        | .bay .inService => (6, 1)
        | .bay .faulted => (6, 2)
        | .bay .withdrawn => (6, 3)
        | .bay (.laneDown .a) => (6, 4)
        | .bay (.laneDown .b) => (6, 5)
        | .bay (.laneUp .a) => (6, 6)
        | .bay (.laneUp .b) => (6, 7)
        | .bay (.mismatch .a) => (6, 8)
        | .bay (.mismatch .b) => (6, 9)
        | .plan .a => (7, 1)
        | .plan .b => (7, 2)
        | .reset .hard => (8, 1)
        | .reset .soft => (8, 2)) →
     ((x.entry.port = none → q = 0xFF) ∧ ∀ y, x.entry.port = some y → q = byte y.val) →
     ((x.entry.bay = none → b = 0xFF) ∧ ∀ y, x.entry.bay = some y → b = byte y.val) →
     recordBytes x = bytesOf 4 x.seq.toNat ++ bytesOf 4 x.time.toNat ++ [k, q, b, c] ++
       bytesOf 6 x.entry.serial.toNat ++ bytesOf 4 x.entry.count1.toNat ++ bytesOf 4 x.entry.count2.toNat ++
       [0, 0, 0, 0, 0, 0]) ∧
  (causeCode .none = 0 ∧ causeCode .recallExpired = 1 ∧ causeCode .lapse = 2 ∧ causeCode .rehello = 3 ∧
    causeCode .disabled = 4 ∧ causeCode .forced = 5 ∧ causeCode .withdrawn = 6 ∧ causeCode .fault = 7 ∧
    causeCode .access = 8 ∧ causeCode .release = 9)

/-- R188, R186, R187: EVENT_ENABLE, EVENT_SET and EVENT_CLEAR: the set that changes, ALERT in the same event, the
event-news flags of the ACTIVE supervisor ports where an event has become both raised and enabled, and the answer. -/
def Obligations.EventSetsChanged : Prop :=
  ∀ (p : Port) (x : EventSet) (f : FrameFields) (s : State), eventsOf f.payload = some x → f.bay = 0 → f.count = 0 →
    f.serial = 0 → f.block = 0 →
    (ManageReady s p .eventEnable f →
      exec (.eventEnable p) s = .next (transmit (answerHead p
        { kind := .answer, status := .ok, tag := f.tag, bay := 0, payload := eventBytes x }
        (if (x &&& ~~~s.enabled) &&& s.raised ≠ 0 then
          tellSupervisors { s with enabled := x, alert := shareEvent s.raised x }
        else { s with enabled := x, alert := shareEvent s.raised x })))) ∧
    (ManageReady s p .eventSet f →
      exec (.eventSet p) s = .next (transmit (answerHead p
        { kind := .answer, status := .ok, tag := f.tag, bay := 0, payload := eventBytes (s.raised ||| x) }
        (if (x &&& ~~~s.raised) &&& s.enabled ≠ 0 then
          tellSupervisors { s with raised := s.raised ||| x, alert := shareEvent (s.raised ||| x) s.enabled }
        else { s with raised := s.raised ||| x, alert := shareEvent (s.raised ||| x) s.enabled })))) ∧
    (ManageReady s p .eventClear f →
      exec (.eventClear p) s = .next (transmit (answerHead p
        { kind := .answer, status := .ok, tag := f.tag, bay := 0, payload := eventBytes (s.raised &&& ~~~x) }
        { s with raised := s.raised &&& ~~~x, alert := shareEvent (s.raised &&& ~~~x) s.enabled }))) ∧
    (∀ q, (tellSupervisors s).port q =
      if (s.port q).role = .supervisor ∧ (s.presence q).state = .active then { s.port q with eventNews := true }
      else s.port q) ∧
    tellSupervisors s = { s with ports := (tellSupervisors s).ports }

/-- R184: TIME_SET returns the old resolution and value, and the tag takes the new ones, its first count one full period
later; a resolution that is none of the four is answered FORMAT. R191: RESET_PART is answered OK, and from then on a
soft reset is pending: the reset timer starts with 250 ms, or one already pending serves this port too (log 21); the
port's Request Handler takes no further head. Log 17: the reset is pending after the head has left. -/
def Obligations.TimeSetAndResetAsked : Prop :=
  (∀ (p : Port) (r : Byte) (v : Word32) (f : FrameFields) (s : State), ManageReady s p .timeSet f →
     f.payload = r :: bytesOf 4 v.toNat → f.bay = 0 → f.count = 0 → f.serial = 0 → f.block = 0 →
     (∀ x, resolutionOf r = some x →
       exec (.timeSet p) s = .next (transmit (answerHead p
         { kind := .answer, status := .ok, tag := f.tag, bay := 0,
           detail := [resolutionCode s.timeTag.resolution] ++ bytesOf 4 s.timeTag.value.toNat ++ [0] }
         { s with timeTag := { value := v, resolution := x, elapsed := 0 } }))) ∧
     (3 < r.toNat → AnswersOnly (.timeSet p) p { kind := .answer, status := .format, tag := f.tag, bay := 0 } s)) ∧
  (∀ (p : Port) (f : FrameFields) (s u : State), ManageReady s p .resetPart f → f.payload = [] → f.bay = 0 →
     f.count = 0 → f.serial = 0 → f.block = 0 →
     u = (s.modPort p fun n =>
       flowAct
         { n with
           answers := n.answers ++
             [{ frame := { kind := .answer, status := .ok, tag := f.tag, bay := 0 }, resetPart := true }],
           intake := n.intake.drop 1, reserved := false }) →
     (s.softReset = none →
       exec (.resetPart p) s = .next (transmit
         { u with softReset := some { first := p, others := [], deadline := s.now + 250 * 1000 } })) ∧
     (∀ r, s.softReset = some r →
       exec (.resetPart p) s = .next (transmit { u with softReset := some { r with others := r.others ++ [p] } })) ∧
     (∀ t, exec (.resetPart p) s = .next t → servedHead t p = none))

/-! ## Drives -/

/-- R111, R114, R177: what resolves a CLEAR probe, and that an answer that names another PROBE, or cannot be read, is
discarded. Probing is then checked for its end (R115). R115, R58, R9: probing ends when both lanes are resolved: with
a lane UP the bay comes IN_SERVICE with the capacity learnt and is settled; with both DOWN it is FAULTED and every
waiting claim is refused with cause FAULT. -/
def Obligations.ProbesResolved : Prop :=
  (∀ (b : Bay) (l : Lane) (n d : Nat) (s u : State), s.phase = .running →
     ((s.drive b).lane l).probe = some { clear := true, deadline := d } → ((s.drive b).lane l).number = n →
     u = (s.modDrive b fun e => e.modLane l fun r => { r with state := .down, probe := none }) →
     (∀ m reply, m ≠ n → exec (.probeAnswer b l m reply) s = .next s) ∧
     exec (.probeAnswer b l n .unreadable) s = .next s ∧
     (∀ c : Word48, c ≠ 0 → (s.drive b).learnt = none →
       exec (.probeAnswer b l n (.good c)) s = .next (transmit (handOut (probingCheck b
         (s.modDrive b fun e =>
           { e with learnt := some c }.modLane l fun r => { r with state := .up, probe := none }))))) ∧
     (∀ c : Word48, c ≠ 0 → (s.drive b).learnt = some c →
       exec (.probeAnswer b l n (.good c)) s = .next (transmit (handOut (probingCheck b
         (s.modDrive b fun e => e.modLane l fun r => { r with state := .up, probe := none }))))) ∧
     (∀ c k : Word48, c ≠ 0 → (s.drive b).learnt = some k → c ≠ k →
       exec (.probeAnswer b l n (.good c)) s = .next (transmit (handOut (probingCheck b
         (raiseEvent (.laneDown b l) (appendRecord
           { note := .bay (.mismatch l), bay := some b, count1 := BitVec.ofNat 32 (c.toNat / 2 ^ 32),
             count2 := BitVec.ofNat 32 c.toNat } u)))))) ∧
     (∀ w : State, w = raiseEvent (.laneDown b l) (appendRecord
         { note := .bay (.laneDown l), bay := some b,
           count1 := BitVec.ofNat 32 ((s.drive b).lane l).failures } u) →
       exec (.probeAnswer b l n (.good 0)) s = .next (transmit (handOut (probingCheck b w))) ∧
       exec (.probeAnswer b l n .mediumError) s = .next (transmit (handOut (probingCheck b w)))) ∧
     exec (.probeAnswer b l n .laneError) s =
       .next (transmit (handOut (probingCheck b (laneFallsDown b l (countLaneError b l s))))) ∧
     (d ≤ s.now →
       exec (.probeTimerExpiry b l) s =
         .next (transmit (handOut (probingCheck b (laneFallsDown b l (countNoResponse b l s))))))) ∧
  (∀ (b : Bay) (s u : State),
     u = (s.modDrive b fun d =>
       { d with laneA := { d.laneA with failures := 0 }, laneB := { d.laneB with failures := 0 } }) →
     ((s.drive b).laneA.state = .probing ∨ (s.drive b).laneB.state = .probing → probingCheck b s = s) ∧
     ((s.drive b).laneA.state ≠ .probing → (s.drive b).laneB.state ≠ .probing →
       ((s.drive b).laneA.state = .up ∨ (s.drive b).laneB.state = .up →
         ∀ c, (s.drive b).learnt = some c →
           probingCheck b s = settleBay b (appendRecord
             { note := .bay .inService, bay := some b, count1 := BitVec.ofNat 32 (c.toNat / 2 ^ 32),
               count2 := BitVec.ofNat 32 c.toNat }
             (u.modBay b fun r => { r with capacity := c, availability := .inService }))) ∧
       ((s.drive b).laneA.state = .down → (s.drive b).laneB.state = .down →
         probingCheck b s = raiseEvent (.bayFaulted b) (appendRecord { note := .bay .faulted, bay := some b }
           (refuseAll b .fault (u.modBay b fun r => { r with availability := .faulted }))) ∧
         ((probingCheck b s).bay b).claims = [])))

/-- R129, R111: what resolves a restored lane's plain probe. A GOOD answer with the bay's capacity brings the lane UP
with a LANE_UP record, and a choice follows. MEDIUM_ERROR, LANE_ERROR, the probe timer's expiry and a GOOD answer with
another capacity each take the lane DOWN with its BAY record and LANE_DOWN; with both lanes DOWN the bay faults, and
otherwise nothing follows. An answer that names another PROBE, or cannot be read, is discarded; log 1: the answer of a
CLEAR probe is not one to this probe. R110, R172, R177: what a lane that goes DOWN records, and what LANE_ERROR and no
response count. -/
def Obligations.RestoreProbeResolved : Prop :=
  (∀ (b : Bay) (l : Lane) (n d : Nat) (s : State), s.phase = .running →
     ((s.drive b).lane l).probe = some { clear := false, deadline := d } → ((s.drive b).lane l).number = n →
     (∀ m reply, m ≠ n → exec (.restoreProbeAnswer b l m reply) s = .next s) ∧
     exec (.restoreProbeAnswer b l n .unreadable) s = .next s ∧
     (∀ reply, exec (.probeAnswer b l n reply) s = .next s) ∧
     exec (.restoreProbeAnswer b l n (.good (s.bay b).capacity)) s =
       .next (transmit (handOut (chooseAll b (appendRecord { note := .bay (.laneUp l), bay := some b }
         (s.modDrive b fun e => e.modLane l fun r => { r with state := .up, probe := none, failures := 0 }))))) ∧
     (∀ (reply : ProbeReply) (u : State),
       ((∃ c : Word48, c ≠ (s.bay b).capacity ∧ reply = .good c ∧
           u = raiseEvent (.laneDown b l) (appendRecord
             { note := .bay (.mismatch l), bay := some b, count1 := BitVec.ofNat 32 (c.toNat / 2 ^ 32),
               count2 := BitVec.ofNat 32 c.toNat }
             (s.modDrive b fun e => e.modLane l fun r => { r with state := .down, probe := none }))) ∨
         reply = .mediumError ∧ u = laneFallsDown b l s ∨
         reply = .laneError ∧ u = laneFallsDown b l (countLaneError b l s)) →
       (((s.drive b).lane (otherLane l)).state ≠ .down →
         exec (.restoreProbeAnswer b l n reply) s = .next (transmit (handOut u))) ∧
       (((s.drive b).lane (otherLane l)).state = .down →
         exec (.restoreProbeAnswer b l n reply) s = .next (transmit (handOut (faultBay b u))))) ∧
     (∀ u : State, d ≤ s.now → u = laneFallsDown b l (countNoResponse b l s) →
       (((s.drive b).lane (otherLane l)).state ≠ .down →
         exec (.probeTimerExpiry b l) s = .next (transmit (handOut u))) ∧
       (((s.drive b).lane (otherLane l)).state = .down →
         exec (.probeTimerExpiry b l) s = .next (transmit (handOut (faultBay b u)))))) ∧
  (∀ (b : Bay) (l : Lane) (s : State),
     laneFallsDown b l s = raiseEvent (.laneDown b l) (appendRecord
       { note := .bay (.laneDown l), bay := some b, count1 := BitVec.ofNat 32 ((s.drive b).lane l).failures,
         count2 := 0 }
       (s.modDrive b fun e => e.modLane l fun r => { r with state := .down, probe := none })) ∧
     (l = .a → countLaneError b l s = s.modBayStats b fun x => { x with laneErrorA := satAdd x.laneErrorA 1 }) ∧
     (l = .b → countLaneError b l s = s.modBayStats b fun x => { x with laneErrorB := satAdd x.laneErrorB 1 }) ∧
     (l = .a → countNoResponse b l s = s.modBayStats b fun x => { x with noResponseA := satAdd x.noResponseA 1 }) ∧
     (l = .b → countNoResponse b l s = s.modBayStats b fun x => { x with noResponseB := satAdd x.noResponseB 1 }))

/-- R111, R117, R118, R121: which attempt result a drive's answer, or the response timer's expiry, ends an attempt
with; an answer that names no command outstanding on the lane, or cannot be read, is discarded. A READ's blocks are
taken into the buffer and checked as the check mode directs. R120, R121: the mismatches are the blocks whose check value
is not that of their data, or whose address is not the low 32 bits of the block's own. Log 26: a GOOD answer to a READ with
a sector that is not 4096 bytes cannot be read, and is discarded. -/
def Obligations.AttemptAnswered : Prop :=
  (∀ (first : Word48) (sectors : List Sector), mismatchCount first 0 sectors =
     (sectors.zipIdx.filter fun x => decide (¬ (x.1.check = checkValue x.1.data ∧
       x.1.address = BitVec.ofNat 32 (first.toNat + x.2)))).length) ∧
  ∀ (b : Bay) (l : Lane) (c : CtxId) (a d : Nat) (k : LaneCommand) (s : State), s.phase = .running →
    (s.drive b).slots.find? (fun x => decide (x.ctx = c)) =
      some { ctx := c, lane := l, attempt := a, deadline := d, command := k } →
    (∀ l' a' reply, (∀ x ∈ (s.drive b).slots, x.ctx = c → x.lane = l' → x.attempt ≠ a') →
      exec (.driveAnswer b l' c a' reply) s = .next s) ∧
    (exec (.driveAnswer b l c a .unreadable) s = .next s) ∧
    (exec (.driveAnswer b l c a .mediumError) s =
      .next (transmit (handOut (takeResult b l c .mediumError s)))) ∧
    (exec (.driveAnswer b l c a .laneError) s = .next (transmit (handOut (takeResult b l c .laneError s)))) ∧
    ((s.ctx c).kind ≠ .read → ∀ sectors,
      exec (.driveAnswer b l c a (.good sectors)) s = .next (transmit (handOut (takeResult b l c .good s)))) ∧
    ((s.ctx c).kind = .read → ∀ sectors, (∃ x ∈ sectors, x.data.length ≠ 4096) →
      exec (.driveAnswer b l c a (.good sectors)) s = .next s) ∧
    ((s.ctx c).kind = .read → ∀ sectors, (∀ x ∈ sectors, x.data.length = 4096) →
      (sectors.length ≠ (s.ctx c).count →
        exec (.driveAnswer b l c a (.good sectors)) s =
          .next (transmit (handOut (takeResult b l c .laneError s)))) ∧
      (∀ t : State, sectors.length = (s.ctx c).count →
        t = (s.modCtx c fun x => { x with data := (sectors.map Sector.data).flatten }) →
        ((s.drive b).policy.checkMode = .off →
          exec (.driveAnswer b l c a (.good sectors)) s = .next (transmit (handOut (takeResult b l c .good t)))) ∧
        ((s.drive b).policy.checkMode ≠ .off → mismatchCount (s.ctx c).block 0 sectors = 0 →
          exec (.driveAnswer b l c a (.good sectors)) s =
            .next (transmit (handOut (takeResult b l c .good
              (t.modBayStats b fun x => { x with checkMismatches := satAdd x.checkMismatches 0 }))))) ∧
        (∀ k, mismatchCount (s.ctx c).block 0 sectors = k + 1 →
          ((s.drive b).policy.checkMode = .enforce →
            exec (.driveAnswer b l c a (.good sectors)) s =
              .next (transmit (handOut (takeResult b l c .checkFail
                (t.modBayStats b fun x => { x with checkMismatches := satAdd x.checkMismatches (k + 1) }))))) ∧
          ((s.drive b).policy.checkMode = .report →
            exec (.driveAnswer b l c a (.good sectors)) s =
              .next (transmit (handOut (takeResult b l c .good
                ((t.modBayStats b fun x =>
                  { x with checkMismatches := satAdd x.checkMismatches (k + 1) }).modCtx c fun x =>
                    { x with checkWarn := true })))))))) ∧
    (d ≤ s.now →
      exec (.responseTimerExpiry b c) s = .next (transmit (handOut (takeResult b l c .noResponse s))))

/-- R118, R119, R125, R126, R177: an attempt result acts on its lane first: an answer made correctly clears the failure
counter; NO_RESPONSE and LANE_ERROR are counted, and at the lane fail limit the lane goes DOWN: while the other lane is
not DOWN, every context ISSUED on it ends its attempt, in the order of issue; else the bay faults. R81, R83, R88, R122,
R123, R124, R177: the end of an attempt: a retry while the result is retryable and the attempts are no more than the
retry count, on the lane the policy names unless that is DOWN; else the context enters REPLY with the outcome of the
result and joins its port's Reply List; an orphaned context becomes FREE as a lost reply. R81, R82, R173: a completion
of a context that is not trailing lowers its loan's live-context count; a GOOD one advances the loan's meters by its
count, and where their sum reaches the interval a METER record is produced and they restart. R83: a completion of a
trailing context lowers the bay's trailing count, which settles the bay when it reaches 0, and leaves every loan's
meters alone. R71: a port whose wait at quota a completion ends is given its FREE context, and the FREE context of an
orphan is handed out (log 8: before the choice that the freed slot starts). Log 6: the fields of a context that becomes
FREE are cleared. Logs 25 and 35: the order, within a completion, of the METER record, the settling, the reply and the
adoption of a bay that becomes idle. -/
def Obligations.AttemptsEnd : Prop :=
  (∀ (b : Bay) (l : Lane) (c : CtxId) (s : State),
     (∀ result, (result = .good ∨ result = .checkFail ∨ result = .mediumError) →
       takeResult b l c result s = chooseAll b (endAttempt b c l result
         (s.modDrive b fun d => d.modLane l fun r => { r with failures := 0 }))) ∧
     (∀ (result : AttemptResult) (u : State),
       (result = .noResponse ∧ u = countNoResponse b l s ∨ result = .laneError ∧ u = countLaneError b l s) →
       (((s.drive b).lane l).failures + 1 < (s.drive b).policy.failLimit →
         takeResult b l c result s = chooseAll b (endAttempt b c l result
           (u.modDrive b fun d => d.modLane l fun r => { r with failures := r.failures + 1 }))) ∧
       ((s.drive b).policy.failLimit ≤ ((s.drive b).lane l).failures + 1 →
         ∃ v, v = raiseEvent (.laneDown b l) (appendRecord
             { note := .bay (.laneDown l), bay := some b,
               count1 := BitVec.ofNat 32 (((s.drive b).lane l).failures + 1) }
             (u.modDrive b fun d => d.modLane l fun r =>
               { r with state := .down, probe := none, failures := r.failures + 1 })) ∧
           (((s.drive b).lane (otherLane l)).state ≠ .down →
             takeResult b l c result s = chooseAll b
               ((((s.drive b).slots.filter fun x => decide (x.lane = l)).map Slot.ctx).foldl
                 (fun t x => endAttempt b x l (if x = c then result else .laneDown) t) v)) ∧
           (((s.drive b).lane (otherLane l)).state = .down →
             takeResult b l c result s = faultBay b v)))) ∧
  (∀ (result : AttemptResult) (outcome : OpOutcome),
     (outcome =
       match result with
       | .good => .good
       | .checkFail => .checkFail
       | .mediumError => .mediumError
       | .noResponse => .noResponse
       | .laneError => .laneFault
       | .laneDown => .laneFault) →
     ∀ (b : Bay) (c : CtxId) (l wanted : Lane) (s t : State), t = endAttempt b c l result s →
     wanted =
       (if (if (s.ctx c).attempts ≤ 1 then (s.drive b).policy.firstRetry else (s.drive b).policy.secondRetry) = .same
         then l else otherLane l) →
     ((s.ctx c).trailing = false → (s.ctx c).orphaned = false →
       (result = .checkFail ∨ result = .noResponse ∨ result = .laneError ∨ result = .laneDown ∨
         result = .mediumError ∧ (s.drive b).policy.retryMedium = true) →
       (s.ctx c).attempts ≤ (s.drive b).policy.retryCount →
       t = ((((s.modBayStats b fun x => { x with retries := satAdd x.retries 1 }).modDrive b fun d =>
             { d with slots := d.slots.filter fun x => x.ctx ≠ c }).modCtx c fun x =>
           { x with
             state := .reissue,
             lane := some (if ((s.drive b).lane wanted).state = .down then otherLane wanted else wanted) }).modService b
         fun v => { v with reissue := v.reissue ++ [c] })) ∧
     (((s.ctx c).trailing = true ∨ (s.ctx c).orphaned = true ∨ result = .good ∨
         result = .mediumError ∧ (s.drive b).policy.retryMedium = false ∨
         (s.drive b).policy.retryCount < (s.ctx c).attempts) →
       ∃ v, t = afterEnd b (s.ctx c) v ∧
       (v.drive b).slots = ((s.drive b).slots.filter fun x => x.ctx ≠ c) ∧
       (∀ x : BayStats, x = v.bayStats[b] →
         x.completed = satAdd (s.bayStats[b]).completed 1 ∧
         x.blocksRead = (if result = .good ∧ (s.ctx c).kind = .read then
           satAdd (s.bayStats[b]).blocksRead (s.ctx c).count else (s.bayStats[b]).blocksRead) ∧
         x.blocksWritten = (if result = .good ∧ (s.ctx c).kind = .write then
           satAdd (s.bayStats[b]).blocksWritten (s.ctx c).count else (s.bayStats[b]).blocksWritten)) ∧
       ((s.ctx c).orphaned = false →
         v.ctx c = { s.ctx c with
           state := .reply,
           outcome := outcome } ∧
         v.replies (s.ctx c).port = s.replies (s.ctx c).port ++ [c] ∧
         v.live (s.ctx c).port = s.live (s.ctx c).port - 1) ∧
       ((s.ctx c).orphaned = true →
         v.ctx c = { state := .free } ∧ v.replies (s.ctx c).port = s.replies (s.ctx c).port ∧
         v.live (s.ctx c).port = s.live (s.ctx c).port ∧
         (v.portStats[(s.ctx c).port]).repliesLost = satAdd (s.portStats[(s.ctx c).port]).repliesLost 1) ∧
       (∀ u w : State,
         u = ((s.modBayStats b fun x => { x with
             completed := satAdd x.completed 1,
             blocksRead :=
               if result = .good ∧ (s.ctx c).kind = .read then satAdd x.blocksRead (s.ctx c).count
               else x.blocksRead,
             blocksWritten :=
               if result = .good ∧ (s.ctx c).kind = .write then satAdd x.blocksWritten (s.ctx c).count
               else x.blocksWritten }).modDrive b fun d => { d with slots := d.slots.filter fun x => x.ctx ≠ c }) →
         ((s.ctx c).trailing = false → (s.ctx c).orphaned = false →
           ∀ h, (s.bay b).holder (s.ctx c).port = some h → h.serial = (s.ctx c).serial →
           w = ((u.modLive (s.ctx c).port fun n => n - 1).modBay b fun r =>
             { r with holders := r.holders.set (s.ctx c).port (some { h with live := h.live - 1 }) }) →
           (result ≠ .good → v = enterReply c outcome w) ∧
           (result = .good → v = enterReply c outcome (meterCheck b (s.ctx c).port (w.modBay b fun r =>
             { r with
               holders := r.holders.set (s.ctx c).port
                 (some (advanceMeters (s.ctx c) { h with live := h.live - 1 })) })))) ∧
         ((s.ctx c).trailing = true →
           ((s.ctx c).orphaned = false →
             w = ((u.modCtx c fun x => { x with state := .reply, outcome := outcome }).modLive (s.ctx c).port
               fun n => n - 1).modBay b (fun r => { r with trailing := r.trailing - 1 }) →
             ((s.bay b).trailing ≤ 1 → v = enterReply c outcome (settleBay b w)) ∧
             (1 < (s.bay b).trailing → v = enterReply c outcome w)) ∧
           ((s.ctx c).orphaned = true →
             w = (u.modCtx c fun x => { x with state := .reply, outcome := outcome }).modBay b
               (fun r => { r with trailing := r.trailing - 1 }) →
             ((s.bay b).trailing ≤ 1 → v = freeOrphan c (settleBay b w)) ∧
             (1 < (s.bay b).trailing → v = freeOrphan c w)) ∧
           (ClaimsSingle s → ∀ d q h, (s.bay d).holder q = some h →
             ∃ k, (t.bay d).holder q = some k ∧ k.serial = h.serial ∧ k.blocksRead = h.blocksRead ∧
               k.blocksWritten = h.blocksWritten))))) ∧
  (∀ (b : Bay) (c : CtxId) (outcome : OpOutcome) (x : Context) (s : State),
     enterReply c outcome s = adoptIfIdle (s.ctx c).bay
       ((s.modCtx c fun x => { x with state := .reply, outcome := outcome }).modReplies (s.ctx c).port
         fun l => l ++ [c]) ∧
     freeOrphan c s = adoptIfIdle (s.ctx c).bay
       ((s.modCtx c fun _ => { state := .free }).modPortStats (s.ctx c).port fun y =>
         { y with repliesLost := satAdd y.repliesLost 1 }) ∧
     (x.orphaned = false → afterEnd b x s = giveAtQuota (some b) x.port s) ∧
     (x.orphaned = true → afterEnd b x s = handOutHolding (some b) s)) ∧
  (∀ (b : Bay) (p : Port) (h : Holder) (s : State), (s.bay b).holder p = some h →
     (∀ x : Context,
       (x.kind = .read → advanceMeters x h = { h with blocksRead := satAdd h.blocksRead x.count }) ∧
       (x.kind = .write → advanceMeters x h = { h with blocksWritten := satAdd h.blocksWritten x.count }) ∧
       (x.kind = .sync → advanceMeters x h = h)) ∧
     (s.journal.meterInterval = 0 ∨
         h.blocksRead.toNat + h.blocksWritten.toNat < s.journal.meterInterval.toNat → meterCheck b p s = s) ∧
     (s.journal.meterInterval ≠ 0 → s.journal.meterInterval.toNat ≤ h.blocksRead.toNat + h.blocksWritten.toNat →
       ∃ t, t = appendRecord
           { note := .meter, port := some p, bay := some b, serial := h.serial, count1 := h.blocksRead,
             count2 := h.blocksWritten } s ∧
         meterCheck b p s = t.modBay b fun r =>
           { r with holders := r.holders.set p (some { h with blocksRead := 0, blocksWritten := 0 }) }))

/-- R59, R60, R126: a bay fault leaves the bay FAULTED with no context ISSUED or waiting for a retry, no loan, no claim,
no recall and no timer, and BAY_FAULTED raised. R126 steps 2 to 4, R59: its steps in their order: every ISSUED context,
in the order of issue, and then every context of the reissue list, in its order, ends with outcome BAY_FAULTED; then
every holder is revoked with cause FAULT, in port order, each with its REVOKED notice and END record; every claim is
refused with cause FAULT, in queue order, each with its REFUSED notice and REFUSE record; a BAY record with the note
FAULTED is appended, and BAY_FAULTED is raised. R118, R83, R88: what the end of one such context does. Log 8: each hands
a context out before the next one ends. Log 25: the order of a trailing context's steps. -/
def Obligations.BayFaults : Prop :=
  (∀ (b : Bay) (s t : State), t = faultBay b s →
    (t.drive b).slots = [] ∧ (t.service b).reissue = [] ∧ (t.bay b).availability = .faulted ∧
      (∀ q, (t.bay b).holder q = none) ∧ (t.bay b).claims = [] ∧ (t.bay b).phase = .none ∧
      (t.bay b).patienceTimer = none ∧ (t.bay b).recallTimer = none ∧ (t.bay b).subject = none ∧
      hasEvent t.raised (.bayFaulted b) = true) ∧
  (∀ (b : Bay) (s u v w x : State),
     u = ((s.drive b).slots.map Slot.ctx).foldl (fun t c => complete true b c .bayFaulted t) s →
     v = (u.service b).reissue.foldl (faultReissue b) u →
     w = revokePorts b .fault (allPorts.filter fun q => decide ((v.bay b).holder q ≠ none)) (v.modBay b fun r =>
       { r with
         availability := .faulted, patienceTimer := none, recallTimer := none, subject := none, phase := .none }) →
     x = (w.bay b).claims.foldl (fun t y => refuseClaim b .fault false y t) w →
     faultBay b s = raiseEvent (.bayFaulted b)
       (appendRecord { note := .bay .faulted, port := none, bay := some b } x)) ∧
  (∀ (b : Bay) (c : CtxId) (s u w : State),
     u = ((s.modBayStats b fun x => { x with completed := satAdd x.completed 1 }).modDrive b fun d =>
       { d with slots := d.slots.filter fun x => x.ctx ≠ c }) →
     ((s.ctx c).trailing = false → (s.ctx c).orphaned = false →
       ∀ h, (s.bay b).holder (s.ctx c).port = some h → h.serial = (s.ctx c).serial →
       complete true b c .bayFaulted s = afterEnd b (s.ctx c) (enterReply c .bayFaulted
         ((u.modLive (s.ctx c).port fun n => n - 1).modBay b fun r =>
           { r with holders := r.holders.set (s.ctx c).port (some { h with live := h.live - 1 }) }))) ∧
     ((s.ctx c).trailing = true →
       ((s.ctx c).orphaned = false →
         w = ((u.modCtx c fun x => { x with state := .reply, outcome := .bayFaulted }).modLive (s.ctx c).port
           fun n => n - 1).modBay b (fun r => { r with trailing := r.trailing - 1 }) →
         complete true b c .bayFaulted s = afterEnd b (s.ctx c) (enterReply c .bayFaulted
           (if 1 < (s.bay b).trailing ∨ (s.bay b).availability = .withdrawing then w else settleBay b w))) ∧
       ((s.ctx c).orphaned = true →
         w = (u.modCtx c fun x => { x with state := .reply, outcome := .bayFaulted }).modBay b
           (fun r => { r with trailing := r.trailing - 1 }) →
         complete true b c .bayFaulted s = afterEnd b (s.ctx c) (freeOrphan c
           (if 1 < (s.bay b).trailing ∨ (s.bay b).availability = .withdrawing then w else settleBay b w))))) ∧
  (∀ (b : Bay) (c : CtxId) (s : State) (h : Holder), (s.bay b).holder (s.ctx c).port = some h →
     h.serial = (s.ctx c).serial →
     faultReissue b s c = afterEnd b (s.ctx c) (enterReply c .bayFaulted
       ((((s.modService b fun v => { v with reissue := v.reissue.filter fun d => decide (d ≠ c) }).modBayStats b
             fun x => { x with completed := satAdd x.completed 1 }).modLive (s.ctx c).port fun n => n - 1).modBay b
         fun r => { r with holders := r.holders.set (s.ctx c).port (some { h with live := h.live - 1 }) })))
end

