-- ==== Sys2Proof/Laws/State.lean ====
section
/-! SUPPORT. What each update of State leaves: one lemma for each update and field, true by definition, and the reads
of the record an update has changed. -/

namespace Sys2Proof.Machine

/-! ## modBay -/

section

variable (s : State) (b : Bay) (f : BayRecord → BayRecord)

@[simp] theorem modBay_phase : (s.modBay b f).phase = s.phase := rfl
@[simp] theorem modBay_now : (s.modBay b f).now = s.now := rfl
@[simp] theorem modBay_timeTag : (s.modBay b f).timeTag = s.timeTag := rfl
@[simp] theorem modBay_nextSerial : (s.modBay b f).nextSerial = s.nextSerial := rfl
@[simp] theorem modBay_exhausted : (s.modBay b f).exhausted = s.exhausted := rfl
@[simp] theorem modBay_access : (s.modBay b f).access = s.access := rfl
@[simp] theorem modBay_pool : (s.modBay b f).pool = s.pool := rfl
@[simp] theorem modBay_services : (s.modBay b f).services = s.services := rfl
@[simp] theorem modBay_plan : (s.modBay b f).plan = s.plan := rfl
@[simp] theorem modBay_drives : (s.modBay b f).drives = s.drives := rfl
@[simp] theorem modBay_ports : (s.modBay b f).ports = s.ports := rfl
@[simp] theorem modBay_presences : (s.modBay b f).presences = s.presences := rfl
@[simp] theorem modBay_journal : (s.modBay b f).journal = s.journal := rfl
@[simp] theorem modBay_portStats : (s.modBay b f).portStats = s.portStats := rfl
@[simp] theorem modBay_bayStats : (s.modBay b f).bayStats = s.bayStats := rfl
@[simp] theorem modBay_raised : (s.modBay b f).raised = s.raised := rfl
@[simp] theorem modBay_enabled : (s.modBay b f).enabled = s.enabled := rfl
@[simp] theorem modBay_alert : (s.modBay b f).alert = s.alert := rfl
@[simp] theorem modBay_softReset : (s.modBay b f).softReset = s.softReset := rfl
@[simp] theorem modBay_pending : (s.modBay b f).pending = s.pending := rfl

end

/-! ## modService -/

section

variable (s : State) (b : Bay) (f : Service → Service)

@[simp] theorem modService_phase : (s.modService b f).phase = s.phase := rfl
@[simp] theorem modService_now : (s.modService b f).now = s.now := rfl
@[simp] theorem modService_timeTag : (s.modService b f).timeTag = s.timeTag := rfl
@[simp] theorem modService_bays : (s.modService b f).bays = s.bays := rfl
@[simp] theorem modService_nextSerial : (s.modService b f).nextSerial = s.nextSerial := rfl
@[simp] theorem modService_exhausted : (s.modService b f).exhausted = s.exhausted := rfl
@[simp] theorem modService_access : (s.modService b f).access = s.access := rfl
@[simp] theorem modService_pool : (s.modService b f).pool = s.pool := rfl
@[simp] theorem modService_plan : (s.modService b f).plan = s.plan := rfl
@[simp] theorem modService_drives : (s.modService b f).drives = s.drives := rfl
@[simp] theorem modService_ports : (s.modService b f).ports = s.ports := rfl
@[simp] theorem modService_presences : (s.modService b f).presences = s.presences := rfl
@[simp] theorem modService_journal : (s.modService b f).journal = s.journal := rfl
@[simp] theorem modService_portStats : (s.modService b f).portStats = s.portStats := rfl
@[simp] theorem modService_bayStats : (s.modService b f).bayStats = s.bayStats := rfl
@[simp] theorem modService_raised : (s.modService b f).raised = s.raised := rfl
@[simp] theorem modService_enabled : (s.modService b f).enabled = s.enabled := rfl
@[simp] theorem modService_alert : (s.modService b f).alert = s.alert := rfl
@[simp] theorem modService_softReset : (s.modService b f).softReset = s.softReset := rfl
@[simp] theorem modService_pending : (s.modService b f).pending = s.pending := rfl

end

/-! ## modDrive -/

section

variable (s : State) (b : Bay) (f : DriveEngine → DriveEngine)

@[simp] theorem modDrive_phase : (s.modDrive b f).phase = s.phase := rfl
@[simp] theorem modDrive_now : (s.modDrive b f).now = s.now := rfl
@[simp] theorem modDrive_timeTag : (s.modDrive b f).timeTag = s.timeTag := rfl
@[simp] theorem modDrive_bays : (s.modDrive b f).bays = s.bays := rfl
@[simp] theorem modDrive_nextSerial : (s.modDrive b f).nextSerial = s.nextSerial := rfl
@[simp] theorem modDrive_exhausted : (s.modDrive b f).exhausted = s.exhausted := rfl
@[simp] theorem modDrive_access : (s.modDrive b f).access = s.access := rfl
@[simp] theorem modDrive_pool : (s.modDrive b f).pool = s.pool := rfl
@[simp] theorem modDrive_services : (s.modDrive b f).services = s.services := rfl
@[simp] theorem modDrive_plan : (s.modDrive b f).plan = s.plan := rfl
@[simp] theorem modDrive_ports : (s.modDrive b f).ports = s.ports := rfl
@[simp] theorem modDrive_presences : (s.modDrive b f).presences = s.presences := rfl
@[simp] theorem modDrive_journal : (s.modDrive b f).journal = s.journal := rfl
@[simp] theorem modDrive_portStats : (s.modDrive b f).portStats = s.portStats := rfl
@[simp] theorem modDrive_bayStats : (s.modDrive b f).bayStats = s.bayStats := rfl
@[simp] theorem modDrive_raised : (s.modDrive b f).raised = s.raised := rfl
@[simp] theorem modDrive_enabled : (s.modDrive b f).enabled = s.enabled := rfl
@[simp] theorem modDrive_alert : (s.modDrive b f).alert = s.alert := rfl
@[simp] theorem modDrive_softReset : (s.modDrive b f).softReset = s.softReset := rfl
@[simp] theorem modDrive_pending : (s.modDrive b f).pending = s.pending := rfl

end

/-! ## modPort -/

section

variable (s : State) (p : Port) (f : NodePort → NodePort)

@[simp] theorem modPort_phase : (s.modPort p f).phase = s.phase := rfl
@[simp] theorem modPort_now : (s.modPort p f).now = s.now := rfl
@[simp] theorem modPort_timeTag : (s.modPort p f).timeTag = s.timeTag := rfl
@[simp] theorem modPort_bays : (s.modPort p f).bays = s.bays := rfl
@[simp] theorem modPort_nextSerial : (s.modPort p f).nextSerial = s.nextSerial := rfl
@[simp] theorem modPort_exhausted : (s.modPort p f).exhausted = s.exhausted := rfl
@[simp] theorem modPort_access : (s.modPort p f).access = s.access := rfl
@[simp] theorem modPort_pool : (s.modPort p f).pool = s.pool := rfl
@[simp] theorem modPort_services : (s.modPort p f).services = s.services := rfl
@[simp] theorem modPort_plan : (s.modPort p f).plan = s.plan := rfl
@[simp] theorem modPort_drives : (s.modPort p f).drives = s.drives := rfl
@[simp] theorem modPort_presences : (s.modPort p f).presences = s.presences := rfl
@[simp] theorem modPort_journal : (s.modPort p f).journal = s.journal := rfl
@[simp] theorem modPort_portStats : (s.modPort p f).portStats = s.portStats := rfl
@[simp] theorem modPort_bayStats : (s.modPort p f).bayStats = s.bayStats := rfl
@[simp] theorem modPort_raised : (s.modPort p f).raised = s.raised := rfl
@[simp] theorem modPort_enabled : (s.modPort p f).enabled = s.enabled := rfl
@[simp] theorem modPort_alert : (s.modPort p f).alert = s.alert := rfl
@[simp] theorem modPort_softReset : (s.modPort p f).softReset = s.softReset := rfl
@[simp] theorem modPort_pending : (s.modPort p f).pending = s.pending := rfl

end

/-! ## modPresence -/

section

variable (s : State) (p : Port) (f : Presence → Presence)

@[simp] theorem modPresence_phase : (s.modPresence p f).phase = s.phase := rfl
@[simp] theorem modPresence_now : (s.modPresence p f).now = s.now := rfl
@[simp] theorem modPresence_timeTag : (s.modPresence p f).timeTag = s.timeTag := rfl
@[simp] theorem modPresence_bays : (s.modPresence p f).bays = s.bays := rfl
@[simp] theorem modPresence_nextSerial : (s.modPresence p f).nextSerial = s.nextSerial := rfl
@[simp] theorem modPresence_exhausted : (s.modPresence p f).exhausted = s.exhausted := rfl
@[simp] theorem modPresence_access : (s.modPresence p f).access = s.access := rfl
@[simp] theorem modPresence_pool : (s.modPresence p f).pool = s.pool := rfl
@[simp] theorem modPresence_services : (s.modPresence p f).services = s.services := rfl
@[simp] theorem modPresence_plan : (s.modPresence p f).plan = s.plan := rfl
@[simp] theorem modPresence_drives : (s.modPresence p f).drives = s.drives := rfl
@[simp] theorem modPresence_ports : (s.modPresence p f).ports = s.ports := rfl
@[simp] theorem modPresence_journal : (s.modPresence p f).journal = s.journal := rfl
@[simp] theorem modPresence_portStats : (s.modPresence p f).portStats = s.portStats := rfl
@[simp] theorem modPresence_bayStats : (s.modPresence p f).bayStats = s.bayStats := rfl
@[simp] theorem modPresence_raised : (s.modPresence p f).raised = s.raised := rfl
@[simp] theorem modPresence_enabled : (s.modPresence p f).enabled = s.enabled := rfl
@[simp] theorem modPresence_alert : (s.modPresence p f).alert = s.alert := rfl
@[simp] theorem modPresence_softReset : (s.modPresence p f).softReset = s.softReset := rfl
@[simp] theorem modPresence_pending : (s.modPresence p f).pending = s.pending := rfl

end

/-! ## modPortStats -/

section

variable (s : State) (p : Port) (f : PortStats → PortStats)

@[simp] theorem modPortStats_phase : (s.modPortStats p f).phase = s.phase := rfl
@[simp] theorem modPortStats_now : (s.modPortStats p f).now = s.now := rfl
@[simp] theorem modPortStats_timeTag : (s.modPortStats p f).timeTag = s.timeTag := rfl
@[simp] theorem modPortStats_bays : (s.modPortStats p f).bays = s.bays := rfl
@[simp] theorem modPortStats_nextSerial : (s.modPortStats p f).nextSerial = s.nextSerial := rfl
@[simp] theorem modPortStats_exhausted : (s.modPortStats p f).exhausted = s.exhausted := rfl
@[simp] theorem modPortStats_access : (s.modPortStats p f).access = s.access := rfl
@[simp] theorem modPortStats_pool : (s.modPortStats p f).pool = s.pool := rfl
@[simp] theorem modPortStats_services : (s.modPortStats p f).services = s.services := rfl
@[simp] theorem modPortStats_plan : (s.modPortStats p f).plan = s.plan := rfl
@[simp] theorem modPortStats_drives : (s.modPortStats p f).drives = s.drives := rfl
@[simp] theorem modPortStats_ports : (s.modPortStats p f).ports = s.ports := rfl
@[simp] theorem modPortStats_presences : (s.modPortStats p f).presences = s.presences := rfl
@[simp] theorem modPortStats_journal : (s.modPortStats p f).journal = s.journal := rfl
@[simp] theorem modPortStats_bayStats : (s.modPortStats p f).bayStats = s.bayStats := rfl
@[simp] theorem modPortStats_raised : (s.modPortStats p f).raised = s.raised := rfl
@[simp] theorem modPortStats_enabled : (s.modPortStats p f).enabled = s.enabled := rfl
@[simp] theorem modPortStats_alert : (s.modPortStats p f).alert = s.alert := rfl
@[simp] theorem modPortStats_softReset : (s.modPortStats p f).softReset = s.softReset := rfl
@[simp] theorem modPortStats_pending : (s.modPortStats p f).pending = s.pending := rfl

end

/-! ## modBayStats -/

section

variable (s : State) (b : Bay) (f : BayStats → BayStats)

@[simp] theorem modBayStats_phase : (s.modBayStats b f).phase = s.phase := rfl
@[simp] theorem modBayStats_now : (s.modBayStats b f).now = s.now := rfl
@[simp] theorem modBayStats_timeTag : (s.modBayStats b f).timeTag = s.timeTag := rfl
@[simp] theorem modBayStats_bays : (s.modBayStats b f).bays = s.bays := rfl
@[simp] theorem modBayStats_nextSerial : (s.modBayStats b f).nextSerial = s.nextSerial := rfl
@[simp] theorem modBayStats_exhausted : (s.modBayStats b f).exhausted = s.exhausted := rfl
@[simp] theorem modBayStats_access : (s.modBayStats b f).access = s.access := rfl
@[simp] theorem modBayStats_pool : (s.modBayStats b f).pool = s.pool := rfl
@[simp] theorem modBayStats_services : (s.modBayStats b f).services = s.services := rfl
@[simp] theorem modBayStats_plan : (s.modBayStats b f).plan = s.plan := rfl
@[simp] theorem modBayStats_drives : (s.modBayStats b f).drives = s.drives := rfl
@[simp] theorem modBayStats_ports : (s.modBayStats b f).ports = s.ports := rfl
@[simp] theorem modBayStats_presences : (s.modBayStats b f).presences = s.presences := rfl
@[simp] theorem modBayStats_journal : (s.modBayStats b f).journal = s.journal := rfl
@[simp] theorem modBayStats_portStats : (s.modBayStats b f).portStats = s.portStats := rfl
@[simp] theorem modBayStats_raised : (s.modBayStats b f).raised = s.raised := rfl
@[simp] theorem modBayStats_enabled : (s.modBayStats b f).enabled = s.enabled := rfl
@[simp] theorem modBayStats_alert : (s.modBayStats b f).alert = s.alert := rfl
@[simp] theorem modBayStats_softReset : (s.modBayStats b f).softReset = s.softReset := rfl
@[simp] theorem modBayStats_pending : (s.modBayStats b f).pending = s.pending := rfl

end

/-! ## setRight -/

section

variable (s : State) (p : Port) (b : Bay) (r : Right)

@[simp] theorem setRight_phase : (s.setRight p b r).phase = s.phase := rfl
@[simp] theorem setRight_now : (s.setRight p b r).now = s.now := rfl
@[simp] theorem setRight_timeTag : (s.setRight p b r).timeTag = s.timeTag := rfl
@[simp] theorem setRight_bays : (s.setRight p b r).bays = s.bays := rfl
@[simp] theorem setRight_nextSerial : (s.setRight p b r).nextSerial = s.nextSerial := rfl
@[simp] theorem setRight_exhausted : (s.setRight p b r).exhausted = s.exhausted := rfl
@[simp] theorem setRight_pool : (s.setRight p b r).pool = s.pool := rfl
@[simp] theorem setRight_services : (s.setRight p b r).services = s.services := rfl
@[simp] theorem setRight_plan : (s.setRight p b r).plan = s.plan := rfl
@[simp] theorem setRight_drives : (s.setRight p b r).drives = s.drives := rfl
@[simp] theorem setRight_ports : (s.setRight p b r).ports = s.ports := rfl
@[simp] theorem setRight_presences : (s.setRight p b r).presences = s.presences := rfl
@[simp] theorem setRight_journal : (s.setRight p b r).journal = s.journal := rfl
@[simp] theorem setRight_portStats : (s.setRight p b r).portStats = s.portStats := rfl
@[simp] theorem setRight_bayStats : (s.setRight p b r).bayStats = s.bayStats := rfl
@[simp] theorem setRight_raised : (s.setRight p b r).raised = s.raised := rfl
@[simp] theorem setRight_enabled : (s.setRight p b r).enabled = s.enabled := rfl
@[simp] theorem setRight_alert : (s.setRight p b r).alert = s.alert := rfl
@[simp] theorem setRight_softReset : (s.setRight p b r).softReset = s.softReset := rfl
@[simp] theorem setRight_pending : (s.setRight p b r).pending = s.pending := rfl

end

/-! ## modCtx -/

section

variable (s : State) (c : CtxId) (f : Context → Context)

@[simp] theorem modCtx_phase : (s.modCtx c f).phase = s.phase := rfl
@[simp] theorem modCtx_now : (s.modCtx c f).now = s.now := rfl
@[simp] theorem modCtx_timeTag : (s.modCtx c f).timeTag = s.timeTag := rfl
@[simp] theorem modCtx_bays : (s.modCtx c f).bays = s.bays := rfl
@[simp] theorem modCtx_nextSerial : (s.modCtx c f).nextSerial = s.nextSerial := rfl
@[simp] theorem modCtx_exhausted : (s.modCtx c f).exhausted = s.exhausted := rfl
@[simp] theorem modCtx_access : (s.modCtx c f).access = s.access := rfl
@[simp] theorem modCtx_services : (s.modCtx c f).services = s.services := rfl
@[simp] theorem modCtx_plan : (s.modCtx c f).plan = s.plan := rfl
@[simp] theorem modCtx_drives : (s.modCtx c f).drives = s.drives := rfl
@[simp] theorem modCtx_ports : (s.modCtx c f).ports = s.ports := rfl
@[simp] theorem modCtx_presences : (s.modCtx c f).presences = s.presences := rfl
@[simp] theorem modCtx_journal : (s.modCtx c f).journal = s.journal := rfl
@[simp] theorem modCtx_portStats : (s.modCtx c f).portStats = s.portStats := rfl
@[simp] theorem modCtx_bayStats : (s.modCtx c f).bayStats = s.bayStats := rfl
@[simp] theorem modCtx_raised : (s.modCtx c f).raised = s.raised := rfl
@[simp] theorem modCtx_enabled : (s.modCtx c f).enabled = s.enabled := rfl
@[simp] theorem modCtx_alert : (s.modCtx c f).alert = s.alert := rfl
@[simp] theorem modCtx_softReset : (s.modCtx c f).softReset = s.softReset := rfl
@[simp] theorem modCtx_pending : (s.modCtx c f).pending = s.pending := rfl
@[simp] theorem modCtx_live : (s.modCtx c f).pool.live = s.pool.live := rfl
@[simp] theorem modCtx_quota : (s.modCtx c f).pool.quota = s.pool.quota := rfl
@[simp] theorem modCtx_replies : (s.modCtx c f).pool.replies = s.pool.replies := rfl
@[simp] theorem modCtx_lastGranted : (s.modCtx c f).pool.lastGranted = s.pool.lastGranted := rfl
@[simp] theorem modCtx_admitted : (s.modCtx c f).pool.admitted = s.pool.admitted := rfl

end

/-! ## modLive -/

section

variable (s : State) (p : Port) (f : Nat → Nat)

@[simp] theorem modLive_phase : (s.modLive p f).phase = s.phase := rfl
@[simp] theorem modLive_now : (s.modLive p f).now = s.now := rfl
@[simp] theorem modLive_timeTag : (s.modLive p f).timeTag = s.timeTag := rfl
@[simp] theorem modLive_bays : (s.modLive p f).bays = s.bays := rfl
@[simp] theorem modLive_nextSerial : (s.modLive p f).nextSerial = s.nextSerial := rfl
@[simp] theorem modLive_exhausted : (s.modLive p f).exhausted = s.exhausted := rfl
@[simp] theorem modLive_access : (s.modLive p f).access = s.access := rfl
@[simp] theorem modLive_services : (s.modLive p f).services = s.services := rfl
@[simp] theorem modLive_plan : (s.modLive p f).plan = s.plan := rfl
@[simp] theorem modLive_drives : (s.modLive p f).drives = s.drives := rfl
@[simp] theorem modLive_ports : (s.modLive p f).ports = s.ports := rfl
@[simp] theorem modLive_presences : (s.modLive p f).presences = s.presences := rfl
@[simp] theorem modLive_journal : (s.modLive p f).journal = s.journal := rfl
@[simp] theorem modLive_portStats : (s.modLive p f).portStats = s.portStats := rfl
@[simp] theorem modLive_bayStats : (s.modLive p f).bayStats = s.bayStats := rfl
@[simp] theorem modLive_raised : (s.modLive p f).raised = s.raised := rfl
@[simp] theorem modLive_enabled : (s.modLive p f).enabled = s.enabled := rfl
@[simp] theorem modLive_alert : (s.modLive p f).alert = s.alert := rfl
@[simp] theorem modLive_softReset : (s.modLive p f).softReset = s.softReset := rfl
@[simp] theorem modLive_pending : (s.modLive p f).pending = s.pending := rfl
@[simp] theorem modLive_contexts : (s.modLive p f).pool.contexts = s.pool.contexts := rfl
@[simp] theorem modLive_quota : (s.modLive p f).pool.quota = s.pool.quota := rfl
@[simp] theorem modLive_replies : (s.modLive p f).pool.replies = s.pool.replies := rfl
@[simp] theorem modLive_lastGranted : (s.modLive p f).pool.lastGranted = s.pool.lastGranted := rfl
@[simp] theorem modLive_admitted : (s.modLive p f).pool.admitted = s.pool.admitted := rfl

end

/-! ## setQuota -/

section

variable (s : State) (p : Port) (n : Nat)

@[simp] theorem setQuota_phase : (s.setQuota p n).phase = s.phase := rfl
@[simp] theorem setQuota_now : (s.setQuota p n).now = s.now := rfl
@[simp] theorem setQuota_timeTag : (s.setQuota p n).timeTag = s.timeTag := rfl
@[simp] theorem setQuota_bays : (s.setQuota p n).bays = s.bays := rfl
@[simp] theorem setQuota_nextSerial : (s.setQuota p n).nextSerial = s.nextSerial := rfl
@[simp] theorem setQuota_exhausted : (s.setQuota p n).exhausted = s.exhausted := rfl
@[simp] theorem setQuota_access : (s.setQuota p n).access = s.access := rfl
@[simp] theorem setQuota_services : (s.setQuota p n).services = s.services := rfl
@[simp] theorem setQuota_plan : (s.setQuota p n).plan = s.plan := rfl
@[simp] theorem setQuota_drives : (s.setQuota p n).drives = s.drives := rfl
@[simp] theorem setQuota_ports : (s.setQuota p n).ports = s.ports := rfl
@[simp] theorem setQuota_presences : (s.setQuota p n).presences = s.presences := rfl
@[simp] theorem setQuota_journal : (s.setQuota p n).journal = s.journal := rfl
@[simp] theorem setQuota_portStats : (s.setQuota p n).portStats = s.portStats := rfl
@[simp] theorem setQuota_bayStats : (s.setQuota p n).bayStats = s.bayStats := rfl
@[simp] theorem setQuota_raised : (s.setQuota p n).raised = s.raised := rfl
@[simp] theorem setQuota_enabled : (s.setQuota p n).enabled = s.enabled := rfl
@[simp] theorem setQuota_alert : (s.setQuota p n).alert = s.alert := rfl
@[simp] theorem setQuota_softReset : (s.setQuota p n).softReset = s.softReset := rfl
@[simp] theorem setQuota_pending : (s.setQuota p n).pending = s.pending := rfl
@[simp] theorem setQuota_contexts : (s.setQuota p n).pool.contexts = s.pool.contexts := rfl
@[simp] theorem setQuota_live : (s.setQuota p n).pool.live = s.pool.live := rfl
@[simp] theorem setQuota_replies : (s.setQuota p n).pool.replies = s.pool.replies := rfl
@[simp] theorem setQuota_lastGranted : (s.setQuota p n).pool.lastGranted = s.pool.lastGranted := rfl
@[simp] theorem setQuota_admitted : (s.setQuota p n).pool.admitted = s.pool.admitted := rfl

end

/-! ## modReplies -/

section

variable (s : State) (p : Port) (f : List CtxId → List CtxId)

@[simp] theorem modReplies_phase : (s.modReplies p f).phase = s.phase := rfl
@[simp] theorem modReplies_now : (s.modReplies p f).now = s.now := rfl
@[simp] theorem modReplies_timeTag : (s.modReplies p f).timeTag = s.timeTag := rfl
@[simp] theorem modReplies_bays : (s.modReplies p f).bays = s.bays := rfl
@[simp] theorem modReplies_nextSerial : (s.modReplies p f).nextSerial = s.nextSerial := rfl
@[simp] theorem modReplies_exhausted : (s.modReplies p f).exhausted = s.exhausted := rfl
@[simp] theorem modReplies_access : (s.modReplies p f).access = s.access := rfl
@[simp] theorem modReplies_services : (s.modReplies p f).services = s.services := rfl
@[simp] theorem modReplies_plan : (s.modReplies p f).plan = s.plan := rfl
@[simp] theorem modReplies_drives : (s.modReplies p f).drives = s.drives := rfl
@[simp] theorem modReplies_ports : (s.modReplies p f).ports = s.ports := rfl
@[simp] theorem modReplies_presences : (s.modReplies p f).presences = s.presences := rfl
@[simp] theorem modReplies_journal : (s.modReplies p f).journal = s.journal := rfl
@[simp] theorem modReplies_portStats : (s.modReplies p f).portStats = s.portStats := rfl
@[simp] theorem modReplies_bayStats : (s.modReplies p f).bayStats = s.bayStats := rfl
@[simp] theorem modReplies_raised : (s.modReplies p f).raised = s.raised := rfl
@[simp] theorem modReplies_enabled : (s.modReplies p f).enabled = s.enabled := rfl
@[simp] theorem modReplies_alert : (s.modReplies p f).alert = s.alert := rfl
@[simp] theorem modReplies_softReset : (s.modReplies p f).softReset = s.softReset := rfl
@[simp] theorem modReplies_pending : (s.modReplies p f).pending = s.pending := rfl
@[simp] theorem modReplies_contexts : (s.modReplies p f).pool.contexts = s.pool.contexts := rfl
@[simp] theorem modReplies_live : (s.modReplies p f).pool.live = s.pool.live := rfl
@[simp] theorem modReplies_quota : (s.modReplies p f).pool.quota = s.pool.quota := rfl
@[simp] theorem modReplies_lastGranted : (s.modReplies p f).pool.lastGranted = s.pool.lastGranted := rfl
@[simp] theorem modReplies_admitted : (s.modReplies p f).pool.admitted = s.pool.admitted := rfl

end

/-! ## Reading what was changed -/

@[simp] theorem modBay_bay_self (s : State) (b : Bay) (f : BayRecord → BayRecord) : (s.modBay b f).bay b = f (s.bay b) := by
  simp [State.modBay, State.bay]

theorem modBay_bay_ne (s : State) {b b' : Bay} (f : BayRecord → BayRecord) (h : b ≠ b') : (s.modBay b f).bay b' = s.bay b' := by
  have h' : b.val ≠ b'.val := fun e => h (Fin.ext e)
  simp [State.modBay, State.bay, h']

theorem modBay_bay (s : State) (b b' : Bay) (f : BayRecord → BayRecord) :
    (s.modBay b f).bay b' = if b = b' then f (s.bay b) else s.bay b' := by
  split
  · next h => subst h; simp
  · next h => exact modBay_bay_ne s f h

@[simp] theorem modService_service_self (s : State) (b : Bay) (f : Service → Service) : (s.modService b f).service b = f (s.service b) := by
  simp [State.modService, State.service]

theorem modService_service_ne (s : State) {b b' : Bay} (f : Service → Service) (h : b ≠ b') : (s.modService b f).service b' = s.service b' := by
  have h' : b.val ≠ b'.val := fun e => h (Fin.ext e)
  simp [State.modService, State.service, h']

theorem modService_service (s : State) (b b' : Bay) (f : Service → Service) :
    (s.modService b f).service b' = if b = b' then f (s.service b) else s.service b' := by
  split
  · next h => subst h; simp
  · next h => exact modService_service_ne s f h

@[simp] theorem modDrive_drive_self (s : State) (b : Bay) (f : DriveEngine → DriveEngine) : (s.modDrive b f).drive b = f (s.drive b) := by
  simp [State.modDrive, State.drive]

theorem modDrive_drive_ne (s : State) {b b' : Bay} (f : DriveEngine → DriveEngine) (h : b ≠ b') : (s.modDrive b f).drive b' = s.drive b' := by
  have h' : b.val ≠ b'.val := fun e => h (Fin.ext e)
  simp [State.modDrive, State.drive, h']

theorem modDrive_drive (s : State) (b b' : Bay) (f : DriveEngine → DriveEngine) :
    (s.modDrive b f).drive b' = if b = b' then f (s.drive b) else s.drive b' := by
  split
  · next h => subst h; simp
  · next h => exact modDrive_drive_ne s f h

@[simp] theorem modPort_port_self (s : State) (p : Port) (f : NodePort → NodePort) : (s.modPort p f).port p = f (s.port p) := by
  simp [State.modPort, State.port]

theorem modPort_port_ne (s : State) {p p' : Port} (f : NodePort → NodePort) (h : p ≠ p') : (s.modPort p f).port p' = s.port p' := by
  have h' : p.val ≠ p'.val := fun e => h (Fin.ext e)
  simp [State.modPort, State.port, h']

theorem modPort_port (s : State) (p p' : Port) (f : NodePort → NodePort) :
    (s.modPort p f).port p' = if p = p' then f (s.port p) else s.port p' := by
  split
  · next h => subst h; simp
  · next h => exact modPort_port_ne s f h

@[simp] theorem modPresence_presence_self (s : State) (p : Port) (f : Presence → Presence) : (s.modPresence p f).presence p = f (s.presence p) := by
  simp [State.modPresence, State.presence]

theorem modPresence_presence_ne (s : State) {p p' : Port} (f : Presence → Presence) (h : p ≠ p') : (s.modPresence p f).presence p' = s.presence p' := by
  have h' : p.val ≠ p'.val := fun e => h (Fin.ext e)
  simp [State.modPresence, State.presence, h']

theorem modPresence_presence (s : State) (p p' : Port) (f : Presence → Presence) :
    (s.modPresence p f).presence p' = if p = p' then f (s.presence p) else s.presence p' := by
  split
  · next h => subst h; simp
  · next h => exact modPresence_presence_ne s f h

@[simp] theorem modCtx_ctx_self (s : State) (c : CtxId) (f : Context → Context) : (s.modCtx c f).ctx c = f (s.ctx c) := by
  simp [State.modCtx, State.ctx]

theorem modCtx_ctx_ne (s : State) {c c' : CtxId} (f : Context → Context) (h : c ≠ c') : (s.modCtx c f).ctx c' = s.ctx c' := by
  have h' : c.val ≠ c'.val := fun e => h (Fin.ext e)
  simp [State.modCtx, State.ctx, h']

theorem modCtx_ctx (s : State) (c c' : CtxId) (f : Context → Context) :
    (s.modCtx c f).ctx c' = if c = c' then f (s.ctx c) else s.ctx c' := by
  split
  · next h => subst h; simp
  · next h => exact modCtx_ctx_ne s f h

@[simp] theorem modLive_live_self (s : State) (p : Port) (f : Nat → Nat) : (s.modLive p f).live p = f (s.live p) := by
  simp [State.modLive, State.live]

theorem modLive_live_ne (s : State) {p p' : Port} (f : Nat → Nat) (h : p ≠ p') : (s.modLive p f).live p' = s.live p' := by
  have h' : p.val ≠ p'.val := fun e => h (Fin.ext e)
  simp [State.modLive, State.live, h']

theorem modLive_live (s : State) (p p' : Port) (f : Nat → Nat) :
    (s.modLive p f).live p' = if p = p' then f (s.live p) else s.live p' := by
  split
  · next h => subst h; simp
  · next h => exact modLive_live_ne s f h

@[simp] theorem modReplies_replies_self (s : State) (p : Port) (f : (List CtxId) → (List CtxId)) : (s.modReplies p f).replies p = f (s.replies p) := by
  simp [State.modReplies, State.replies]

theorem modReplies_replies_ne (s : State) {p p' : Port} (f : (List CtxId) → (List CtxId)) (h : p ≠ p') : (s.modReplies p f).replies p' = s.replies p' := by
  have h' : p.val ≠ p'.val := fun e => h (Fin.ext e)
  simp [State.modReplies, State.replies, h']

theorem modReplies_replies (s : State) (p p' : Port) (f : (List CtxId) → (List CtxId)) :
    (s.modReplies p f).replies p' = if p = p' then f (s.replies p) else s.replies p' := by
  split
  · next h => subst h; simp
  · next h => exact modReplies_replies_ne s f h

@[simp] theorem modBay_service_read (s : State) (b : Bay) (f : BayRecord → BayRecord) (x : Bay) : (s.modBay b f).service x = s.service x := rfl

@[simp] theorem modBay_drive_read (s : State) (b : Bay) (f : BayRecord → BayRecord) (x : Bay) : (s.modBay b f).drive x = s.drive x := rfl

@[simp] theorem modBay_port_read (s : State) (b : Bay) (f : BayRecord → BayRecord) (x : Port) : (s.modBay b f).port x = s.port x := rfl

@[simp] theorem modBay_presence_read (s : State) (b : Bay) (f : BayRecord → BayRecord) (x : Port) : (s.modBay b f).presence x = s.presence x := rfl

@[simp] theorem modBay_ctx_read (s : State) (b : Bay) (f : BayRecord → BayRecord) (x : CtxId) : (s.modBay b f).ctx x = s.ctx x := rfl

@[simp] theorem modBay_live_read (s : State) (b : Bay) (f : BayRecord → BayRecord) (x : Port) : (s.modBay b f).live x = s.live x := rfl

@[simp] theorem modBay_replies_read (s : State) (b : Bay) (f : BayRecord → BayRecord) (x : Port) : (s.modBay b f).replies x = s.replies x := rfl

@[simp] theorem modService_bay_read (s : State) (b : Bay) (f : Service → Service) (x : Bay) : (s.modService b f).bay x = s.bay x := rfl

@[simp] theorem modService_drive_read (s : State) (b : Bay) (f : Service → Service) (x : Bay) : (s.modService b f).drive x = s.drive x := rfl

@[simp] theorem modService_port_read (s : State) (b : Bay) (f : Service → Service) (x : Port) : (s.modService b f).port x = s.port x := rfl

@[simp] theorem modService_presence_read (s : State) (b : Bay) (f : Service → Service) (x : Port) : (s.modService b f).presence x = s.presence x := rfl

@[simp] theorem modService_ctx_read (s : State) (b : Bay) (f : Service → Service) (x : CtxId) : (s.modService b f).ctx x = s.ctx x := rfl

@[simp] theorem modService_live_read (s : State) (b : Bay) (f : Service → Service) (x : Port) : (s.modService b f).live x = s.live x := rfl

@[simp] theorem modService_replies_read (s : State) (b : Bay) (f : Service → Service) (x : Port) : (s.modService b f).replies x = s.replies x := rfl

@[simp] theorem modDrive_bay_read (s : State) (b : Bay) (f : DriveEngine → DriveEngine) (x : Bay) : (s.modDrive b f).bay x = s.bay x := rfl

@[simp] theorem modDrive_service_read (s : State) (b : Bay) (f : DriveEngine → DriveEngine) (x : Bay) : (s.modDrive b f).service x = s.service x := rfl

@[simp] theorem modDrive_port_read (s : State) (b : Bay) (f : DriveEngine → DriveEngine) (x : Port) : (s.modDrive b f).port x = s.port x := rfl

@[simp] theorem modDrive_presence_read (s : State) (b : Bay) (f : DriveEngine → DriveEngine) (x : Port) : (s.modDrive b f).presence x = s.presence x := rfl

@[simp] theorem modDrive_ctx_read (s : State) (b : Bay) (f : DriveEngine → DriveEngine) (x : CtxId) : (s.modDrive b f).ctx x = s.ctx x := rfl

@[simp] theorem modDrive_live_read (s : State) (b : Bay) (f : DriveEngine → DriveEngine) (x : Port) : (s.modDrive b f).live x = s.live x := rfl

@[simp] theorem modDrive_replies_read (s : State) (b : Bay) (f : DriveEngine → DriveEngine) (x : Port) : (s.modDrive b f).replies x = s.replies x := rfl

@[simp] theorem modPort_bay_read (s : State) (p : Port) (f : NodePort → NodePort) (x : Bay) : (s.modPort p f).bay x = s.bay x := rfl

@[simp] theorem modPort_service_read (s : State) (p : Port) (f : NodePort → NodePort) (x : Bay) : (s.modPort p f).service x = s.service x := rfl

@[simp] theorem modPort_drive_read (s : State) (p : Port) (f : NodePort → NodePort) (x : Bay) : (s.modPort p f).drive x = s.drive x := rfl

@[simp] theorem modPort_presence_read (s : State) (p : Port) (f : NodePort → NodePort) (x : Port) : (s.modPort p f).presence x = s.presence x := rfl

@[simp] theorem modPort_ctx_read (s : State) (p : Port) (f : NodePort → NodePort) (x : CtxId) : (s.modPort p f).ctx x = s.ctx x := rfl

@[simp] theorem modPort_live_read (s : State) (p : Port) (f : NodePort → NodePort) (x : Port) : (s.modPort p f).live x = s.live x := rfl

@[simp] theorem modPort_replies_read (s : State) (p : Port) (f : NodePort → NodePort) (x : Port) : (s.modPort p f).replies x = s.replies x := rfl

@[simp] theorem modPresence_bay_read (s : State) (p : Port) (f : Presence → Presence) (x : Bay) : (s.modPresence p f).bay x = s.bay x := rfl

@[simp] theorem modPresence_service_read (s : State) (p : Port) (f : Presence → Presence) (x : Bay) : (s.modPresence p f).service x = s.service x := rfl

@[simp] theorem modPresence_drive_read (s : State) (p : Port) (f : Presence → Presence) (x : Bay) : (s.modPresence p f).drive x = s.drive x := rfl

@[simp] theorem modPresence_port_read (s : State) (p : Port) (f : Presence → Presence) (x : Port) : (s.modPresence p f).port x = s.port x := rfl

@[simp] theorem modPresence_ctx_read (s : State) (p : Port) (f : Presence → Presence) (x : CtxId) : (s.modPresence p f).ctx x = s.ctx x := rfl

@[simp] theorem modPresence_live_read (s : State) (p : Port) (f : Presence → Presence) (x : Port) : (s.modPresence p f).live x = s.live x := rfl

@[simp] theorem modPresence_replies_read (s : State) (p : Port) (f : Presence → Presence) (x : Port) : (s.modPresence p f).replies x = s.replies x := rfl

@[simp] theorem modPortStats_bay_read (s : State) (p : Port) (f : PortStats → PortStats) (x : Bay) : (s.modPortStats p f).bay x = s.bay x := rfl

@[simp] theorem modPortStats_service_read (s : State) (p : Port) (f : PortStats → PortStats) (x : Bay) : (s.modPortStats p f).service x = s.service x := rfl

@[simp] theorem modPortStats_drive_read (s : State) (p : Port) (f : PortStats → PortStats) (x : Bay) : (s.modPortStats p f).drive x = s.drive x := rfl

@[simp] theorem modPortStats_port_read (s : State) (p : Port) (f : PortStats → PortStats) (x : Port) : (s.modPortStats p f).port x = s.port x := rfl

@[simp] theorem modPortStats_presence_read (s : State) (p : Port) (f : PortStats → PortStats) (x : Port) : (s.modPortStats p f).presence x = s.presence x := rfl

@[simp] theorem modPortStats_ctx_read (s : State) (p : Port) (f : PortStats → PortStats) (x : CtxId) : (s.modPortStats p f).ctx x = s.ctx x := rfl

@[simp] theorem modPortStats_live_read (s : State) (p : Port) (f : PortStats → PortStats) (x : Port) : (s.modPortStats p f).live x = s.live x := rfl

@[simp] theorem modPortStats_replies_read (s : State) (p : Port) (f : PortStats → PortStats) (x : Port) : (s.modPortStats p f).replies x = s.replies x := rfl

@[simp] theorem modBayStats_bay_read (s : State) (b : Bay) (f : BayStats → BayStats) (x : Bay) : (s.modBayStats b f).bay x = s.bay x := rfl

@[simp] theorem modBayStats_service_read (s : State) (b : Bay) (f : BayStats → BayStats) (x : Bay) : (s.modBayStats b f).service x = s.service x := rfl

@[simp] theorem modBayStats_drive_read (s : State) (b : Bay) (f : BayStats → BayStats) (x : Bay) : (s.modBayStats b f).drive x = s.drive x := rfl

@[simp] theorem modBayStats_port_read (s : State) (b : Bay) (f : BayStats → BayStats) (x : Port) : (s.modBayStats b f).port x = s.port x := rfl

@[simp] theorem modBayStats_presence_read (s : State) (b : Bay) (f : BayStats → BayStats) (x : Port) : (s.modBayStats b f).presence x = s.presence x := rfl

@[simp] theorem modBayStats_ctx_read (s : State) (b : Bay) (f : BayStats → BayStats) (x : CtxId) : (s.modBayStats b f).ctx x = s.ctx x := rfl

@[simp] theorem modBayStats_live_read (s : State) (b : Bay) (f : BayStats → BayStats) (x : Port) : (s.modBayStats b f).live x = s.live x := rfl

@[simp] theorem modBayStats_replies_read (s : State) (b : Bay) (f : BayStats → BayStats) (x : Port) : (s.modBayStats b f).replies x = s.replies x := rfl

@[simp] theorem setRight_bay_read (s : State) (p : Port) (b : Bay) (r : Right) (x : Bay) : (s.setRight p b r).bay x = s.bay x := rfl

@[simp] theorem setRight_service_read (s : State) (p : Port) (b : Bay) (r : Right) (x : Bay) : (s.setRight p b r).service x = s.service x := rfl

@[simp] theorem setRight_drive_read (s : State) (p : Port) (b : Bay) (r : Right) (x : Bay) : (s.setRight p b r).drive x = s.drive x := rfl

@[simp] theorem setRight_port_read (s : State) (p : Port) (b : Bay) (r : Right) (x : Port) : (s.setRight p b r).port x = s.port x := rfl

@[simp] theorem setRight_presence_read (s : State) (p : Port) (b : Bay) (r : Right) (x : Port) : (s.setRight p b r).presence x = s.presence x := rfl

@[simp] theorem setRight_ctx_read (s : State) (p : Port) (b : Bay) (r : Right) (x : CtxId) : (s.setRight p b r).ctx x = s.ctx x := rfl

@[simp] theorem setRight_live_read (s : State) (p : Port) (b : Bay) (r : Right) (x : Port) : (s.setRight p b r).live x = s.live x := rfl

@[simp] theorem setRight_replies_read (s : State) (p : Port) (b : Bay) (r : Right) (x : Port) : (s.setRight p b r).replies x = s.replies x := rfl

@[simp] theorem modCtx_bay_read (s : State) (c : CtxId) (f : Context → Context) (x : Bay) : (s.modCtx c f).bay x = s.bay x := rfl

@[simp] theorem modCtx_service_read (s : State) (c : CtxId) (f : Context → Context) (x : Bay) : (s.modCtx c f).service x = s.service x := rfl

@[simp] theorem modCtx_drive_read (s : State) (c : CtxId) (f : Context → Context) (x : Bay) : (s.modCtx c f).drive x = s.drive x := rfl

@[simp] theorem modCtx_port_read (s : State) (c : CtxId) (f : Context → Context) (x : Port) : (s.modCtx c f).port x = s.port x := rfl

@[simp] theorem modCtx_presence_read (s : State) (c : CtxId) (f : Context → Context) (x : Port) : (s.modCtx c f).presence x = s.presence x := rfl

@[simp] theorem modCtx_live_read (s : State) (c : CtxId) (f : Context → Context) (x : Port) : (s.modCtx c f).live x = s.live x := rfl

@[simp] theorem modCtx_replies_read (s : State) (c : CtxId) (f : Context → Context) (x : Port) : (s.modCtx c f).replies x = s.replies x := rfl

@[simp] theorem modLive_bay_read (s : State) (p : Port) (f : Nat → Nat) (x : Bay) : (s.modLive p f).bay x = s.bay x := rfl

@[simp] theorem modLive_service_read (s : State) (p : Port) (f : Nat → Nat) (x : Bay) : (s.modLive p f).service x = s.service x := rfl

@[simp] theorem modLive_drive_read (s : State) (p : Port) (f : Nat → Nat) (x : Bay) : (s.modLive p f).drive x = s.drive x := rfl

@[simp] theorem modLive_port_read (s : State) (p : Port) (f : Nat → Nat) (x : Port) : (s.modLive p f).port x = s.port x := rfl

@[simp] theorem modLive_presence_read (s : State) (p : Port) (f : Nat → Nat) (x : Port) : (s.modLive p f).presence x = s.presence x := rfl

@[simp] theorem modLive_ctx_read (s : State) (p : Port) (f : Nat → Nat) (x : CtxId) : (s.modLive p f).ctx x = s.ctx x := rfl

@[simp] theorem modLive_replies_read (s : State) (p : Port) (f : Nat → Nat) (x : Port) : (s.modLive p f).replies x = s.replies x := rfl

@[simp] theorem setQuota_bay_read (s : State) (p : Port) (n : Nat) (x : Bay) : (s.setQuota p n).bay x = s.bay x := rfl

@[simp] theorem setQuota_service_read (s : State) (p : Port) (n : Nat) (x : Bay) : (s.setQuota p n).service x = s.service x := rfl

@[simp] theorem setQuota_drive_read (s : State) (p : Port) (n : Nat) (x : Bay) : (s.setQuota p n).drive x = s.drive x := rfl

@[simp] theorem setQuota_port_read (s : State) (p : Port) (n : Nat) (x : Port) : (s.setQuota p n).port x = s.port x := rfl

@[simp] theorem setQuota_presence_read (s : State) (p : Port) (n : Nat) (x : Port) : (s.setQuota p n).presence x = s.presence x := rfl

@[simp] theorem setQuota_ctx_read (s : State) (p : Port) (n : Nat) (x : CtxId) : (s.setQuota p n).ctx x = s.ctx x := rfl

@[simp] theorem setQuota_live_read (s : State) (p : Port) (n : Nat) (x : Port) : (s.setQuota p n).live x = s.live x := rfl

@[simp] theorem setQuota_replies_read (s : State) (p : Port) (n : Nat) (x : Port) : (s.setQuota p n).replies x = s.replies x := rfl

@[simp] theorem modReplies_bay_read (s : State) (p : Port) (f : List CtxId → List CtxId) (x : Bay) : (s.modReplies p f).bay x = s.bay x := rfl

@[simp] theorem modReplies_service_read (s : State) (p : Port) (f : List CtxId → List CtxId) (x : Bay) : (s.modReplies p f).service x = s.service x := rfl

@[simp] theorem modReplies_drive_read (s : State) (p : Port) (f : List CtxId → List CtxId) (x : Bay) : (s.modReplies p f).drive x = s.drive x := rfl

@[simp] theorem modReplies_port_read (s : State) (p : Port) (f : List CtxId → List CtxId) (x : Port) : (s.modReplies p f).port x = s.port x := rfl

@[simp] theorem modReplies_presence_read (s : State) (p : Port) (f : List CtxId → List CtxId) (x : Port) : (s.modReplies p f).presence x = s.presence x := rfl

@[simp] theorem modReplies_ctx_read (s : State) (p : Port) (f : List CtxId → List CtxId) (x : CtxId) : (s.modReplies p f).ctx x = s.ctx x := rfl

@[simp] theorem modReplies_live_read (s : State) (p : Port) (f : List CtxId → List CtxId) (x : Port) : (s.modReplies p f).live x = s.live x := rfl

end Sys2Proof.Machine
end

