-- ==== Sys2Proof/Laws/Closed.lean ====
section
/-! SUPPORT. A predicate on states that the elementary updates of the part keep. Each shared operation is shown to keep
every such predicate, once; an invariant or a frame is then had by showing it kept by the elementary updates alone. -/

namespace Sys2Proof.Machine

/-! ## Elementary updates -/

/-- A bay record changed in neither its holders nor, but for claims that leave, its queue. -/
def QuietBay (r r' : BayRecord) : Prop := r'.holders = r.holders ∧ r'.claims.Sublist r.claims

/-- A Node Port that only loses frames and notices, and keeps its role. -/
def QuietPort (n m : NodePort) : Prop :=
  m.intake <:+ n.intake ∧ m.notices.Sublist n.notices ∧ m.role = n.role

/-- A loan added to a bay, with the serial counter stepped (R10, R11, R22). -/
def lendRaw (b : Bay) (p : Port) (h : Holder) (s : State) : State :=
  ({ s with
      nextSerial := s.nextSerial + 1,
      exhausted := s.exhausted || decide (s.nextSerial = BitVec.allOnes 48) }).modBay b fun r =>
    { r with holders := r.holders.set p (some h) }

/-- A predicate that the elementary updates keep that a loan's end, a grant from a queue and a drive answer make. -/
structure ClosedCore (P : State → Prop) : Prop where
  bay : ∀ s b f, QuietBay (s.bay b) (f (s.bay b)) → P s → P (s.modBay b f)
  holder : ∀ s b p f, (∀ h : Holder, (f h).mode = h.mode ∧ (f h).serial = h.serial) → P s → P (modHolder b p f s)
  unlend : ∀ s b (p : Port), P s → P (s.modBay b fun r => { r with holders := r.holders.set p none })
  lendClaim : ∀ s b x rest h, (s.bay b).claims = x :: rest → grantsOpen s b = true →
    modeFits (s.bay b).loanMode x.mode = true → h.mode = x.mode → h.serial = s.nextSerial → P s →
    P (lendRaw b x.port h (removeClaim b x.port s))
  services : ∀ s v, P s → P { s with services := v }
  drives : ∀ s v, P s → P { s with drives := v }
  plan : ∀ s v, P s → P { s with plan := v }
  pool : ∀ s (v : Pool), v.quota = s.pool.quota → P s → P { s with pool := v }
  portStats : ∀ s v, P s → P { s with portStats := v }
  bayStats : ∀ s v, P s → P { s with bayStats := v }
  journal : ∀ s (v : Journal), v.ring.length ≤ max s.journal.ring.length Config.journalRecords →
    v.meterInterval = s.journal.meterInterval → P s → P { s with journal := v }
  raised : ∀ s v, P s → P (driveAlert { s with raised := v })
  port : ∀ s p f, QuietPort (s.port p) (f (s.port p)) → P s → P (s.modPort p f)
  notice : ∀ s p x, P s → P (postNotice p x s)

/-- A predicate that every elementary update keeps, but for the settings and the hard reset. -/
structure Closed (P : State → Prop) : Prop extends ClosedCore P where
  lendNow : ∀ s b p h, (s.presence p).state = .active → (s.bay b).claims = [] → s.exhausted = false →
    modeFits (s.bay b).loanMode h.mode = true → h.serial = s.nextSerial → P s → P (lendRaw b p h s)
  queue : ∀ s b x, (s.presence x.port).state = .active → (∀ y ∈ (s.bay b).claims, y.port ≠ x.port) →
    (s.bay b).holder x.port = none → P s → P (s.modBay b fun r => { r with claims := r.claims ++ [x] })
  softReset : ∀ s v, P s → P { s with softReset := v }
  intake : ∀ s p (f : InFrame), (s.port p).intake.length + 1 ≤ Config.intakeFrames →
    occupancy (s.port p).intake + frameLength f ≤ Config.intakeBytes → P s →
    P (s.modPort p fun n => { n with intake := n.intake ++ [f] })
  presence : ∀ s p f, (f (s.presence p)).state = (s.presence p).state → P s → P (s.modPresence p f)
  shift : ∀ s p f, (s.presence p).state ≠ .active → P s → P (s.modPresence p f)
  test : ∀ s p q f, testBusy s p q = false → P s → P (s.modPresence q f)
  leave : ∀ s cause p f, P s → P (cleanUp cause p s).state → P ((cleanUp cause p s).state.modPresence p f)
  soft : ∀ s, P s → P (softValues s)

/-! ## Two updates of one record are one -/

theorem modBay_modBay (s : State) (b : Bay) (f g : BayRecord → BayRecord) :
    (s.modBay b f).modBay b g = s.modBay b fun r => g (f r) := by
  simp [State.modBay]

theorem modPort_modPort (s : State) (p : Port) (f g : NodePort → NodePort) :
    (s.modPort p f).modPort p g = s.modPort p fun n => g (f n) := by
  simp [State.modPort]

/-- A walk over a list keeps what each of its steps keeps. -/
theorem foldl_keeps {α : Type} {P : State → Prop} {f : State → α → State} (h : ∀ s x, P s → P (f s x)) :
    ∀ (l : List α) (s : State), P s → P (l.foldl f s)
  | [], _, hs => hs
  | x :: l, s, hs => foldl_keeps h l (f s x) (h s x hs)

theorem QuietBay.refl (r : BayRecord) : QuietBay r r := ⟨rfl, List.Sublist.refl _⟩

theorem QuietPort.refl (n : NodePort) : QuietPort n n := ⟨List.suffix_refl _, List.Sublist.refl _, rfl⟩

/-! ## The Event Unit and the loan counter touch different state -/

theorem tellSupervisors_modBay (s : State) (b : Bay) (f : BayRecord → BayRecord) :
    tellSupervisors (s.modBay b f) = (tellSupervisors s).modBay b f := by
  unfold tellSupervisors
  generalize allPorts = l
  induction l generalizing s with
  | nil => rfl
  | cons p l ih =>
    simp only [List.foldl_cons]
    rw [show hearsEvents (s.modBay b f) p = hearsEvents s p from rfl]
    split
    · rw [show (s.modBay b f).modPort p (fun n => { n with eventNews := true }) =
          (s.modPort p fun n => { n with eventNews := true }).modBay b f from rfl]
      exact ih _
    · exact ih _

/-- The raised set with an event added, and ALERT following (R185, R187). -/
def withRaised (e : Event) (s : State) : State := driveAlert { s with raised := s.raised ||| eventBit e }

theorem raiseEvent_eq (e : Event) (s : State) :
    raiseEvent e s =
      if hasEvent s.raised e then s
      else if hasEvent s.enabled e then tellSupervisors (withRaised e s) else withRaised e s := rfl

theorem withRaised_modBay (e : Event) (s : State) (b : Bay) (f : BayRecord → BayRecord) :
    withRaised e (s.modBay b f) = (withRaised e s).modBay b f := rfl

theorem raiseEvent_modBay (e : Event) (s : State) (b : Bay) (f : BayRecord → BayRecord) :
    raiseEvent e (s.modBay b f) = (raiseEvent e s).modBay b f := by
  rw [raiseEvent_eq, raiseEvent_eq, withRaised_modBay, tellSupervisors_modBay, modBay_raised, modBay_enabled]
  by_cases h1 : hasEvent s.raised e
  · rw [if_pos h1, if_pos h1]
  · rw [if_neg h1, if_neg h1]
    by_cases h2 : hasEvent s.enabled e
    · rw [if_pos h2, if_pos h2]
    · rw [if_neg h2, if_neg h2]

end Sys2Proof.Machine
end

