-- ==== Sys2Proof/Laws/Keeps.lean ====
section
/-! SUPPORT. Every shared operation keeps every predicate that the elementary updates keep: the Event Unit, the Journal,
the Node Port, the Bay Service Units, the Context Pool and the Loan Manager. -/

namespace Sys2Proof.Machine.ClosedCore

open Sys2Proof.Machine

variable {P : State → Prop} (h : ClosedCore P)
include h

/-! ## Reads and updates -/

theorem service (s : State) (b : Bay) (f : Service → Service) (hs : P s) : P (s.modService b f) := h.services s _ hs

theorem drive (s : State) (b : Bay) (f : DriveEngine → DriveEngine) (hs : P s) : P (s.modDrive b f) := h.drives s _ hs

theorem ctx (s : State) (c : CtxId) (f : Context → Context) (hs : P s) : P (s.modCtx c f) := h.pool s _ rfl hs

theorem live (s : State) (p : Port) (f : Nat → Nat) (hs : P s) : P (s.modLive p f) := h.pool s _ rfl hs

theorem replies (s : State) (p : Port) (f : List CtxId → List CtxId) (hs : P s) : P (s.modReplies p f) :=
  h.pool s _ rfl hs

theorem modPortStats (s : State) (p : Port) (f : PortStats → PortStats) (hs : P s) : P (s.modPortStats p f) :=
  h.portStats s _ hs

theorem modBayStats (s : State) (b : Bay) (f : BayStats → BayStats) (hs : P s) : P (s.modBayStats b f) :=
  h.bayStats s _ hs

/-- An update that touches neither holders nor claims. -/
theorem bay' (s : State) (b : Bay) (f : BayRecord → BayRecord) (hs : P s)
    (hf : ∀ r, (f r).holders = r.holders := by intros; rfl)
    (hc : ∀ r, (f r).claims = r.claims := by intros; rfl) : P (s.modBay b f) :=
  h.bay s b f ⟨hf _, by simp only [hc, List.Sublist.refl]⟩ hs

/-- An update that touches neither the Intake Queue, the Notice List nor the role. -/
theorem port' (s : State) (p : Port) (f : NodePort → NodePort) (hs : P s)
    (hi : ∀ n, (f n).intake = n.intake := by intros; rfl) (hn : ∀ n, (f n).notices = n.notices := by intros; rfl)
    (hr : ∀ n, (f n).role = n.role := by intros; rfl) : P (s.modPort p f) :=
  h.port s p f ⟨by simp only [hi, List.suffix_refl], by simp only [hn, List.Sublist.refl], hr _⟩ hs

/-! ## Event Unit and Journal -/

theorem tellSupervisors (s : State) (hs : P s) : P (tellSupervisors s) := by
  refine foldl_keeps (fun s p hs => ?_) allPorts s hs
  split
  · exact h.port' s p _ hs
  · exact hs

theorem raiseEvent (e : Event) (s : State) (hs : P s) : P (raiseEvent e s) := by
  rw [raiseEvent_eq]
  have hw : P (withRaised e s) := h.raised s _ hs
  split
  · exact hs
  · split
    · exact h.tellSupervisors _ hw
    · exact hw

theorem appendRecord (x : Entry) (s : State) (hs : P s) : P (appendRecord x s) := by
  unfold Machine.appendRecord
  have hk : P { s with journal := { s.journal with seq := s.journal.seq + 1, lost := satAdd s.journal.lost 1 } } :=
    h.journal s _ (Nat.le_max_left _ _) rfl hs
  dsimp only
  split
  · next hlt =>
    have hj : P { s with journal := { s.journal with
        ring := s.journal.ring ++ [{ seq := s.journal.seq, time := s.timeTag.value, entry := x }],
        seq := s.journal.seq + 1 } } := by
      refine h.journal s _ ?_ rfl hs
      rw [List.length_append, List.length_singleton]
      exact Nat.le_trans hlt (Nat.le_max_right _ _)
    split
    · exact h.raiseEvent _ _ hj
    · exact hj
  · exact h.raiseEvent _ _ hk

/-! ## Node Port -/

omit h in
theorem flowAct_quiet (n : NodePort) : QuietPort n (flowAct n) := by
  unfold flowAct
  split
  · split
    · exact QuietPort.refl n
    · exact QuietPort.refl n
  all_goals
    split
    · exact QuietPort.refl n
    · exact QuietPort.refl n

omit h in
theorem flowEnd_quiet (n : NodePort) : QuietPort n (flowEnd n) := by
  unfold flowEnd
  split <;> exact QuietPort.refl n

theorem flow (s : State) (p : Port) (hs : P s) : P (s.modPort p flowAct) := h.port s p flowAct (flowAct_quiet (s.port p)) hs

theorem placeAnswer (p : Port) (a : Answer) (s : State) (hs : P s) : P (placeAnswer p a s) :=
  h.port' s p _ hs

theorem leaveHead (p : Port) (s : State) (hs : P s) : P (leaveHead p s) := by
  have h1 : P (s.modPort p fun n => { n with intake := n.intake.drop 1, reserved := false }) :=
    h.port s p _ ⟨List.drop_suffix _ _, List.Sublist.refl _, rfl⟩ hs
  have h2 := h.flow _ p h1
  rwa [modPort_modPort] at h2

theorem answerHead (p : Port) (frame : OutFrame) (s : State) (hs : P s) : P (answerHead p frame s) :=
  h.leaveHead p _ (h.placeAnswer p _ s hs)

theorem refuseHead (p : Port) (f : FrameFields) (status : Status) (s : State) (hs : P s) :
    P (refuseHead p f status s) := h.answerHead p _ s hs

theorem takeFrame (s : State) (p : Port) (hs : P s) : P (takeFrame s p) := by
  unfold Machine.takeFrame
  dsimp only
  split
  · exact hs
  · split
    · exact h.port' s p _ hs
    · exact h.port' s p _ hs
    · split
      · exact h.port' s p _ hs
      · split
        · next hn => exact h.port s p _ ⟨List.suffix_refl _, by rw [hn]; exact List.sublist_cons_self _ _, rfl⟩ hs
        · split
          · exact h.port' s p _ hs
          · split
            · exact h.port' _ p _ (h.replies s p _ hs)
            · exact hs

theorem transmit (s : State) (hs : P s) : P (transmit s) := foldl_keeps (fun s p => h.takeFrame s p) allPorts s hs

/-! ## Bay Service Units and plan -/

theorem refill (b : Bay) (s : State) (hs : P s) : P (refill b s) := h.service s b _ hs

theorem swapCheck (s : State) (hs : P s) : P (swapCheck s) := by
  unfold Machine.swapCheck
  split
  · exact h.raiseEvent _ _ (h.plan s _ hs)
  · exact hs

theorem adopt (b : Bay) (s : State) (hs : P s) : P (adopt b s) :=
  h.swapCheck _ (h.appendRecord _ _ (h.service s b _ hs))

theorem adoptIfIdle (b : Bay) (s : State) (hs : P s) : P (adoptIfIdle b s) := by
  unfold Machine.adoptIfIdle
  split
  · exact h.adopt b _ (h.refill b _ (h.service s b _ hs))
  · exact hs

theorem issue (b : Bay) (c : CtxId) (l : Lane) (s : State) (hs : P s) : P (issue b c l s) := by
  unfold Machine.issue
  exact h.drive _ b _ (h.ctx s c _ hs)

theorem issueRetry (b : Bay) (c : CtxId) (s : State) (hs : P s) : P (issueRetry b c s) :=
  h.issue b c _ _ (h.service s b _ hs)

theorem issueHead (b : Bay) (p : Port) (cost : Nat) (s : State) (hs : P s) : P (issueHead b p cost s) := by
  unfold Machine.issueHead
  split
  · exact hs
  · exact h.issue b _ _ _ (h.service s b _ hs)

theorem roundEnd (b : Bay) (s : State) (hs : P s) : P (roundEnd b s) := by
  unfold Machine.roundEnd
  split
  · exact h.refill b _ (h.adopt b s hs)
  · exact h.refill b s hs

theorem choose (b : Bay) (s t : State) (ht : choose b s = some t) (hs : P s) : P t := by
  unfold Machine.choose at ht
  split at ht
  · split at ht
    · cases ht
      exact h.issueRetry b _ s hs
    · split at ht
      · cases ht
        exact h.issueHead b _ _ s hs
      · split at ht
        · dsimp only at ht
          split at ht
          · cases ht
            exact h.issueHead b _ _ _ (h.roundEnd b s hs)
          · split at ht
            · cases ht
              exact h.issueHead b _ _ _ (h.roundEnd b s hs)
            · cases ht
              exact h.roundEnd b s hs
        · cases ht
  · cases ht

theorem chooseLoop (b : Bay) (n : Nat) (s : State) (hs : P s) : P (chooseLoop b n s) := by
  induction n generalizing s with
  | zero => exact hs
  | succ n ih =>
    unfold Machine.chooseLoop
    split
    · next ht => exact ih _ (h.choose b s _ ht hs)
    · exact hs

theorem chooseAll (b : Bay) (s : State) (hs : P s) : P (chooseAll b s) := h.chooseLoop b _ s hs

/-! ## Context Pool -/

theorem freeContext (c : CtxId) (s : State) (hs : P s) : P (freeContext c s) := h.ctx s c _ hs

theorem enterReply (c : CtxId) (outcome : OpOutcome) (s : State) (hs : P s) : P (enterReply c outcome s) :=
  h.adoptIfIdle _ _ (h.replies _ _ _ (h.ctx s c _ hs))

theorem freeOrphan (c : CtxId) (s : State) (hs : P s) : P (freeOrphan c s) :=
  h.adoptIfIdle _ _ (h.modPortStats _ _ _ (h.freeContext c s hs))

theorem endUnissued (cause : Cause) (s : State) (c : CtxId) (hs : P s) : P (endUnissued cause s c) := by
  unfold Machine.endUnissued
  refine h.enterReply c _ _ (h.live _ _ _ (h.ctx _ c _ ?_))
  have h1 := h.service s (s.ctx c).bay (fun v =>
    { v with
      lists := v.lists.set (s.ctx c).port (v.lists[(s.ctx c).port].filter fun d => !decide (d = c)),
      reissue := v.reissue.filter fun d => !decide (d = c) }) hs
  split
  · exact h.modBayStats _ _ _ h1
  · exact h1

theorem makeTrailing (cause : Cause) (s : State) (c : CtxId) (hs : P s) : P (makeTrailing cause s c) := by
  unfold Machine.makeTrailing
  exact h.bay' _ _ _ (h.ctx s c _ hs)

theorem endLoanContexts (serial : Word48) (cause : Cause) (s : State) (hs : P s) : P (endLoanContexts serial cause s) :=
  foldl_keeps (h.endUnissued cause) _ _ (foldl_keeps (h.makeTrailing cause) _ s hs)

theorem refuseOperation (p : Port) (f : FrameFields) (status : Status) (s : State) (hs : P s) :
    P (refuseOperation p f status s) := h.answerHead p _ s hs

theorem seat (c : CtxId) (p : Port) (kind : OpKind) (b : Bay) (f : FrameFields) (s : State) (hs : P s) :
    P (seat c p kind b f s) := by
  unfold Machine.seat
  exact h.pool _ _ rfl (h.service _ b _ (h.holder _ b p _ (fun _ => ⟨rfl, rfl⟩)
    (h.live _ p _ (h.leaveHead p _ (h.ctx s c _ hs)))))

theorem allocate (c : CtxId) (p : Port) (kind : OpKind) (b : Bay) (f : FrameFields) (s : State) (hs : P s) :
    P (allocate c p kind b f s) := h.chooseAll b _ (h.seat c p kind b f s hs)

theorem takeUp (held : Option Bay) (c : CtxId) (p : Port) (s : State) (hs : P s) : P (takeUp held c p s) := by
  unfold Machine.takeUp allocateHolding
  split
  · split
    · split
      · exact h.seat _ _ _ _ _ s hs
      · exact h.allocate _ _ _ _ _ s hs
    · exact h.refuseOperation _ _ _ s hs
  · exact hs

theorem offerHolding (held : Option Bay) (s t : State) (ht : offerHolding held s = some t) (hs : P s) : P t := by
  unfold Machine.offerHolding at ht
  split at ht
  · cases ht
    exact h.takeUp held _ _ s hs
  · cases ht

theorem handOutLoop (held : Option Bay) (n : Nat) (s : State) (hs : P s) : P (handOutLoop held n s) := by
  induction n generalizing s with
  | zero => exact hs
  | succ n ih =>
    unfold Machine.handOutLoop
    split
    · next ht => exact ih _ (h.offerHolding held s _ ht hs)
    · exact hs

theorem handOutHolding (held : Option Bay) (s : State) (hs : P s) : P (handOutHolding held s) :=
  h.handOutLoop held _ s hs

theorem handOut (s : State) (hs : P s) : P (handOut s) := h.handOutHolding none s hs

theorem giveAtQuota (held : Option Bay) (p : Port) (s : State) (hs : P s) : P (giveAtQuota held p s) := by
  unfold Machine.giveAtQuota
  split
  · split
    · exact h.takeUp held _ p s hs
    · exact hs
  · exact hs

/-! ## Loan Manager -/

theorem removeClaim (b : Bay) (p : Port) (s : State) (hs : P s) : P (removeClaim b p s) :=
  h.bay s b _ ⟨rfl, List.filter_sublist⟩ hs

omit h in
/-- A grant is an elementary loan, the event of an exhausted counter, and the GRANT record. -/
theorem grant_eq (b : Bay) (p : Port) (mode : Mode) (s : State) (he : s.exhausted = false) :
    ∃ hd : Holder, hd.mode = mode ∧ hd.serial = s.nextSerial ∧
      grant b p mode s =
        Machine.appendRecord { note := .grant mode, port := some p, bay := some b, serial := s.nextSerial }
          (if s.nextSerial = BitVec.allOnes 48 then Machine.raiseEvent .serialExhausted (lendRaw b p hd s)
            else lendRaw b p hd s) := by
  refine ⟨
    { mode := mode, serial := s.nextSerial, grantTag := (takeSerial s).timeTag.value, recalled := false, live := 0,
      blocksRead := 0, blocksWritten := 0 }, rfl, rfl, ?_⟩
  unfold grant takeSerial lendRaw
  by_cases hm : s.nextSerial = BitVec.allOnes 48
  · simp only [hm, if_true, decide_true, Bool.or_true]
    rw [raiseEvent_modBay]
  · simp only [hm, if_false, decide_false, Bool.or_false, he]

theorem grantClaim (b : Bay) (x : Claim) (rest : List Claim) (s : State) (hc : (s.bay b).claims = x :: rest)
    (ho : grantsOpen s b = true) (hm : modeFits (s.bay b).loanMode x.mode = true) (hs : P s) :
    P (grantClaim b x s) := by
  have he : s.exhausted = false := by
    unfold grantsOpen at ho
    simp only [Bool.and_eq_true, Bool.not_eq_true'] at ho
    exact ho.2
  obtain ⟨hd, h1, h2, heq⟩ := grant_eq b x.port x.mode (Machine.removeClaim b x.port s) he
  unfold Machine.grantClaim
  dsimp only
  rw [heq]
  have hl := h.lendClaim s b x rest hd hc ho hm h1 h2 hs
  apply h.notice
  apply h.appendRecord
  split
  · exact h.raiseEvent _ _ hl
  · exact hl

theorem refuseClaim (b : Bay) (cause : Cause) (silent : Bool) (x : Claim) (s : State) (hs : P s) :
    P (refuseClaim b cause silent x s) := by
  unfold Machine.refuseClaim
  have h1 := h.removeClaim b x.port s hs
  apply h.appendRecord
  split
  · exact h1
  · exact h.notice _ _ _ h1

theorem grantPassLoop (b : Bay) (n : Nat) (s : State) (hs : P s) : P (grantPassLoop b n s) := by
  induction n generalizing s with
  | zero => exact hs
  | succ n ih =>
    unfold Machine.grantPassLoop
    split
    · next ho =>
      split
      · exact hs
      · next x rest hc =>
        split
        · next hm =>
          split
          · exact ih _ (h.grantClaim b x rest s hc ho hm hs)
          · exact ih _ (h.refuseClaim b _ _ x s hs)
        · exact hs
    · exact hs

theorem grantPass (b : Bay) (s : State) (hs : P s) : P (grantPass b s) := h.grantPassLoop b _ s hs

theorem recallHolder (b : Bay) (s : State) (p : Port) (hs : P s) : P (recallHolder b s p) := by
  unfold Machine.recallHolder
  split
  · split
    · exact hs
    · exact h.notice _ _ _ (h.holder s b p _ (fun _ => ⟨rfl, rfl⟩) hs)
  · exact hs

theorem recallHolders (b : Bay) (s : State) (hs : P s) : P (recallHolders b s) :=
  foldl_keeps (h.recallHolder b) _ s hs

theorem startRecall (b : Bay) (s : State) (hs : P s) : P (startRecall b s) := by
  unfold Machine.startRecall
  exact h.bay' _ b _ (h.recallHolders b _ (h.bay' s b _ hs))

theorem startPatience (b : Bay) (p : Port) (s : State) (hs : P s) : P (startPatience b p s) := by
  unfold Machine.startPatience
  have h1 := h.bay' s b (fun r =>
    { r with patienceTimer := some (s.after r.patienceTime.toNat), subject := some p, phase := .patience })
    hs
  dsimp only
  split
  · exact h.startRecall b _ h1
  · exact h1

theorem stopPatience (b : Bay) (s : State) (hs : P s) : P (stopPatience b s) :=
  h.bay' s b _ hs

theorem patienceCheck (b : Bay) (s : State) (hs : P s) : P (patienceCheck b s) := by
  unfold Machine.patienceCheck
  dsimp only
  split
  · split
    · exact hs
    · exact h.startPatience b _ s hs
  · exact hs
  · split
    · exact hs
    · split
      · exact h.stopPatience b s hs
      · exact h.startPatience b _ s hs
  · exact h.stopPatience b s hs
  · exact hs

theorem completionCheck (b : Bay) (s : State) (hs : P s) : P (completionCheck b s) := by
  unfold Machine.completionCheck
  dsimp only
  split
  · exact h.appendRecord _ _ (h.bay' s b _ hs)
  · exact hs

theorem settleBay (b : Bay) (s : State) (hs : P s) : P (settleBay b s) := by
  unfold Machine.settleBay
  split
  · exact h.completionCheck b _ (h.grantPass b s hs)
  · exact h.patienceCheck b _ (h.grantPass b s hs)

theorem removeHolder (b : Bay) (p : Port) (s : State) (hs : P s) : P (removeHolder b p s) := by
  have h1 := h.unlend s b p hs
  have h2 := h.bay' (s.modBay b fun r => { r with holders := r.holders.set p none }) b
    (fun r => if r.phase = .recalled ∧ r.recallSet = [] then { r with phase := .none, recallTimer := none } else r)
    h1 (fun r => by split <;> rfl) (fun r => by split <;> rfl)
  rwa [modBay_modBay] at h2

theorem releaseLoan (b : Bay) (p : Port) (hd : Holder) (s : State) (hs : P s) : P (releaseLoan b p hd s) :=
  h.appendRecord _ _ (h.endLoanContexts _ _ _ (h.removeHolder b p s hs))

theorem revokeLoan (b : Bay) (cause : Cause) (p : Port) (hd : Holder) (s : State) (hs : P s) :
    P (revokeLoan b cause p hd s) := by
  unfold Machine.revokeLoan
  have h1 := h.endLoanContexts hd.serial cause _ (h.removeHolder b p s hs)
  apply h.appendRecord
  split
  · exact h.notice _ _ _ h1
  · exact h1

theorem revokePort (b : Bay) (cause : Cause) (s : State) (p : Port) (hs : P s) : P (revokePort b cause s p) := by
  unfold Machine.revokePort
  split
  · exact h.giveAtQuota none p _ (h.revokeLoan b cause p _ s hs)
  · exact hs

theorem revokePorts (b : Bay) (cause : Cause) (ps : List Port) (s : State) (hs : P s) : P (revokePorts b cause ps s) :=
  foldl_keeps (h.revokePort b cause) ps s hs

theorem refuseAll (b : Bay) (cause : Cause) (s : State) (hs : P s) : P (refuseAll b cause s) :=
  foldl_keeps (fun s x => h.refuseClaim b cause false x s) _ s hs

theorem recallExpiry (b : Bay) (s : State) (hs : P s) : P (recallExpiry b s) := by
  unfold Machine.recallExpiry
  exact h.settleBay b _ (h.raiseEvent _ _ (h.bay' _ b _ (h.revokePorts b _ _ s hs)))

theorem probingResult (b : Bay) (anyUp : Bool) (s : State) (hs : P s) : P (probingResult b anyUp s) := by
  unfold Machine.probingResult
  split
  · exact h.settleBay b _ (h.appendRecord _ _ (h.bay' s b _ hs))
  · exact h.raiseEvent _ _ (h.appendRecord _ _ (h.refuseAll b _ _ (h.bay' s b _ hs)))

theorem faultLoans (b : Bay) (s : State) (hs : P s) : P (faultLoans b s) := by
  unfold Machine.faultLoans
  exact h.settleBay b _ (h.raiseEvent _ _ (h.appendRecord _ _ (h.refuseAll b _ _ (h.revokePorts b _ _ _
    (h.bay' s b _ hs)))))

theorem cleanBay (cause : Cause) (p : Port) (t : CleanUp) (b : Bay) (ht : P t.state) :
    P (cleanBay cause p t b).state := by
  unfold Machine.cleanBay
  split
  · exact h.settleBay b _ (h.revokeLoan b cause p _ _ ht)
  · split
    · exact h.settleBay b _ (h.refuseClaim b cause true _ _ ht)
    · exact ht

theorem cleanLoans (cause : Cause) (p : Port) (s : State) (hs : P s) : P (cleanLoans cause p s).state := by
  unfold Machine.cleanLoans
  have hk : ∀ (l : List Bay) (t : CleanUp), P t.state → P (l.foldl (Machine.cleanBay cause p) t).state := by
    intro l
    induction l with
    | nil => exact fun _ ht => ht
    | cons b l ih => exact fun t ht => ih _ (h.cleanBay cause p t b ht)
  exact hk allBays _ hs

end Sys2Proof.Machine.ClosedCore
end

