-- ==== Sys2Proof/Laws/KeepsEngine.lean ====
section
/-! SUPPORT. The shared operations of the Drive Engine, of the Presence Monitor and of the soft reset keep every predicate
that the elementary updates keep. -/

namespace Sys2Proof.Machine.ClosedCore

open Sys2Proof.Machine

variable {P : State → Prop} (h : ClosedCore P)
include h

/-! ## Completion -/

theorem meterCheck (b : Bay) (p : Port) (s : State) (hs : P s) : P (meterCheck b p s) := by
  unfold Machine.meterCheck
  split
  · dsimp only
    split
    · exact h.holder _ b p _ (fun _ => ⟨rfl, rfl⟩) (h.appendRecord _ _ hs)
    · exact hs
  · exact hs

theorem completeFinal (b : Bay) (c : CtxId) (outcome : OpOutcome) (s : State) (hs : P s) :
    P (completeFinal b c outcome s) := by
  unfold Machine.completeFinal
  dsimp only
  apply h.enterReply
  have h1 := h.holder _ b (s.ctx c).port
    (fun hd => if hd.serial = (s.ctx c).serial then { hd with live := hd.live - 1 } else hd)
    (fun hd => by split <;> exact ⟨rfl, rfl⟩) (h.live s (s.ctx c).port (fun n => n - 1) hs)
  split
  · apply h.meterCheck
    refine h.holder _ b _ _ (fun hd => ?_) h1
    unfold advanceMeters
    split
    · split <;> exact ⟨rfl, rfl⟩
    · exact ⟨rfl, rfl⟩
  · exact h1

theorem trailingGone (faulting : Bool) (b : Bay) (s : State) (hs : P s) : P (trailingGone faulting b s) := by
  unfold Machine.trailingGone
  split
  · exact hs
  · exact h.settleBay b s hs

theorem completeTrailing (faulting : Bool) (b : Bay) (c : CtxId) (outcome : OpOutcome) (s : State) (hs : P s) :
    P (completeTrailing faulting b c outcome s) := by
  unfold Machine.completeTrailing
  dsimp only
  have h1 := h.ctx s c (fun x => { x with state := .reply, outcome := outcome }) hs
  have h3 : ∀ u, P u → P (if ((u.modBay b fun r => { r with trailing := r.trailing - 1 }).bay b).trailing = 0 then
      Machine.trailingGone faulting b (u.modBay b fun r => { r with trailing := r.trailing - 1 })
      else u.modBay b fun r => { r with trailing := r.trailing - 1 }) := by
    intro u hu
    have h4 := h.bay' u b (fun r => { r with trailing := r.trailing - 1 }) hu
    split
    · exact h.trailingGone _ b _ h4
    · exact h4
  by_cases ho : (s.ctx c).orphaned = true
  · simp only [ho, if_true]
    exact h.freeOrphan c _ (h3 _ h1)
  · simp only [ho, if_false, Bool.false_eq_true]
    exact h.enterReply c _ _ (h3 _ (h.live _ _ _ h1))

theorem freeSlot (b : Bay) (c : CtxId) (s : State) (hs : P s) : P (freeSlot b c s) := h.drive s b _ hs

theorem afterEnd (b : Bay) (x : Context) (s : State) (hs : P s) : P (afterEnd b x s) := by
  unfold Machine.afterEnd
  split
  · exact h.handOutHolding _ s hs
  · exact h.giveAtQuota _ _ s hs

theorem complete (faulting : Bool) (b : Bay) (c : CtxId) (outcome : OpOutcome) (s : State) (hs : P s) :
    P (complete faulting b c outcome s) := by
  unfold Machine.complete
  dsimp only
  have h1 := h.freeSlot b c _ (h.modBayStats s b (countCompletion (s.ctx c) outcome) hs)
  apply h.afterEnd
  split
  · exact h.completeTrailing _ b c _ _ h1
  · exact h.completeFinal b c _ _ h1

theorem toReissue (b : Bay) (c : CtxId) (l : Lane) (s : State) (hs : P s) : P (toReissue b c l s) := by
  unfold Machine.toReissue
  exact h.service _ b _ (h.ctx _ c _ (h.freeSlot b c _ (h.modBayStats s b _ hs)))

theorem endAttempt (b : Bay) (c : CtxId) (l : Lane) (result : AttemptResult) (s : State) (hs : P s) :
    P (endAttempt b c l result s) := by
  unfold Machine.endAttempt
  dsimp only
  split
  · exact h.toReissue b c l s hs
  · exact h.complete _ b c _ s hs

/-! ## Lanes -/

theorem laneFalls (b : Bay) (l : Lane) (note : BayNote) (c1 c2 : Word32) (s : State) (hs : P s) :
    P (laneFalls b l note c1 c2 s) := h.raiseEvent _ _ (h.appendRecord _ _ (h.drive s b _ hs))

theorem laneFallsDown (b : Bay) (l : Lane) (s : State) (hs : P s) : P (laneFallsDown b l s) :=
  h.laneFalls b l _ _ _ s hs

theorem faultReissue (b : Bay) (s : State) (c : CtxId) (hs : P s) : P (faultReissue b s c) :=
  h.afterEnd b _ _ (h.completeFinal b c _ _ (h.modBayStats _ b _ (h.service s b _ hs)))

theorem faultBay (b : Bay) (s : State) (hs : P s) : P (faultBay b s) := by
  unfold Machine.faultBay
  dsimp only
  apply h.faultLoans
  exact foldl_keeps (h.faultReissue b) _ _ (foldl_keeps (fun s c => h.complete true b c .bayFaulted s) _ s hs)

theorem endLaneAttempts (b : Bay) (l : Lane) (c : CtxId) (result : AttemptResult) (s : State) (hs : P s) :
    P (endLaneAttempts b l c result s) := foldl_keeps (fun s c' => h.endAttempt b c' l _ s) _ s hs

theorem laneFails (b : Bay) (l : Lane) (c : CtxId) (result : AttemptResult) (s : State) (hs : P s) :
    P (laneFails b l c result s) := by
  unfold Machine.laneFails
  dsimp only
  split
  · exact h.faultBay b _ (h.laneFallsDown b l s hs)
  · exact h.chooseAll b _ (h.endLaneAttempts b l c result _ (h.laneFallsDown b l s hs))

theorem laneFailure (b : Bay) (l : Lane) (c : CtxId) (result : AttemptResult) (s : State) (hs : P s) :
    P (laneFailure b l c result s) := by
  unfold Machine.laneFailure
  dsimp only
  have h1 := h.drive s b (fun d => d.modLane l fun r => { r with failures := r.failures + 1 }) hs
  split
  · exact h.laneFails b l c result _ h1
  · exact h.chooseAll b _ (h.endAttempt b c l result _ h1)

theorem laneAnswered (b : Bay) (l : Lane) (c : CtxId) (result : AttemptResult) (s : State) (hs : P s) :
    P (laneAnswered b l c result s) := h.chooseAll b _ (h.endAttempt b c l result _ (h.drive s b _ hs))

theorem countNoResponse (b : Bay) (l : Lane) (s : State) (hs : P s) : P (countNoResponse b l s) :=
  h.modBayStats s b _ hs

theorem countLaneError (b : Bay) (l : Lane) (s : State) (hs : P s) : P (countLaneError b l s) :=
  h.modBayStats s b _ hs

theorem takeResult (b : Bay) (l : Lane) (c : CtxId) (result : AttemptResult) (s : State) (hs : P s) :
    P (takeResult b l c result s) := by
  unfold Machine.takeResult
  split
  · exact h.laneAnswered b l c _ s hs
  · exact h.laneAnswered b l c _ s hs
  · exact h.laneAnswered b l c _ s hs
  · exact h.laneFailure b l c _ _ (h.countNoResponse b l s hs)
  · exact h.laneFailure b l c _ _ (h.countLaneError b l s hs)
  · exact h.chooseAll b _ (h.endAttempt b c l _ s hs)

theorem readResult (b : Bay) (c : CtxId) (sectors : List Sector) (s : State) (hs : P s) :
    P (readResult b c sectors s).2 := by
  unfold Machine.readResult
  dsimp only
  have h1 := h.ctx s c (fun x => { x with data := (sectors.map Sector.data).flatten }) hs
  split
  · exact hs
  · split
    · exact h1
    · dsimp only
      exact h.modBayStats _ b _ h1
    · dsimp only
      split
      · exact h.modBayStats _ b _ h1
      · exact h.ctx _ c _ (h.modBayStats _ b _ h1)

/-! ## Probing -/

theorem sendProbe (b : Bay) (l : Lane) (clear : Bool) (s : State) (hs : P s) : P (sendProbe b l clear s) := by
  unfold Machine.sendProbe
  exact h.drive s b _ hs

theorem startProbing (b : Bay) (s : State) (hs : P s) : P (startProbing b s) := by
  unfold Machine.startProbing
  exact h.sendProbe b _ _ _ (h.sendProbe b _ _ _ (h.bay' _ b _ (h.drive s b _ hs)))

theorem probingCheck (b : Bay) (s : State) (hs : P s) : P (probingCheck b s) := by
  unfold Machine.probingCheck
  dsimp only
  split
  · exact hs
  · apply h.probingResult
    have h1 := h.drive s b (fun d =>
      (d.modLane .a fun r => { r with failures := 0 }).modLane .b fun r => { r with failures := 0 }) hs
    split
    · exact h.bay' _ b _ h1
    · exact h1

theorem laneRises (b : Bay) (l : Lane) (s : State) (hs : P s) : P (laneRises b l s) := h.drive s b _ hs

theorem probeGood (b : Bay) (l : Lane) (capacity : Word48) (s : State) (hs : P s) : P (probeGood b l capacity s) := by
  unfold Machine.probeGood
  split
  · exact h.laneFallsDown b l s hs
  · split
    · exact h.laneRises b l _ (h.drive s b _ hs)
    · split
      · exact h.laneRises b l s hs
      · exact h.laneFalls b l _ _ _ s hs

theorem restoreFails (b : Bay) (l : Lane) (s : State) (hs : P s) : P (restoreFails b l s) := by
  unfold Machine.restoreFails
  split
  · exact h.faultBay b s hs
  · exact hs

theorem restoreGood (b : Bay) (l : Lane) (capacity : Word48) (s : State) (hs : P s) :
    P (restoreGood b l capacity s) := by
  unfold Machine.restoreGood
  split
  · exact h.chooseAll b _ (h.appendRecord _ _ (h.laneRises b l _ (h.drive s b _ hs)))
  · exact h.restoreFails b l _ (h.laneFalls b l _ _ _ s hs)

theorem startAllProbing (s : State) (hs : P s) : P (startAllProbing s) :=
  foldl_keeps (fun s b => h.startProbing b s) allBays s hs

theorem softRecord (first : Port) (s : State) (hs : P s) : P (softRecord first s) := by
  unfold Machine.softRecord
  dsimp only
  have h1 := h.appendRecord { note := .reset .soft, port := some first } s hs
  split
  · exact h.raiseEvent _ _ h1
  · exact h1

/-! ## Port clean-up -/

omit h in
theorem cleanPort_quiet (n : NodePort) : QuietPort n (cleanPort n) :=
  ⟨List.nil_suffix, List.nil_sublist _, rfl⟩

theorem orphanContext (p : Port) (s : State) (c : CtxId) (hs : P s) : P (orphanContext p s c) := by
  unfold Machine.orphanContext
  split
  · exact h.live _ p _ (h.ctx s c _ hs)
  · exact hs

theorem loseReply (p : Port) (s : State) (c : CtxId) (hs : P s) : P (loseReply p s c) :=
  h.freeContext c _ (h.modPortStats s p _ hs)

theorem cleanContexts (p : Port) (s : State) (hs : P s) : P (cleanContexts p s) := by
  unfold Machine.cleanContexts
  exact h.handOut _ (foldl_keeps (h.loseReply p) _ _ (h.replies _ p _ (foldl_keeps (h.orphanContext p) allContexts s hs)))

theorem cleanUp (cause : Cause) (p : Port) (s : State) (hs : P s) : P (cleanUp cause p s).state := by
  have h1 := h.cleanLoans cause p _ (h.port s p cleanPort (cleanPort_quiet (s.port p)) hs)
  unfold Machine.cleanUp
  generalize Machine.cleanLoans cause p (s.modPort p cleanPort) = t at h1
  dsimp only
  exact h.cleanContexts p _ h1

end Sys2Proof.Machine.ClosedCore

namespace Sys2Proof.Machine.Closed

open Sys2Proof.Machine

variable {P : State → Prop} (h : Closed P)
include h

/-! ## Grants at once -/

theorem grantNow (b : Bay) (p : Port) (mode : Mode) (s : State) (hp : (s.presence p).state = .active)
    (hc : (s.bay b).claims = []) (he : s.exhausted = false) (hm : modeFits (s.bay b).loanMode mode = true)
    (hs : P s) : P (grant b p mode s) := by
  obtain ⟨hd, h1, h2, heq⟩ := ClosedCore.grant_eq b p mode s he
  rw [heq]
  have hl : P (lendRaw b p hd s) := h.lendNow s b p hd hp hc he (by rw [h1]; exact hm) h2 hs
  apply h.appendRecord
  split
  · exact h.raiseEvent _ _ hl
  · exact hl

/-! ## Soft reset -/

theorem performSoftReset (first : Port) (s : State) (hs : P s) : P (performSoftReset first s) :=
  h.startAllProbing _ (h.softRecord first _ (h.raised _ _ (h.soft s hs)))

theorem startPending (s : State) (hs : P s) : P (startPending s) := by
  unfold Machine.startPending
  split
  · exact h.performSoftReset _ s hs
  · exact hs

theorem startIfAnswerGone (s : State) (hs : P s) : P (startIfAnswerGone s) := by
  unfold Machine.startIfAnswerGone
  split
  · split
    · exact h.performSoftReset _ s hs
    · exact hs
  · exact hs

/-! ## Lapse and disable -/

theorem lapse (p : Port) (s : State) (hs : P s) : P (lapse p s) := by
  unfold Machine.lapse
  dsimp only
  have h1 := h.presence s p (fun m => { m with beatTimer := none }) rfl hs
  exact h.raiseEvent _ _ (h.appendRecord _ _ (h.port' _ p _ (h.leave _ _ p _ h1 (h.cleanUp _ p _ h1))))

theorem disable (p : Port) (s : State) (hs : P s) : P (disable p s) := by
  unfold Machine.disable
  dsimp only
  have h1 := h.presence s p (fun m => { m with beatTimer := none }) rfl hs
  exact h.appendRecord _ _ (h.port' _ p _ (h.leave _ _ p _ h1 (h.cleanUp _ p _ h1)))

/-! ## HELLO, BEAT, PATTERN -/

theorem startBeats (p : Port) (s : State) (hs : P s) : P (startBeats p s) := h.presence s p _ rfl hs

theorem oweNews (p : Port) (s : State) (hs : P s) : P (oweNews p s) := by
  unfold Machine.oweNews
  split
  · exact h.port' s p _ hs
  · exact hs

theorem admitPort (p : Port) (f : FrameFields) (s : State) (hp : (s.presence p).state ≠ .active) (hs : P s) :
    P (admitPort p f s) := by
  unfold Machine.admitPort
  exact h.oweNews p _ (h.placeAnswer p _ _ (h.appendRecord _ _ (h.startBeats p _ (h.shift s p _ hp hs))))

theorem rehello (p : Port) (f : FrameFields) (s : State) (hs : P s) : P (rehello p f s) := by
  unfold Machine.rehello
  exact h.oweNews p _ (h.placeAnswer p _ _ (h.appendRecord _ _ (h.startBeats p _ (h.cleanUp _ p s hs))))

theorem helloFormat (p : Port) (f : FrameFields) (s : State) (hs : P s) : P (helloFormat p f s) :=
  h.placeAnswer p _ s hs

theorem takeHello (p : Port) (f : FrameFields) (s : State) (hs : P s) : P (takeHello p f s) := by
  unfold Machine.takeHello
  split
  · exact hs
  · exact hs
  · split
    · exact h.startIfAnswerGone _ (h.rehello p f s hs)
    · split
      · exact hs
      · exact h.helloFormat p f s hs
  all_goals
    next hst =>
      split
      · exact hs
      · split
        · exact h.admitPort p f s (by rw [hst]; decide) hs
        · exact h.helloFormat p f s hs

theorem takeBeat (p : Port) (s : State) (hs : P s) : P (takeBeat p s) := by
  unfold Machine.takeBeat
  dsimp only
  have h1 := h.presence s p (fun m => { m with lastBeat := some s.now }) rfl hs
  split
  · exact hs
  · split
    · split
      · exact h.raiseEvent _ _ (h.presence _ p _ rfl h1)
      · exact h.presence _ p _ rfl h1
    · exact h1

theorem takePattern (p : Port) (f : FrameFields) (s : State) (hs : P s) : P (takePattern p f s) := by
  unfold Machine.takePattern
  split
  · exact hs
  · exact h.modPortStats _ p _ (h.presence s p _ rfl hs)

/-! ## Acceptance -/

theorem enterIntake (p : Port) (f : InFrame) (s : State) (hs : P s) : P (enterIntake p f s) := by
  unfold Machine.enterIntake
  dsimp only
  split
  · next hb =>
    have h1 := h.flow _ p (h.intake s p f hb.1 hb.2 hs)
    rwa [modPort_modPort] at h1
  · exact h.raiseEvent _ _ (h.modPortStats s p _ hs)

theorem signOfLife (p : Port) (s : State) (hs : P s) : P (signOfLife p s) := by
  refine h.presence s p _ ?_ hs
  split <;> rfl

theorem noteAccepted (p : Port) (s : State) (hs : P s) : P (noteAccepted p s) := by
  unfold Machine.noteAccepted
  exact h.signOfLife p _ (h.modPortStats _ p _ (h.port' s p _ hs))

theorem routeFrame (p : Port) (f : InFrame) (s : State) (hs : P s) : P (routeFrame p f s) := by
  unfold Machine.routeFrame
  split
  · exact hs
  · split
    · exact h.takePattern p _ s hs
    · exact hs
  all_goals
    split
    · exact h.takeHello p _ s hs
    · split
      · exact h.takeBeat p s hs
      · exact h.enterIntake p f s hs

theorem acceptFrame (p : Port) (f : InFrame) (s : State) (hs : P s) : P (acceptFrame p f s) := by
  unfold Machine.acceptFrame
  split
  · exact hs
  · exact h.routeFrame p f _ (h.noteAccepted p s hs)

end Sys2Proof.Machine.Closed
end

