-- ==== Sys2Proof/Laws/Exec.lean ====
section
/-! SUPPORT. Every command keeps every predicate that the elementary updates keep. -/

namespace Sys2Proof.Machine

/-! ## How a command takes its event -/

/-- Two commands that go on to one state go on to the same. -/
theorem next_inj {s t : State} (h : (.next s : Result) = .next t) : s = t := Host.Outcome.next.inj h

/-- While the part runs, an event is made and the idle transmitters take. -/
theorem whenRunning_running (s : State) (event : State → State) (hr : s.phase = .running) :
    whenRunning s event = .next (transmit (event s)) := by
  rw [whenRunning, if_pos hr]

/-- During a hard reset an event changes nothing. -/
theorem whenRunning_stopped (s : State) (event : State → State) (hr : s.phase ≠ .running) :
    whenRunning s event = .next s := by
  rw [whenRunning, if_neg hr]

/-- R138: what it takes to serve a head. -/
theorem servedHead_eq_some (s : State) (p : Port) (f : InFrame) :
    servedHead s p = some f ↔
      s.phase = .running ∧ handlerStopped s p = false ∧ (s.port p).reserved = false ∧ 2 ≤ freeEntries (s.port p) ∧
        (s.port p).intake.head? = some f := by
  unfold servedHead
  constructor
  · intro h
    split at h
    · next hc =>
      simp only [Bool.and_eq_true, decide_eq_true_eq, Bool.not_eq_true'] at hc
      exact ⟨hc.1.1.1, hc.1.1.2, hc.1.2, hc.2, h⟩
    · cases h
  · rintro ⟨h1, h2, h3, h4, h5⟩
    rw [if_pos]
    · exact h5
    · simp [h1, h2, h3, h4]

/-- A head is served only while the part runs. -/
theorem servedHead_stopped (s : State) (p : Port) (hr : s.phase ≠ .running) : servedHead s p = none := by
  cases hf : servedHead s p with
  | none => rfl
  | some f => exact absurd ((servedHead_eq_some s p f).1 hf).1 hr

/-- A head of the row's kind is served. -/
theorem serveHead_served (p : Port) (names : InFrame → Bool) (event : FrameFields → State → State) (s : State)
    (f : InFrame) (hf : servedHead s p = some f) (hn : names f = true) :
    serveHead p names event s = .next (transmit (event f.fields s)) := by
  rw [serveHead, hf]
  exact if_pos hn

/-- With no such head the event does not occur. -/
theorem serveHead_none (p : Port) (names : InFrame → Bool) (event : FrameFields → State → State) (s : State)
    (hf : servedHead s p = none) : serveHead p names event s = .next s := by
  rw [serveHead, hf]

/-- A management request that passes the checks of R180 reaches its block. -/
theorem serveManage_passed (p : Port) (sub : SubKind) (request : FrameFields → State → State) (s : State) (f : InFrame)
    (hf : servedHead s p = some f) (hn : ofSubKind sub f = true) (hm : manageRefusal s p f.fields = none) :
    serveManage p sub request s = .next (transmit (request f.fields s)) := by
  rw [serveManage, serveHead_served p _ _ s f hf hn]
  simp only [hm]

/-- A management request that fails a check of R180 is refused with its status. -/
theorem serveManage_refused (p : Port) (sub : SubKind) (request : FrameFields → State → State) (s : State) (f : InFrame)
    (status : Status) (hf : servedHead s p = some f) (hn : ofSubKind sub f = true)
    (hm : manageRefusal s p f.fields = some status) :
    serveManage p sub request s = .next (transmit (refuseHead p f.fields status s)) := by
  rw [serveManage, serveHead_served p _ _ s f hf hn]
  simp only [hm]

/-! ## What a command keeps -/

namespace Closed

variable {P : State → Prop}

theorem whenRunning (h : Closed P) (s t : State) (event : State → State) (he : P s → P (event s)) (hs : P s)
    (ht : whenRunning s event = .next t) : P t := by
  unfold Machine.whenRunning at ht
  split at ht
  · obtain rfl := next_inj ht
    exact h.transmit _ (he hs)
  · obtain rfl := next_inj ht
    exact hs

theorem serveHead (h : Closed P) (p : Port) (names : InFrame → Bool) (event : FrameFields → State → State)
    (s t : State) (he : ∀ f, P (event f s)) (hs : P s)
    (ht : serveHead p names event s = .next t) : P t := by
  unfold Machine.serveHead at ht
  split at ht
  · split at ht
    · obtain rfl := next_inj ht
      exact h.transmit _ (he _)
    · obtain rfl := next_inj ht
      exact hs
  · obtain rfl := next_inj ht
    exact hs

theorem serveManage (h : Closed P) (p : Port) (sub : SubKind) (request : FrameFields → State → State)
    (s t : State) (he : ∀ f, P (request f s)) (hs : P s) (ht : serveManage p sub request s = .next t) : P t := by
  refine h.serveHead p _ _ s t (fun f => ?_) hs ht
  split
  · exact h.refuseHead p f _ s hs
  · exact he f

theorem okHead (h : Closed P) (p : Port) (f : FrameFields) (s : State) (hs : P s) : P (okHead p f s) :=
  h.answerHead p _ s hs

theorem okDetail (h : Closed P) (p : Port) (f : FrameFields) (d : List Byte) (s : State) (hs : P s) :
    P (okDetail p f d s) := h.answerHead p _ s hs

theorem okPayload (h : Closed P) (p : Port) (f : FrameFields) (d : List Byte) (s : State) (hs : P s) :
    P (okPayload p f d s) := h.answerHead p _ s hs

/-! ### Links -/

theorem loseCarrier (h : Closed P) (p : Port) (s : State) (hs : P s) : P (loseCarrier p s) :=
  h.modPortStats _ p _ (h.port' s p _ hs)

theorem countDiscard (h : Closed P) (p : Port) (f : PortStats → PortStats) (s : State) (hs : P s) :
    P (countDiscard p f s) := by
  unfold Machine.countDiscard
  split
  · exact hs
  · exact h.modPortStats s p f hs

theorem endFrame (h : Closed P) (p : Port) (bytes : List Byte) (s : State) (hs : P s) : P (endFrame p bytes s) := by
  unfold Machine.endFrame
  split
  · exact h.countDiscard p _ s hs
  · exact h.countDiscard p _ s hs
  · exact h.acceptFrame p _ s hs

theorem arrive (h : Closed P) (p : Port) (kind : Byte) (f : FrameFields) (s t : State) (hs : P s)
    (ht : arrive p kind f s = .next t) : P t := by
  unfold Machine.arrive at ht
  split at ht
  · obtain rfl := next_inj ht
    exact hs
  · refine h.whenRunning s t _ (fun hs => ?_) hs ht
    exact h.acceptFrame p _ (s.modPort p fun n => { n with receiver := .idle }) (h.port' s p _ hs)

theorem holdSent (h : Closed P) (p : Port) (s : State) (hs : P s) : P (holdSent p s) := by
  refine h.modPortStats _ p _ (h.port' s p _ hs ?_ ?_ ?_)
  all_goals
    intro n
    split <;> rfl

theorem frameLeft (h : Closed P) (p : Port) (source : TxSource) (s : State) (hs : P s) : P (frameLeft p source s) := by
  unfold Machine.frameLeft
  split
  · exact h.holdSent p s hs
  · exact hs
  · split
    · exact h.startPending s hs
    · exact hs
  · exact hs
  · exact hs
  · exact h.handOut _ (h.freeContext _ s hs)

theorem holdExpired (h : Closed P) (p : Port) (s : State) (hs : P s) : P (s.modPort p holdExpired) := by
  refine h.port s p Machine.holdExpired ?_ hs
  unfold Machine.holdExpired
  dsimp only
  split
  · split
    · exact QuietPort.refl _
    · exact QuietPort.refl _
  · exact ClosedCore.flowEnd_quiet { s.port p with holdTimer := none }

theorem beatExpired (h : Closed P) (p : Port) (s : State) (hs : P s) : P (beatExpired p s) := by
  unfold Machine.beatExpired
  dsimp only
  have h1 := h.presence s p (fun m => { m with miss := satByte m.miss, beatTimer := some (s.after m.window) }) rfl hs
  split
  · exact h.startIfAnswerGone _ (h.lapse p _ h1)
  · exact h1

/-! ### Loans -/

theorem claimQueued (h : Closed P) (p : Port) (f : FrameFields) (b : Bay) (mode : Mode) (s : State)
    (hp : (s.presence p).state = .active) (hc : ∀ x ∈ (s.bay b).claims, x.port ≠ p)
    (hh : (s.bay b).holder p = none) (hs : P s) : P (claimQueued p f b mode s) := by
  unfold Machine.claimQueued
  exact h.answerHead p _ _ (h.settleBay b _
    (h.queue s b { port := p, mode := mode, tag := f.tag, arrivalTag := s.timeTag.value } hp hc hh hs))

theorem claimAt (h : Closed P) (p : Port) (f : FrameFields) (b : Bay) (mode : Mode) (s : State)
    (hp : (s.presence p).state = .active) (hs : P s) : P (claimAt p f b mode s) := by
  unfold Machine.claimAt
  dsimp only
  split
  · exact h.refuseHead p f _ s hs
  split
  · exact h.refuseHead p f _ s hs
  split
  · exact h.refuseHead p f _ s hs
  split
  · exact h.answerHead p _ s hs
  · next hh =>
    split
    · exact h.answerHead p _ s hs
    · next hc =>
      split
      · exact h.refuseHead p f _ s hs
      · next he =>
        split
        · next hg =>
          unfold grantsAtOnce at hg
          simp only [Bool.and_eq_true, decide_eq_true_eq] at hg
          unfold claimGranted
          exact h.answerHead p _ _ (h.patienceCheck b _
            (h.grantNow b p mode s hp hg.1.1.1 (by simpa using he) hg.2 hs))
        · split
          · exact h.answerHead p _ s hs
          · refine h.claimQueued p f b mode s hp (fun x hx hxp => hc ?_) hh hs
            exact List.any_eq_true.2 ⟨x, hx, by simpa using hxp⟩

theorem portRefusal_none {s : State} {p : Port} (hp : portRefusal s p = none) : (s.presence p).state = .active := by
  unfold portRefusal at hp
  split at hp
  · assumption
  all_goals cases hp

theorem claimTaken (h : Closed P) (p : Port) (f : FrameFields) (s : State) (hs : P s) : P (claimTaken p f s) := by
  unfold Machine.claimTaken
  split
  · exact h.refuseHead p f _ s hs
  · next hp =>
    split
    · exact h.refuseHead p f _ s hs
    · split
      · exact h.refuseHead p f _ s hs
      · split
        · exact h.refuseHead p f _ s hs
        · exact h.claimAt p f _ _ s (portRefusal_none hp) hs

theorem cancelAt (h : Closed P) (p : Port) (b : Bay) (s : State) (hs : P s) : P (cancelAt p b s) := by
  unfold Machine.cancelAt
  dsimp only
  split
  · exact h.settleBay b _ (h.removeClaim b p s hs)
  · exact h.removeClaim b p s hs

theorem cancelTaken (h : Closed P) (p : Port) (f : FrameFields) (s : State) (hs : P s) : P (cancelTaken p f s) := by
  unfold Machine.cancelTaken
  split
  · exact h.refuseHead p f _ s hs
  split
  · exact h.refuseHead p f _ s hs
  split
  · exact h.refuseHead p f _ s hs
  split
  · exact h.okHead p f _ (h.cancelAt p _ s hs)
  · exact h.refuseHead p f _ s hs

theorem releaseTaken (h : Closed P) (p : Port) (f : FrameFields) (s : State) (hs : P s) : P (releaseTaken p f s) := by
  unfold Machine.releaseTaken
  split
  · exact h.refuseHead p f _ s hs
  split
  · exact h.refuseHead p f _ s hs
  split
  · exact h.refuseHead p f _ s hs
  · unfold releaseAt
    split
    · split
      · exact h.handOut _ (h.answerHead p _ _ (h.settleBay _ _ (h.releaseLoan _ p _ s hs)))
      · exact h.answerHead p _ s hs
    · exact h.answerHead p _ s hs

/-! ### Operations -/

theorem admitOperation (h : Closed P) (p : Port) (kind : OpKind) (f : FrameFields) (s : State) (hs : P s) :
    P (admitOperation p kind f s) := by
  unfold Machine.admitOperation
  split
  · exact h.refuseOperation p f _ s hs
  · split
    · split
      · exact h.allocate _ p kind _ f s hs
      · exact h.port' s p _ hs
    · exact h.port' s p _ hs

/-! ### Management of lending -/

theorem replaceRight (h : Closed P) (q : Port) (b : Bay) (r : Right) (s : State) (hs : P (s.setRight q b r)) :
    P (replaceRight q b r s) := by
  unfold Machine.replaceRight
  dsimp only
  split
  · split
    · exact hs
    · have h1 := h.refuseClaim b .access false
      split
      · exact h.settleBay b _ (h1 _ _ hs)
      · exact h1 _ _ hs
  · exact hs

theorem accessSet (h : Closed P) (hr : ∀ s p b r, P s → P (s.setRight p b r)) (p : Port) (f : FrameFields) (s : State)
    (hs : P s) : P (accessSet p f s) := by
  unfold Machine.accessSet
  split
  · exact h.refuseHead p f _ s hs
  split
  · split
    · split
      · split
        · exact h.okHead p f _ (h.replaceRight _ _ _ s (hr s _ _ _ hs))
        · exact h.refuseHead p f _ s hs
      · exact h.refuseHead p f _ s hs
    · exact h.refuseHead p f _ s hs
  · exact h.refuseHead p f _ s hs

theorem accessGet (h : Closed P) (p : Port) (f : FrameFields) (s : State) (hs : P s) : P (accessGet p f s) := by
  unfold Machine.accessGet
  split
  · exact h.refuseHead p f _ s hs
  split
  · split
    · exact h.okDetail p f _ s hs
    · exact h.refuseHead p f _ s hs
  · exact h.refuseHead p f _ s hs

theorem loanQuery (h : Closed P) (p : Port) (f : FrameFields) (s : State) (hs : P s) : P (loanQuery p f s) := by
  unfold Machine.loanQuery
  split
  · exact h.refuseHead p f _ s hs
  split
  · exact h.okPayload p f _ s hs
  · exact h.refuseHead p f _ s hs

theorem revoke (h : Closed P) (p : Port) (f : FrameFields) (s : State) (hs : P s) : P (revoke p f s) := by
  unfold Machine.revoke
  split
  · exact h.refuseHead p f _ s hs
  split
  · split
    · unfold revokeAt
      split
      · exact h.handOut _ (h.answerHead p _ _ (h.settleBay _ _ (h.revokeLoan _ _ _ _ s hs)))
      · split
        · have h1 := h.refuseClaim
          dsimp only
          apply h.okDetail
          split
          · exact h.settleBay _ _ (h1 _ _ _ _ s hs)
          · exact h1 _ _ _ _ s hs
        · exact h.refuseHead p f _ s hs
    · exact h.refuseHead p f _ s hs
  · exact h.refuseHead p f _ s hs

theorem startWithdrawal (h : Closed P) (b : Bay) (s : State) (hs : P s) : P (startWithdrawal b s) := by
  unfold Machine.startWithdrawal
  refine h.refuseAll b _ _ (h.bay' s b _ hs ?_ ?_)
  all_goals
    intro r
    dsimp only
    split <;> rfl

theorem withdrawHolders (h : Closed P) (b : Bay) (ms : Nat) (s : State) (hs : P s) : P (withdrawHolders b ms s) := by
  unfold Machine.withdrawHolders withdrawByRecall
  split
  · exact h.completionCheck b _ (h.revokePorts b _ _ s hs)
  · split
    · exact h.completionCheck b s hs
    · exact h.bay' _ b _ (h.recallHolders b s hs)

theorem bayWithdraw (h : Closed P) (p : Port) (f : FrameFields) (s : State) (hs : P s) : P (bayWithdraw p f s) := by
  unfold Machine.bayWithdraw
  split
  · exact h.refuseHead p f _ s hs
  split
  · split
    · unfold withdraw
      exact h.handOut _ (h.okDetail p f _ _ (h.withdrawHolders _ _ _ (h.startWithdrawal _ s hs)))
    all_goals exact h.refuseHead p f _ s hs
  · exact h.refuseHead p f _ s hs

theorem bayRestore (h : Closed P) (p : Port) (f : FrameFields) (s : State) (hs : P s) : P (bayRestore p f s) := by
  unfold Machine.bayRestore
  split
  · exact h.refuseHead p f _ s hs
  split
  · split
    · exact h.okHead p f _ (h.startProbing _ _ (h.bay' s _ _ hs))
    · exact h.okHead p f _ (h.startProbing _ _ (h.bay' s _ _ hs))
    all_goals exact h.refuseHead p f _ s hs
  · exact h.refuseHead p f _ s hs

theorem laneRestore (h : Closed P) (p : Port) (f : FrameFields) (s : State) (hs : P s) : P (laneRestore p f s) := by
  have hl : ∀ b l, P (restoreLane p f b l s) := by
    intro b l
    unfold restoreLane
    split
    · exact h.refuseHead p f _ s hs
    · exact h.okDetail p f _ s hs
    · exact h.okDetail p f _ _ (h.sendProbe b l _ s hs)
  unfold Machine.laneRestore
  split
  · split
    · split
      · exact h.refuseHead p f _ s hs
      · exact h.refuseHead p f _ s hs
      · exact h.refuseHead p f _ s hs
      · exact hl _ _
      · exact hl _ _
    · exact h.refuseHead p f _ s hs
  · exact h.refuseHead p f _ s hs

theorem bayPolicySet (h : Closed P) (p : Port) (f : FrameFields) (s : State) (hs : P s) : P (bayPolicySet p f s) := by
  unfold Machine.bayPolicySet
  split
  · exact h.refuseHead p f _ s hs
  split
  · split
    · unfold setPolicy
      exact h.okHead p f _ (h.bay' _ _ _ (h.drive s _ _ hs))
    · exact h.refuseHead p f _ s hs
  · exact h.refuseHead p f _ s hs

theorem planWrite (h : Closed P) (p : Port) (f : FrameFields) (s : State) (hs : P s) : P (planWrite p f s) := by
  unfold Machine.planWrite
  split
  · split
    · split
      · exact h.refuseHead p f _ s hs
      · unfold writeBank
        split
        · exact h.okDetail p f _ _ (h.plan s _ hs)
        · exact h.okDetail p f _ _ (h.plan s _ hs)
    · exact h.refuseHead p f _ s hs
  · exact h.refuseHead p f _ s hs

theorem swapBanks (h : Closed P) (s : State) (hs : P s) : P (swapBanks s) :=
  h.swapCheck _ (foldl_keeps (fun s b => h.adoptIfIdle b s) allBays _ (h.plan s _ hs))

theorem planSwap (h : Closed P) (p : Port) (f : FrameFields) (s : State) (hs : P s) : P (planSwap p f s) := by
  unfold Machine.planSwap
  split
  · split
    · exact h.refuseHead p f _ s hs
    · exact h.okDetail p f _ _ (h.swapBanks s hs)
  · exact h.refuseHead p f _ s hs

theorem planStatus (h : Closed P) (p : Port) (f : FrameFields) (s : State) (hs : P s) : P (planStatus p f s) := by
  unfold Machine.planStatus
  split
  · exact h.okPayload p f _ s hs
  · exact h.refuseHead p f _ s hs

/-! ### Management of ports -/

theorem enablePort (h : Closed P) (q : Port) (s : State) (hs : P s) : P (enablePort q s) := by
  unfold Machine.enablePort
  split
  · next hq =>
    exact h.appendRecord _ _ (h.port' _ q _ (h.shift s q _ (by rw [hq]; decide) hs))
  all_goals exact hs

theorem portEnable (h : Closed P) (p : Port) (f : FrameFields) (s : State) (hs : P s) : P (portEnable p f s) := by
  unfold Machine.portEnable
  split
  · exact h.refuseHead p f _ s hs
  · exact h.okHead p f _ (h.enablePort _ s hs)

theorem portDisable (h : Closed P) (p : Port) (f : FrameFields) (s : State) (hs : P s) : P (portDisable p f s) := by
  unfold Machine.portDisable
  split
  · exact h.refuseHead p f _ s hs
  · split
    · exact h.refuseHead p f _ s hs
    · have h1 := h.okHead p f s hs
      unfold disablePort
      split
      · exact h1
      all_goals exact h.startIfAnswerGone _ (h.disable _ _ h1)

theorem portTestOn (h : Closed P) (p : Port) (f : FrameFields) (s : State) (hs : P s) : P (portTestOn p f s) := by
  unfold Machine.portTestOn
  split
  · exact h.refuseHead p f _ s hs
  · split
    · exact h.refuseHead p f _ s hs
    · next hb => exact h.okHead p f _ (h.port' _ _ _ (h.test s p _ _ (by simpa using hb) hs))

theorem leaveTest (h : Closed P) (q : Port) (s : State) (hs : P s) : P (leaveTest q s) := by
  unfold Machine.leaveTest
  by_cases hq : (s.presence q).state = .active
  · exact h.presence s q _ (by rw [if_neg (by rw [hq]; decide)]) hs
  · exact h.shift s q _ hq hs

theorem portTestOff (h : Closed P) (p : Port) (f : FrameFields) (s : State) (hs : P s) : P (portTestOff p f s) := by
  unfold Machine.portTestOff
  split
  · exact h.refuseHead p f _ s hs
  · exact h.okHead p f _ (h.leaveTest _ s hs)

theorem portStatus (h : Closed P) (p : Port) (f : FrameFields) (s : State) (hs : P s) : P (portStatus p f s) := by
  unfold Machine.portStatus
  split
  · exact h.refuseHead p f _ s hs
  · exact h.okPayload p f _ s hs

theorem resyncPort_quiet (n : NodePort) : QuietPort n (resyncPort n) := by
  have h1 := ClosedCore.flowEnd_quiet { n with receiver := restartReceiver n.receiver, intake := [], reserved := false }
  exact ⟨h1.1.trans List.nil_suffix, h1.2.1, h1.2.2⟩

theorem portResync (h : Closed P) (p : Port) (f : FrameFields) (s : State) (hs : P s) : P (portResync p f s) := by
  unfold Machine.portResync
  split
  · exact h.refuseHead p f _ s hs
  · exact h.port _ _ Machine.resyncPort (resyncPort_quiet _) (h.okHead p f s hs)

theorem setLimits (h : Closed P) (hq : ∀ s p n, P s → P (s.setQuota p n)) (q : Port) (t : PortLimits) (s : State)
    (hs : P s) : P (setLimits q t s) := by
  unfold Machine.setLimits
  refine h.presence _ q _ rfl (h.port _ q _ ?_ (hq s q _ hs))
  exact ClosedCore.flowAct_quiet
    { ((s.setQuota q t.quota).port q) with
      highWater := t.highWater, lowWater := t.lowWater, holdTime := t.holdTime, repeatLimit := t.repeatLimit }

theorem limitsSet (h : Closed P) (hq : ∀ s p n, P s → P (s.setQuota p n)) (p : Port) (f : FrameFields) (s : State)
    (hs : P s) : P (limitsSet p f s) := by
  unfold Machine.limitsSet
  split
  · exact h.refuseHead p f _ s hs
  split
  · split
    · exact h.handOut _ (h.okHead p f _ (h.setLimits hq _ _ s hs))
    · exact h.refuseHead p f _ s hs
  · exact h.refuseHead p f _ s hs

theorem journalRead (h : Closed P) (p : Port) (f : FrameFields) (s : State) (hs : P s) : P (journalRead p f s) := by
  unfold Machine.journalRead takeRecords
  split
  · refine h.okPayload p f _ _ (h.journal s _ ?_ rfl hs)
    exact Nat.le_trans (by rw [List.length_drop]; exact Nat.sub_le _ _) (Nat.le_max_left _ _)
  · exact h.refuseHead p f _ s hs

theorem statsRead (h : Closed P) (p : Port) (f : FrameFields) (s : State) (hs : P s) : P (statsRead p f s) := by
  unfold Machine.statsRead
  split
  · split
    · split
      · exact h.refuseHead p f _ s hs
      split
      · unfold portStatsRead
        split
        · apply h.okPayload
          split
          · exact h.modPortStats s _ _ hs
          · exact hs
        · exact h.refuseHead p f _ s hs
      split
      · unfold bayStatsRead
        split
        · apply h.okPayload
          split
          · exact h.modBayStats s _ _ hs
          · exact hs
        · exact h.refuseHead p f _ s hs
      · exact h.refuseHead p f _ s hs
    · exact h.refuseHead p f _ s hs
  · exact h.refuseHead p f _ s hs

theorem eventRead (h : Closed P) (p : Port) (f : FrameFields) (s : State) (hs : P s) : P (eventRead p f s) := by
  unfold Machine.eventRead
  split
  · exact h.okPayload p f _ s hs
  · exact h.refuseHead p f _ s hs

theorem replaceEnabled (h : Closed P) (x : EventSet) (s : State) (hs : P (driveAlert { s with enabled := x })) :
    P (replaceEnabled x s) := by
  unfold Machine.replaceEnabled
  dsimp only
  split
  · exact h.tellSupervisors _ hs
  · exact hs

theorem eventEnable (h : Closed P) (he : ∀ s x, P s → P (driveAlert { s with enabled := x })) (p : Port)
    (f : FrameFields) (s : State) (hs : P s) : P (eventEnable p f s) := by
  unfold Machine.eventEnable
  split
  · split
    · exact h.okPayload p f _ _ (h.replaceEnabled _ s (he s _ hs))
    · exact h.refuseHead p f _ s hs
  · exact h.refuseHead p f _ s hs

theorem raiseAll (h : Closed P) (x : EventSet) (s : State) (hs : P s) : P (raiseAll x s) := by
  unfold Machine.raiseAll
  dsimp only
  split
  · exact h.tellSupervisors _ (h.raised s _ hs)
  · exact h.raised s _ hs

theorem eventSet (h : Closed P) (p : Port) (f : FrameFields) (s : State) (hs : P s) : P (eventSet p f s) := by
  unfold Machine.eventSet
  split
  · split
    · exact h.okPayload p f _ _ (h.raiseAll _ s hs)
    · exact h.refuseHead p f _ s hs
  · exact h.refuseHead p f _ s hs

theorem eventClear (h : Closed P) (p : Port) (f : FrameFields) (s : State) (hs : P s) : P (eventClear p f s) := by
  unfold Machine.eventClear
  split
  · split
    · exact h.okPayload p f _ _ (h.raised s _ hs)
    · exact h.refuseHead p f _ s hs
  · exact h.refuseHead p f _ s hs

theorem timeSet (h : Closed P)
    (ht : ∀ s (v : TimeTag), v.elapsed < resolutionUs v.resolution → P s → P { s with timeTag := v })
    (p : Port) (f : FrameFields) (s : State) (hs : P s) : P (timeSet p f s) := by
  unfold Machine.timeSet
  split
  · split
    · exact h.okDetail p f _ _ (ht s _ (by dsimp only; unfold resolutionUs; split <;> decide) hs)
    · exact h.refuseHead p f _ s hs
  · exact h.refuseHead p f _ s hs

theorem resetPart (h : Closed P) (p : Port) (f : FrameFields) (s : State) (hs : P s) : P (resetPart p f s) := by
  unfold Machine.resetPart pendSoftReset
  split
  · have h1 := h.leaveHead p _ (h.placeAnswer p { frame := answerTo f .ok, resetPart := true } s hs)
    split
    · exact h.softReset _ _ h1
    · exact h.softReset _ _ h1
  · exact h.refuseHead p f _ s hs

/-! ### Drives -/

theorem probeResolved (h : Closed P) (b : Bay) (l : Lane) (reply : ProbeReply) (s : State) (hs : P s) :
    P (probeResolved b l reply s) := by
  unfold Machine.probeResolved
  split
  · exact h.probeGood b l _ s hs
  · exact h.laneFallsDown b l s hs
  · exact h.laneFallsDown b l _ (h.countLaneError b l s hs)
  · exact hs

theorem restoreResolved (h : Closed P) (b : Bay) (l : Lane) (reply : ProbeReply) (s : State) (hs : P s) :
    P (restoreResolved b l reply s) := by
  unfold Machine.restoreResolved
  split
  · exact h.restoreGood b l _ s hs
  · exact h.restoreFails b l _ (h.laneFallsDown b l s hs)
  · exact h.restoreFails b l _ (h.laneFallsDown b l _ (h.countLaneError b l s hs))
  · exact hs

theorem probeExpired (h : Closed P) (b : Bay) (l : Lane) (clear : Bool) (s : State) (hs : P s) :
    P (probeExpired b l clear s) := by
  unfold Machine.probeExpired
  dsimp only
  have h1 := h.laneFallsDown b l _ (h.countNoResponse b l s hs)
  split
  · exact h.probingCheck b _ h1
  · exact h.restoreFails b l _ h1

theorem answerResult (h : Closed P) (b : Bay) (c : CtxId) (reply : DriveReply) (s t : State) (result : AttemptResult)
    (hr : answerResult b c reply s = some (result, t)) (hs : P s) : P t := by
  unfold Machine.answerResult at hr
  split at hr
  · split at hr
    · split at hr
      · next sectors _ _ _ =>
        have ht : (Machine.readResult b c sectors s).2 = t := congrArg Prod.snd (Option.some.inj hr)
        exact ht ▸ h.readResult b c sectors s hs
      · cases hr
    · cases hr
      exact hs
    · cases hr
      exact hs
  · cases hr
    exact hs
  · cases hr
    exact hs
  · cases hr

end Closed

end Sys2Proof.Machine
end

