-- ==== Sys2Proof/Laws/ExecKeeps.lean ====
section
/-! SUPPORT. Every command keeps every predicate that the elementary updates keep; what a command does while the part
is held in a hard reset. -/

namespace Sys2Proof.Machine

open Closed

/-- The updates of settings that one command makes: a predicate need keep only those of the commands asked about. -/
structure KeepsSettings (P : State → Prop) (c : Instr) : Prop where
  right : (∃ p, c = .accessSet p) → ∀ s p b r, P s → P (s.setRight p b r)
  quota : (∃ p, c = .limitsSet p) → ∀ s p n, P s → P (s.setQuota p n)
  enabled : (∃ p, c = .eventEnable p) → ∀ s x, P s → P (driveAlert { s with enabled := x })
  timeTag : (∃ p, c = .timeSet p) → ∀ s (v : TimeTag), v.elapsed < resolutionUs v.resolution → P s →
    P { s with timeTag := v }

/-- While the part runs, a command other than RESET_ASSERT keeps what the elementary updates and its settings keep. -/
theorem exec_keeps {P : State → Prop} (h : Closed P) (c : Instr) (hc : KeepsSettings P c) (s t : State)
    (hr : s.phase = .running) (hn : c ≠ .resetAssert) (ht : exec c s = .next t) (hs : P s) : P t := by
  have same : ∀ {o : Result}, o = .next s → o = .next t → P t := fun h1 h2 => next_inj (h1.symm.trans h2) ▸ hs
  have mine : ∀ {o : Result} {u : State}, P u → o = .next u → o = .next t → P t :=
    fun hu h1 h2 => next_inj (h1.symm.trans h2) ▸ hu
  cases c with
  | resetAssert => exact absurd rfl hn
  | configLoadDone memory =>
    refine same ?_ ht
    show execConfigLoadDone memory s = _
    rw [execConfigLoadDone, if_neg (by rw [hr]; decide)]
  | resetRelease =>
    refine same ?_ ht
    show execResetRelease s = _
    rw [execResetRelease, if_neg (by rw [hr]; decide)]
  | softReset =>
    change execSoftReset s = _ at ht
    unfold execSoftReset at ht
    split at ht
    · split at ht
      · exact h.whenRunning s t _ (h.performSoftReset _ s) hs ht
      · exact same rfl ht
    · exact same rfl ht
  | resetTimerExpiry =>
    change execResetTimerExpiry s = _ at ht
    unfold execResetTimerExpiry at ht
    split at ht
    · split at ht
      · exact h.whenRunning s t _ (h.performSoftReset _ s) hs ht
      · exact same rfl ht
    · exact same rfl ht
  | carrierDown p =>
    change execCarrierDown p s = _ at ht
    unfold execCarrierDown at ht
    rw [if_pos hr] at ht
    split at ht
    · exact same rfl ht
    · exact mine (h.transmit _ (h.loseCarrier p s hs)) rfl ht
  | carrierUp p =>
    change execCarrierUp p s = _ at ht
    unfold execCarrierUp at ht
    dsimp only at ht
    rw [if_pos hr] at ht
    split at ht
    · exact same rfl ht
    · exact mine (h.transmit _ (h.port' s p _ hs)) rfl ht
  | frameReceive p bytes =>
    change execFrameReceive p bytes s = _ at ht
    unfold execFrameReceive at ht
    split at ht
    · exact same rfl ht
    · refine h.whenRunning s t _ (fun hs => ?_) hs ht
      have h1 : P (s.modPort p fun n => { n with receiver := .idle }) := h.port' s p _ hs
      dsimp only
      split
      · exact h1
      · exact h.endFrame p _ _ h1
  | overLengthCut p bytes =>
    change execOverLengthCut p bytes s = _ at ht
    unfold execOverLengthCut at ht
    split at ht
    · exact same rfl ht
    · refine h.whenRunning s t _ (fun hs => ?_) hs ht
      split
      · exact hs
      · split
        · exact h.countDiscard p _ _ (h.port' s p _ hs)
        · exact h.port' s p _ hs
  | hello p f => exact h.arrive p _ f s t hs ht
  | beat p f => exact h.arrive p _ f s t hs ht
  | pattern p f => exact h.arrive p _ f s t hs ht
  | headFormatRefuse p =>
    change execHeadFormatRefuse p s = _ at ht
    unfold execHeadFormatRefuse at ht
    split at ht
    · split at ht
      · exact mine (h.transmit _ (h.refuseHead p _ _ s hs)) rfl ht
      · exact same rfl ht
    · exact same rfl ht
  | claim p => exact h.serveHead p _ _ s t (fun f => h.claimTaken p f s hs) hs ht
  | cancel p => exact h.serveHead p _ _ s t (fun f => h.cancelTaken p f s hs) hs ht
  | release p => exact h.serveHead p _ _ s t (fun f => h.releaseTaken p f s hs) hs ht
  | operationAdmission p =>
    change execOperationAdmission p s = _ at ht
    unfold execOperationAdmission at ht
    split at ht
    · split at ht
      · exact mine (h.transmit _ (h.admitOperation p _ _ s hs)) rfl ht
      · exact same rfl ht
    · exact same rfl ht
  | contextHandout => exact h.whenRunning s t _ (h.handOut s) hs ht
  | accessSet p => exact h.serveManage p _ _ s t (fun f => h.accessSet (hc.right ⟨p, rfl⟩) p f s hs) hs ht
  | accessGet p => exact h.serveManage p _ _ s t (fun f => h.accessGet p f s hs) hs ht
  | loanQuery p => exact h.serveManage p _ _ s t (fun f => h.loanQuery p f s hs) hs ht
  | revoke p => exact h.serveManage p _ _ s t (fun f => h.revoke p f s hs) hs ht
  | bayWithdraw p => exact h.serveManage p _ _ s t (fun f => h.bayWithdraw p f s hs) hs ht
  | bayRestore p => exact h.serveManage p _ _ s t (fun f => h.bayRestore p f s hs) hs ht
  | laneRestore p => exact h.serveManage p _ _ s t (fun f => h.laneRestore p f s hs) hs ht
  | bayPolicySet p => exact h.serveManage p _ _ s t (fun f => h.bayPolicySet p f s hs) hs ht
  | planWrite p => exact h.serveManage p _ _ s t (fun f => h.planWrite p f s hs) hs ht
  | planSwap p => exact h.serveManage p _ _ s t (fun f => h.planSwap p f s hs) hs ht
  | planStatus p => exact h.serveManage p _ _ s t (fun f => h.planStatus p f s hs) hs ht
  | portEnable p => exact h.serveManage p _ _ s t (fun f => h.portEnable p f s hs) hs ht
  | portDisable p => exact h.serveManage p _ _ s t (fun f => h.portDisable p f s hs) hs ht
  | portTestOn p => exact h.serveManage p _ _ s t (fun f => h.portTestOn p f s hs) hs ht
  | portTestOff p => exact h.serveManage p _ _ s t (fun f => h.portTestOff p f s hs) hs ht
  | portStatus p => exact h.serveManage p _ _ s t (fun f => h.portStatus p f s hs) hs ht
  | portResync p => exact h.serveManage p _ _ s t (fun f => h.portResync p f s hs) hs ht
  | limitsSet p => exact h.serveManage p _ _ s t (fun f => h.limitsSet (hc.quota ⟨p, rfl⟩) p f s hs) hs ht
  | journalRead p => exact h.serveManage p _ _ s t (fun f => h.journalRead p f s hs) hs ht
  | statsRead p => exact h.serveManage p _ _ s t (fun f => h.statsRead p f s hs) hs ht
  | eventRead p => exact h.serveManage p _ _ s t (fun f => h.eventRead p f s hs) hs ht
  | eventEnable p => exact h.serveManage p _ _ s t (fun f => h.eventEnable (hc.enabled ⟨p, rfl⟩) p f s hs) hs ht
  | eventSet p => exact h.serveManage p _ _ s t (fun f => h.eventSet p f s hs) hs ht
  | eventClear p => exact h.serveManage p _ _ s t (fun f => h.eventClear p f s hs) hs ht
  | timeSet p => exact h.serveManage p _ _ s t (fun f => h.timeSet (hc.timeTag ⟨p, rfl⟩) p f s hs) hs ht
  | resetPart p => exact h.serveManage p _ _ s t (fun f => h.resetPart p f s hs) hs ht
  | patienceTimerExpiry b =>
    change execPatienceTimerExpiry b s = _ at ht
    unfold execPatienceTimerExpiry at ht
    split at ht
    · exact h.whenRunning s t _ (h.startRecall b s) hs ht
    · exact same rfl ht
  | recallTimerExpiry b =>
    change execRecallTimerExpiry b s = _ at ht
    unfold execRecallTimerExpiry at ht
    split at ht
    · refine h.whenRunning s t _ (fun hs => ?_) hs ht
      exact h.handOut _ (h.recallExpiry b s hs)
    · exact same rfl ht
  | beatTimerExpiry p =>
    change execBeatTimerExpiry p s = _ at ht
    unfold execBeatTimerExpiry at ht
    split at ht
    · exact h.whenRunning s t _ (h.beatExpired p s) hs ht
    · exact same rfl ht
  | holdTimerExpiry p =>
    change execHoldTimerExpiry p s = _ at ht
    unfold execHoldTimerExpiry at ht
    split at ht
    · exact h.whenRunning s t _ (h.holdExpired p s) hs ht
    · exact same rfl ht
  | frameSent p =>
    change execFrameSent p s = _ at ht
    unfold execFrameSent at ht
    split at ht
    · split at ht
      · exact same rfl ht
      · refine h.whenRunning s t _ (fun hs => ?_) hs ht
        exact h.frameLeft p _ _ (h.port' s p _ hs)
    · exact same rfl ht
  | probeAnswer b l number reply =>
    change execProbeAnswer b l number reply s = _ at ht
    unfold execProbeAnswer at ht
    split at ht
    · split at ht
      · refine h.whenRunning s t _ (fun hs => ?_) hs ht
        exact h.handOut _ (h.probingCheck b _ (h.probeResolved b l reply s hs))
      · exact same rfl ht
    · exact same rfl ht
  | probeTimerExpiry b l =>
    change execProbeTimerExpiry b l s = _ at ht
    unfold execProbeTimerExpiry at ht
    split at ht
    · split at ht
      · refine h.whenRunning s t _ (fun hs => ?_) hs ht
        exact h.handOut _ (h.probeExpired b l _ s hs)
      · exact same rfl ht
    · exact same rfl ht
  | restoreProbeAnswer b l number reply =>
    change execRestoreProbeAnswer b l number reply s = _ at ht
    unfold execRestoreProbeAnswer at ht
    split at ht
    · split at ht
      · refine h.whenRunning s t _ (fun hs => ?_) hs ht
        exact h.handOut _ (h.restoreResolved b l reply s hs)
      · exact same rfl ht
    · exact same rfl ht
  | driveAnswer b l c attempt reply =>
    change execDriveAnswer b l c attempt reply s = _ at ht
    unfold execDriveAnswer at ht
    rw [hr] at ht
    split at ht
    · split at ht
      · next hres =>
        exact mine (h.transmit _ (h.handOut _ (h.takeResult b l c _ _ (h.answerResult b c reply s _ _ hres hs)))) rfl ht
      · exact same rfl ht
    · exact same rfl ht
  | responseTimerExpiry b c =>
    change execResponseTimerExpiry b c s = _ at ht
    unfold execResponseTimerExpiry at ht
    split at ht
    · refine h.whenRunning s t _ (fun hs => ?_) hs ht
      exact h.handOut _ (h.takeResult b _ c _ s hs)
    · exact same rfl ht

end Sys2Proof.Machine
end

