-- ==== Sys2Proof/Laws/StepKeeps.lean ====
section
/-! SUPPORT. From the commands to a step: what a hard reset does to a predicate, what the commands do while the part is
held in one, and the invariants that a step keeps. -/

namespace Sys2Proof.Machine

/-! ## The hard reset -/

/-- The hard reset keeps a predicate that its values have. -/
theorem Closed.performHardReset {P : State → Prop} (h : Closed P) (r : LoadResult) (s : State)
    (hs : P (hardValues r.settings s)) : P (performHardReset r s) := by
  unfold Machine.performHardReset
  dsimp only
  apply h.startAllProbing
  apply h.appendRecord
  split
  · exact h.raiseEvent _ _ hs
  · exact hs

/-- A port's carrier as the link physical layer reports it. -/
def setCarrier (p : Port) (x : Carrier) (s : State) : State := s.modPort p fun n => { n with carrier := x }

/-- In a hard reset a command other than the reset's own changes nothing, but for a report of carrier. -/
theorem exec_stopped (c : Instr) (s t : State) (hr : s.phase ≠ .running) (h1 : c ≠ .resetAssert)
    (h2 : c ≠ .resetRelease) (h3 : ∀ m, c ≠ .configLoadDone m) (ht : exec c s = .next t) :
    t = s ∨ ∃ p x, t = setCarrier p x s := by
  have same : ∀ {o : Result}, o = .next s → o = .next t → t = s ∨ ∃ p x, t = setCarrier p x s :=
    fun a b => Or.inl (next_inj (b.symm.trans a))
  have head : ∀ p names event, serveHead p names event s = .next t → t = s ∨ ∃ p x, t = setCarrier p x s :=
    fun p names event hq => same (serveHead_none p names event s (servedHead_stopped s p hr)) hq
  have manage : ∀ p sub request, serveManage p sub request s = .next t → t = s ∨ ∃ p x, t = setCarrier p x s :=
    fun p sub request hq => head p _ _ hq
  have run : ∀ event, whenRunning s event = .next t → t = s ∨ ∃ p x, t = setCarrier p x s :=
    fun event hq => same (whenRunning_stopped s event hr) hq
  have noHead := fun p => servedHead_stopped s p hr
  cases c with
  | resetAssert => exact absurd rfl h1
  | resetRelease => exact absurd rfl h2
  | configLoadDone m => exact absurd rfl (h3 m)
  | carrierDown p =>
    change execCarrierDown p s = _ at ht
    unfold execCarrierDown at ht
    rw [if_neg hr] at ht
    split at ht
    · exact same rfl ht
    · exact Or.inr ⟨p, .down, (next_inj ht).symm⟩
  | carrierUp p =>
    change execCarrierUp p s = _ at ht
    unfold execCarrierUp at ht
    dsimp only at ht
    rw [if_neg hr] at ht
    split at ht
    · exact same rfl ht
    · exact Or.inr ⟨p, .up, (next_inj ht).symm⟩
  | softReset =>
    change execSoftReset s = _ at ht
    unfold execSoftReset at ht
    split at ht
    · split at ht
      · exact run _ ht
      · exact same rfl ht
    · exact same rfl ht
  | resetTimerExpiry =>
    change execResetTimerExpiry s = _ at ht
    unfold execResetTimerExpiry at ht
    split at ht
    · split at ht
      · exact run _ ht
      · exact same rfl ht
    · exact same rfl ht
  | frameReceive p bytes =>
    change execFrameReceive p bytes s = _ at ht
    unfold execFrameReceive at ht
    split at ht
    · exact same rfl ht
    · exact run _ ht
  | overLengthCut p bytes =>
    change execOverLengthCut p bytes s = _ at ht
    unfold execOverLengthCut at ht
    split at ht
    · exact same rfl ht
    · exact run _ ht
  | hello p f =>
    change arrive p _ f s = _ at ht
    unfold arrive at ht
    split at ht
    · exact same rfl ht
    · exact run _ ht
  | beat p f =>
    change arrive p _ f s = _ at ht
    unfold arrive at ht
    split at ht
    · exact same rfl ht
    · exact run _ ht
  | pattern p f =>
    change arrive p _ f s = _ at ht
    unfold arrive at ht
    split at ht
    · exact same rfl ht
    · exact run _ ht
  | headFormatRefuse p =>
    change execHeadFormatRefuse p s = _ at ht
    unfold execHeadFormatRefuse at ht
    rw [noHead p] at ht
    exact same rfl ht
  | operationAdmission p =>
    change execOperationAdmission p s = _ at ht
    unfold execOperationAdmission at ht
    rw [noHead p] at ht
    exact same rfl ht
  | contextHandout => exact run _ ht
  | patienceTimerExpiry b =>
    change execPatienceTimerExpiry b s = _ at ht
    unfold execPatienceTimerExpiry at ht
    split at ht
    · exact run _ ht
    · exact same rfl ht
  | recallTimerExpiry b =>
    change execRecallTimerExpiry b s = _ at ht
    unfold execRecallTimerExpiry at ht
    split at ht
    · exact run _ ht
    · exact same rfl ht
  | beatTimerExpiry p =>
    change execBeatTimerExpiry p s = _ at ht
    unfold execBeatTimerExpiry at ht
    split at ht
    · exact run _ ht
    · exact same rfl ht
  | holdTimerExpiry p =>
    change execHoldTimerExpiry p s = _ at ht
    unfold execHoldTimerExpiry at ht
    split at ht
    · exact run _ ht
    · exact same rfl ht
  | frameSent p =>
    change execFrameSent p s = _ at ht
    unfold execFrameSent at ht
    split at ht
    · split at ht
      · exact same rfl ht
      · exact run _ ht
    · exact same rfl ht
  | probeAnswer b l number reply =>
    change execProbeAnswer b l number reply s = _ at ht
    unfold execProbeAnswer at ht
    split at ht
    · split at ht
      · exact run _ ht
      · exact same rfl ht
    · exact same rfl ht
  | probeTimerExpiry b l =>
    change execProbeTimerExpiry b l s = _ at ht
    unfold execProbeTimerExpiry at ht
    split at ht
    · split at ht
      · exact run _ ht
      · exact same rfl ht
    · exact same rfl ht
  | restoreProbeAnswer b l number reply =>
    change execRestoreProbeAnswer b l number reply s = _ at ht
    unfold execRestoreProbeAnswer at ht
    split at ht
    · split at ht
      · exact run _ ht
      · exact same rfl ht
    · exact same rfl ht
  | driveAnswer b l c attempt reply =>
    change execDriveAnswer b l c attempt reply s = _ at ht
    unfold execDriveAnswer at ht
    simp only [if_neg hr] at ht
    split at ht
    · split at ht
      · exact same rfl ht
      · exact same rfl ht
    · exact same rfl ht
  | responseTimerExpiry b c =>
    change execResponseTimerExpiry b c s = _ at ht
    unfold execResponseTimerExpiry at ht
    split at ht
    · exact run _ ht
    · exact same rfl ht
  | claim p | cancel p | release p => exact head p _ _ ht
  | accessSet p | accessGet p | loanQuery p | revoke p | bayWithdraw p
  | bayRestore p | laneRestore p | bayPolicySet p | planWrite p | planSwap p | planStatus p | portEnable p
  | portDisable p | portTestOn p | portTestOff p | portStatus p | portResync p | limitsSet p | journalRead p
  | statsRead p | eventRead p | eventEnable p | eventSet p | eventClear p | timeSet p | resetPart p =>
    exact manage p _ _ ht

/-- What a predicate needs, beside being kept by the elementary updates, to be kept by every step. -/
structure KeptByStep (P : State → Prop) : Prop where
  closed : Closed P
  right : ∀ s p b r, P s → P (s.setRight p b r)
  quota : ∀ s p n, P s → P (s.setQuota p n)
  enabled : ∀ s x, P s → P (driveAlert { s with enabled := x })
  timeTag : ∀ s (v : TimeTag), v.elapsed < resolutionUs v.resolution → P s → P { s with timeTag := v }
  assert : ∀ s t, execResetAssert s = .next t → P s → P t
  release : ∀ s, P s → P { s with phase := .loading }
  hard : ∀ s r, P s → P (hardValues r s)
  tick : ∀ s, P s → P (tick s)
  queue : ∀ s q, P s → P { s with pending := q }

/-- Such a predicate is kept by every command. -/
theorem KeptByStep.exec {P : State → Prop} (h : KeptByStep P) (c : Instr) (s t : State) (ht : exec c s = .next t)
    (hs : P s) : P t := by
  by_cases h1 : c = .resetAssert
  · subst h1
    exact h.assert s t ht hs
  by_cases hr : s.phase = .running
  · exact exec_keeps h.closed c ⟨fun _ => h.right, fun _ => h.quota, fun _ => h.enabled, fun _ => h.timeTag⟩ s t hr h1
      ht hs
  by_cases h2 : c = .resetRelease
  · subst h2
    change execResetRelease s = _ at ht
    unfold execResetRelease at ht
    split at ht
    · exact next_inj ht ▸ h.release s hs
    · exact next_inj ht ▸ hs
  by_cases h3 : ∃ m, c = .configLoadDone m
  · obtain ⟨m, rfl⟩ := h3
    change execConfigLoadDone m s = _ at ht
    unfold execConfigLoadDone at ht
    split at ht
    · exact next_inj ht ▸ h.closed.transmit _ (h.closed.performHardReset _ s (h.hard s _ hs))
    · exact next_inj ht ▸ hs
  rcases exec_stopped c s t hr h1 h2 (fun m hm => h3 ⟨m, hm⟩) ht with rfl | ⟨p, x, rfl⟩
  · exact hs
  · exact h.closed.port' s p _ hs

/-- Such a predicate is kept by every step. -/
theorem KeptByStep.step {P : State → Prop} (h : KeptByStep P) (s t : State) (ht : step s = .next t) (hs : P s) :
    P t := by
  unfold Machine.step at ht
  split at ht
  · exact h.exec _ _ t ht (h.queue s _ hs)
  · split at ht
    · exact h.exec _ s t ht hs
    · exact next_inj ht ▸ h.tick s hs

end Sys2Proof.Machine
end

