-- ==== Sys2Proof/Laws/Loans.lean ====
section
/-! SUPPORT. The Loan Table: what the loan mode says of the holders, and that every step keeps the safety of the loans
(R4, R10, R11). -/

namespace Sys2Proof.Machine

/-! ## Holders -/

theorem holder_set (r : BayRecord) (p q : Port) (x : Option Holder) :
    BayRecord.holder { r with holders := r.holders.set p x } q = if p = q then x else r.holder q := by
  by_cases h : p = q
  · subst h
    simp [BayRecord.holder]
  · have hv : p.val ≠ q.val := fun e => h (Fin.ext e)
    simp [BayRecord.holder, h, hv]

theorem holder_congr {r r' : BayRecord} (h : r'.holders = r.holders) (p : Port) : r'.holder p = r.holder p := by
  rw [BayRecord.holder, BayRecord.holder, h]

theorem mem_allPorts (p : Port) : p ∈ allPorts := by
  revert p
  decide

theorem mem_holderPorts (r : BayRecord) (p : Port) : p ∈ r.holderPorts ↔ (r.holder p).isSome = true := by
  simp [BayRecord.holderPorts, mem_allPorts]

/-- R4: an EXCLUSIVE claim fits a bay without holders. -/
theorem fits_exclusive {r : BayRecord} (h : modeFits r.loanMode .exclusive = true) (p : Port) : r.holder p = none := by
  have hp : r.holderPorts = [] := by
    unfold BayRecord.loanMode at h
    split at h
    · assumption
    · split at h <;> cases h
  cases hh : r.holder p with
  | none => rfl
  | some x =>
    have := (mem_holderPorts r p).2 (by rw [hh]; rfl)
    rw [hp] at this
    cases this

/-- R4: a SHARED claim fits a bay whose holders are all SHARED. -/
theorem fits_shared {r : BayRecord} (h : modeFits r.loanMode .shared = true) {p : Port} {x : Holder}
    (hh : r.holder p = some x) : x.mode = .shared := by
  have hmem : p ∈ r.holderPorts := (mem_holderPorts r p).2 (by rw [hh]; rfl)
  cases hm : x.mode with
  | shared => rfl
  | exclusive =>
    unfold BayRecord.loanMode at h
    split at h
    · next hp =>
      rw [hp] at hmem
      cases hmem
    · split at h
      · cases h
      · next hn =>
        refine absurd (List.any_eq_true.2 ⟨p, hmem, ?_⟩) hn
        rw [hh]
        simp [hm]

theorem modHolder_holder (b c : Bay) (p q : Port) (f : Holder → Holder) (s : State) :
    ((modHolder b p f s).bay c).holder q =
      if b = c ∧ p = q then ((s.bay c).holder q).map f else (s.bay c).holder q := by
  unfold modHolder
  rw [modBay_bay]
  by_cases hb : b = c
  · subst hb
    rw [if_pos rfl, holder_set]
    by_cases hp : p = q
    · subst hp
      simp [BayRecord.holder]
    · simp [hp]
  · simp [hb]

/-! ## The safety of the loans -/

theorem LoansSafe.congr {s t : State} (hb : ∀ b, (t.bay b).holders = (s.bay b).holders)
    (hn : t.nextSerial = s.nextSerial) (he : t.exhausted = s.exhausted) (hs : LoansSafe s) : LoansSafe t := by
  have hh : ∀ b p, (t.bay b).holder p = (s.bay b).holder p := fun b p => holder_congr (hb b) p
  obtain ⟨h1, h2, h3, h4⟩ := hs
  refine ⟨?_, ?_, ?_, ?_⟩
  · intro b p q h k hp hq
    rw [hh] at hp hq
    exact h1 b p q h k hp hq
  · intro b p h hp
    rw [hh] at hp
    rw [hn, he]
    exact h2 b p h hp
  · intro b p h c q k hp hq
    rw [hh] at hp hq
    exact h3 b p h c q k hp hq
  · intro hx
    rw [hn]
    exact h4 (he ▸ hx)

/-- Holders that are the old ones, or fewer, in the same modes and under the same serials, are as safe. -/
theorem LoansSafe.shrink {s t : State}
    (hb : ∀ b p h, (t.bay b).holder p = some h → ∃ k, (s.bay b).holder p = some k ∧ h.mode = k.mode ∧ h.serial = k.serial)
    (hn : t.nextSerial = s.nextSerial) (he : t.exhausted = s.exhausted) (hs : LoansSafe s) : LoansSafe t := by
  obtain ⟨h1, h2, h3, h4⟩ := hs
  refine ⟨?_, ?_, ?_, ?_⟩
  · intro b p q h k hp hq hm
    obtain ⟨h', hp', hm', _⟩ := hb b p h hp
    obtain ⟨k', hq', _, _⟩ := hb b q k hq
    exact h1 b p q h' k' hp' hq' (hm' ▸ hm)
  · intro b p h hp
    obtain ⟨h', hp', _, hs'⟩ := hb b p h hp
    rw [hn, he, hs']
    exact h2 b p h' hp'
  · intro b p h c q k hp hq hser
    obtain ⟨h', hp', _, hs'⟩ := hb b p h hp
    obtain ⟨k', hq', _, ks'⟩ := hb c q k hq
    exact h3 b p h' c q k' hp' hq' (by rw [← hs', ← ks', hser])
  · intro hx
    rw [hn]
    exact h4 (he ▸ hx)

/-- R10: a number below the counter stays below it when it is stepped, until it is exhausted. -/
theorem lt_succ_of_not_last {x n : Word48} (h : x < n) (hn : n ≠ BitVec.allOnes 48) : x < n + 1 := by
  rw [BitVec.lt_def] at h ⊢
  have h1 : n.toNat ≠ 2 ^ 48 - 1 := fun e => hn (BitVec.eq_of_toNat_eq (by rw [e]; rfl))
  have h2 := n.isLt
  rw [BitVec.toNat_add, show (1 : Word48).toNat = 1 from rfl]
  omega

theorem lt_succ_self {n : Word48} (hn : n ≠ BitVec.allOnes 48) : n < n + 1 := by
  rw [BitVec.lt_def]
  have h1 : n.toNat ≠ 2 ^ 48 - 1 := fun e => hn (BitVec.eq_of_toNat_eq (by rw [e]; rfl))
  have h2 := n.isLt
  rw [BitVec.toNat_add, show (1 : Word48).toNat = 1 from rfl]
  omega

theorem lendRaw_holder (b c : Bay) (p q : Port) (h : Holder) (s : State) :
    ((lendRaw b p h s).bay c).holder q = if b = c ∧ p = q then some h else (s.bay c).holder q := by
  unfold lendRaw
  rw [modBay_bay]
  by_cases hb : b = c
  · subst hb
    rw [if_pos rfl, holder_set]
    by_cases hp : p = q
    · simp [hp]
    · simp only [hp, if_false, and_false]
      rfl
  · simp only [hb, if_false, false_and]
    rfl

/-- A loan in a mode that fits, under the counter's value, keeps the loans safe. -/
theorem LoansSafe.lend {b : Bay} {p : Port} {h : Holder} {s : State} (he : s.exhausted = false)
    (hm : modeFits (s.bay b).loanMode h.mode = true) (hser : h.serial = s.nextSerial) (hs : LoansSafe s) :
    LoansSafe (lendRaw b p h s) := by
  obtain ⟨h1, h2, h3, h4⟩ := hs
  have hlt : ∀ c q k, (s.bay c).holder q = some k → k.serial < s.nextSerial := by
    intro c q k hk
    rcases (h2 c q k hk).2 with hx | hx
    · rw [he] at hx
      cases hx
    · exact hx
  have hne : ∀ c q k, (s.bay c).holder q = some k → k.serial ≠ h.serial := by
    intro c q k hk hq
    have := hlt c q k hk
    rw [hq, hser, BitVec.lt_def] at this
    exact absurd this (Nat.lt_irrefl _)
  have hn : (lendRaw b p h s).nextSerial = s.nextSerial + 1 := rfl
  have hx : (lendRaw b p h s).exhausted = decide (s.nextSerial = BitVec.allOnes 48) := by
    show (s.exhausted || decide (s.nextSerial = BitVec.allOnes 48)) = _
    rw [he, Bool.false_or]
  refine ⟨?_, ?_, ?_, ?_⟩
  · intro c q q' k k' hq hq' hk
    rw [lendRaw_holder] at hq hq'
    split at hq
    · next hc =>
      obtain ⟨rfl, rfl⟩ := hc
      obtain rfl := Option.some.inj hq
      rw [hk] at hm
      split at hq'
      · next hc' => exact hc'.2.symm
      · rw [fits_exclusive hm q'] at hq'
        cases hq'
    · split at hq'
      · next hc' =>
        obtain ⟨rfl, rfl⟩ := hc'
        cases hmode : h.mode with
        | exclusive =>
          rw [hmode] at hm
          rw [fits_exclusive hm q] at hq
          cases hq
        | shared =>
          rw [hmode] at hm
          rw [fits_shared hm hq] at hk
          cases hk
      · exact h1 c q q' k k' hq hq' hk
  · intro c q k hq
    rw [hn, hx]
    rw [lendRaw_holder] at hq
    split at hq
    · obtain rfl := Option.some.inj hq
      rw [hser]
      refine ⟨h4 he, ?_⟩
      by_cases hl : s.nextSerial = BitVec.allOnes 48
      · exact Or.inl (by simp [hl])
      · exact Or.inr (lt_succ_self hl)
    · refine ⟨(h2 c q k hq).1, ?_⟩
      by_cases hl : s.nextSerial = BitVec.allOnes 48
      · exact Or.inl (by simp [hl])
      · exact Or.inr (lt_succ_of_not_last (hlt c q k hq) hl)
  · intro c q k c' q' k' hq hq' hk
    rw [lendRaw_holder] at hq hq'
    split at hq
    · next hc =>
      obtain rfl := Option.some.inj hq
      split at hq'
      · next hc' => exact ⟨hc.1.symm.trans hc'.1, hc.2.symm.trans hc'.2⟩
      · exact absurd hk.symm (hne c' q' k' hq')
    · split at hq'
      · obtain rfl := Option.some.inj hq'
        exact absurd hk (hne c q k hq)
      · exact h3 c q k c' q' k' hq hq' hk
  · intro hf
    rw [hx] at hf
    have hl : s.nextSerial ≠ BitVec.allOnes 48 := by simpa using hf
    rw [hn]
    intro h0
    have h5 : (s.nextSerial + 1).toNat = 0 := by rw [h0]; rfl
    have h6 : s.nextSerial.toNat ≠ 2 ^ 48 - 1 := fun e => hl (BitVec.eq_of_toNat_eq (by rw [e]; rfl))
    have h7 := s.nextSerial.isLt
    rw [BitVec.toNat_add, show (1 : Word48).toNat = 1 from rfl] at h5
    omega

/-- A bay without holders. -/
theorem no_holder (r : BayRecord) (h : r.holders = Vector.replicate 8 none) (p : Port) : r.holder p = none := by
  rw [BayRecord.holder, h]
  simp

/-- Bays without holders are safe under any counter that is right. -/
theorem LoansSafe.empty {s : State} (hb : ∀ b p, (s.bay b).holder p = none) (hc : CounterRight s) : LoansSafe s := by
  refine ⟨?_, ?_, ?_, hc⟩
  · intro b p q h k hp
    rw [hb] at hp
    cases hp
  · intro b p h hp
    rw [hb] at hp
    cases hp
  · intro b p h c q k hp
    rw [hb] at hp
    cases hp

theorem byBay_get {α : Type} (f : Bay → α) (b : Bay) : (byBay f)[b] = f b := by
  revert b
  intro b
  match b with
  | 0 | 1 | 2 | 3 | 4 | 5 | 6 | 7 | 8 | 9 | 10 | 11 => rfl

theorem byPort_get {α : Type} (f : Port → α) (p : Port) : (byPort f)[p] = f p := by
  match p with
  | 0 | 1 | 2 | 3 | 4 | 5 | 6 | 7 => rfl

theorem removeClaim_holders (b c : Bay) (p : Port) (s : State) :
    ((removeClaim b p s).bay c).holders = (s.bay c).holders := by
  unfold removeClaim
  rw [modBay_bay]
  split
  · next hb => exact hb ▸ rfl
  · rfl

theorem loanMode_congr {r r' : BayRecord} (h : r'.holders = r.holders) : r'.loanMode = r.loanMode := by
  unfold BayRecord.loanMode BayRecord.holderPorts BayRecord.holder
  rw [h]

/-- Every step keeps the safety of the loans. -/
theorem LoansSafe.kept : KeptByStep LoansSafe where
  closed :=
    { bay := fun s b f hq hs => LoansSafe.congr (s := s) (fun c => by
        rw [modBay_bay]
        split
        · next hb => exact hb ▸ hq.1
        · rfl) rfl rfl hs
      holder := fun s b p f hf hs => LoansSafe.shrink (s := s) (fun c q h hq => by
        rw [modHolder_holder] at hq
        split at hq
        · cases hk : (s.bay c).holder q with
          | none =>
            rw [hk] at hq
            cases hq
          | some k =>
            rw [hk] at hq
            obtain rfl := Option.some.inj hq
            exact ⟨k, rfl, (hf k).1, (hf k).2⟩
        · exact ⟨h, hq, rfl, rfl⟩) rfl rfl hs
      unlend := fun s b p hs => LoansSafe.shrink (s := s) (fun c q h hq => by
        rw [modBay_bay] at hq
        split at hq
        · next hb =>
          subst hb
          rw [holder_set] at hq
          split at hq
          · cases hq
          · exact ⟨h, hq, rfl, rfl⟩
        · exact ⟨h, hq, rfl, rfl⟩) rfl rfl hs
      lendClaim := fun s b x rest h hc ho hm hmode hser hs => by
        have he : s.exhausted = false := by
          unfold grantsOpen at ho
          simp only [Bool.and_eq_true, Bool.not_eq_true'] at ho
          exact ho.2
        refine LoansSafe.lend (s := removeClaim b x.port s) he ?_ hser
          (hs.congr (fun c => removeClaim_holders b c x.port s) rfl rfl)
        rw [loanMode_congr (removeClaim_holders b b x.port s), hmode]
        exact hm
      lendNow := fun s b p h hp hc he hm hser hs => hs.lend he hm hser
      queue := fun s b x hp hc hh hs => LoansSafe.congr (s := s) (fun c => by
        rw [modBay_bay]
        split
        · next hb => exact hb ▸ rfl
        · rfl) rfl rfl hs
      services := fun _ _ hs => hs
      drives := fun _ _ hs => hs
      plan := fun _ _ hs => hs
      pool := fun _ _ _ hs => hs
      portStats := fun _ _ hs => hs
      bayStats := fun _ _ hs => hs
      softReset := fun _ _ hs => hs
      journal := fun _ _ _ _ hs => hs
      raised := fun _ _ hs => hs
      port := fun _ _ _ _ hs => hs
      notice := fun _ _ _ hs => hs
      intake := fun _ _ _ _ _ hs => hs
      presence := fun _ _ _ _ hs => hs
      shift := fun _ _ _ _ hs => hs
      test := fun _ _ _ _ _ hs => hs
      leave := fun s cause p f _ hs => by
        generalize (cleanUp cause p s).state = u at hs ⊢
        exact hs
      soft := fun s hs => LoansSafe.empty
        (fun b p => no_holder _ (by
          show ((byBay fun b => softBay s.bays[b])[b]).holders = _
          rw [byBay_get]
          rfl) p) hs.2.2.2 }
  right := fun _ _ _ _ hs => hs
  quota := fun _ _ _ hs => hs
  enabled := fun _ _ hs => hs
  timeTag := fun _ _ _ hs => hs
  assert := fun s t ht hs => next_inj ht ▸ hs
  release := fun _ hs => hs
  hard := fun s r _ => LoansSafe.empty
    (fun b p => no_holder _ (by
      show ((byBay fun b => hardBay r.policies[b])[b]).holders = _
      rw [byBay_get]
      rfl) p) (fun _ => by show (1 : Word48) ≠ 0; decide)
  tick := fun s hs => by
    unfold tick
    split
    · exact hs
    · exact hs
  queue := fun _ _ hs => hs

end Sys2Proof.Machine
end

