-- ==== Sys2Proof/Laws/Bounds.lean ====
section
/-! SUPPORT. The bounds of the queues, the time tag's period and ALERT: every step keeps them (R136, R148, R170, R184,
R187). -/

namespace Sys2Proof.Machine

/-! ## Queues -/

theorem occupancy_append (l : List InFrame) (f : InFrame) : occupancy (l ++ [f]) = occupancy l + frameLength f := by
  simp [occupancy]

theorem occupancy_suffix {l l' : List InFrame} (h : l <:+ l') : occupancy l ≤ occupancy l' := by
  obtain ⟨m, rfl⟩ := h
  simp [occupancy]

theorem noticeInto_pairwise (x : Notice) (l : List Notice) (h : l.Pairwise fun y z => y.bay ≠ z.bay) :
    (noticeInto x l).Pairwise fun y z => y.bay ≠ z.bay := by
  have hmem : ∀ (l : List Notice) z, z ∈ noticeInto x l → z = x ∨ z ∈ l := by
    intro l
    induction l with
    | nil =>
      intro z hz
      exact Or.inl (List.mem_singleton.1 hz)
    | cons y l ih =>
      intro z hz
      unfold noticeInto at hz
      split at hz
      · rcases List.mem_cons.1 hz with h1 | h1
        · exact Or.inl h1
        · exact Or.inr (List.mem_cons_of_mem _ h1)
      · rcases List.mem_cons.1 hz with h1 | h1
        · exact Or.inr (h1 ▸ List.mem_cons_self ..)
        · rcases ih z h1 with h2 | h2
          · exact Or.inl h2
          · exact Or.inr (List.mem_cons_of_mem _ h2)
  induction l with
  | nil => exact List.pairwise_singleton _ _
  | cons y l ih =>
    rw [List.pairwise_cons] at h
    unfold noticeInto
    split
    · next hb =>
      rw [List.pairwise_cons]
      exact ⟨fun z hz => hb ▸ h.1 z hz, h.2⟩
    · next hb =>
      rw [List.pairwise_cons]
      refine ⟨fun z hz => ?_, ih h.2⟩
      rcases hmem l z hz with h1 | h1
      · exact h1 ▸ hb
      · exact h.1 z h1

/-- The bounds of one Node Port's queues. -/
def PortBounded (n : NodePort) : Prop :=
  n.intake.length ≤ Config.intakeFrames ∧ occupancy n.intake ≤ Config.intakeBytes ∧
    n.notices.Pairwise fun x y => x.bay ≠ y.bay

theorem PortBounded.quiet {n m : NodePort} (hq : QuietPort n m) (h : PortBounded n) : PortBounded m :=
  ⟨Nat.le_trans hq.1.sublist.length_le h.1, Nat.le_trans (occupancy_suffix hq.1) h.2.1, h.2.2.sublist hq.2.1⟩

theorem QueuesBounded.port {s : State} {p : Port} {f : NodePort → NodePort}
    (hf : PortBounded (s.port p) → PortBounded (f (s.port p))) (hs : QueuesBounded s) :
    QueuesBounded (s.modPort p f) := by
  refine ⟨fun q => ?_, hs.2⟩
  rw [modPort_port]
  split
  · next hp => exact hf (hs.1 p)
  · exact hs.1 q

/-- Ports whose queues are empty. -/
theorem QueuesBounded.ports {s t : State} (hp : ∀ p, (t.port p).intake = [] ∧ (t.port p).notices = [])
    (hj : t.journal.ring.length ≤ s.journal.ring.length) (hs : QueuesBounded s) : QueuesBounded t := by
  refine ⟨fun p => ?_, Nat.le_trans hj hs.2⟩
  rw [(hp p).1, (hp p).2]
  exact ⟨Nat.zero_le _, Nat.zero_le _, List.Pairwise.nil⟩

/-- Every step keeps the bounds of the queues. -/
theorem QueuesBounded.kept : KeptByStep QueuesBounded where
  closed :=
    { bay := fun _ _ _ _ hs => hs
      holder := fun _ _ _ _ _ hs => hs
      unlend := fun _ _ _ hs => hs
      lendClaim := fun _ _ _ _ _ _ _ _ _ _ hs => hs
      services := fun _ _ hs => hs
      drives := fun _ _ hs => hs
      plan := fun _ _ hs => hs
      pool := fun _ _ _ hs => hs
      portStats := fun _ _ hs => hs
      bayStats := fun _ _ hs => hs
      journal := fun s v hv _ hs => ⟨hs.1, Nat.le_trans hv (Nat.max_le.2 ⟨hs.2, Nat.le_refl _⟩)⟩
      raised := fun _ _ hs => hs
      port := fun s p f hq hs => QueuesBounded.port (fun h => h.quiet hq) hs
      notice := fun s p x hs => QueuesBounded.port (fun h => ⟨h.1, h.2.1, noticeInto_pairwise x _ h.2.2⟩) hs
      lendNow := fun _ _ _ _ _ _ _ _ _ hs => hs
      queue := fun _ _ _ _ _ _ hs => hs
      softReset := fun _ _ hs => hs
      intake := fun s p f h1 h2 hs => QueuesBounded.port (fun h => ⟨by
        show (_ ++ [f]).length ≤ _
        rw [List.length_append]
        exact h1, by
        show occupancy (_ ++ [f]) ≤ _
        rw [occupancy_append]
        exact h2, h.2.2⟩) hs
      presence := fun _ _ _ _ hs => hs
      shift := fun _ _ _ _ hs => hs
      test := fun _ _ _ _ _ hs => hs
      leave := fun s cause p f _ hs => by
        generalize (cleanUp cause p s).state = u at hs ⊢
        exact hs
      soft := fun s hs => QueuesBounded.ports (s := s) (fun p => by
        show ((byPort fun q => softPort s.ports[q])[p]).intake = [] ∧ _
        rw [byPort_get]
        refine ⟨rfl, ?_⟩
        show ((byPort fun q => softPort s.ports[q])[p]).notices = []
        rw [byPort_get]
        rfl) (Nat.le_refl _) hs }
  right := fun _ _ _ _ hs => hs
  quota := fun _ _ _ hs => hs
  enabled := fun _ _ hs => hs
  timeTag := fun _ _ _ hs => hs
  assert := fun s t ht hs => by
    refine next_inj ht ▸ ⟨fun p => ?_, hs.2⟩
    have h1 : State.port { s with
        phase := .asserted, timeTag := { s.timeTag with value := 0, elapsed := 0 },
        ports := byPort fun p => stopLink s.ports[p], alert := false, softReset := none } p = stopLink (s.port p) :=
      byPort_get (fun p => stopLink s.ports[p]) p
    rw [h1]
    exact hs.1 p
  release := fun _ hs => hs
  hard := fun s r hs => QueuesBounded.ports (s := s) (fun p => by
    show ((byPort fun p => hardPort (r.roles[p]).1 r.limits[p] (s.ports[p]).carrier)[p]).intake = [] ∧ _
    rw [byPort_get]
    refine ⟨rfl, ?_⟩
    show ((byPort fun p => hardPort (r.roles[p]).1 r.limits[p] (s.ports[p]).carrier)[p]).notices = []
    rw [byPort_get]
    rfl) (Nat.zero_le _) hs
  tick := fun s hs => by
    unfold tick
    split
    · exact hs
    · exact hs
  queue := fun _ _ hs => hs

/-! ## The time tag -/

theorem resolutionUs_pos (r : Resolution) : 0 < resolutionUs r := by cases r <;> decide

/-- Every step keeps the time tag within its period. -/
theorem PeriodRight.kept : KeptByStep PeriodRight where
  closed :=
    { bay := fun _ _ _ _ hs => hs
      holder := fun _ _ _ _ _ hs => hs
      unlend := fun _ _ _ hs => hs
      lendClaim := fun _ _ _ _ _ _ _ _ _ _ hs => hs
      services := fun _ _ hs => hs
      drives := fun _ _ hs => hs
      plan := fun _ _ hs => hs
      pool := fun _ _ _ hs => hs
      portStats := fun _ _ hs => hs
      bayStats := fun _ _ hs => hs
      journal := fun _ _ _ _ hs => hs
      raised := fun _ _ hs => hs
      port := fun _ _ _ _ hs => hs
      notice := fun _ _ _ hs => hs
      lendNow := fun _ _ _ _ _ _ _ _ _ hs => hs
      queue := fun _ _ _ _ _ _ hs => hs
      softReset := fun _ _ hs => hs
      intake := fun _ _ _ _ _ hs => hs
      presence := fun _ _ _ _ hs => hs
      shift := fun _ _ _ _ hs => hs
      test := fun _ _ _ _ _ hs => hs
      leave := fun s cause p f _ hs => by
        generalize (cleanUp cause p s).state = u at hs ⊢
        exact hs
      soft := fun _ hs => hs }
  right := fun _ _ _ _ hs => hs
  quota := fun _ _ _ hs => hs
  enabled := fun _ _ hs => hs
  timeTag := fun _ _ hv _ => hv
  assert := fun s t ht hs => next_inj ht ▸ resolutionUs_pos s.timeTag.resolution
  release := fun _ hs => hs
  hard := fun s r _ => resolutionUs_pos r.resolution
  tick := fun s hs => by
    unfold tick
    split
    · show (tickTag s.timeTag).elapsed < resolutionUs (tickTag s.timeTag).resolution
      unfold tickTag
      split
      · assumption
      · exact resolutionUs_pos _
    · exact hs
  queue := fun _ _ hs => hs

/-! ## ALERT -/

/-- While the part runs, ALERT follows the two sets. -/
def AlertFollows (s : State) : Prop := s.phase = .running ∧ s.alert = shareEvent s.raised s.enabled

/-- The elementary updates keep ALERT with the two sets. -/
theorem AlertFollows.closed : Closed AlertFollows where
  bay := fun _ _ _ _ hs => hs
  holder := fun _ _ _ _ _ hs => hs
  unlend := fun _ _ _ hs => hs
  lendClaim := fun _ _ _ _ _ _ _ _ _ _ hs => hs
  services := fun _ _ hs => hs
  drives := fun _ _ hs => hs
  plan := fun _ _ hs => hs
  pool := fun _ _ _ hs => hs
  portStats := fun _ _ hs => hs
  bayStats := fun _ _ hs => hs
  journal := fun _ _ _ _ hs => hs
  raised := fun _ _ hs => ⟨hs.1, rfl⟩
  port := fun _ _ _ _ hs => hs
  notice := fun _ _ _ hs => hs
  lendNow := fun _ _ _ _ _ _ _ _ _ hs => hs
  queue := fun _ _ _ _ _ _ hs => hs
  softReset := fun _ _ hs => hs
  intake := fun _ _ _ _ _ hs => hs
  presence := fun _ _ _ _ hs => hs
  shift := fun _ _ _ _ hs => hs
  test := fun _ _ _ _ _ hs => hs
  leave := fun s cause p f _ hs => by
    generalize (cleanUp cause p s).state = u at hs ⊢
    exact hs
  soft := fun _ hs => hs

theorem AlertFollows.hard (s : State) (r : Settings) : AlertFollows (hardValues r s) := by
  refine ⟨rfl, ?_⟩
  show false = shareEvent 0 r.enabled
  simp [shareEvent]

end Sys2Proof.Machine
end

