-- ==== Sys2Proof/Laws/Claims.lean ====
section
/-! SUPPORT. Every step keeps the admission discipline of the Loan Table: claims are single, and only ACTIVE ports hold
or wait (R5, R6, R153). -/

namespace Sys2Proof.Machine

/-- A port has neither a loan nor a claim at a bay. -/
def Nothing (s : State) (p : Port) (b : Bay) : Prop := (s.bay b).holder p = none ∧ ¬ waitsAt s p b

theorem waitsAt_congr {s t : State} {b : Bay} (h : (t.bay b).claims = (s.bay b).claims) (p : Port) :
    waitsAt t p b ↔ waitsAt s p b := by
  unfold waitsAt
  rw [h]

theorem waitsAt_mono {s t : State} {b : Bay} (h : (t.bay b).claims.Sublist (s.bay b).claims) {p : Port}
    (hw : waitsAt t p b) : waitsAt s p b := by
  obtain ⟨x, hx, hp⟩ := hw
  exact ⟨x, h.subset hx, hp⟩

/-- Fewer claims and no other holders: what the quiet updates do to claims and holders. -/
structure Shrinks (s t : State) : Prop where
  claims : ∀ b, (t.bay b).claims.Sublist (s.bay b).claims
  holder : ∀ b p, (s.bay b).holder p = none → (t.bay b).holder p = none

theorem Shrinks.nothing {s t : State} (h : Shrinks s t) {p : Port} {b : Bay} (hn : Nothing s p b) : Nothing t p b :=
  ⟨h.holder b p hn.1, fun hw => hn.2 (waitsAt_mono (h.claims b) hw)⟩

theorem Shrinks.single {s t : State} (h : Shrinks s t) (hs : ClaimsSingle s) : ClaimsSingle t :=
  fun b => ⟨(hs b).1.sublist (h.claims b), fun p hw => h.holder b p ((hs b).2 p (waitsAt_mono (h.claims b) hw))⟩

theorem Shrinks.safe {s t : State} (h : Shrinks s t) (hp : ∀ p, (t.presence p).state = (s.presence p).state)
    (hs : ClaimsSafe s) : ClaimsSafe t :=
  ⟨h.single hs.1, fun p hn b => h.nothing (hs.2 p (hp p ▸ hn) b)⟩

theorem Shrinks.refl (s : State) : Shrinks s s := ⟨fun _ => List.Sublist.refl _, fun _ _ h => h⟩

theorem Shrinks.modBay (s : State) (b : Bay) (f : BayRecord → BayRecord) (h : QuietBay (s.bay b) (f (s.bay b))) :
    Shrinks s (s.modBay b f) where
  claims c := by
    rw [modBay_bay]
    split
    · next hb => exact hb ▸ h.2
    · exact List.Sublist.refl _
  holder c p hn := by
    rw [modBay_bay]
    split
    · next hb =>
      subst hb
      rw [holder_congr h.1]
      exact hn
    · exact hn

theorem Shrinks.modHolder (s : State) (b : Bay) (p : Port) (f : Holder → Holder) : Shrinks s (modHolder b p f s) where
  claims c := by
    unfold Machine.modHolder
    rw [modBay_bay]
    split
    · next hb => exact hb ▸ List.Sublist.refl _
    · exact List.Sublist.refl _
  holder c q hn := by
    rw [modHolder_holder, hn]
    split <;> rfl

theorem Shrinks.unlend (s : State) (b : Bay) (p : Port) :
    Shrinks s (s.modBay b fun r => { r with holders := r.holders.set p none }) where
  claims c := by
    rw [modBay_bay]
    split
    · next hb => exact hb ▸ List.Sublist.refl _
    · exact List.Sublist.refl _
  holder c q hn := by
    rw [modBay_bay]
    split
    · next hb =>
      subst hb
      rw [holder_set]
      split
      · rfl
      · exact hn
    · exact hn

/-! ## A grant -/

theorem removeClaim_claims (s : State) (b c : Bay) (p : Port) :
    ((removeClaim b p s).bay c).claims =
      if b = c then (s.bay c).claims.filter fun x => !decide (x.port = p) else (s.bay c).claims := by
  unfold removeClaim
  rw [modBay_bay]
  split
  · next hb => exact hb ▸ rfl
  · rfl

theorem removeClaim_waits (s : State) (b : Bay) (p : Port) : ¬ waitsAt (removeClaim b p s) p b := by
  rintro ⟨x, hx, hp⟩
  rw [removeClaim_claims, if_pos rfl] at hx
  have h := (List.mem_filter.1 hx).2
  rw [hp] at h
  simp at h

theorem Shrinks.removeClaim (s : State) (b : Bay) (p : Port) : Shrinks s (removeClaim b p s) :=
  Shrinks.modBay s b _ ⟨rfl, List.filter_sublist⟩

theorem lendRaw_claims (b c : Bay) (p : Port) (h : Holder) (s : State) :
    ((lendRaw b p h s).bay c).claims = (s.bay c).claims := by
  unfold lendRaw
  rw [modBay_bay]
  split
  · next hb => exact hb ▸ rfl
  · rfl

/-- A loan for a port that does not wait at the bay keeps the claims single. -/
theorem ClaimsSingle.lend {s : State} {b : Bay} {p : Port} {h : Holder} (hw : ¬ waitsAt s p b) (hs : ClaimsSingle s) :
    ClaimsSingle (lendRaw b p h s) := by
  intro c
  rw [lendRaw_claims]
  refine ⟨(hs c).1, fun q hq => ?_⟩
  have hq' : waitsAt s q c := (waitsAt_congr (lendRaw_claims b c p h s) q).1 hq
  rw [lendRaw_holder]
  split
  · next hc =>
    obtain ⟨rfl, rfl⟩ := hc
    exact absurd hq' hw
  · exact (hs c).2 q hq'

/-- A loan for another port, or at another bay, leaves a port with nothing at a bay. -/
theorem Nothing.lend {s : State} {b c : Bay} {p q : Port} {h : Holder} (hn : Nothing s q c) (hx : ¬ (b = c ∧ p = q)) :
    Nothing (lendRaw b p h s) q c := by
  refine ⟨?_, fun hw => hn.2 ((waitsAt_congr (lendRaw_claims b c p h s) q).1 hw)⟩
  rw [lendRaw_holder, if_neg hx]
  exact hn.1

/-- The core updates keep the claims single. -/
theorem ClaimsSingle.core : ClosedCore ClaimsSingle where
  bay := fun s b f hq hs => (Shrinks.modBay s b f hq).single hs
  holder := fun s b p f _ hs => (Shrinks.modHolder s b p f).single hs
  unlend := fun s b p hs => (Shrinks.unlend s b p).single hs
  lendClaim := fun s b x _ _ _ _ _ _ _ hs =>
    ClaimsSingle.lend (removeClaim_waits s b x.port) ((Shrinks.removeClaim s b x.port).single hs)
  services := fun _ _ hs => hs
  drives := fun _ _ hs => hs
  plan := fun _ _ hs => hs
  pool := fun _ _ _ hs => hs
  portStats := fun _ _ hs => hs
  bayStats := fun _ _ hs => hs
  journal := fun _ _ _ _ hs => hs
  raised := fun _ _ hs => hs
  port := fun _ _ _ _ hs => hs
  notice := fun _ _ _ hs => hs

/-- The core updates give a port nothing at a bay where it has nothing. -/
theorem Nothing.core (p : Port) (b : Bay) : ClosedCore fun s => Nothing s p b where
  bay := fun s c f hq hs => (Shrinks.modBay s c f hq).nothing hs
  holder := fun s c q f _ hs => (Shrinks.modHolder s c q f).nothing hs
  unlend := fun s c q hs => (Shrinks.unlend s c q).nothing hs
  lendClaim := fun s c x rest h hc _ _ _ _ hs =>
    Nothing.lend ((Shrinks.removeClaim s c x.port).nothing hs) (fun he => by
      obtain ⟨rfl, rfl⟩ := he
      exact hs.2 ⟨x, by rw [hc]; exact List.mem_cons_self .., rfl⟩)
  services := fun _ _ hs => hs
  drives := fun _ _ hs => hs
  plan := fun _ _ hs => hs
  pool := fun _ _ _ hs => hs
  portStats := fun _ _ hs => hs
  bayStats := fun _ _ hs => hs
  journal := fun _ _ _ _ hs => hs
  raised := fun _ _ hs => hs
  port := fun _ _ _ _ hs => hs
  notice := fun _ _ _ hs => hs

/-! ## A clean-up leaves nothing -/

theorem removeHolder_nothing (s : State) (b : Bay) (p : Port) (hw : ¬ waitsAt s p b) :
    Nothing (removeHolder b p s) p b := by
  have h1 : Nothing (s.modBay b fun r => { r with holders := r.holders.set p none }) p b := by
    refine ⟨?_, fun h => hw (waitsAt_mono ((Shrinks.unlend s b p).claims b) h)⟩
    rw [modBay_bay_self, holder_set, if_pos rfl]
  have h2 := (Nothing.core p b).bay' _ b
    (fun r => if r.phase = .recalled ∧ r.recallSet = [] then { r with phase := .none, recallTimer := none } else r)
    h1 (fun r => by split <;> rfl) (fun r => by split <;> rfl)
  rwa [modBay_modBay] at h2

theorem cleanBay_nothing (cause : Cause) (p : Port) (t : CleanUp) (b : Bay) (hs : ClaimsSingle t.state) :
    Nothing (cleanBay cause p t b).state p b := by
  have hk := Nothing.core p b
  unfold cleanBay
  split
  · next h hh =>
    apply hk.settleBay
    unfold revokeLoan
    have hw : ¬ waitsAt t.state p b := fun hw => by
      rw [(hs b).2 p hw] at hh
      cases hh
    have h1 := hk.endLoanContexts h.serial cause _ (removeHolder_nothing t.state b p hw)
    dsimp only
    apply hk.appendRecord
    split
    · exact hk.notice _ _ _ h1
    · exact h1
  · next hh =>
    split
    · next x hx =>
      have hp : x.port = p := by simpa using List.find?_some hx
      apply hk.settleBay
      unfold refuseClaim
      dsimp only
      apply hk.appendRecord
      rw [if_pos rfl]
      refine ⟨(Shrinks.removeClaim t.state b x.port).holder b p hh, ?_⟩
      exact hp ▸ removeClaim_waits t.state b x.port
    · next hx =>
      refine ⟨hh, ?_⟩
      rintro ⟨x, hx', hp⟩
      exact absurd (List.find?_eq_none.1 hx x hx') (by simp [hp])

theorem mem_allBays (b : Bay) : b ∈ allBays := by
  revert b
  decide

theorem cleanLoans_nothing (cause : Cause) (p : Port) (s : State) (hs : ClaimsSingle s) (b : Bay) :
    Nothing (cleanLoans cause p s).state p b := by
  have keep : ∀ (l : List Bay) (t : CleanUp) (b : Bay), Nothing t.state p b →
      Nothing (l.foldl (cleanBay cause p) t).state p b := by
    intro l
    induction l with
    | nil => exact fun _ _ h => h
    | cons c l ih => exact fun t b h => ih _ b ((Nothing.core p b).cleanBay cause p t c h)
  have go : ∀ (l : List Bay) (t : CleanUp), ClaimsSingle t.state → b ∈ l →
      Nothing (l.foldl (cleanBay cause p) t).state p b := by
    intro l
    induction l with
    | nil => exact fun _ _ hb => nomatch hb
    | cons c l ih =>
      intro t ht hb
      rcases List.mem_cons.1 hb with rfl | hb
      · exact keep l _ b (cleanBay_nothing cause p t b ht)
      · exact ih _ (ClaimsSingle.core.cleanBay cause p t c ht) hb
  exact go allBays { state := s, loans := 0, claims := 0 } hs (mem_allBays b)

/-- After a clean-up the port has nothing at any bay (R46, R47). -/
theorem cleanUp_nothing (cause : Cause) (p : Port) (s : State) (hs : ClaimsSingle s) (b : Bay) :
    Nothing (cleanUp cause p s).state p b := by
  have h1 := cleanLoans_nothing cause p (s.modPort p cleanPort) hs b
  unfold cleanUp
  generalize cleanLoans cause p (s.modPort p cleanPort) = t at h1
  dsimp only
  exact (Nothing.core p b).cleanContexts p _ h1

/-! ## The discipline -/

theorem ClaimsSafe.presence {s : State} {p : Port} {f : Presence → Presence}
    (hn : (f (s.presence p)).state ≠ .active → ∀ b, Nothing s p b) (hs : ClaimsSafe s) :
    ClaimsSafe (s.modPresence p f) := by
  refine ⟨hs.1, fun q hq b => ?_⟩
  rw [modPresence_presence] at hq
  split at hq
  · next hp =>
    subst hp
    exact hn hq b
  · exact hs.2 q hq b

theorem testBusy_nothing {s : State} {p q : Port} (h : testBusy s p q = false) (b : Bay) : Nothing s q b := by
  unfold testBusy at h
  simp only [Bool.or_eq_false_iff, decide_eq_false_iff_not] at h
  have h1 : loansHeld s q = 0 := Nat.eq_zero_of_not_pos h.1.1.2
  have h2 : claimsWaiting s q = 0 := Nat.eq_zero_of_not_pos h.1.2
  have hb : b ∈ allBays := mem_allBays b
  unfold loansHeld at h1
  unfold claimsWaiting at h2
  have h3 := List.filter_eq_nil_iff.1 (List.length_eq_zero_iff.1 h1) b hb
  have h4 := List.filter_eq_nil_iff.1 (List.length_eq_zero_iff.1 h2) b hb
  refine ⟨by simpa using h3, ?_⟩
  rintro ⟨x, hx, hp⟩
  exact h4 (List.any_eq_true.2 ⟨x, hx, by simpa using hp⟩)

/-- Bays with neither holders nor claims. -/
theorem ClaimsSafe.empty {s : State} (h : ∀ b, (s.bay b).claims = [] ∧ ∀ p, (s.bay b).holder p = none) :
    ClaimsSafe s := by
  refine ⟨fun b => ⟨?_, fun p _ => (h b).2 p⟩, fun p _ b => ⟨(h b).2 p, ?_⟩⟩
  · rw [(h b).1]
    exact List.Pairwise.nil
  · rintro ⟨x, hx, _⟩
    rw [(h b).1] at hx
    cases hx

/-- Every step keeps the discipline. -/
theorem ClaimsSafe.kept : KeptByStep ClaimsSafe where
  closed :=
    { bay := fun s b f hq hs => (Shrinks.modBay s b f hq).safe (fun _ => rfl) hs
      holder := fun s b p f _ hs => (Shrinks.modHolder s b p f).safe (fun _ => rfl) hs
      unlend := fun s b p hs => (Shrinks.unlend s b p).safe (fun _ => rfl) hs
      lendClaim := fun s b x rest h hc _ _ _ _ hs => by
        have hr := (Shrinks.removeClaim s b x.port).safe (fun _ => rfl) hs
        refine ⟨ClaimsSingle.lend (removeClaim_waits s b x.port) hr.1, fun q hq c => ?_⟩
        refine Nothing.lend (hr.2 q hq c) (fun he => ?_)
        obtain ⟨rfl, rfl⟩ := he
        exact (hs.2 x.port hq b).2 ⟨x, by rw [hc]; exact List.mem_cons_self .., rfl⟩
      services := fun _ _ hs => hs
      drives := fun _ _ hs => hs
      plan := fun _ _ hs => hs
      pool := fun _ _ _ hs => hs
      portStats := fun _ _ hs => hs
      bayStats := fun _ _ hs => hs
      journal := fun _ _ _ _ hs => hs
      raised := fun _ _ hs => hs
      port := fun _ _ _ _ hs => hs
      notice := fun _ _ _ hs => hs
      lendNow := fun s b p h hp hc _ _ _ hs => by
        have hw : ¬ waitsAt s p b := by
          rintro ⟨x, hx, _⟩
          rw [hc] at hx
          cases hx
        refine ⟨ClaimsSingle.lend hw hs.1, fun q hq c => Nothing.lend (hs.2 q hq c) (fun he => ?_)⟩
        obtain ⟨rfl, rfl⟩ := he
        exact hq hp
      queue := fun s b x hp hc hh hs => by
        refine ⟨fun c => ?_, fun q hq c => ?_⟩
        · by_cases hb : b = c
          · subst hb
            rw [modBay_bay_self]
            refine ⟨?_, fun q hw => ?_⟩
            · rw [List.pairwise_append]
              refine ⟨(hs.1 b).1, List.pairwise_singleton _ _, fun y hy z hz => ?_⟩
              rw [List.mem_singleton.1 hz]
              exact hc y hy
            · obtain ⟨y, hy, hyq⟩ := hw
              rw [modBay_bay_self] at hy
              rcases List.mem_append.1 hy with h1 | h1
              · exact (hs.1 b).2 q ⟨y, h1, hyq⟩
              · rw [List.mem_singleton.1 h1] at hyq
                exact hyq ▸ hh
          · rw [modBay_bay_ne s _ hb]
            refine ⟨(hs.1 c).1, fun q hw => (hs.1 c).2 q ?_⟩
            rwa [waitsAt, modBay_bay_ne s _ hb] at hw
        · have hn := hs.2 q hq c
          have hne : x.port ≠ q := fun e => hq (e ▸ hp)
          by_cases hb : b = c
          · subst hb
            refine ⟨?_, ?_⟩
            · rw [modBay_bay_self]
              exact hn.1
            · rintro ⟨y, hy, hyq⟩
              rw [modBay_bay_self] at hy
              rcases List.mem_append.1 hy with h1 | h1
              · exact hn.2 ⟨y, h1, hyq⟩
              · rw [List.mem_singleton.1 h1] at hyq
                exact hne hyq
          · refine ⟨?_, ?_⟩
            · rw [modBay_bay_ne s _ hb]
              exact hn.1
            · rw [waitsAt, modBay_bay_ne s _ hb]
              exact hn.2
      softReset := fun _ _ hs => hs
      intake := fun _ _ _ _ _ hs => hs
      presence := fun s p f hf hs => hs.presence (fun hn b => hs.2 p (hf ▸ hn) b)
      shift := fun s p f hp hs => hs.presence (fun _ b => hs.2 p hp b)
      test := fun s p q f ht hs => hs.presence (fun _ b => testBusy_nothing ht b)
      leave := fun s cause p f hs hu => by
        have hn := cleanUp_nothing cause p s hs.1
        generalize (cleanUp cause p s).state = u at hu hn ⊢
        exact hu.presence (fun _ b => hn b)
      soft := fun s _ => ClaimsSafe.empty fun b => by
        have hb : (softValues s).bay b = softBay (s.bay b) := byBay_get (fun b => softBay s.bays[b]) b
        rw [hb]
        exact ⟨rfl, fun p => no_holder _ rfl p⟩ }
  right := fun _ _ _ _ hs => hs
  quota := fun _ _ _ hs => hs
  enabled := fun _ _ hs => hs
  timeTag := fun _ _ _ hs => hs
  assert := fun s t ht hs => next_inj ht ▸ hs
  release := fun _ hs => hs
  hard := fun s r _ => ClaimsSafe.empty fun b => by
    have hb : (hardValues r s).bay b = hardBay r.policies[b] := byBay_get (fun b => hardBay r.policies[b]) b
    rw [hb]
    exact ⟨rfl, fun p => no_holder _ rfl p⟩
  tick := fun s hs => by
    unfold tick
    split
    · exact hs
    · exact hs
  queue := fun _ _ hs => hs

end Sys2Proof.Machine
end

