-- ==== Sys2Proof/Laws/Ready.lean ====
section
/-! SUPPORT. What follows when a head can be served: the row of its kind takes its event, and a management request that
passes the common checks reaches its block. -/

namespace Sys2Proof.Machine

theorem HeadReady.served {s : State} {p : Port} {f : InFrame} (h : HeadReady s p f) : servedHead s p = some f := by
  obtain ⟨h1, h2, h3, h4, h5⟩ := h
  refine (servedHead_eq_some s p f).2 ⟨h1, ?_, h3, h4, h5⟩
  unfold handlerStopped
  split
  · next r hr =>
    obtain ⟨ha, hb⟩ := h2 r hr
    simp [ha, hb]
  · rfl

/-- A head of the row's kind takes its event. -/
theorem HeadReady.serves {s : State} {p : Port} {f : InFrame} (h : HeadReady s p f) {names : InFrame → Bool}
    (hn : names f = true) (event : FrameFields → State → State) :
    serveHead p names event s = .next (transmit (event f.fields s)) :=
  serveHead_served p names event s f h.served hn

theorem ofSubKind_self (sub : SubKind) (f : FrameFields) (h : f.arg = subKindCode sub) :
    ofSubKind sub { kind := kindManage, fields := f } = true := by
  simp [ofSubKind, h]

theorem isSubKind_code (sub : SubKind) : isSubKind (subKindCode sub) = true := by
  cases sub <;> decide

theorem ManageReady.refusal {s : State} {p : Port} {sub : SubKind} {f : FrameFields} (h : ManageReady s p sub f) :
    manageRefusal s p f = none := by
  obtain ⟨-, ha, hr, hc, hf⟩ := h
  simp [manageRefusal, portRefusal, ha, hr, hc, hf, isSubKind_code]

/-- A management request that passes the common checks reaches its block. -/
theorem ManageReady.serves {s : State} {p : Port} {sub : SubKind} {f : FrameFields} (h : ManageReady s p sub f)
    (request : FrameFields → State → State) :
    serveManage p sub request s = .next (transmit (request f s)) :=
  serveManage_passed p sub request s { kind := kindManage, fields := f } h.1.served (ofSubKind_self sub f h.2.2.2.1)
    h.refusal

/-- A request of an ACTIVE port passes the port-state check. -/
theorem portRefusal_active {s : State} {p : Port} (h : (s.presence p).state = .active) : portRefusal s p = none := by
  rw [portRefusal, h]

/-- R138: the head's answer takes its place and the head leaves, in one update of the port. -/
theorem answerHead_eq (p : Port) (frame : OutFrame) (s : State) :
    answerHead p frame s =
      s.modPort p fun n =>
        flowAct
          { n with answers := n.answers ++ [{ frame := frame }], intake := n.intake.drop 1, reserved := false } := by
  rw [answerHead, placeAnswer, leaveHead, modPort_modPort]

end Sys2Proof.Machine
end

