-- ==== Sys2Proof/Laws/Events.lean ====
section
/-! SUPPORT. What raising an event and producing a record change, and what they leave alone. -/

namespace Sys2Proof.Machine

/-- With no ACTIVE supervisor port, nothing changes. -/
theorem tellSupervisors_none (s : State) (h : ∀ p, hearsEvents s p = false) : tellSupervisors s = s := by
  unfold tellSupervisors
  generalize allPorts = l
  induction l with
  | nil => rfl
  | cons p l ih => simp only [List.foldl_cons, h p]; exact ih

/-- R185: raising an event that no supervisor port can hear. -/
theorem raiseEvent_unheard (e : Event) (s : State)
    (h : ∀ r a p, hearsEvents { s with raised := r, alert := a } p = false)
    (hn : hasEvent s.raised e = false) :
    raiseEvent e s = { s with raised := s.raised ||| eventBit e, alert := shareEvent (s.raised ||| eventBit e) s.enabled } := by
  rw [raiseEvent_eq, if_neg (by rw [hn]; decide)]
  split
  · rw [tellSupervisors_none]
    · rfl
    · intro p; exact h _ _ p
  · rfl

/-- R171: producing a record changes the Journal, the raised set, ALERT and event-news flags at most. -/
theorem appendRecord_only (x : Entry) (s : State) : ∃ (r : EventSet) (a : Bool) (j : Journal), ∃ u : State,
    u = { s with raised := r, alert := a, journal := j } ∧
        (appendRecord x s = u ∨ appendRecord x s = tellSupervisors u) := by
  have hre : ∀ e (v : State), ∃ r a, (raiseEvent e v = { v with raised := r, alert := a } ∨
      raiseEvent e v = tellSupervisors { v with raised := r, alert := a }) := by
    intro e v
    rw [raiseEvent_eq]
    split
    · exact ⟨v.raised, v.alert, Or.inl rfl⟩
    · split
      · exact ⟨_, _, Or.inr rfl⟩
      · exact ⟨_, _, Or.inl rfl⟩
  unfold appendRecord
  dsimp only
  split
  · split
    · obtain ⟨r, a, h⟩ := hre .journalHigh { s with journal := { s.journal with ring := s.journal.ring ++ [{ seq := s.journal.seq, time := s.timeTag.value, entry := x }], seq := s.journal.seq + 1 } }
      exact ⟨r, a, _, _, rfl, h⟩
    · exact ⟨s.raised, s.alert, _, _, rfl, Or.inl rfl⟩
  · obtain ⟨r, a, h⟩ := hre .journalLost { s with journal := { s.journal with seq := s.journal.seq + 1, lost := satAdd s.journal.lost 1 } }
    exact ⟨r, a, _, _, rfl, h⟩

/-- R186: who hears of an event, port by port. -/
theorem tellSupervisors_port (s : State) (q : Port) : (tellSupervisors s).port q = if hearsEvents s q then { s.port q with eventNews := true } else s.port q := by
  have gen : ∀ (l : List Port), l.Nodup → ∀ s : State,
      (l.foldl (fun s p => if hearsEvents s p then s.modPort p fun n => { n with eventNews := true } else s) s).port q =
        if q ∈ l ∧ hearsEvents s q = true then { s.port q with eventNews := true } else s.port q := by
    intro l
    induction l with
    | nil => intro _ s; simp
    | cons x l ih =>
      intro hn s
      have hx := (List.nodup_cons.1 hn).1
      simp only [List.foldl_cons]
      rw [ih (List.nodup_cons.1 hn).2]
      by_cases hq : q = x
      · subst hq
        rw [if_neg (by simp [hx])]
        by_cases hh : hearsEvents s q = true
        · rw [if_pos hh, if_pos ⟨List.mem_cons_self, hh⟩, modPort_port_self]
        · rw [if_neg hh, if_neg (by simp [hh])]
      · have e1 : ∀ f, (s.modPort x f).port q = s.port q := fun f => modPort_port_ne s f (Ne.symm hq)
        by_cases hh : hearsEvents s x = true
        · rw [if_pos hh]
          have e2 : hearsEvents (s.modPort x fun n => { n with eventNews := true }) q = hearsEvents s q := by
            unfold hearsEvents; rw [e1]; rfl
          rw [e1, e2]; simp [hq]
        · rw [if_neg hh]; simp [hq]
  have := gen allPorts (by decide) s
  simp only [mem_allPorts, true_and] at this
  exact this

/-- R186: telling the supervisors changes nothing but event-news flags. -/
theorem tellSupervisors_only (s : State) : tellSupervisors s = { s with ports := (tellSupervisors s).ports } := by
  have gen : ∀ (l : List Port) (s : State),
      (l.foldl (fun s p => if hearsEvents s p then s.modPort p fun n => { n with eventNews := true } else s) s) =
       { s with ports := (l.foldl (fun s p => if hearsEvents s p then s.modPort p fun n => { n with eventNews := true } else s) s).ports } := by
    intro l
    induction l with
    | nil => intro s; rfl
    | cons x l ih =>
      intro s
      simp only [List.foldl_cons]
      refine (ih _).trans ?_
      split <;> rfl
  exact gen allPorts s

theorem tellSupervisors_presence (s : State) (p : Port) : (tellSupervisors s).presence p = s.presence p := by
  have h : (tellSupervisors s).presences = s.presences := by
    refine (congrArg State.presences (tellSupervisors_only s)).trans ?_
    generalize (tellSupervisors s).ports = v
    rfl
  unfold State.presence
  rw [h]

theorem hasEvent_eventBit (e : Event) (x : EventSet) : hasEvent (x ||| eventBit e) e = true := by
  unfold hasEvent eventBit
  have : eventNumber e < 77 := by
    cases e <;> simp only [eventNumber]
    · omega
    · omega
    · omega
    · next b l => cases l <;> simp [laneIndex] <;> omega
    · omega
    · omega
    all_goals decide
  rw [BitVec.getLsbD_or, BitVec.getLsbD_shiftLeft]
  simp [this]

/-- R185: a raised event is in the raised set. -/
theorem raiseEvent_hasEvent (e : Event) (s : State) : hasEvent (raiseEvent e s).raised e = true := by
  rw [raiseEvent_eq]
  split
  · assumption
  · have h2 : hasEvent (withRaised e s).raised e = true := hasEvent_eventBit e s.raised
    split
    · have : (tellSupervisors (withRaised e s)).raised = (withRaised e s).raised := by
        have h := congrArg State.raised (tellSupervisors_only (withRaised e s))
        generalize tellSupervisors (withRaised e s) = w at h ⊢
        exact h
      rw [this]; exact h2
    · exact h2

theorem tellSupervisors_bays (s : State) : (tellSupervisors s).bays = s.bays := by
  have h := congrArg State.bays (tellSupervisors_only s)
  generalize tellSupervisors s = w at h ⊢
  exact h

theorem tellSupervisors_access (s : State) : (tellSupervisors s).access = s.access := by
  have h := congrArg State.access (tellSupervisors_only s)
  generalize tellSupervisors s = w at h ⊢
  exact h

theorem appendRecord_bays (x : Entry) (s : State) : (appendRecord x s).bays = s.bays := by
  obtain ⟨r, a, j, u, hu, h | h⟩ := appendRecord_only x s
  · rw [h, hu]
  · rw [h, tellSupervisors_bays, hu]

theorem appendRecord_access (x : Entry) (s : State) : (appendRecord x s).access = s.access := by
  obtain ⟨r, a, j, u, hu, h | h⟩ := appendRecord_only x s
  · rw [h, hu]
  · rw [h, tellSupervisors_access, hu]

/-- R185, R186: raising an event changes the raised set, ALERT and event-news flags at most. -/
theorem raiseEvent_only (e : Event) (s : State) : ∃ r a, raiseEvent e s = { s with raised := r, alert := a } ∨
    raiseEvent e s = tellSupervisors { s with raised := r, alert := a } := by
  rw [raiseEvent_eq]
  split
  · exact ⟨s.raised, s.alert, Or.inl rfl⟩
  · split
    · exact ⟨_, _, Or.inr rfl⟩
    · exact ⟨_, _, Or.inl rfl⟩

theorem raiseEvent_bays (e : Event) (s : State) : (raiseEvent e s).bays = s.bays := by
  obtain ⟨r, a, h | h⟩ := raiseEvent_only e s
  · rw [h]
  · rw [h, tellSupervisors_bays]

theorem raiseEvent_access (e : Event) (s : State) : (raiseEvent e s).access = s.access := by
  obtain ⟨r, a, h | h⟩ := raiseEvent_only e s
  · rw [h]
  · rw [h, tellSupervisors_access]

theorem bay_congr {s t : State} (h : s.bays = t.bays) (b : Bay) : s.bay b = t.bay b := by
  unfold State.bay; rw [h]

theorem eventNumber_lt (e : Event) : eventNumber e < 77 := by
    cases e <;> simp only [eventNumber]
    · omega
    · omega
    · omega
    · next b l => cases l <;> simp [laneIndex] <;> omega
    · omega
    · omega
    all_goals decide

theorem laneIndex_lt (l : Lane) : laneIndex l < 2 := by cases l <;> decide

theorem laneIndex_inj {l m : Lane} (h : laneIndex l = laneIndex m) : l = m := by
  revert h; cases l <;> cases m <;> decide

/-- R193: no two events share a number. -/
theorem eventNumber_inj {x e : Event} (h : eventNumber x = eventNumber e) : x = e := by
  cases x with
  | laneDown b l =>
    have := laneIndex_lt l
    cases e with
    | laneDown b' l' =>
      have := laneIndex_lt l'
      simp only [eventNumber] at h
      have h1 : b = b' := Fin.eq_of_val_eq (by omega)
      have h2 : l = l' := laneIndex_inj (by omega)
      rw [h1, h2]
    | _ => simp only [eventNumber] at h; omega
  | _ =>
    cases e with
    | laneDown b' l' =>
      have := laneIndex_lt l'
      simp only [eventNumber] at h; omega
    | _ =>
      simp only [eventNumber] at h
      first
        | rfl
        | omega
        | (congr 1; apply Fin.eq_of_val_eq; omega)

/-- R185: what joins the raised set is the event raised and no other. -/
theorem hasEvent_or (s : EventSet) (e x : Event) : hasEvent (s ||| eventBit e) x = (hasEvent s x || decide (x = e)) := by
  unfold hasEvent eventBit
  have h1 := eventNumber_lt x
  have h2 := eventNumber_lt e
  rw [BitVec.getLsbD_or, BitVec.getLsbD_shiftLeft]
  congr 1
  by_cases hxe : x = e
  · subst hxe; simp [h1]
  · have : eventNumber x ≠ eventNumber e := fun h => hxe (eventNumber_inj h)
    simp [hxe, h1]
    omega

theorem tellSupervisors_pool (s : State) : (tellSupervisors s).pool = s.pool := by
  have h := congrArg State.pool (tellSupervisors_only s)
  generalize tellSupervisors s = w at h ⊢
  exact h

theorem appendRecord_pool (x : Entry) (s : State) : (appendRecord x s).pool = s.pool := by
  obtain ⟨r, a, j, u, hu, h | h⟩ := appendRecord_only x s
  · rw [h, hu]
  · rw [h, tellSupervisors_pool, hu]

theorem raiseEvent_pool (e : Event) (s : State) : (raiseEvent e s).pool = s.pool := by
  obtain ⟨r, a, h | h⟩ := raiseEvent_only e s
  · rw [h]
  · rw [h, tellSupervisors_pool]

theorem appendRecord_now (x : Entry) (s : State) : (appendRecord x s).now = s.now := by
  obtain ⟨r, a, j, u, hu, h | h⟩ := appendRecord_only x s
  · rw [h, hu]
  · rw [h]
    have h := congrArg State.now (tellSupervisors_only u)
    generalize tellSupervisors u = w at h ⊢
    rw [h, hu]

theorem tellSupervisors_drives (s : State) : (tellSupervisors s).drives = s.drives := by
  have h := congrArg State.drives (tellSupervisors_only s)
  generalize tellSupervisors s = w at h ⊢
  exact h

theorem appendRecord_drives (x : Entry) (s : State) : (appendRecord x s).drives = s.drives := by
  obtain ⟨r, a, j, u, hu, h | h⟩ := appendRecord_only x s
  · rw [h, hu]
  · rw [h, tellSupervisors_drives, hu]

theorem raiseEvent_drives (e : Event) (s : State) : (raiseEvent e s).drives = s.drives := by
  obtain ⟨r, a, h | h⟩ := raiseEvent_only e s
  · rw [h]
  · rw [h, tellSupervisors_drives]

theorem shareEvent_iff (x y : EventSet) : shareEvent x y = true ↔ x &&& y ≠ 0 := by
  unfold shareEvent; simp

theorem satAdd_satAdd (c : Word32) (n m : Nat) : satAdd (satAdd c n) m = satAdd c (n + m) := by
  unfold satAdd
  have : (BitVec.ofNat 32 (min (c.toNat + n) (2 ^ 32 - 1))).toNat = min (c.toNat + n) (2 ^ 32 - 1) := by
    rw [BitVec.toNat_ofNat]; exact Nat.mod_eq_of_lt (by omega)
  rw [this]
  congr 1; omega

theorem satAdd_zero (c : Word32) : satAdd c 0 = c := by
  unfold satAdd
  have := c.isLt
  apply BitVec.eq_of_toNat_eq
  rw [BitVec.toNat_ofNat]; omega

end Sys2Proof.Machine
end

