-- ==== Sys2Proof/Laws/Codes.lean ====
section
/-! SUPPORT. Numbers in bytes, codes that name nothing, and the field checks as statements about the fields. -/

namespace Sys2Proof.Machine

theorem natOf_acc (l : List Byte) : ∀ a : Nat,
    l.foldl (fun acc x => acc * 256 + x.toNat) a = a * 256 ^ l.length + natOf l := by
  unfold natOf
  induction l with
  | nil => intro a; simp
  | cons x l ih =>
    intro a
    simp only [List.foldl_cons, List.length_cons]
    rw [ih (a * 256 + x.toNat), ih (0 * 256 + x.toNat)]
    rw [Nat.pow_succ, Nat.add_mul, Nat.zero_mul, Nat.zero_add, Nat.mul_assoc, Nat.mul_comm 256, Nat.add_assoc]

theorem natOf_cons (x : Byte) (l : List Byte) : natOf (x :: l) = x.toNat * 256 ^ l.length + natOf l := by
  show (l.foldl _ (0 * 256 + x.toNat)) = _
  rw [natOf_acc, Nat.zero_mul, Nat.zero_add]

theorem bytesOf_length (n v : Nat) : (bytesOf n v).length = n := by
  induction n with
  | zero => rfl
  | succ n ih => simp [bytesOf, ih]

/-- A field reads back as the number that was put into it, modulo its width. -/
theorem natOf_bytesOf (n v : Nat) : natOf (bytesOf n v) = v % 256 ^ n := by
  induction n with
  | zero => simp [bytesOf, natOf, Nat.mod_one]
  | succ n ih =>
    rw [bytesOf, natOf_cons, bytesOf_length, ih, BitVec.toNat_ofNat, Nat.shiftRight_eq_div_pow]
    have h : 2 ^ (8 * n) = 256 ^ n := by rw [Nat.pow_mul]
    rw [h, Nat.mul_comm, Nat.add_comm, show (256:Nat) ^ (n+1) = 256 ^ n * 2 ^ 8 from Nat.pow_succ ..]
    exact (Nat.mod_mul (x := v) (a := 256 ^ n) (b := 2 ^ 8)).symm

theorem slice_append (a m r : List Byte) (off n : Nat) (h1 : a.length = off) (h2 : m.length = n) :
    slice (a ++ (m ++ r)) off n = m := by
  subst h1; subst h2
  simp [slice]

/-- A field stands where the bytes before it end. -/
theorem fieldAt_append (a m r : List Byte) (off n : Nat) (h1 : a.length = off) (h2 : m.length = n) :
    fieldAt (a ++ (m ++ r)) off n = natOf m := by
  rw [fieldAt, slice_append a m r off n h1 h2]

theorem helloOk_iff (f : FrameFields) : helloOk f = true ↔
    f.flags = 0 ∧ f.bay = 0 ∧ f.arg = 0 ∧ f.count = 0 ∧ f.serial = 0 ∧ f.block = 0 ∧ f.payload = [] := by
  simp [helloOk, and_assoc]

theorem modeOf_none {x : Byte} : modeOf x = none ↔ x ≠ 1 ∧ x ≠ 2 := by
  unfold modeOf
  split
  · next h => simp [h]
  · split
    · next h => simp [h]
    · next h1 h2 => exact ⟨fun _ => ⟨h1, h2⟩, fun _ => rfl⟩

theorem claimFieldsOk_iff (f : FrameFields) : claimFieldsOk f = true ↔ (f.flags = 0 ∨ f.flags = 1) ∧
    f.count = 0 ∧ f.serial = 0 ∧ f.block = 0 := by
  simp [claimFieldsOk, and_assoc]

theorem bayOf_none {x : Byte} : bayOf x = none ↔ 12 ≤ x.toNat := by
  unfold bayOf
  split
  · next h => simp; omega
  · next h => simp; omega

theorem portOf_none {x : Byte} : portOf x = none ↔ 8 ≤ x.toNat := by
  unfold portOf
  split
  · next h => simp; omega
  · next h => simp; omega

theorem cancelFieldsOk_iff (f : FrameFields) : cancelFieldsOk f = true ↔ f.flags = 0 ∧ f.arg = 0 ∧ f.count = 0 ∧
    f.serial = 0 ∧ f.block = 0 := by
  simp [cancelFieldsOk, and_assoc]

theorem releaseFieldsOk_iff (f : FrameFields) : releaseFieldsOk f = true ↔ f.flags = 0 ∧ f.arg = 0 ∧
    f.count = 0 ∧ f.block = 0 := by
  simp [releaseFieldsOk, and_assoc]

theorem operationFieldsOk_iff (kind : OpKind) (f : FrameFields) : operationFieldsOk kind f = true ↔ f.flags = 0 ∧
    f.arg = 0 ∧ (kind = .sync → f.count = 0 ∧ f.block = 0) := by
  cases kind <;> simp [operationFieldsOk, and_assoc]

theorem unusedZero_iff (f : FrameFields) : unusedZero f = true ↔ f.bay = 0 ∧ f.count = 0 ∧ f.serial = 0 ∧
    f.block = 0 := by
  simp [unusedZero, and_assoc]

theorem unusedZeroButBay_iff (f : FrameFields) : unusedZeroButBay f = true ↔ f.count = 0 ∧ f.serial = 0 ∧
    f.block = 0 := by
  simp [unusedZeroButBay, and_assoc]

theorem unusedZeroButBayCount_iff (f : FrameFields) : unusedZeroButBayCount f = true ↔ f.serial = 0 ∧
    f.block = 0 := by
  simp [unusedZeroButBayCount]

theorem unusedZero_false {f : FrameFields} (h : f.bay ≠ 0 ∨ f.count ≠ 0 ∨ f.serial ≠ 0 ∨
    f.block ≠ 0) : unusedZero f = false := by
  rw [Bool.eq_false_iff]; intro hx; rw [unusedZero_iff] at hx; obtain ⟨a, b, c, d⟩ := hx
  rcases h with h | h | h | h <;> exact h (by assumption)

theorem unusedZeroButBay_false {f : FrameFields} (h : f.count ≠ 0 ∨ f.serial ≠ 0 ∨
    f.block ≠ 0) : unusedZeroButBay f = false := by
  rw [Bool.eq_false_iff]; intro hx; rw [unusedZeroButBay_iff] at hx; obtain ⟨b, c, d⟩ := hx
  rcases h with h | h | h <;> exact h (by assumption)

/-- The same for a request that uses its bay field. -/
theorem payloadOrUsed_butBay {f : FrameFields} (h : f.payload ≠ [] ∨ f.count ≠ 0 ∨ f.serial ≠ 0 ∨
    f.block ≠ 0) : ¬ (f.payload = [] ∧ unusedZeroButBay f = true) := by
  rintro ⟨a, b⟩
  rcases h with h | h
  · exact h a
  · rw [unusedZeroButBay_false h] at b; cases b

/-- A request with a payload, or with a field it does not use, fails its field check. -/
theorem payloadOrUsed {f : FrameFields} (h : f.payload ≠ [] ∨ f.bay ≠ 0 ∨ f.count ≠ 0 ∨ f.serial ≠ 0 ∨
    f.block ≠ 0) : ¬ (f.payload = [] ∧ unusedZero f = true) := by
  rintro ⟨a, b⟩
  rcases h with h | h
  · exact h a
  · rw [unusedZero_false h] at b; cases b

theorem bayOf_lt {x : Byte} (h : x.toNat < 12) : ∃ b, bayOf x = some b :=
    ⟨⟨x.toNat, h⟩, by unfold bayOf; rw [dif_pos h]⟩

theorem portOf_lt {x : Byte} (h : x.toNat < 8) : ∃ b, portOf x = some b :=
    ⟨⟨x.toNat, h⟩, by unfold portOf; rw [dif_pos h]⟩

theorem portOf_byte (q : Port) : portOf (byte q.val) = some q := by revert q; decide

theorem rightOf_code (r : Right) : rightOf (rightCode r) = some r := by cases r <;> rfl

theorem rightOf_none {y : Byte} (h : 2 < y.toNat) : rightOf y = none := by
  unfold rightOf
  rw [if_neg, if_neg, if_neg] <;> (intro e; subst e; revert h; decide)

theorem natOf_bytesOf_two {ms : Nat} (h : ms < 65536) : natOf (bytesOf 2 ms) = ms := by
  rw [natOf_bytesOf]; exact Nat.mod_eq_of_lt h

theorem byte_toNat {n : Nat} (h : n < 256) : (byte n).toNat = n := by
  unfold byte; rw [BitVec.toNat_ofNat]; exact Nat.mod_eq_of_lt h

theorem natOf_one (x : Byte) : natOf [x] = x.toNat := by simp [natOf]

theorem resolutionOf_none {r : Byte} (h : 3 < r.toNat) : resolutionOf r = none := by
  unfold resolutionOf
  rw [if_neg, if_neg, if_neg, if_neg] <;> (intro e; subst e; revert h; decide)

theorem laneOf_none {n : BitVec 16} (h1 : n ≠ 1) (h2 : n ≠ 2) : laneOf n.toNat = none := by
  unfold laneOf
  rw [if_neg, if_neg]
  · intro e; exact h2 (BitVec.eq_of_toNat_eq e)
  · intro e; exact h1 (BitVec.eq_of_toNat_eq e)

end Sys2Proof.Machine
end

