-- ==== Sys2Proof/Laws/Transmit.lean ====
section
/-! SUPPORT. What the Port Transmitters take, port by port, and what they leave alone. -/

namespace Sys2Proof.Machine

theorem modPort_congr (s : State) (p : Port) (f g : NodePort → NodePort) (h : f (s.port p) = g (s.port p)) :
    s.modPort p f = s.modPort p g := by
  unfold State.modPort
  rw [show f s.ports[p] = g s.ports[p] from h]

/-- R146: what taking makes of one port and its Reply List, as a function of that port's own state and the events. -/
def takenByPort (n : NodePort) (r : List CtxId) (news : EventSet) (ctx : CtxId → Context) : NodePort × List CtxId :=
  if n.tx.isSome || n.carrier = .down then (n, r)
  else
    match n.flowSlot with
    | some (.hold time) =>
        ({ n with flowSlot := none, tx := some { source := .hold, frame := { kind := .hold, detail := detailOf [time] } } }, r)
    | some .resume =>
      ({ n with flowSlot := none, tx := some { source := .resume, frame := { kind := .resume } } }, r)
    | none =>
      match n.answers with
      | a :: rest =>
        ({ n with answers := rest, tx := some { source := .answer a.resetPart, frame := a.frame } }, r)
      | [] =>
        match n.notices with
        | x :: rest =>
          ({ n with notices := rest, tx := some { source := .notice, frame := noticeFrame x } }, r)
        | [] =>
          if n.role = .supervisor && n.eventNews then
            ({ n with eventNews := false, tx := some { source := .event, frame := { kind := .event, payload := eventBytes news } } }, r)
          else
            match r with
            | c :: rest =>
                ({ n with tx := some { source := .reply c, frame := replyFrame (ctx c) } }, rest)
            | [] => (n, r)

theorem vector_set_self {α : Type} {n : Nat} (v : Vector α n) (i : Nat) (h : i < n) : v.set i v[i] = v := by
  simp

theorem modReplies_self (s : State) (p : Port) : (s.modReplies p fun _ => s.replies p) = s := by
  unfold State.modReplies State.replies
  simp

theorem modPort_same (s : State) (p : Port) : (s.modPort p fun _ => s.port p) = s := by
  unfold State.modPort State.port
  simp

theorem modPort_const (s : State) (p : Port) (f : NodePort → NodePort) :
    s.modPort p f = s.modPort p fun _ => f (s.port p) := modPort_congr s p _ _ rfl

/-- R146: taking acts on its own port and Reply List alone. -/
theorem takeFrame_eq (s : State) (p : Port) :
    takeFrame s p = (s.modReplies p fun _ => (takenByPort (s.port p) (s.replies p)
        (s.raised &&& s.enabled) s.ctx).2).modPort p
      fun _ => (takenByPort (s.port p) (s.replies p) (s.raised &&& s.enabled) s.ctx).1 := by
  have hid : ((s.modReplies p fun _ => s.replies p).modPort p fun _ => s.port p) = s := by
    rw [modReplies_self, modPort_same]
  have hq : ∀ f, s.modPort p f = ((s.modReplies p fun _ => s.replies p).modPort p fun _ => f (s.port p)) := by
    intro f; rw [modReplies_self, modPort_const]
  unfold takeFrame takenByPort
  dsimp only
  by_cases h0 : ((s.port p).tx.isSome || decide ((s.port p).carrier = .down)) = true
  · simp only [if_pos h0]; exact hid.symm
  · simp only [if_neg h0]
    rcases hfs : (s.port p).flowSlot with _ | _ | _
    · rcases ha : (s.port p).answers with _ | ⟨a, rest⟩
      · rcases hx : (s.port p).notices with _ | ⟨x, rest⟩
        · dsimp only
          by_cases he : (decide ((s.port p).role = .supervisor) && (s.port p).eventNews) = true
          · rw [if_pos he, if_pos he, hq]; simp only [hfs, ha, hx]; rfl
          · rw [if_neg he, if_neg he]
            rcases hc : s.replies p with _ | ⟨c, rest⟩
            · rw [hc] at hid; simp only [← hfs, ← ha, ← hx]; exact hid.symm
            · dsimp only; rw [modPort_const]; simp only [← hfs, ← ha, ← hx]; rfl
        · dsimp only; rw [hq]; simp only [hfs, ha]
      · dsimp only; rw [hq]; simp only [hfs, ha]
    · dsimp only; rw [hq]
    · dsimp only; rw [hq]

/-- R146: transmitters in turn act each on its own port. -/
theorem transmit_fold (l : List Port) : l.Nodup → ∀ s : State,
    (∀ p, (l.foldl takeFrame s).port p = if p ∈ l then (takenByPort (s.port p) (s.replies p)
        (s.raised &&& s.enabled) s.ctx).1 else s.port p) ∧
    (∀ p, (l.foldl takeFrame s).replies p = if p ∈ l then (takenByPort (s.port p) (s.replies p)
        (s.raised &&& s.enabled) s.ctx).2 else s.replies p) ∧
    l.foldl takeFrame s = { s with ports := (l.foldl takeFrame s).ports, pool := { s.pool with replies := (l.foldl takeFrame s).pool.replies } } := by
  induction l with
  | nil => intro _ s; exact ⟨fun _ => rfl, fun _ => rfl, rfl⟩
  | cons x l ih =>
    intro hn s
    have hx := (List.nodup_cons.1 hn).1
    obtain ⟨h1, h2, h3⟩ := ih (List.nodup_cons.1 hn).2 (takeFrame s x)
    have hf := takeFrame_eq s x
    have hp : ∀ q, q ≠ x → (takeFrame s x).port q = s.port q := fun q hq => by
      rw [hf, modPort_port_ne _ _ (Ne.symm hq)]; rfl
    have hr : ∀ q, q ≠ x → (takeFrame s x).replies q = s.replies q := fun q hq => by
      rw [hf, modPort_replies_read, modReplies_replies_ne _ _ (Ne.symm hq)]
    have e1 : (takeFrame s x).raised = s.raised := by rw [hf]; rfl
    have e2 : (takeFrame s x).enabled = s.enabled := by rw [hf]; rfl
    have e3 : (takeFrame s x).ctx = s.ctx := by rw [hf]; rfl
    simp only [List.foldl_cons]
    refine ⟨fun p => ?_, fun p => ?_, ?_⟩
    · rw [h1, e1, e2, e3]
      by_cases hb : p = x
      · subst hb
        simp only [if_neg hx, List.mem_cons, true_or, if_true]
        rw [hf, modPort_port_self]
      · simp only [List.mem_cons, hb, false_or]
        rw [hp p hb, hr p hb]
    · rw [h2, e1, e2, e3]
      by_cases hb : p = x
      · subst hb
        simp only [if_neg hx, List.mem_cons, true_or, if_true]
        rw [hf, modPort_replies_read, modReplies_replies_self]
      · simp only [List.mem_cons, hb, false_or]
        rw [hp p hb, hr p hb]
    · refine h3.trans ?_
      generalize (List.foldl takeFrame (takeFrame s x) l) = w
      rw [hf]; rfl

/-- R146: the transmitters change ports and Reply Lists alone. -/
theorem transmit_only (s : State) : transmit s = { s with ports := (transmit s).ports, pool := { s.pool with replies := (transmit s).pool.replies } } := by
  obtain ⟨h1, h2, h3⟩ := transmit_fold allPorts (by decide) s
  have ht : transmit s = allPorts.foldl takeFrame s := rfl
  rw [← ht] at h3
  exact h3

theorem transmit_raised (s : State) : (transmit s).raised = s.raised := by
  have h3 := transmit_only s
  generalize transmit s = w at h3 ⊢
  have := congrArg State.raised h3
  exact this

end Sys2Proof.Machine
end

