-- ==== Sys2Proof/Laws/Reception.lean ====
section
/-! SUPPORT. How a frame that arrives, and a frame that has left, take their events. -/

namespace Sys2Proof.Machine

theorem passesLength_iff (l : List Byte) : passesLength l = true ↔
    (65600 < l.length ∨ 4 ≤ l.length ∧ fieldAt l 0 4 < l.length) := by
  unfold passesLength
  simp only [Bool.or_eq_true, Bool.and_eq_true, decide_eq_true_eq]
  rfl

theorem received_before {s : State} {p : Port} {before : List Byte}
    (h : (s.port p).receiver = .receiving before ∨ (s.port p).receiver = .idle ∧ before = []) :
    (s.port p).receiver ≠ .ignoring ∧ received (s.port p).receiver = before := by
  rcases h with h | ⟨h, rfl⟩
  · rw [h]; exact ⟨by simp, rfl⟩
  · rw [h]; exact ⟨by simp, rfl⟩

/-- R134: a frame's end mark arrives. -/
theorem exec_frameReceive (s : State) (p : Port) (before bytes : List Byte) (hr : s.phase = .running)
    (hc : (s.port p).carrier = .up)
    (h : (s.port p).receiver = .receiving before ∨ (s.port p).receiver = .idle ∧ before = []) :
    exec (.frameReceive p bytes) s = .next (transmit (endFrame p (before ++ bytes)
        (s.modPort p fun n => { n with receiver := .idle }))) := by
  obtain ⟨hn, hb⟩ := received_before h
  simp only [exec, execFrameReceive, hc]
  rw [if_neg (by decide), whenRunning_running _ _ hr]
  rcases h with h | ⟨h, rfl⟩ <;> rw [h] <;> rfl

/-- R134: bytes arrive and the length watchdog judges them. -/
theorem exec_overLengthCut (s : State) (p : Port) (before bytes : List Byte) (hr : s.phase = .running)
    (hc : (s.port p).carrier = .up)
    (h : (s.port p).receiver = .receiving before ∨ (s.port p).receiver = .idle ∧ before = []) :
    exec (.overLengthCut p bytes) s = .next (transmit (
       if passesLength (before ++ bytes) then
          countDiscard p (fun t => { t with lengthDiscards := satAdd t.lengthDiscards 1 })
            (s.modPort p fun n => { n with receiver := .ignoring })
        else s.modPort p fun n => { n with receiver := .receiving (before ++ bytes) })) := by
  simp only [exec, execOverLengthCut, hc]
  rw [if_neg (by decide), whenRunning_running _ _ hr]
  rcases h with h | ⟨h, rfl⟩ <;> rw [h] <;> rfl

/-- R134: while the rest of a frame is ignored, its end mark frees the receiver. -/
theorem exec_frameReceive_ignoring (s : State) (p : Port) (bytes : List Byte) (hr : s.phase = .running)
    (hc : (s.port p).carrier = .up) (hi : (s.port p).receiver = .ignoring) :
    exec (.frameReceive p bytes) s = .next (transmit (s.modPort p fun n => { n with receiver := .idle })) := by
  simp only [exec, execFrameReceive, hc]
  rw [if_neg (by decide), whenRunning_running _ _ hr, hi]

/-- R134: while the rest of a frame is ignored, bytes that arrive change nothing. -/
theorem exec_overLengthCut_ignoring (s : State) (p : Port) (bytes : List Byte) (hr : s.phase = .running)
    (hc : (s.port p).carrier = .up) (hi : (s.port p).receiver = .ignoring) :
    exec (.overLengthCut p bytes) s = .next (transmit s) := by
  simp only [exec, execOverLengthCut, hc]
  rw [if_neg (by decide), whenRunning_running _ _ hr, hi]

theorem arrive_running (s : State) (p : Port) (k : Byte) (f : FrameFields) (hr : s.phase = .running)
    (hc : (s.port p).carrier = .up) :
    arrive p k f s = .next (transmit (acceptFrame p { kind := k, fields := f } (s.modPort p fun n => { n with receiver := .idle }))) := by
  unfold arrive
  rw [hc, if_neg (by decide), whenRunning_running _ _ hr]

/-- R134, R135: the last bytes of a frame arrive and it is accepted. -/
theorem exec_frameReceive_accepted (s : State) (p : Port) (f : InFrame) (before bytes : List Byte)
    (hr : s.phase = .running) (hc : (s.port p).carrier = .up)
    (h : (s.port p).receiver = .receiving before ∨ (s.port p).receiver = .idle ∧ before = [])
    (hj : judgeFrame (before ++ bytes) = .accepted f) :
    exec (.frameReceive p bytes) s =
      .next (transmit (acceptFrame p f (s.modPort p fun n => { n with receiver := .idle }))) := by
  rw [exec_frameReceive s p before bytes hr hc h]
  unfold endFrame
  rw [hj]

/-- R135, R158: what acceptance itself changes. -/
theorem noteAccepted_eq (s : State) (p : Port) :
    noteAccepted p (s.modPort p fun n => { n with receiver := .idle }) =
      (((s.modPort p fun n => { n with receiver := .idle, silent := false }).modPortStats p fun t =>
          { t with accepted := satAdd t.accepted 1 }).modPresence p fun m =>
        if m.state = .active then { m with miss := 0, beatTimer := some (s.now + m.window * 1000) } else m) := by
  unfold noteAccepted signOfLife
  dsimp only
  rw [modPort_modPort]
  rfl

theorem accepted_presence (s : State) (p q : Port) :
    (((((s.modPort p fun n => { n with receiver := .idle, silent := false }).modPortStats p fun t =>
          { t with accepted := satAdd t.accepted 1 }).modPresence p fun m =>
        if m.state = .active then { m with miss := 0, beatTimer := some (s.now + m.window * 1000) } else m)).presence q).state = (s.presence q).state := by
  rw [modPresence_presence]
  split
  · next h =>
    subst h
    simp only [modPortStats_presence_read, modPort_presence_read]
    by_cases hx : (s.presence p).state = .active
    · simp [hx]
    · simp [hx]
  · rfl

theorem acceptFrame_eq (s : State) (p : Port) (f : InFrame) (h : (s.presence p).state ≠ .off) :
    acceptFrame p f (s.modPort p fun n => { n with receiver := .idle }) =
      routeFrame p f (((s.modPort p fun n => { n with receiver := .idle, silent := false }).modPortStats p fun t =>
          { t with accepted := satAdd t.accepted 1 }).modPresence p fun m =>
        if m.state = .active then { m with miss := 0, beatTimer := some (s.now + m.window * 1000) } else m) := by
  unfold acceptFrame
  rw [modPort_presence_read, if_neg h, noteAccepted_eq]

/-- R146: the last byte of a frame leaves. -/
theorem exec_frameSent (p : Port) (x : TxFrame) (s : State) (hr : s.phase = .running) (hc : (s.port p).carrier = .up)
    (hx : (s.port p).tx = some x) :
    exec (.frameSent p) s = .next (transmit (frameLeft p x.source (s.modPort p fun n => { n with tx := none }))) := by
  simp only [exec, execFrameSent, hx, hc]
  rw [if_neg (by decide), whenRunning_running _ _ hr]

/-- R135: an accepted frame at a port that is not OFF is routed. -/
theorem arrive_routed (s : State) (p : Port) (k : Byte) (f : FrameFields) (hr : s.phase = .running)
    (hc : (s.port p).carrier = .up)
    (ho : (s.presence p).state ≠ .off) (b : State)
        (hb : b = (((s.modPort p fun n => { n with receiver := .idle, silent := false }).modPortStats p fun t =>
          { t with accepted := satAdd t.accepted 1 }).modPresence p fun m =>
        if m.state = .active then { m with miss := 0, beatTimer := some (s.now + m.window * 1000) } else m)) :
    arrive p k f s = .next (transmit (routeFrame p { kind := k, fields := f } b)) := by
  rw [arrive_running s p k f hr hc, acceptFrame_eq s p _ ho, ← hb]

theorem accepted_freeEntries (s : State) (p : Port) (m : Presence → Presence) :
    freeEntries ((((s.modPort p fun n => { n with receiver := .idle, silent := false }).modPortStats p fun t =>
          { t with accepted := satAdd t.accepted 1 }).modPresence p m).port p) = freeEntries (s.port p) := by
  simp [freeEntries, entriesInUse]

theorem routeFrame_hello (p : Port) (f : FrameFields) (b : State)
    (h : (b.presence p).state = .new ∨ (b.presence p).state = .active ∨ (b.presence p).state = .lapsed) :
    routeFrame p { kind := kindHello, fields := f } b = takeHello p f b := by
  unfold routeFrame
  rcases h with h | h | h <;> rw [h] <;> exact if_pos rfl

theorem routeFrame_beat (p : Port) (f : FrameFields) (b : State)
    (h : (b.presence p).state = .new ∨ (b.presence p).state = .active ∨ (b.presence p).state = .lapsed) :
    routeFrame p { kind := kindBeat, fields := f } b = takeBeat p b := by
  have h1 : ¬ kindBeat = kindHello := by decide
  unfold routeFrame
  rcases h with h | h | h <;> rw [h] <;> exact (if_neg h1).trans (if_pos rfl)

theorem routeFrame_test (p : Port) (k : Byte) (f : FrameFields) (b : State) (h : (b.presence p).state = .test)
    (hk : k ≠ kindPattern) :
    routeFrame p { kind := k, fields := f } b = b := by
  unfold routeFrame
  rw [h]; exact if_neg hk

theorem routeFrame_pattern (p : Port) (f : FrameFields) (b : State) (h : (b.presence p).state = .test) :
    routeFrame p { kind := kindPattern, fields := f } b = takePattern p f b := by
  unfold routeFrame
  rw [h]; exact if_pos rfl

theorem modPresence_modPresence (s : State) (p : Port) (f g : Presence → Presence) :
    (s.modPresence p f).modPresence p g = s.modPresence p fun n => g (f n) := by
  simp [State.modPresence]

theorem modPresence_congr (s : State) (p : Port) (f g : Presence → Presence)
    (h : f (s.presence p) = g (s.presence p)) :
    s.modPresence p f = s.modPresence p g := by
  unfold State.modPresence
  rw [show f s.presences[p] = g s.presences[p] from h]

theorem modPresence_id (s : State) (p : Port) (f : Presence → Presence)
    (h : f (s.presence p) = s.presence p) : s.modPresence p f = s := by
  refine (modPresence_congr s p f (fun m => m) h).trans ?_
  unfold State.modPresence; simp

end Sys2Proof.Machine
end

