-- ==== Sys2Proof/Laws/Probing.lean ====
section
/-! SUPPORT. What the start of probing makes, and how probe answers and response timers take their events. -/

namespace Sys2Proof.Machine

/-- R113: a Drive Engine whose probing has just started. -/
def probedDrive (now : Nat) (d : DriveEngine) : DriveEngine :=
  { d with
    slots := [], learnt := none,
    laneA := { d.laneA with
      state := .probing, probe := some { clear := true, deadline := now + 3200 * 1000 },
      number := d.laneA.number + 1, sent := some (.probe (d.laneA.number + 1) true 2400) },
    laneB := { d.laneB with
      state := .probing, probe := some { clear := true, deadline := now + 3200 * 1000 },
      number := d.laneB.number + 1, sent := some (.probe (d.laneB.number + 1) true 2400) } }

/-- R113: the start of probing at one bay. -/
theorem startProbing_eq (b : Bay) (s : State) :
    startProbing b s = (s.modBay b fun r => { r with capacity := 0 }).modDrive b (probedDrive s.now) := by
  simp only [startProbing, sendProbe, State.modDrive, State.modBay, DriveEngine.modLane, State.after,
      Config.probeTimeoutMs, Config.usPerMs, Config.probeWorkLimitMs]
  simp [probedDrive]

theorem startAllProbing_fold (l : List Bay) : l.Nodup → ∀ s : State,
    (∀ b, (l.foldl (fun s b => startProbing b s) s).drive b = if b ∈ l then probedDrive s.now (s.drive b) else s.drive b) ∧
    (∀ b, (l.foldl (fun s b => startProbing b s) s).bay b = if b ∈ l then { s.bay b with capacity := 0 } else s.bay b) ∧
    (l.foldl (fun s b => startProbing b s) s) = { s with
      bays := (l.foldl (fun s b => startProbing b s) s).bays,
          drives := (l.foldl (fun s b => startProbing b s) s).drives } := by
  induction l with
  | nil => intro _ s; exact ⟨fun b => rfl, fun b => rfl, rfl⟩
  | cons x l ih =>
    intro hn s
    have hx := (List.nodup_cons.1 hn).1
    obtain ⟨h1, h2, h3⟩ := ih (List.nodup_cons.1 hn).2 (startProbing x s)
    simp only [List.foldl_cons]
    refine ⟨fun b => ?_, fun b => ?_, ?_⟩
    · rw [h1, startProbing_eq]
      by_cases hb : b = x
      · subst hb
        simp only [if_neg hx, List.mem_cons, true_or, if_true]
        rw [modDrive_drive_self]; rfl
      · simp only [List.mem_cons, hb, false_or]
        rw [modDrive_drive_ne _ _ (Ne.symm hb)]
        rfl
    · rw [h2, startProbing_eq]
      by_cases hb : b = x
      · subst hb
        simp only [if_neg hx, List.mem_cons, true_or, if_true]
        exact modBay_bay_self s b (fun r => { r with capacity := 0 })
      · simp only [List.mem_cons, hb, false_or]
        have : ((s.modBay x fun r => { r with capacity := 0 }).modDrive x (probedDrive s.now)).bay b = s.bay b :=
          modBay_bay_ne (s := s) (fun r => { r with capacity := 0 }) (Ne.symm hb)
        rw [this]
    · refine h3.trans ?_
      simp only [startProbing_eq]
      rfl

/-- R190, R191: the start of probing at every bay. -/
theorem startAllProbing_eq (s : State) :
    (∀ b, (startAllProbing s).drive b = probedDrive s.now (s.drive b)) ∧
    (∀ b, (startAllProbing s).bay b = { s.bay b with capacity := 0 }) ∧
    startAllProbing s = { s with bays := (startAllProbing s).bays, drives := (startAllProbing s).drives } := by
  obtain ⟨h1, h2, h3⟩ := startAllProbing_fold allBays (by decide) s
  exact ⟨fun b => by have := h1 b; rw [if_pos (mem_allBays b)] at this; exact this,
    fun b => by have := h2 b; rw [if_pos (mem_allBays b)] at this; exact this, h3⟩

theorem lane_modLane (d : DriveEngine) (l : Lane)
    (f : LaneRecord → LaneRecord) : (d.modLane l f).lane l = f (d.lane l) := by cases l <;> rfl

theorem lane_modLane_other (d : DriveEngine) (l : Lane)
    (f : LaneRecord → LaneRecord) : (d.modLane l f).lane (otherLane l) = d.lane (otherLane l) := by cases l <;> rfl

theorem modLane_slots (d : DriveEngine) (l : Lane)
    (f : LaneRecord → LaneRecord) : (d.modLane l f).slots = d.slots := by cases l <;> rfl

theorem namedProbe_eq {s : State} {b : Bay} {l : Lane} {n : Nat} {x : Probe} (hp : ((s.drive b).lane l).probe = some x) (hn : ((s.drive b).lane l).number = n) :
    namedProbe s b l n = some x := by
  unfold namedProbe; dsimp only; rw [if_pos hn, hp]

theorem exec_probeAnswer {s : State} {b : Bay} {l : Lane} {n d : Nat} {reply : ProbeReply} (hr : s.phase = .running) (hp : ((s.drive b).lane l).probe = some { clear := true, deadline := d }) (hn : ((s.drive b).lane l).number = n)
    (h : reply ≠ .unreadable) : exec (.probeAnswer b l n reply) s = .next (transmit (handOut (probingCheck b (probeResolved b l reply s)))) := by
  simp only [exec, execProbeAnswer]
  rw [namedProbe_eq hp hn]; dsimp only
  rw [if_pos, whenRunning_running _ _ hr]
  cases reply <;> first | rfl | exact absurd rfl h

theorem exec_restoreProbeAnswer {s : State} {b : Bay} {l : Lane} {n d : Nat} {reply : ProbeReply} (hr : s.phase = .running) (hp : ((s.drive b).lane l).probe = some { clear := false, deadline := d }) (hn : ((s.drive b).lane l).number = n)
    (h : reply ≠ .unreadable) : exec (.restoreProbeAnswer b l n reply) s = .next (transmit (handOut (restoreResolved b l reply s))) := by
  simp only [exec, execRestoreProbeAnswer]
  rw [namedProbe_eq hp hn]; dsimp only
  rw [if_pos, whenRunning_running _ _ hr]
  cases reply <;> first | rfl | exact absurd rfl h

theorem exec_probeTimerExpiry {s : State} {b : Bay} {l : Lane} {d : Nat} {cl : Bool} (hr : s.phase = .running)
    (hp : ((s.drive b).lane l).probe = some { clear := cl, deadline := d }) (h : d ≤ s.now) :
    exec (.probeTimerExpiry b l) s = .next (transmit (handOut (probeExpired b l cl s))) := by
  simp only [exec, execProbeTimerExpiry]
  rw [hp]; dsimp only
  rw [if_pos h, whenRunning_running _ _ hr]

theorem modDrive_modDrive (s : State) (b : Bay)
    (f g : DriveEngine → DriveEngine) : (s.modDrive b f).modDrive b g = s.modDrive b fun d => g (f d) := by
  unfold State.modDrive; simp

theorem modDrive_congr (s : State) (b : Bay) (f g : DriveEngine → DriveEngine)
    (h : f (s.drive b) = g (s.drive b)) : s.modDrive b f = s.modDrive b g := by
  unfold State.modDrive; have h : f s.drives[b] = g s.drives[b] := h; rw [h]

theorem learnt_modLane (d : DriveEngine) (l : Lane) (f : LaneRecord → LaneRecord)
    (x) : { d.modLane l f with learnt := x } = ({ d with learnt := x } : DriveEngine).modLane l f := by cases l <;> rfl

/-- R111: the slot of a context is found by lane and attempt as well. -/
theorem slot_find {l : List Slot} {c : CtxId} {x : Slot} (h : l.find? (fun x => decide (x.ctx = c)) = some x)
    (la : Lane) (a : Nat) (h1 : x.lane = la) (h2 : x.attempt = a) :
    ∃ y, l.find? (fun slot => decide (slot.ctx = c) && decide (slot.lane = la) && decide (slot.attempt = a)) = some y := by
  cases hf : l.find? (fun slot => decide (slot.ctx = c) && decide (slot.lane = la) && decide (slot.attempt = a)) with
  | some y => exact ⟨y, rfl⟩
  | none =>
    exfalso
    have hm := List.mem_of_find?_eq_some h
    have := List.find?_eq_none.1 hf x hm
    apply this
    have hc := List.find?_some h
    simp only [Bool.and_eq_true, decide_eq_true_eq]
    exact ⟨⟨of_decide_eq_true hc, h1⟩, h2⟩

end Sys2Proof.Machine
end

