-- ==== Sys2Proof/Laws/ResetValues.lean ====
section
/-! SUPPORT. What the two resets leave once their events and records are accounted for. -/

namespace Sys2Proof.Machine

theorem hardValues_unheard (t : Settings) (s : State) (r : EventSet) (a : Bool) (p : Port) :
    hearsEvents { hardValues t s with raised := r, alert := a } p = false := by
  have : ({ hardValues t s with raised := r, alert := a } : State).presence p = hardPresence (t.roles[p]).2 t.limits[p] := byPort_get _ p
  unfold hearsEvents
  rw [this]
  unfold hardPresence
  dsimp only
  split <;> simp

/-- R190: after a hard reset CONFIG_FAULT is raised and heard by nobody. -/
theorem hardValues_configFault (t : Settings) (s : State) :
    raiseEvent .configFault (hardValues t s) =
      { hardValues t s with raised := eventBit .configFault, alert := hasEvent t.enabled .configFault } := by
  have h0 : hasEvent (hardValues t s).raised .configFault = false := by
    show hasEvent 0 .configFault = false
    decide
  rw [raiseEvent_eq, if_neg (by rw [h0]; decide)]
  have hw : withRaised .configFault (hardValues t s) = { hardValues t s with raised := eventBit .configFault, alert := hasEvent t.enabled .configFault } := by
    unfold withRaised driveAlert
    have e1 : (hardValues t s).raised ||| eventBit .configFault = eventBit .configFault := by
      show (0 : EventSet) ||| _ = _
      simp
    have e2 : shareEvent (eventBit .configFault) (hardValues t s).enabled = hasEvent t.enabled .configFault := by
      show shareEvent (eventBit .configFault) t.enabled = _
      generalize t.enabled = e
      unfold shareEvent hasEvent eventBit
      rw [Bool.eq_iff_iff]
      simp only [bne_iff_ne, ne_eq]
      constructor
      · intro h
        apply Classical.byContradiction
        intro hn
        apply h
        apply BitVec.eq_of_getLsbD_eq
        intro i hi
        simp only [BitVec.getLsbD_and, BitVec.getLsbD_shiftLeft, BitVec.getLsbD_one]
        simp [eventNumber] at hn ⊢
        by_cases h76 : i = 76
        · subst h76; simp [hn]
        · intro _ h1 _; have h1 := of_decide_eq_false h1; omega
      · intro h hz
        have := congrArg (fun v => v.getLsbD 76) hz
        simp [eventNumber] at this h
        rw [h] at this; exact absurd this (by decide)
    simp only [e1, e2]
  rw [hw]
  split
  · exact tellSupervisors_none _ (hardValues_unheard t s _ _)
  · rfl

/-- R189: settings with an enabled supervisor port stand as they are. -/
theorem withSupervisor_of (t : Settings) (h : ∃ p : Port,
    t.roles[p] = (Role.supervisor, true)) : withSupervisor t = t := by
  unfold withSupervisor
  rw [if_pos]
  obtain ⟨p, hp⟩ := h
  rw [List.any_eq_true]
  exact ⟨p, mem_allPorts p, decide_eq_true hp⟩

theorem withSupervisor_default : withSupervisor defaultSettings = defaultSettings :=
  withSupervisor_of _ ⟨0, by decide⟩

theorem softValues_unheard (s u : State) (h : u.presences = (softValues s).presences)
    (p : Port) : hearsEvents u p = false := by
  have : u.presence p = softPresence (s.presence p) := by
    show u.presences[p] = _
    rw [h]; exact byPort_get _ p
  unfold hearsEvents
  rw [this]
  unfold softPresence
  dsimp only
  split <;> simp

/-- R191: the RESET record of a soft reset and the events it raises, which nobody hears. -/
theorem softRecord_unheard (first : Port) (v : State)
    (hq : ∀ j r a p, hearsEvents { v with journal := j, raised := r, alert := a } p = false)
    (hr : v.raised = 0) (ha : v.alert = shareEvent 0 v.enabled) (r' : EventSet)
        (hr' : r' = (if v.journal.ring.length < 383 then 0
        else if v.journal.ring.length < 512 then eventBit .journalHigh
        else eventBit .journalLost ||| eventBit .journalHigh)) :
    softRecord first v = { v with
        journal := (if v.journal.ring.length < 512 then
          { v.journal with
            ring := v.journal.ring ++
              [{ seq := v.journal.seq, time := v.timeTag.value,
                 entry := { note := .reset .soft, port := some first } }],
            seq := v.journal.seq + 1 }
        else { v.journal with seq := v.journal.seq + 1, lost := satAdd v.journal.lost 1 }),
        raised := r', alert := shareEvent r' v.enabled } := by
  have hq' : ∀ j r a, raiseEvent .journalHigh { v with journal := j, raised := r, alert := a } =
      if hasEvent r .journalHigh then { v with journal := j, raised := r, alert := a } else
      { v with journal := j, raised := r ||| eventBit .journalHigh, alert := shareEvent (r ||| eventBit .journalHigh) v.enabled } := by
    intro j r a
    split
    · next h => rw [raiseEvent_eq, if_pos h]
    · next h => exact raiseEvent_unheard .journalHigh _ (fun r2 a2 p => hq j r2 a2 p) (Bool.eq_false_iff.2 h)
  have hl' : ∀ j, raiseEvent .journalLost { v with journal := j } =
      { v with journal := j, raised := eventBit .journalLost, alert := shareEvent (eventBit .journalLost) v.enabled } := by
    intro j
    have := raiseEvent_unheard .journalLost { v with journal := j } (fun r2 a2 p => hq j r2 a2 p)
        (by show hasEvent v.raised _ = false; rw [hr]; decide)
    rw [this]
    show { v with journal := j, raised := v.raised ||| eventBit .journalLost, alert := _ } = _
    rw [hr]
    rfl
  have hv : ∀ j, ({ v with journal := j } : State) = { v with journal := j, raised := 0, alert := shareEvent 0 v.enabled } := by
    intro j; rw [← hr] at ha ⊢; rw [← ha]
  unfold softRecord appendRecord
  dsimp only
  by_cases h1 : v.journal.ring.length < 512
  · have h1' : v.journal.ring.length < Config.journalRecords := h1
    rw [if_pos h1', if_pos h1]
    by_cases h2 : v.journal.ring.length < 383
    · have h3 : ¬ v.journal.ring.length + 1 = Config.journalHigh := by show ¬ _ = 384; omega
      rw [if_neg h3, if_neg]
      · subst hr'
        rw [if_pos h2]
        exact hv _
      · show ¬ 384 ≤ (v.journal.ring ++ _).length
        rw [List.length_append]; show ¬ 384 ≤ _ + 1; omega
    · have h5 : (eventBit .journalHigh) = r' := by subst hr'; rw [if_neg h2, if_pos h1]
      have h6 : raiseEvent .journalHigh { v with
        journal :=
          { v.journal with
            ring := v.journal.ring ++
              [{ seq := v.journal.seq, time := v.timeTag.value,
                 entry := { note := .reset .soft, port := some first } }],
            seq := v.journal.seq + 1 } } = { v with
        journal :=
          { v.journal with
            ring := v.journal.ring ++
              [{ seq := v.journal.seq, time := v.timeTag.value,
                 entry := { note := .reset .soft, port := some first } }],
            seq := v.journal.seq + 1 }, raised := r', alert := shareEvent r' v.enabled } := by
        rw [hv, hq', if_neg (by decide), ← h5]
        rfl
      by_cases h3 : v.journal.ring.length + 1 = Config.journalHigh
      · rw [if_pos h3, h6]
        have : raiseEvent .journalHigh { v with
          journal :=
            { v.journal with
              ring := v.journal.ring ++
                [{ seq := v.journal.seq, time := v.timeTag.value,
                   entry := { note := .reset .soft, port := some first } }],
              seq := v.journal.seq + 1 }, raised := r', alert := shareEvent r' v.enabled } = { v with
          journal :=
            { v.journal with
              ring := v.journal.ring ++
                [{ seq := v.journal.seq, time := v.timeTag.value,
                   entry := { note := .reset .soft, port := some first } }],
              seq := v.journal.seq + 1 }, raised := r', alert := shareEvent r' v.enabled } := by
          rw [hq', if_pos (by rw [← h5]; decide)]
        rw [this]
        split <;> rfl
      · rw [if_neg h3, if_pos, h6]
        show 384 ≤ (v.journal.ring ++ _).length
        rw [List.length_append]; show 384 ≤ _ + 1
        have : ¬ v.journal.ring.length + 1 = 384 := h3
        omega
  · have h1' : ¬ v.journal.ring.length < Config.journalRecords := h1
    have h2 : ¬ v.journal.ring.length < 383 := by omega
    rw [if_neg h1', if_neg h1, hl', if_pos (by show 384 ≤ v.journal.ring.length; omega), hq', if_neg (by decide)]
    subst hr'
    rw [if_neg h2, if_neg h1]

/-- R191: the RESET record of a soft reset. -/
theorem softRecord_eq (first : Port) (s : State) :
    softRecord first (driveAlert { softValues s with raised := 0 }) =
      { softValues s with
        journal := (if s.journal.ring.length < 512 then
          { s.journal with
            ring := s.journal.ring ++
              [{ seq := s.journal.seq, time := s.timeTag.value,
                 entry := { note := .reset .soft, port := some first } }],
            seq := s.journal.seq + 1 }
        else { s.journal with seq := s.journal.seq + 1, lost := satAdd s.journal.lost 1 }),
        raised := (if s.journal.ring.length < 383 then 0
        else if s.journal.ring.length < 512 then eventBit .journalHigh
        else eventBit .journalLost ||| eventBit .journalHigh),
        alert := shareEvent (if s.journal.ring.length < 383 then 0
        else if s.journal.ring.length < 512 then eventBit .journalHigh
        else eventBit .journalLost ||| eventBit .journalHigh) s.enabled } :=
  softRecord_unheard first (driveAlert { softValues s with raised := 0 })
      (fun j r a p => softValues_unheard s _ rfl p) rfl rfl _ rfl

theorem exec_resetTimerExpiry (s : State) (r : SoftPending) (hr : s.phase = .running) (h : s.softReset = some r)
    (hd : r.deadline ≤ s.now) : exec .resetTimerExpiry s = exec .softReset s := by
  simp only [exec, execResetTimerExpiry, execSoftReset, h, hd, if_true, softResetDue, decide_true, Bool.or_true]

theorem startIfAnswerGone_none (s : State) (h : s.softReset = none) : startIfAnswerGone s = s := by
  unfold startIfAnswerGone; rw [h]

/-- R191: while the first requester's answer is held, what becomes of a later requester's starts nothing. -/
theorem startIfAnswerGone_held (s : State) (r : SoftPending) (h : s.softReset = some r)
    (hh : resetAnswerHeld (s.port r.first) = true) : startIfAnswerGone s = s := by
  unfold startIfAnswerGone; rw [h]; simp only [resetAnswerGone, hh, Bool.not_true, Bool.false_eq_true, if_false]

/-- R191: a clean-up that has removed the first requester's answer starts the reset. -/
theorem startIfAnswerGone_gone (s : State) (r : SoftPending) (h : s.softReset = some r)
    (hh : resetAnswerHeld (s.port r.first) = false) : startIfAnswerGone s = performSoftReset r.first s := by
  unfold startIfAnswerGone; rw [h]; simp only [resetAnswerGone, hh, Bool.not_false, if_true]

end Sys2Proof.Machine
end

