-- ==== Sys2Proof/Laws/Serving.lean ====
section
/-! SUPPORT. How the request rows reach their meanings, and what refuses them. -/

namespace Sys2Proof.Machine

/-- R154: the status that refuses a request, by the port's state. -/
def refusalOf : PortState → Option Status
      | .active => none
      | .lapsed => some .lapsed
      | .off | .new | .test => some .notAdmitted

theorem portRefusal_eq {s : State} {p : Port} {st : PortState} (h : (s.presence p).state = st) :
    portRefusal s p = refusalOf st := by
  rw [portRefusal, h]; cases st <;> rfl

theorem exec_claim {s : State} {p : Port} {f : FrameFields} (h : HeadReady s p { kind := kindClaim, fields := f }) :
    exec (.claim p) s = .next (transmit (claimTaken p f s)) := by
  simp only [exec, execClaim]
  exact h.serves (by simp [ofKind]) (claimTaken p)

theorem portRefusal_notAdmitted {s : State} {p : Port} (h : (s.presence p).state = .new ∨
    (s.presence p).state = .off ∨ (s.presence p).state = .test) :
    portRefusal s p = some .notAdmitted := by
  rcases h with h | h | h <;> rw [portRefusal_eq h] <;> rfl

theorem waitsAt_iff {s : State} {p : Port} {b : Bay} : waitsAt s p b ↔
    ((s.bay b).claims.any fun x => decide (x.port = p)) = true := by
  rw [List.any_eq_true]; simp [waitsAt]

theorem claimTaken_at {s : State} {p : Port} {f : FrameFields} {mode : Mode} {b : Bay} (ha : (s.presence p).state = .active)
    (hm : modeOf f.arg = some mode) (hf : claimFieldsOk f = true) (hb : bayOf f.bay = some b) :
    claimTaken p f s = claimAt p f b mode s := by
  unfold claimTaken
  rw [portRefusal_active ha]
  simp only [hm, hf, hb]
  rfl

/-- R14, R15, R16, R17: a CLAIM that passes its checks. -/
theorem claimAt_reached {s : State} {p : Port} {f : FrameFields} {b : Bay} {mode : Mode}
    (hv : (s.bay b).availability = .inService ∨ (s.bay b).availability = .probing)
        (hr : permits (s.right p b) mode = true)
    (hd : (s.bay b).holder p = none) (hw : ¬ waitsAt s p b) (he : s.exhausted = false) :
    claimAt p f b mode s = if grantsAtOnce s b mode then claimGranted p f b mode s
      else if f.flags = 1 then claimBusy p f b s
      else claimQueued p f b mode s := by
  unfold claimAt
  dsimp only
  rw [if_neg (by rcases hv with h | h <;> rw [h] <;> decide),
      if_neg (by rcases hv with h | h <;> rw [h] <;> decide), if_neg (by rw [hr]; decide), hd]
  dsimp only
  rw [if_neg (fun h => hw (waitsAt_iff.2 h)), if_neg (by rw [he]; decide)]

theorem exec_cancel {s : State} {p : Port} {f : FrameFields} (h : HeadReady s p { kind := kindCancel, fields := f }) :
    exec (.cancel p) s = .next (transmit (cancelTaken p f s)) := by
  simp only [exec, execCancel]
  exact h.serves (by simp [ofKind]) (cancelTaken p)

theorem exec_release {s : State} {p : Port} {f : FrameFields} (h : HeadReady s p { kind := kindRelease, fields := f }) :
    exec (.release p) s = .next (transmit (releaseTaken p f s)) := by
  simp only [exec, execRelease]
  exact h.serves (by simp [ofKind]) (releaseTaken p)

theorem exec_release_at {p : Port} {f : FrameFields} {b : Bay} {s : State} (hh : RequestReady s p kindRelease f)
    (h1 : f.flags = 0) (h2 : f.arg = 0) (h3 : f.count = 0) (h4 : f.block = 0) (hb : bayOf f.bay = some b) :
    exec (.release p) s = .next (transmit (releaseAt p f b s)) := by
  rw [exec_release hh.1]
  unfold releaseTaken
  rw [portRefusal_active hh.2]
  simp only [(releaseFieldsOk_iff f).2 ⟨h1, h2, h3, h4⟩, hb]
  rfl

theorem exec_operationAdmission {s : State} {p : Port} {k : Byte} {kind : OpKind} {f : FrameFields} (h : HeadReady s p { kind := k, fields := f }) (hk : opKindOf k = some kind) :
    exec (.operationAdmission p) s = .next (transmit (admitOperation p kind f s)) := by
  simp only [exec, execOperationAdmission, h.served, hk]

theorem refusesOperation {s : State} {p : Port} {k : Byte} {kind : OpKind} {f : FrameFields} {st : Status} (h : HeadReady s p { kind := k, fields := f }) (hk : opKindOf k = some kind)
    (hc : admissionCheck s p kind f = .error st) : RefusesOperation p f s st := by
  unfold RefusesOperation AnswersOnly
  rw [exec_operationAdmission h hk]
  unfold admitOperation
  rw [hc]; rfl

/-- R180: every management row passes the common checks first. -/
theorem exec_manageRow (sub : SubKind) (p : Port) (s : State) : ∃ request : FrameFields → State → State,
    exec (manageRow sub p) s = serveManage p sub request s := by
  cases sub <;> exact ⟨_, rfl⟩

theorem manageRow_refused {sub : SubKind} {p : Port} {f : FrameFields} {s : State} {st : Status} (hh : HeadReady s p { kind := kindManage, fields := f }) (hk : f.arg = subKindCode sub)
    (hm : manageRefusal s p f = some st) :
    AnswersOnly (manageRow sub p) p { kind := .answer, status := st, tag := f.tag, bay := f.bay } s := by
  obtain ⟨r, hr⟩ := exec_manageRow sub p s
  unfold AnswersOnly
  rw [hr]
  unfold serveManage
  rw [hh.serves (ofSubKind_self sub f hk)]
  dsimp only
  rw [hm]; rfl

/-- A management request whose event is one answer does nothing else. -/
theorem answersOnly_of {c : Instr} {p : Port} {sub : SubKind} {f : FrameFields} {s : State} {request : FrameFields → State → State} {x : OutFrame}
    (hm : ManageReady s p sub f) (he : exec c s = serveManage p sub request s)
        (hr : request f s = answerHead p x s) : AnswersOnly c p x s := by
  unfold AnswersOnly; rw [he, hm.serves, hr]

theorem exec_served {c : Instr} {p : Port} {sub : SubKind} {f : FrameFields} {s : State} {request : FrameFields → State → State} {x : State}
    (hm : ManageReady s p sub f) (he : exec c s = serveManage p sub request s)
        (hr : request f s = x) : exec c s = .next (transmit x) := by
  rw [he, hm.serves, hr]

end Sys2Proof.Machine
end

