-- ==== Sys2Proof/Laws/Lending.lean ====
section
/-! SUPPORT. What grants, refusals, recalls and withdrawals do to bay records. -/

namespace Sys2Proof.Machine

theorem loanMode_vacant {r : BayRecord} (h : r.loanMode = .vacant) (p : Port) : r.holder p = none := by
  have : modeFits r.loanMode .exclusive = true := by rw [h]; rfl
  exact fits_exclusive this p

theorem claims_filter (l : List Claim) (p : Port) : (l.filter fun x => !decide (x.port = p)) = l.filter fun x => decide (x.port ≠ p) := by
  congr 1; funext x; simp

theorem removeClaim_eq (b : Bay) (p : Port) (s : State) :
    removeClaim b p s = s.modBay b fun r => { r with claims := r.claims.filter fun x => x.port ≠ p } := by
  unfold removeClaim
  simp only [claims_filter]

theorem grant_bay (b : Bay) (p : Port) (mode : Mode) (s : State) :
    (∃ h : Holder, h.mode = mode ∧ (grant b p mode s).bay b = { s.bay b with holders := (s.bay b).holders.set p (some h) }) ∧
    (∀ c, c ≠ b → (grant b p mode s).bay c = s.bay c) ∧ (grant b p mode s).access = s.access := by
  have ht : (takeSerial s).bays = s.bays ∧ (takeSerial s).access = s.access := by
    unfold takeSerial; dsimp only
    split
    · exact ⟨raiseEvent_bays _ _, raiseEvent_access _ _⟩
    · exact ⟨rfl, rfl⟩
  unfold grant
  dsimp only
  refine ⟨⟨{ mode := mode, serial := s.nextSerial, grantTag := (takeSerial s).timeTag.value, recalled := false, live := 0, blocksRead := 0, blocksWritten := 0 }, rfl, (bay_congr (appendRecord_bays _ _) b).trans ((modBay_bay_self _ _ _).trans ?_)⟩, fun c hc => (bay_congr (appendRecord_bays _ _) c).trans ((modBay_bay_ne _ _ (Ne.symm hc)).trans (bay_congr ht.1 c)), (appendRecord_access _ _).trans ht.2⟩
  · rw [bay_congr ht.1 b]

theorem claims_filter_head {x : Claim} {rest : List Claim} (h : (x :: rest).Pairwise fun x y => x.port ≠ y.port) :
    ((x :: rest).filter fun y => decide (y.port ≠ x.port)) = rest := by
  rw [List.filter_cons_of_neg (by simp)]
  apply List.filter_eq_self.2
  intro y hy
  have := (List.pairwise_cons.1 h).1 y hy
  exact decide_eq_true (Ne.symm this)

/-- R22: the grant of the head: the claim leaves, a holder joins. -/
theorem grantClaim_bay {b : Bay} {x : Claim} {rest : List Claim} {s : State} (hs : ClaimsSingle s)
    (hc : (s.bay b).claims = x :: rest) :
    (∃ h : Holder, h.mode = x.mode ∧ (grantClaim b x s).bay b = { s.bay b with claims := rest, holders := (s.bay b).holders.set x.port (some h) }) ∧
    (∀ c, c ≠ b → (grantClaim b x s).bay c = s.bay c) ∧ (grantClaim b x s).access = s.access := by
  unfold grantClaim
  dsimp only
  obtain ⟨⟨h, hm, h1⟩, h2, h3⟩ := grant_bay b x.port x.mode (removeClaim b x.port s)
  have hr : (removeClaim b x.port s).bay b = { s.bay b with claims := rest } := by
    rw [removeClaim_eq, modBay_bay_self]
    have := (hs b).1
    rw [hc] at this
    rw [hc, claims_filter_head this]
  refine ⟨⟨h, hm, ?_⟩, fun c hcb => ?_, ?_⟩
  · refine Eq.trans (show _ = (grant b x.port x.mode (removeClaim b x.port s)).bay b from rfl) ?_
    rw [h1, hr]
  · refine Eq.trans (show _ = (grant b x.port x.mode (removeClaim b x.port s)).bay c from rfl) ?_
    rw [h2 c hcb, removeClaim_eq, modBay_bay_ne _ _ (Ne.symm hcb)]
  · refine Eq.trans (show _ = (grant b x.port x.mode (removeClaim b x.port s)).access from rfl) ?_
    rw [h3, removeClaim_eq]; rfl

/-- R31: the refusal of the head: the claim leaves. -/
theorem refuseClaim_bay {b : Bay} {x : Claim} {rest : List Claim} {s : State} (cause : Cause) (sil : Bool)
    (hs : ClaimsSingle s) (hc : (s.bay b).claims = x :: rest) :
    ((refuseClaim b cause sil x s).bay b = { s.bay b with claims := rest }) ∧
    (∀ c, c ≠ b → (refuseClaim b cause sil x s).bay c = s.bay c) ∧
        (refuseClaim b cause sil x s).access = s.access := by
  have hr : (removeClaim b x.port s).bay b = { s.bay b with claims := rest } := by
    rw [removeClaim_eq, modBay_bay_self]
    have := (hs b).1
    rw [hc] at this
    rw [hc, claims_filter_head this]
  have hb : (refuseClaim b cause sil x s).bays = (removeClaim b x.port s).bays := by
    unfold refuseClaim; dsimp only
    refine (appendRecord_bays _ _).trans ?_
    split <;> rfl
  refine ⟨(bay_congr hb b).trans hr, fun c hcb => (bay_congr hb c).trans ?_, ?_⟩
  · rw [removeClaim_eq, modBay_bay_ne _ _ (Ne.symm hcb)]
  · unfold refuseClaim; dsimp only
    refine (appendRecord_access _ _).trans ?_
    split <;> rfl

theorem modeFits_false {r : BayRecord} {m : Mode} (h : modeFits r.loanMode m = false) : r.loanMode = .exclusive ∨
    r.loanMode = .shared ∧ m = .exclusive := by
  revert h
  cases r.loanMode <;> cases m <;> simp [modeFits]

/-- R18, R19, R20, R21, R23: what a run of the grant pass keeps and where it ends. -/
theorem grantPassLoop_spec (b : Bay) : ∀ (n : Nat) (s : State), ClaimsSingle s →
    ((s.bay b).claims.length ≤ n → grantsOpen (grantPassLoop b n s) b = true →
      ∀ x rest, ((grantPassLoop b n s).bay b).claims = x :: rest →
          modeFits ((grantPassLoop b n s).bay b).loanMode x.mode = false) ∧
    (∀ q h, (s.bay b).holder q = some h → ((grantPassLoop b n s).bay b).holder q = some h) ∧
    ((grantPassLoop b n s).bay b).claims <:+ (s.bay b).claims ∧
    (∀ x ∈ (s.bay b).claims, x ∉ ((grantPassLoop b n s).bay b).claims → permits (s.right x.port b) x.mode = true →
      ∃ h, ((grantPassLoop b n s).bay b).holder x.port = some h ∧ h.mode = x.mode) ∧
    (∀ c, c ≠ b → (grantPassLoop b n s).bay c = s.bay c) := by
  intro n
  induction n with
  | zero =>
    intro s hs
    refine ⟨fun hl _ x rest hc => ?_, fun q h hh => hh, List.suffix_refl _, fun x hx hn => absurd hx hn,
        fun c _ => rfl⟩
    have hc' : (s.bay b).claims = x :: rest := hc
    rw [hc'] at hl; simp at hl
  | succ n ih =>
    intro s hs
    unfold grantPassLoop
    by_cases ho : grantsOpen s b = true
    · simp only [ho, if_true]
      cases hc : (s.bay b).claims with
      | nil =>
        dsimp only
        refine ⟨fun _ _ x rest hc' => ?_, fun q h hh => hh, by simp only [hc, List.suffix_refl],
            fun x hx => (by simp at hx), fun c _ => rfl⟩
        rw [hc] at hc'; cases hc'
      | cons x rest =>
        dsimp only
        have hpair := (hs b).1
        by_cases hf : modeFits (s.bay b).loanMode x.mode = true
        · rw [if_pos hf]
          have hnone : (s.bay b).holder x.port = none := (hs b).2 x.port ⟨x,
              by rw [hc]; exact List.mem_cons_self, rfl⟩
          by_cases hp : permits (s.right x.port b) x.mode = true
          · rw [if_pos hp]
            have hs' : ClaimsSingle (grantClaim b x s) := ClaimsSingle.core.grantClaim b x rest s hc ho hf hs
            obtain ⟨⟨h, hm, g1⟩, g2, g3⟩ := grantClaim_bay hs hc
            obtain ⟨i1, i2, i3, i4, i5⟩ := ih (grantClaim b x s) hs'
            have hcl : ((grantClaim b x s).bay b).claims = rest := by rw [g1]
            have hho : ∀ q, ((grantClaim b x s).bay b).holder q = if x.port = q then some h else (s.bay b).holder q := by
              intro q; rw [g1]; exact holder_set { s.bay b with claims := rest } x.port q (some h)
            refine ⟨fun hl => i1 (by rw [hcl]; simp at hl; omega), fun q k hk => i2 q k ?_, ?_, ?_,
                fun c hcb => (i5 c hcb).trans (g2 c hcb)⟩
            · rw [hho, if_neg (by rintro rfl; rw [hnone] at hk; cases hk)]; exact hk
            · rw [hcl] at i3; exact i3.trans (List.suffix_cons _ _)
            · intro y hy hn hpy
              rcases List.mem_cons.1 hy with rfl | hy
              · exact ⟨h, i2 y.port h (by rw [hho, if_pos rfl]), hm⟩
              · refine i4 y (by rw [hcl]; exact hy) hn ?_
                unfold State.right; rw [g3]; exact hpy
          · rw [if_neg hp]
            have hs' : ClaimsSingle (refuseClaim b .access false x s) := ClaimsSingle.core.refuseClaim b .access false x s hs
            obtain ⟨g1, g2, g3⟩ := refuseClaim_bay .access false hs hc
            obtain ⟨i1, i2, i3, i4, i5⟩ := ih (refuseClaim b .access false x s) hs'
            have hcl : ((refuseClaim b .access false x s).bay b).claims = rest := by rw [g1]
            have hho : ∀ q, ((refuseClaim b .access false x s).bay b).holder q = (s.bay b).holder q := by
              intro q; rw [g1]; rfl
            refine ⟨fun hl => i1 (by rw [hcl]; simp at hl; omega), fun q k hk => i2 q k (by rw [hho]; exact hk),
                ?_, ?_, fun c hcb => (i5 c hcb).trans (g2 c hcb)⟩
            · rw [hcl] at i3; exact i3.trans (List.suffix_cons _ _)
            · intro y hy hn hpy
              rcases List.mem_cons.1 hy with rfl | hy
              · exact absurd hpy hp
              · refine i4 y (by rw [hcl]; exact hy) hn ?_
                unfold State.right; rw [g3]; exact hpy
        · rw [if_neg hf]
          refine ⟨fun _ _ y r hy => ?_, fun q h hh => hh, by simp only [hc, List.suffix_refl],
              fun y hy hn => absurd (by rw [hc]; exact hy) hn, fun c _ => rfl⟩
          rw [hc] at hy; cases hy
          exact Bool.eq_false_iff.2 hf
    · simp only [if_neg ho]
      refine ⟨fun _ h => absurd h ho, fun q h hh => hh, List.suffix_refl _, fun x hx hn => absurd hx hn,
          fun c _ => trivial⟩

theorem recallSet_nil (r : BayRecord) : r.recallSet = [] ↔ ∀ q k, r.holder q = some k → k.recalled = false := by
  unfold BayRecord.recallSet
  rw [List.filter_eq_nil_iff]
  constructor
  · intro h q k hk
    have := h q (mem_allPorts q)
    rw [hk] at this
    exact Bool.eq_false_iff.2 this
  · intro h q _
    cases hq : r.holder q with
    | none => simp
    | some k => simp [h q k hq]

theorem revokeLoan_nothing (b : Bay) (cause : Cause) (p : Port) (h : Holder) (s : State) (hs : ClaimsSingle s)
    (hh : (s.bay b).holder p = some h) : Nothing (revokeLoan b cause p h s) p b := by
  have hw : ¬ waitsAt s p b := fun hw => by rw [(hs b).2 p hw] at hh; cases hh
  have hk := Nothing.core p b
  have h1 := hk.endLoanContexts h.serial cause _ (removeHolder_nothing s b p hw)
  unfold revokeLoan
  dsimp only
  apply hk.appendRecord
  split
  · exact hk.notice _ _ _ h1
  · exact h1

theorem holder_set_of {r r' : BayRecord} {p : Port} {x : Option Holder} (h : r'.holders = r.holders.set p x)
    (q : Port) :
    r'.holder q = if p = q then x else r.holder q := by
  have := holder_set r p q x
  rw [← this, BayRecord.holder, h]; rfl

/-- R36: recalling ports in turn marks their entries and posts their notices. -/
theorem recallHolder_fold (b : Bay) : ∀ (l : List Port), l.Nodup → ∀ s : State,
    (∃ v, (l.foldl (recallHolder b) s).bay b = { s.bay b with holders := v }) ∧
    (∀ q, ((l.foldl (recallHolder b) s).bay b).holder q = if q ∈ l then ((s.bay b).holder q).map fun h => { h with recalled := true } else (s.bay b).holder q) ∧
    (∀ c, c ≠ b → (l.foldl (recallHolder b) s).bay c = s.bay c) ∧
    (∀ q, (l.foldl (recallHolder b) s).port q = if q ∈ l then
        match (s.bay b).holder q with
        | some h =>
          if h.recalled = true then s.port q else { s.port q with
            notices := noticeInto { bay := b, kind := .recall, tag := 0, serial := h.serial, cause := .none }
              (s.port q).notices }
        | none => s.port q
      else s.port q) ∧
    l.foldl (recallHolder b) s = { s with bays := (l.foldl (recallHolder b) s).bays, ports := (l.foldl (recallHolder b) s).ports } := by
  intro l
  induction l with
  | nil => intro _ s; exact ⟨⟨(s.bay b).holders, rfl⟩, fun _ => rfl, fun _ _ => rfl, fun _ => rfl, rfl⟩
  | cons x l ih =>
    intro hn s
    have hx := (List.nodup_cons.1 hn).1
    -- one step
    have st : (∃ v, (recallHolder b s x).bay b = { s.bay b with holders := v }) ∧
        (∀ q, ((recallHolder b s x).bay b).holder q = if q = x then ((s.bay b).holder q).map fun h => { h with recalled := true } else (s.bay b).holder q) ∧
        (∀ c, c ≠ b → (recallHolder b s x).bay c = s.bay c) ∧
        (∀ q, (recallHolder b s x).port q = if q = x then
          match (s.bay b).holder q with
          | some h =>
            if h.recalled = true then s.port q else { s.port q with
              notices := noticeInto { bay := b, kind := .recall, tag := 0, serial := h.serial, cause := .none }
                (s.port q).notices }
          | none => s.port q
        else s.port q) ∧
        recallHolder b s x = { s with bays := (recallHolder b s x).bays, ports := (recallHolder b s x).ports } := by
      unfold recallHolder
      cases hh : (s.bay b).holder x with
      | none =>
        dsimp only
        refine ⟨⟨(s.bay b).holders, rfl⟩, fun q => ?_, fun _ _ => by rfl, fun q => ?_, by rfl⟩
        · split
          · next e => subst e; rw [hh]; rfl
          · rfl
        · split
          · next e => subst e; rw [hh]
          · rfl
      | some h =>
        dsimp only
        by_cases hrr : h.recalled = true
        · rw [if_pos hrr]
          refine ⟨⟨(s.bay b).holders, rfl⟩, fun q => ?_, fun _ _ => by rfl, fun q => ?_, by rfl⟩
          · split
            · next e => subst e; rw [hh]; show some h = some _; rw [← hrr]
            · rfl
          · split
            · next e => subst e; rw [hh]; dsimp only; rw [if_pos hrr]
            · rfl
        rw [if_neg hrr]
        have hb : ∀ c, (postNotice x { bay := b, kind := .recall, tag := 0, serial := h.serial, cause := .none } (modHolder b x (fun h => { h with recalled := true }) s)).bay c = (modHolder b x (fun h => { h with recalled := true }) s).bay c := fun _ => rfl
        refine ⟨⟨(s.bay b).holders.set x ((s.bay b).holders[x].map fun h => { h with recalled := true }), ?_⟩,
            fun q => ?_, fun c hc => ?_, fun q => ?_, rfl⟩
        · rw [hb]; unfold modHolder; rw [modBay_bay_self]
        · rw [hb, modHolder_holder]
          by_cases e : q = x
          · subst e; simp
          · rw [if_neg (fun h => e h.2.symm), if_neg e]
        · rw [hb]; unfold modHolder; rw [modBay_bay_ne _ _ (Ne.symm hc)]
        · unfold postNotice
          by_cases e : q = x
          · subst e; rw [modPort_port_self, if_pos rfl, hh]; dsimp only; rw [if_neg hrr]; rfl
          · rw [modPort_port_ne _ _ (Ne.symm e), if_neg e]; rfl
    obtain ⟨⟨v, a1⟩, a2, a3, a4, a5⟩ := st
    have hstep : (x :: l).foldl (recallHolder b) s = l.foldl (recallHolder b) (recallHolder b s x) := rfl
    rw [hstep]
    generalize recallHolder b s x = w at a1 a2 a3 a4 a5 ⊢
    obtain ⟨⟨v', b1⟩, b2, b3, b4, b5⟩ := ih (List.nodup_cons.1 hn).2 w
    refine ⟨⟨v', ?_⟩, fun q => ?_, fun c hc => (b3 c hc).trans (a3 c hc), fun q => ?_, ?_⟩
    · rw [b1, a1]
    · rw [b2, a2]
      by_cases e : q = x
      · subst e; simp [hx]
      · simp [e]
    · rw [b4, a2, a4]
      by_cases e : q = x
      · subst e; simp [hx]
      · simp [e]
    · refine b5.trans ?_
      generalize l.foldl (recallHolder b) w = z
      rw [a5]

theorem holderPorts_nodup (r : BayRecord) : r.holderPorts.Nodup := by
  unfold BayRecord.holderPorts
  exact List.Pairwise.filter _ (show allPorts.Nodup by decide)

theorem refuseClaim_at (b : Bay) (cause : Cause) (sil : Bool) (x : Claim) (s : State) :
    (refuseClaim b cause sil x s).bay b = { s.bay b with claims := (s.bay b).claims.filter fun y => !decide (y.port = x.port) } ∧
    (∀ c, c ≠ b → (refuseClaim b cause sil x s).bay c = s.bay c) ∧ (refuseClaim b cause sil x s).now = s.now := by
  have hb : (refuseClaim b cause sil x s).bays = (removeClaim b x.port s).bays := by
    unfold refuseClaim; dsimp only
    refine (appendRecord_bays _ _).trans ?_
    split <;> rfl
  refine ⟨(bay_congr hb b).trans (modBay_bay_self _ _ _),
      fun c hc => (bay_congr hb c).trans (modBay_bay_ne _ _ (Ne.symm hc)), ?_⟩
  unfold refuseClaim; dsimp only
  refine (appendRecord_now _ _).trans ?_
  split <;> rfl

theorem refuseAll_fold (b : Bay) (cause : Cause) : ∀ (l : List Claim) (s : State),
    (∀ y ∈ (s.bay b).claims, y ∈ l) →
    (l.foldl (fun s x => refuseClaim b cause false x s) s).bay b = { s.bay b with claims := [] } ∧
    (∀ c, c ≠ b → (l.foldl (fun s x => refuseClaim b cause false x s) s).bay c = s.bay c) ∧
        (l.foldl (fun s x => refuseClaim b cause false x s) s).now = s.now := by
  intro l
  induction l with
  | nil =>
    intro s h
    refine ⟨?_, fun _ _ => rfl, rfl⟩
    have : (s.bay b).claims = [] := by
      cases hc : (s.bay b).claims with
      | nil => rfl
      | cons x l => have := h x (by rw [hc]; exact List.mem_cons_self); cases this
    show s.bay b = _
    rw [← this]
  | cons x l ih =>
    intro s h
    obtain ⟨r1, r2, r3⟩ := refuseClaim_at b cause false x s
    obtain ⟨h1, h2, h3⟩ := ih (refuseClaim b cause false x s) (by
      intro y hy
      rw [r1] at hy
      have hy := List.mem_filter.1 hy
      rcases List.mem_cons.1 (h y hy.1) with rfl | hm
      · simp at hy
      · exact hm)
    refine ⟨?_, fun c hc => (h2 c hc).trans (r2 c hc), h3.trans r3⟩
    rw [List.foldl_cons, h1, r1]

/-- R52: refusing every claim leaves the queue empty. -/
theorem refuseAll_bay (b : Bay) (cause : Cause) (s : State) :
    (refuseAll b cause s).bay b = { s.bay b with claims := [] } ∧ (refuseAll b cause s).now = s.now :=
  ⟨(refuseAll_fold b cause _ s fun _ h => h).1, (refuseAll_fold b cause _ s fun _ h => h).2.2⟩

theorem holderPorts_nil (r : BayRecord) : r.holderPorts = [] ↔ ∀ q, r.holder q = none := by
  constructor
  · intro h q
    cases hq : r.holder q with
    | none => rfl
    | some x =>
      have := (mem_holderPorts r q).2 (by rw [hq]; rfl)
      rw [h] at this; cases this
  · intro h
    cases hp : r.holderPorts with
    | nil => rfl
    | cons q l =>
      have := (mem_holderPorts r q).1 (by rw [hp]; exact List.mem_cons_self)
      rw [h q] at this; cases this

/-- R54: what a completion check makes of its bay. -/
theorem completionCheck_bay (b : Bay) (s : State) :
    (completionCheck b s).bay b = if (s.bay b).availability = .withdrawing ∧ (s.bay b).holderPorts = [] ∧
        (s.bay b).trailing = 0 then { s.bay b with availability := .withdrawn } else s.bay b := by
  unfold completionCheck; dsimp only
  split
  · exact (bay_congr (appendRecord_bays _ _) b).trans (modBay_bay_self _ _ _)
  · rfl

/-- R51: what the start of a withdrawal makes of its bay. -/
theorem startWithdrawal_bay (b : Bay) (s : State) : (startWithdrawal b s).now = s.now ∧
    (startWithdrawal b s).bay b = if (s.bay b).phase = .patience then { s.bay b with availability := .withdrawing, claims := [], patienceTimer := none, subject := none, phase := .none } else { s.bay b with availability := .withdrawing, claims := [] } := by
  unfold startWithdrawal; dsimp only
  obtain ⟨h1, h2⟩ := refuseAll_bay b .withdrawn (s.modBay b fun r =>
    if r.phase = .patience then { r with availability := .withdrawing, patienceTimer := none, subject := none, phase := .none } else { r with availability := .withdrawing })
  refine ⟨h2, h1.trans ?_⟩
  rw [modBay_bay_self]
  by_cases h : (s.bay b).phase = .patience
  · rw [if_pos h, if_pos h]
  · rw [if_neg h, if_neg h]

theorem loansHeld_pos (s : State) (q : Port) : 0 < loansHeld s q ↔ ∃ b h, (s.bay b).holder q = some h := by
  unfold loansHeld
  rw [List.length_pos_iff_exists_mem]
  constructor
  · rintro ⟨b, hb⟩
    have := (List.mem_filter.1 hb).2
    cases hh : (s.bay b).holder q with
    | none => rw [hh] at this; cases this
    | some h => exact ⟨b, h, hh⟩
  · rintro ⟨b, h, hh⟩
    refine ⟨b, List.mem_filter.2 ⟨mem_allBays b, by rw [hh]; rfl⟩⟩

theorem claimsWaiting_pos (s : State) (q : Port) : 0 < claimsWaiting s q ↔ ∃ b, waitsAt s q b := by
  unfold claimsWaiting
  rw [List.length_pos_iff_exists_mem]
  constructor
  · rintro ⟨b, hb⟩
    have := (List.mem_filter.1 hb).2
    rw [List.any_eq_true] at this
    obtain ⟨x, hx, hq⟩ := this
    exact ⟨b, x, hx, of_decide_eq_true hq⟩
  · rintro ⟨b, x, hx, hq⟩
    refine ⟨b, List.mem_filter.2 ⟨mem_allBays b, List.any_eq_true.2 ⟨x, hx, decide_eq_true hq⟩⟩⟩

end Sys2Proof.Machine
end

