-- ==== Sys2Proof/Laws/HandOut.lean ====
section
/-! SUPPORT. What a choice at a bay and a hand-out of contexts leave alone: every bay record but for its holders'
live-context counts, and the drive and the reissue list of a bay that makes no choice. -/

namespace Sys2Proof.Machine

/-! ## A choice at one bay -/

/-- The bay records, and one bay's drive and service unit. -/
structure AtBay where
  bays : Vector BayRecord 12
  drive : DriveEngine
  service : Service

/-- That side of a state. -/
def atBay (b : Bay) (s : State) : AtBay := ⟨s.bays, s.drive b, s.service b⟩

theorem atBay_tellSupervisors (b : Bay) (s : State) : atBay b (tellSupervisors s) = atBay b s := by
  have h := congrArg (atBay b) (tellSupervisors_only s)
  generalize tellSupervisors s = w at h ⊢
  exact h

theorem atBay_raiseEvent (b : Bay) (e : Event) (s : State) : atBay b (raiseEvent e s) = atBay b s := by
  obtain ⟨r, a, h | h⟩ := raiseEvent_only e s
  · rw [h]; rfl
  · rw [h, atBay_tellSupervisors]; rfl

theorem atBay_appendRecord (b : Bay) (x : Entry) (s : State) : atBay b (appendRecord x s) = atBay b s := by
  obtain ⟨r, a, j, u, hu, h | h⟩ := appendRecord_only x s
  · rw [h, hu]; rfl
  · rw [h, atBay_tellSupervisors, hu]; rfl

theorem atBay_modService {b d : Bay} (h : d ≠ b) (f : Service → Service) (s : State) :
    atBay b (s.modService d f) = atBay b s := by
  unfold atBay; rw [modService_service_ne _ _ h]; rfl

theorem atBay_issue {b d : Bay} (h : d ≠ b) (c : CtxId) (w : Lane) (s : State) :
    atBay b (issue d c w s) = atBay b s := by
  unfold issue atBay; dsimp only; rw [modDrive_drive_ne _ _ h]; rfl

theorem atBay_issueHead {b d : Bay} (h : d ≠ b) (p : Port) (cost : Nat) (s : State) :
    atBay b (issueHead d p cost s) = atBay b s := by
  unfold issueHead
  split
  · rfl
  · exact (atBay_issue h _ _ _).trans (atBay_modService h _ _)

theorem atBay_adopt {b d : Bay} (h : d ≠ b) (s : State) : atBay b (adopt d s) = atBay b s := by
  have key : ∀ t, atBay b (swapCheck t) = atBay b t := by
    intro t; unfold swapCheck
    split
    · exact (atBay_raiseEvent _ _ _).trans rfl
    · rfl
  unfold adopt; dsimp only
  exact (key _).trans ((atBay_appendRecord _ _ _).trans (atBay_modService h _ _))

theorem atBay_roundEnd {b d : Bay} (h : d ≠ b) (s : State) : atBay b (roundEnd d s) = atBay b s := by
  unfold roundEnd refill
  refine (atBay_modService h _ _).trans ?_
  split
  · exact atBay_adopt h s
  · rfl

/-- A choice at a bay is one of four issues, of a round's end, or nothing. -/
theorem choose_cases {d : Bay} {s t : State} (h : choose d s = some t) :
    (∃ c, t = issueRetry d c s) ∨ (∃ p cost, t = issueHead d p cost s) ∨
      (∃ p cost, t = issueHead d p cost (roundEnd d s)) ∨ t = roundEnd d s := by
  unfold choose at h
  split at h
  · split at h
    · cases h; exact Or.inl ⟨_, rfl⟩
    · split at h
      · cases h; exact Or.inr (Or.inl ⟨_, _, rfl⟩)
      · split at h
        · dsimp only at h
          split at h
          · cases h; exact Or.inr (Or.inr (Or.inl ⟨_, _, rfl⟩))
          · split at h
            · cases h; exact Or.inr (Or.inr (Or.inl ⟨_, _, rfl⟩))
            · cases h; exact Or.inr (Or.inr (Or.inr rfl))
        · cases h
  · cases h

theorem atBay_choose {b d : Bay} (hd : d ≠ b) {s t : State} (h : choose d s = some t) : atBay b t = atBay b s := by
  rcases choose_cases h with ⟨c, rfl⟩ | ⟨p, k, rfl⟩ | ⟨p, k, rfl⟩ | rfl
  · exact (atBay_issue hd _ _ _).trans (atBay_modService hd _ _)
  · exact atBay_issueHead hd _ _ _
  · exact (atBay_issueHead hd _ _ _).trans (atBay_roundEnd hd s)
  · exact atBay_roundEnd hd s

/-- The choices at a bay leave every other bay alone. -/
theorem atBay_chooseAll {b d : Bay} (hd : d ≠ b) (s : State) : atBay b (chooseAll d s) = atBay b s := by
  unfold chooseAll
  generalize Config.issueSlots = n
  induction n generalizing s with
  | zero => rfl
  | succ n ih =>
    unfold chooseLoop
    split
    · next h => exact (ih _).trans (atBay_choose hd h)
    · rfl

theorem issueHead_bays (d : Bay) (p : Port) (k : Nat) (s : State) : (issueHead d p k s).bays = s.bays := by
  unfold issueHead; split <;> rfl

theorem adopt_bays (d : Bay) (s : State) : (adopt d s).bays = s.bays := by
  unfold adopt swapCheck; dsimp only
  split
  · exact (raiseEvent_bays _ _).trans ((appendRecord_bays _ _).trans rfl)
  · exact (appendRecord_bays _ _).trans rfl

theorem roundEnd_bays (d : Bay) (s : State) : (roundEnd d s).bays = s.bays := by
  unfold roundEnd; split
  · exact adopt_bays d s
  · rfl

/-- The choices at a bay leave the bay records alone. -/
theorem chooseAll_bays (d : Bay) (s : State) : (chooseAll d s).bays = s.bays := by
  unfold chooseAll
  generalize Config.issueSlots = n
  induction n generalizing s with
  | zero => rfl
  | succ n ih =>
    unfold chooseLoop
    split
    · next h =>
      refine (ih _).trans ?_
      rcases choose_cases h with ⟨c, rfl⟩ | ⟨p, k, rfl⟩ | ⟨p, k, rfl⟩ | rfl
      · rfl
      · exact issueHead_bays _ _ _ _
      · exact (issueHead_bays _ _ _ _).trans (roundEnd_bays d s)
      · exact roundEnd_bays d s
    · rfl

/-! ## A hand-out -/

/-- Two bay records that differ in their holders' live-context counts alone (R65). -/
def SameLoans (r r' : BayRecord) : Prop :=
  r' = { r with holders := r'.holders } ∧ ∀ q, ∃ k : Nat → Nat, r'.holder q = (r.holder q).map fun h => { h with live := k h.live }

theorem SameLoans.refl (r : BayRecord) : SameLoans r r :=
  ⟨rfl, fun q => ⟨fun n => n, by cases r.holder q <;> rfl⟩⟩

theorem SameLoans.of_eq {r r' : BayRecord} (h : r' = r) : SameLoans r r' := h ▸ SameLoans.refl r

theorem SameLoans.trans {r r' r'' : BayRecord} (h : SameLoans r r') (k : SameLoans r' r'') : SameLoans r r'' := by
  refine ⟨?_, fun q => ?_⟩
  · have := k.1; rw [h.1] at this; exact this
  · obtain ⟨f, hf⟩ := h.2 q
    obtain ⟨g, hg⟩ := k.2 q
    exact ⟨fun n => g (f n), by rw [hg, hf, Option.map_map]; rfl⟩

theorem SameLoans.none {r r' : BayRecord} (h : SameLoans r r') {q : Port} (hq : r.holder q = none) :
    r'.holder q = none := by
  obtain ⟨f, hf⟩ := h.2 q
  rw [hf, hq]; rfl

/-- What a hand-out leaves alone everywhere, and at a bay that makes no choice. -/
structure HandsOut (b : Bay) (s t : State) : Prop where
  loans : ∀ d, SameLoans (s.bay d) (t.bay d)
  drive : t.drive b = s.drive b
  reissue : (t.service b).reissue = (s.service b).reissue

theorem HandsOut.refl (b : Bay) (s : State) : HandsOut b s s := ⟨fun _ => SameLoans.refl _, rfl, rfl⟩

theorem HandsOut.trans {b : Bay} {s t u : State} (h : HandsOut b s t) (k : HandsOut b t u) : HandsOut b s u :=
  ⟨fun d => (h.loans d).trans (k.loans d), k.drive.trans h.drive, k.reissue.trans h.reissue⟩

theorem seat_loans (c : CtxId) (p : Port) (kind : OpKind) (b' : Bay) (f : FrameFields) (s : State) (d : Bay) :
    SameLoans (s.bay d) ((seat c p kind b' f s).bay d) := by
  have h : (seat c p kind b' f s).bay d = (modHolder b' p (fun h => { h with live := h.live + 1 }) s).bay d := rfl
  rw [h]
  unfold modHolder
  rw [modBay_bay]
  split
  · next e =>
    subst e
    refine ⟨rfl, fun q => ?_⟩
    have hh := holder_set (s.bay b') p q (((s.bay b').holders[p]).map fun h => { h with live := h.live + 1 })
    by_cases e : p = q
    · subst e
      rw [if_pos rfl] at hh
      exact ⟨fun n => n + 1, hh⟩
    · rw [if_neg e] at hh
      refine ⟨fun n => n, ?_⟩
      rw [show _ = _ from hh]
      cases (s.bay b').holder q <;> rfl
  · exact SameLoans.refl _

theorem seat_handsOut (c : CtxId) (p : Port) (kind : OpKind) (d : Bay) (f : FrameFields) (b : Bay) (s : State) :
    HandsOut b s (seat c p kind d f s) := by
  refine ⟨seat_loans c p kind d f s, rfl, ?_⟩
  have h : (seat c p kind d f s).service b =
      (s.modService d fun v => { v with lists := v.lists.set p (v.lists[p] ++ [c]) }).service b := rfl
  rw [h, modService_service]
  split
  · next e => subst e; rfl
  · rfl

theorem HandsOut.choose {b d : Bay} {s t : State} (h : HandsOut b s t) (hd : d ≠ b) : HandsOut b s (chooseAll d t) := by
  have k := atBay_chooseAll hd t
  injection k with k1 k2 k3
  refine ⟨fun x => ?_, k2.trans h.drive, (congrArg Service.reissue k3).trans h.reissue⟩
  rw [bay_congr k1 x]
  exact h.loans x

theorem leaveHead_answer_handsOut (b : Bay) (p : Port) (f : FrameFields) (st : Status) (s : State) :
    HandsOut b s (refuseOperation p f st s) := ⟨fun _ => SameLoans.refl _, rfl, rfl⟩

/-- An offer leaves a bay alone that is held, or at which the port has no loan. -/
theorem takeUp_handsOut {held : Option Bay} {b : Bay} {p : Port} {s : State}
    (h : held = some b ∨ (s.bay b).holder p = none) (c : CtxId) : HandsOut b s (takeUp held c p s) := by
  unfold takeUp allocateHolding
  split
  · next kind f _ =>
    split
    · next d hd =>
      split
      · exact seat_handsOut _ _ _ _ _ _ _
      · next hne =>
        unfold allocate
        refine (seat_handsOut _ _ _ _ _ _ _).choose ?_
        rintro rfl
        rcases h with h | h
        · exact hne h
        · unfold admissionCheck at hd
          repeat' split at hd
          all_goals first | cases hd | skip
          all_goals (first | (next hh _ _ _ => rw [h] at hh; cases hh) | (rename_i hh _; simp_all) | simp_all)
    · exact leaveHead_answer_handsOut _ _ _ _ _
  · exact HandsOut.refl _ _

theorem handOutLoop_handsOut (b : Bay) (n : Nat) : ∀ s, HandsOut b s (handOutLoop (some b) n s) := by
  induction n with
  | zero => exact HandsOut.refl b
  | succ n ih =>
    intro s
    unfold handOutLoop
    split
    · next t h =>
      unfold offerHolding at h
      split at h
      · cases h
        exact (takeUp_handsOut (Or.inl rfl) _).trans (ih _)
      · cases h
    · exact HandsOut.refl b s

/-- R71: a hand-out that holds a bay leaves it alone, but for its service lists and its live-context counts. -/
theorem handOutHolding_handsOut (b : Bay) (s : State) : HandsOut b s (handOutHolding (some b) s) :=
  handOutLoop_handsOut b 8 s

theorem giveAtQuota_handsOut {held : Option Bay} {b : Bay} {p : Port} {s : State}
    (h : held = some b ∨ (s.bay b).holder p = none) : HandsOut b s (giveAtQuota held p s) := by
  unfold giveAtQuota
  split
  · split
    · exact takeUp_handsOut h _
    · exact HandsOut.refl _ _
  · exact HandsOut.refl _ _

/-- R71, R125: what follows the end of a context at a bay leaves the bay's drive and reissue list alone. -/
theorem afterEnd_handsOut (b : Bay) (x : Context) (s : State) : HandsOut b s (afterEnd b x s) := by
  unfold afterEnd
  split
  · exact handOutHolding_handsOut b s
  · exact giveAtQuota_handsOut (Or.inl rfl)

end Sys2Proof.Machine
end

