-- ==== Sys2Proof/Laws/LoanEnds.lean ====
section
/-! SUPPORT. What the end of a loan does to its bay record and its contexts, and what it leaves alone. -/

namespace Sys2Proof.Machine

/-- A clean-up leaves the other ports' presence and a pending soft reset alone. -/
def PortKept (p : Port) (pr : Presence) (sr : Option SoftPending) (o : Port → Presence) (s : State) : Prop :=
    (s.softReset = sr ∧ ∀ q, q ≠ p → s.presence q = o q) ∧ s.presence p = pr ∧ (s.port p).intake = [] ∧
        s.phase = .running

theorem PortKept.core (p : Port) (pr : Presence) (sr : Option SoftPending)
    (o : Port → Presence) : ClosedCore (PortKept p pr sr o) where
  bay := fun _ _ _ _ hs => hs
  holder := fun _ _ _ _ _ hs => hs
  unlend := fun _ _ _ hs => hs
  lendClaim := fun _ _ _ _ _ _ _ _ _ _ hs => hs
  services := fun _ _ hs => hs
  drives := fun _ _ hs => hs
  plan := fun _ _ hs => hs
  pool := fun _ _ _ hs => hs
  portStats := fun _ _ hs => hs
  bayStats := fun _ _ hs => hs
  journal := fun _ _ _ _ hs => hs
  raised := fun _ _ hs => hs
  port := fun s q f h hs => by
    refine ⟨hs.1, hs.2.1, ?_, hs.2.2.2⟩
    by_cases hq : q = p
    · subst hq
      rw [modPort_port_self]
      have := h.1
      rw [hs.2.2.1] at this
      exact List.suffix_nil.1 this
    · rw [modPort_port_ne _ _ hq]; exact hs.2.2.1
  notice := fun s q x hs => by
    refine ⟨hs.1, hs.2.1, ?_, hs.2.2.2⟩
    unfold postNotice
    by_cases hq : q = p
    · subst hq
      rw [modPort_port_self]; exact hs.2.2.1
    · rw [modPort_port_ne _ _ hq]; exact hs.2.2.1

theorem cleanUp_portKept (cause : Cause) (p : Port) (s : State) (h2 : s.phase = .running) :
    PortKept p (s.presence p) s.softReset s.presence (cleanUp cause p s).state := by
  have h : PortKept p (s.presence p) s.softReset s.presence (s.modPort p cleanPort) := ⟨⟨rfl, fun _ _ => rfl⟩,
      rfl, by rw [modPort_port_self]; rfl, h2⟩
  have h' := (PortKept.core p _ _ _).cleanLoans cause p _ h
  unfold cleanUp
  generalize cleanLoans cause p (s.modPort p cleanPort) = t at h' ⊢
  dsimp only
  exact (PortKept.core p _ _ _).cleanContexts p t.state h'

theorem PortKept.mod {p : Port} {pr : Presence} {sr : Option SoftPending} {o : Port → Presence} {s : State} (h : PortKept p pr sr o s) (f : Presence → Presence) :
    PortKept p (f pr) sr o (s.modPresence p f) := by
  refine ⟨⟨h.1.1, fun q hq => ?_⟩, ?_, h.2.2.1, h.2.2.2⟩
  · rw [modPresence_presence_ne _ _ (Ne.symm hq)]; exact h.1.2 q hq
  · rw [modPresence_presence_self, h.2.1]

theorem adoptIfIdle_bays (b : Bay) (s : State) : (adoptIfIdle b s).bays = s.bays := by
  unfold adoptIfIdle
  split
  · unfold adopt swapCheck; dsimp only
    split
    · exact (raiseEvent_bays _ _).trans ((appendRecord_bays _ _).trans rfl)
    · exact (appendRecord_bays _ _).trans rfl
  · rfl

theorem enterReply_bays (c : CtxId) (o : OpOutcome) (s : State) : (enterReply c o s).bays = s.bays := by
  unfold enterReply; dsimp only
  exact (adoptIfIdle_bays _ _).trans rfl

theorem endUnissued_bays (cause : Cause) (s : State) (c : CtxId) : (endUnissued cause s c).bays = s.bays := by
  unfold endUnissued; dsimp only
  refine (enterReply_bays _ _ _).trans ?_
  split <;> rfl

theorem endUnissued_fold_bays (cause : Cause) (l : List CtxId) : ∀ s,
    (l.foldl (endUnissued cause) s).bays = s.bays := by
  induction l with
  | nil => exact fun _ => rfl
  | cons c l ih => exact fun s => (ih _).trans (endUnissued_bays cause s c)

theorem makeTrailing_holders (cause : Cause) (s : State) (c : CtxId) (b : Bay) :
    ((makeTrailing cause s c).bay b).holders = (s.bay b).holders ∧
        ((makeTrailing cause s c).bay b).claims = (s.bay b).claims := by
  unfold makeTrailing; dsimp only
  rw [modBay_bay]; split
  · next e => subst e; exact ⟨rfl, rfl⟩
  · exact ⟨rfl, rfl⟩

theorem endLoanContexts_holders (serial : Word48) (cause : Cause) (s : State) (b : Bay) :
    ((endLoanContexts serial cause s).bay b).holders = (s.bay b).holders := by
  unfold endLoanContexts; dsimp only
  rw [bay_congr (endUnissued_fold_bays cause _ _) b]
  generalize issuedOf s serial = l
  induction l generalizing s with
  | nil => rfl
  | cons c l ih => exact (ih _).trans (makeTrailing_holders cause s c b).1

theorem removeHolder_holders (b c : Bay) (p : Port) (s : State) :
    ((removeHolder b p s).bay c).holders = if b = c then (s.bay c).holders.set p none else (s.bay c).holders := by
  unfold removeHolder; rw [modBay_bay]
  split
  · next e => subst e; dsimp only; split <;> rfl
  · rfl

theorem revokeLoan_holders (b c : Bay) (cause : Cause) (p : Port) (h : Holder) (s : State) :
    ((revokeLoan b cause p h s).bay c).holders = if b = c then (s.bay c).holders.set p none else (s.bay c).holders := by
  rw [← removeHolder_holders, ← endLoanContexts_holders h.serial cause (removeHolder b p s) c]
  unfold revokeLoan; dsimp only
  generalize endLoanContexts h.serial cause (removeHolder b p s) = w
  rw [bay_congr (appendRecord_bays _ _) c]
  split <;> rfl

/-- R45, R71: a port's revocation at a bay is its loan's end there, and a hand-out that leaves the bay's drive, its
reissue list and its loans alone. -/
theorem revokePort_handsOut (b : Bay) (cause : Cause) (p : Port) (h : Holder) (s : State)
    (hh : (s.bay b).holder p = some h) : HandsOut b (revokeLoan b cause p h s) (revokePort b cause s p) := by
  unfold revokePort; rw [hh]
  refine giveAtQuota_handsOut (Or.inr ?_)
  have := revokeLoan_holders b b cause p h s
  rw [if_pos rfl] at this
  rw [holder_set_of this p, if_pos rfl]

/-- R42: a revoked port holds no loan. -/
theorem revokePorts_none (b : Bay) (cause : Cause) (q : Port) : ∀ (l : List Port) (s : State),
    (q ∈ l ∨ (s.bay b).holder q = none) → ((revokePorts b cause l s).bay b).holder q = none := by
  intro l
  induction l with
  | nil => intro s h; rcases h with h | h; cases h; exact h
  | cons p l ih =>
    intro s h
    refine ih (revokePort b cause s p) ?_
    have hx : p = q ∨ (s.bay b).holder q = none → ((revokePort b cause s p).bay b).holder q = none := by
      intro hq
      cases hh : (s.bay b).holder p with
      | none =>
        unfold revokePort; rw [hh]
        rcases hq with rfl | hq
        · exact hh
        · exact hq
      | some hd =>
        refine ((revokePort_handsOut b cause p hd s hh).loans b).none ?_
        have := revokeLoan_holders b b cause p hd s
        rw [if_pos rfl] at this
        rw [holder_set_of this q]
        split
        · rfl
        · next e => exact hq.resolve_left e
    rcases h with h | h
    · rcases List.mem_cons.1 h with rfl | h
      · exact Or.inr (hx (Or.inl rfl))
      · exact Or.inl h
    · exact Or.inr (hx (Or.inr h))

theorem adoptIfIdle_pool (b : Bay) (s : State) : (adoptIfIdle b s).pool = s.pool := by
  unfold adoptIfIdle
  split
  · unfold adopt swapCheck; dsimp only
    split
    · exact (raiseEvent_pool _ _).trans ((appendRecord_pool _ _).trans rfl)
    · exact (appendRecord_pool _ _).trans rfl
  · rfl

theorem modCtx_at (s : State) (c d : CtxId)
    (f : Context → Context) : (s.modCtx c f).ctx d = if c = d then f (s.ctx d) else s.ctx d := by
  rw [modCtx_ctx]; split
  · next h => rw [h]
  · rfl

theorem enterReply_ctx (c d : CtxId) (o : OpOutcome) (s : State) :
    (enterReply c o s).ctx d = if c = d then { s.ctx d with state := .reply, outcome := o } else s.ctx d := by
  unfold enterReply; dsimp only
  have : ∀ (b : Bay) (v : State), (adoptIfIdle b v).ctx d = v.ctx d := fun b v => by unfold State.ctx; rw [adoptIfIdle_pool]
  rw [this, modReplies_ctx_read, modCtx_at]

/-- R78: the outcome of an unissued context, by the cause. -/
def outcomeOfCause (cause : Cause) : OpOutcome :=
    if cause = .release then .loanEnded else if cause = .fault then .bayFaulted else .revoked

/-- R77: the end cause, by the cause. -/
def endCauseOfCause (cause : Cause) : EndCause :=
    if cause = .release then .release else if cause = .fault then .fault else .revoked

theorem causeOutcome_eq (cause : Cause) : causeOutcome cause = outcomeOfCause cause := by cases cause <;> rfl

theorem causeEnd_eq (cause : Cause) : causeEnd cause = endCauseOfCause cause := by cases cause <;> rfl

theorem endUnissued_ctx (cause : Cause) (s : State) (c d : CtxId) :
    (endUnissued cause s c).ctx d = if c = d then { s.ctx d with state := .reply, endCause := endCauseOfCause cause, outcome := outcomeOfCause cause } else s.ctx d := by
  unfold endUnissued; dsimp only
  rw [enterReply_ctx, modLive_ctx_read, modCtx_at, causeOutcome_eq, causeEnd_eq]
  have : ∀ v : State, ((if (s.ctx c).state = .reissue then v.modBayStats (s.ctx c).bay fun t => { t with completed := satAdd t.completed 1 } else v)).ctx d = v.ctx d := by
    intro v; split <;> rfl
  rw [this, modService_ctx_read]
  split <;> rfl

/-- R78: ending unissued contexts in turn. -/
theorem endUnissued_fold (cause : Cause) : ∀ (l : List CtxId), l.Nodup → ∀ (s : State) (d : CtxId),
    (l.foldl (endUnissued cause) s).ctx d = if d ∈ l then { s.ctx d with state := .reply, endCause := endCauseOfCause cause, outcome := outcomeOfCause cause } else s.ctx d := by
  intro l
  induction l with
  | nil => intro _ s d; rfl
  | cons c l ih =>
    intro hn s d
    rw [List.foldl_cons, ih (List.nodup_cons.1 hn).2, endUnissued_ctx]
    by_cases e : d = c
    · subst e; simp [(List.nodup_cons.1 hn).1]
    · have e2 : ¬ c = d := fun h => e h.symm
      simp [e, e2]

theorem makeTrailing_ctx (cause : Cause) (s : State) (c d : CtxId) :
    (makeTrailing cause s c).ctx d = if c = d then { s.ctx d with trailing := true, endCause := endCauseOfCause cause } else s.ctx d := by
  unfold makeTrailing; dsimp only
  rw [modBay_ctx_read, modCtx_at, causeEnd_eq]

/-- R79: making issued contexts trailing in turn. -/
theorem makeTrailing_fold (cause : Cause) : ∀ (l : List CtxId), l.Nodup → ∀ (s : State) (d : CtxId),
    (l.foldl (makeTrailing cause) s).ctx d = if d ∈ l then { s.ctx d with trailing := true, endCause := endCauseOfCause cause } else s.ctx d := by
  intro l
  induction l with
  | nil => intro _ s d; rfl
  | cons c l ih =>
    intro hn s d
    rw [List.foldl_cons, ih (List.nodup_cons.1 hn).2, makeTrailing_ctx]
    by_cases e : d = c
    · subst e; simp [(List.nodup_cons.1 hn).1]
    · have e2 : ¬ c = d := fun h => e h.symm
      simp [e, e2]

theorem admissionInsert_perm (s : State) (c : CtxId) (l : List CtxId) : (admissionInsert s c l).Perm (c :: l) := by
  induction l with
  | nil => exact List.Perm.refl _
  | cons d l ih =>
    unfold admissionInsert; split
    · exact List.Perm.refl _
    · exact (ih.cons d).trans (List.Perm.swap c d l)

/-- R77: sorting by admission loses no context. -/
theorem inAdmissionOrder_perm (s : State) (l : List CtxId) : (inAdmissionOrder s l).Perm l := by
  induction l with
  | nil => exact List.Perm.refl _
  | cons c l ih => exact (admissionInsert_perm s c _).trans (ih.cons c)

theorem mem_allContexts (c : CtxId) : c ∈ allContexts := List.mem_finRange c

theorem allContexts_nodup : allContexts.Nodup := List.nodup_finRange 64

/-- The parts of a bay record that ending loans leaves alone. -/
def adminSide (r : BayRecord) : Availability × List Claim × BitVec 16 := (r.availability, r.claims, r.recallTime)

theorem adminSide_removeHolder (b : Bay) (p : Port)
    (s : State) : adminSide ((removeHolder b p s).bay b) = adminSide (s.bay b) := by
  unfold removeHolder; rw [modBay_bay_self]; dsimp only; split <;> rfl

theorem adminSide_makeTrailing (cause : Cause) (s : State) (c : CtxId)
    (b : Bay) : adminSide ((makeTrailing cause s c).bay b) = adminSide (s.bay b) := by
  unfold makeTrailing; dsimp only
  rw [modBay_bay]; split
  · next e => subst e; rfl
  · rfl

theorem adminSide_endLoanContexts (serial : Word48) (cause : Cause) (s : State)
    (b : Bay) : adminSide ((endLoanContexts serial cause s).bay b) = adminSide (s.bay b) := by
  unfold endLoanContexts; dsimp only
  rw [bay_congr (endUnissued_fold_bays cause _ _) b]
  generalize issuedOf s serial = l
  induction l generalizing s with
  | nil => rfl
  | cons c l ih => exact (ih _).trans (adminSide_makeTrailing cause s c b)

theorem adminSide_revokeLoan (b : Bay) (cause : Cause) (p : Port) (h : Holder)
    (s : State) : adminSide ((revokeLoan b cause p h s).bay b) = adminSide (s.bay b) := by
  rw [← adminSide_removeHolder b p s, ← adminSide_endLoanContexts h.serial cause (removeHolder b p s) b]
  unfold revokeLoan; dsimp only
  generalize endLoanContexts h.serial cause (removeHolder b p s) = w
  rw [bay_congr (appendRecord_bays _ _) b]
  split <;> rfl

theorem adminSide_revokePorts (b : Bay) (cause : Cause) : ∀ (l : List Port) (s : State),
    adminSide ((revokePorts b cause l s).bay b) = adminSide (s.bay b) := by
  intro l
  induction l with
  | nil => exact fun _ => rfl
  | cons p l ih =>
    intro s
    refine (ih _).trans ?_
    cases hh : (s.bay b).holder p with
    | none => unfold revokePort; rw [hh]
    | some h =>
      have k := ((revokePort_handsOut b cause p h s hh).loans b).1
      rw [k]
      exact adminSide_revokeLoan b cause p h s

theorem presences_closedCore (v : Vector Presence 8) : ClosedCore (fun u : State => u.presences = v) where
  bay := fun _ _ _ _ hs => hs
  holder := fun _ _ _ _ _ hs => hs
  unlend := fun _ _ _ hs => hs
  lendClaim := fun _ _ _ _ _ _ _ _ _ _ hs => hs
  services := fun _ _ hs => hs
  drives := fun _ _ hs => hs
  plan := fun _ _ hs => hs
  pool := fun _ _ _ hs => hs
  portStats := fun _ _ hs => hs
  bayStats := fun _ _ hs => hs
  journal := fun _ _ _ _ hs => hs
  raised := fun _ _ hs => hs
  port := fun _ _ _ _ hs => hs
  notice := fun _ _ _ hs => hs

theorem refuseClaim_drives (b c sil x s) : (refuseClaim b c sil x s).drives = s.drives := by
  unfold refuseClaim; dsimp only
  refine (appendRecord_drives _ _).trans ?_
  split <;> rfl

theorem adoptIfIdle_drives (b s) : (adoptIfIdle b s).drives = s.drives := by
  unfold adoptIfIdle
  split
  · unfold adopt swapCheck; dsimp only
    split
    · exact (raiseEvent_drives _ _).trans ((appendRecord_drives _ _).trans rfl)
    · exact (appendRecord_drives _ _).trans rfl
  · rfl

theorem enterReply_drives (c o s) : (enterReply c o s).drives = s.drives := by
  unfold enterReply; dsimp only
  exact (adoptIfIdle_drives _ _).trans rfl

theorem endUnissued_drives (cause s c) : (endUnissued cause s c).drives = s.drives := by
  unfold endUnissued; dsimp only
  refine (enterReply_drives _ _ _).trans ?_
  split <;> rfl

theorem endLoanContexts_drives (serial cause s) : (endLoanContexts serial cause s).drives = s.drives := by
  unfold endLoanContexts; dsimp only
  have h1 : ∀ (l : List CtxId) (s : State), (l.foldl (makeTrailing cause) s).drives = s.drives := by
    intro l
    induction l with
    | nil => exact fun _ => rfl
    | cons c l ih => exact fun s => (ih _).trans rfl
  have h2 : ∀ (l : List CtxId) (s : State), (l.foldl (endUnissued cause) s).drives = s.drives := by
    intro l
    induction l with
    | nil => exact fun _ => rfl
    | cons c l ih => exact fun s => (ih _).trans (endUnissued_drives _ _ _)
  exact (h2 _ _).trans (h1 _ _)

theorem revokeLoan_drives (b cause p h s) : (revokeLoan b cause p h s).drives = s.drives := by
  unfold revokeLoan; dsimp only
  refine (appendRecord_drives _ _).trans ?_
  split <;> exact (endLoanContexts_drives _ _ _).trans rfl

theorem revokePorts_drive (b cause) : ∀ (l : List Port) s, (revokePorts b cause l s).drive b = s.drive b := by
  intro l
  induction l with
  | nil => exact fun _ => rfl
  | cons p l ih =>
    intro s
    refine (ih _).trans ?_
    cases hh : (s.bay b).holder p with
    | none => unfold revokePort; rw [hh]
    | some h =>
      refine (revokePort_handsOut b cause p h s hh).drive.trans ?_
      unfold State.drive; rw [revokeLoan_drives]

theorem refuseAll_drives (b cause s) : (refuseAll b cause s).drives = s.drives := by
  unfold refuseAll
  generalize (s.bay b).claims = l
  induction l generalizing s with
  | nil => rfl
  | cons x l ih => exact (ih _).trans (refuseClaim_drives _ _ _ _ _)

theorem completionCheck_drives (b s) : (completionCheck b s).drives = s.drives := by
  unfold completionCheck; dsimp only; split
  · exact (appendRecord_drives _ _).trans rfl
  · rfl

theorem recallHolders_drives (b : Bay) (s : State) : (recallHolders b s).drives = s.drives := by
  unfold recallHolders
  generalize (s.bay b).holderPorts = l
  induction l generalizing s with
  | nil => rfl
  | cons x l ih =>
    refine (ih _).trans ?_
    unfold recallHolder; split
    · split <;> rfl
    · rfl

theorem withdraw_frame (b : Bay) (ms : Nat)
    (s : State) : (withdrawHolders b ms (startWithdrawal b s)).presences = s.presences ∧
    (withdrawHolders b ms (startWithdrawal b s)).drive b = s.drive b ∧
    (0 < ms → (withdrawHolders b ms (startWithdrawal b s)).drives = s.drives) := by
  have C := presences_closedCore s.presences
  have h0 : (startWithdrawal b s).presences = s.presences := C.refuseAll b .withdrawn _ rfl
  have g0 : (startWithdrawal b s).drives = s.drives := (refuseAll_drives _ _ _).trans rfl
  generalize startWithdrawal b s = w at h0 g0
  unfold withdrawHolders
  split
  · next hm =>
    refine ⟨C.completionCheck b _ (C.revokePorts b .withdrawn _ w h0), ?_, fun h => by omega⟩
    unfold State.drive
    rw [completionCheck_drives]
    refine (show _ = _ from revokePorts_drive b .withdrawn _ w).trans ?_
    unfold State.drive; rw [g0]
  · unfold withdrawByRecall; split
    · have := (completionCheck_drives b w).trans g0
      exact ⟨C.completionCheck b w h0, by unfold State.drive; rw [this], fun _ => this⟩
    · have := (recallHolders_drives b w).trans g0
      exact ⟨C.recallHolders b w h0, by unfold State.drive; dsimp only [State.modBay]; rw [this], fun _ => this⟩

end Sys2Proof.Machine
end

