-- ==== Sys2Proof/Laws/Admission.lean ====
section
/-! SUPPORT. The first free context, the ports that wait, and the end of a hand-out. -/

namespace Sys2Proof.Machine

theorem tagInUse_iff (s : State) (p : Port) (tag : BitVec 16) : tagInUse s p tag = true ↔
    ∃ c, ((s.ctx c).state = .queued ∨ (s.ctx c).state = .reissue ∨ (s.ctx c).state = .issued) ∧
        (s.ctx c).orphaned = false ∧ (s.ctx c).port = p ∧ (s.ctx c).tag = tag := by
  unfold tagInUse isLive
  rw [List.any_eq_true]
  simp [mem_allContexts, and_assoc, or_assoc]

/-- R69: the lowest-numbered FREE context. -/
theorem firstFree_some {s : State} {c : CtxId} : firstFree s = some c ↔ (s.ctx c).state = .free ∧ ∀ d, d < c →
    (s.ctx d).state ≠ .free := by
  unfold firstFree
  rw [List.find?_eq_some_iff_append]
  have hso : allContexts.Pairwise (· < ·) := List.pairwise_lt_finRange 64
  constructor
  · rintro ⟨h, as, bs, hl, ha⟩
    refine ⟨of_decide_eq_true h, fun d hd => ?_⟩
    have hm := mem_allContexts d
    rw [hl] at hm hso
    rcases List.mem_append.1 hm with hm | hm
    · have := ha d hm; simpa using this
    · exfalso
      rcases List.mem_cons.1 hm with rfl | hm
      · exact absurd hd (Nat.lt_irrefl _)
      · have := (List.pairwise_cons.1 (List.pairwise_append.1 hso).2.1).1 d hm
        exact absurd (Nat.lt_trans this hd) (Nat.lt_irrefl _)
  · rintro ⟨h, hd⟩
    refine ⟨decide_eq_true h, ?_⟩
    obtain ⟨as, bs, hl⟩ := List.append_of_mem (mem_allContexts c)
    refine ⟨as, bs, hl, fun a ha => ?_⟩
    rw [hl] at hso
    have := (List.pairwise_append.1 hso).2.2 a ha c List.mem_cons_self
    simpa using hd a this

theorem firstFree_none {s : State} : firstFree s = none ↔ ∀ c, (s.ctx c).state ≠ .free := by
  unfold firstFree
  rw [List.find?_eq_none]
  simp [mem_allContexts]

theorem turnAfter_all (q p : Port) : ∃ i, i ∈ allPorts ∧ q + 1 + i = p := by revert q p; decide

theorem notEligible_iff {s : State} {p : Port} : ((waitingHead s p).isSome && belowQuota s p) = false ↔
    (waitingHead s p = none ∨ s.quota p ≤ s.live p) := by
  unfold belowQuota
  cases waitingHead s p <;> simp

theorem nextEligible_none {s : State} : nextEligible s = none ↔ ∀ p, waitingHead s p = none ∨
    s.quota p ≤ s.live p := by
  unfold nextEligible turnAfter
  rw [List.find?_eq_none]
  constructor
  · intro h p
    obtain ⟨i, hi, hp⟩ := turnAfter_all s.pool.lastGranted p
    have := h p (List.mem_map.2 ⟨i, hi, hp⟩)
    rw [Bool.not_eq_true] at this
    exact notEligible_iff.1 this
  · intro h p _
    rw [Bool.not_eq_true]
    exact notEligible_iff.2 (h p)

theorem offer_cases (s : State) : (offer s = none ∧ (firstFree s = none ∨ nextEligible s = none)) ∨ ∃ t,
    offer s = some t := by
  unfold offer offerHolding
  cases firstFree s with
  | none => exact Or.inl ⟨rfl, Or.inl rfl⟩
  | some c =>
    cases nextEligible s with
    | none => exact Or.inl ⟨rfl, Or.inr rfl⟩
    | some p => exact Or.inr ⟨_, rfl⟩

/-- R70, R71, R72: what an offer does: it takes the port's head up, or refuses it. -/
theorem takeUp_eq {held : Option Bay} {c : CtxId} {p : Port} {kind : OpKind} {f : FrameFields} {s : State}
    (h : waitingHead s p = some (kind, f)) :
    (∀ b, admissionCheck s p kind f = .ok b → takeUp held c p s = allocateHolding held c p kind b f s) ∧
    (∀ st, admissionCheck s p kind f = .error st → takeUp held c p s = refuseOperation p f st s) := by
  unfold takeUp
  rw [h]
  exact ⟨fun b hb => by dsimp only; rw [hb], fun st hs => by dsimp only; rw [hs]⟩

/-- What decides which heads wait: the reservations and the Intake Queues. -/
def waitingSide (s : State) (p : Port) : Bool × List InFrame := ((s.port p).reserved, (s.port p).intake)

theorem waitingSide_tellSupervisors (s : State) : waitingSide (tellSupervisors s) = waitingSide s := by
  funext p; unfold waitingSide; rw [tellSupervisors_port]; split <;> rfl

theorem waitingSide_ports {s t : State} (h : s.ports = t.ports) : waitingSide s = waitingSide t := by
  funext p; unfold waitingSide State.port; rw [h]

theorem waitingSide_appendRecord (x : Entry) (s : State) : waitingSide (appendRecord x s) = waitingSide s := by
  obtain ⟨r, a, j, u, hu, h | h⟩ := appendRecord_only x s
  · rw [h, hu]; rfl
  · rw [h, waitingSide_tellSupervisors, hu]; rfl

theorem waitingSide_raiseEvent (e : Event) (s : State) : waitingSide (raiseEvent e s) = waitingSide s := by
  obtain ⟨r, a, h | h⟩ := raiseEvent_only e s
  · rw [h]; rfl
  · rw [h, waitingSide_tellSupervisors]; rfl

theorem waitingSide_swapCheck (s : State) : waitingSide (swapCheck s) = waitingSide s := by
  unfold swapCheck; split
  · exact (waitingSide_raiseEvent _ _).trans rfl
  · rfl

theorem waitingSide_adopt (b : Bay) (s : State) : waitingSide (adopt b s) = waitingSide s := by
  unfold adopt; dsimp only; rw [waitingSide_swapCheck, waitingSide_appendRecord]; rfl

theorem waitingSide_issue (b c w s) : waitingSide (issue b c w s) = waitingSide s := rfl

theorem waitingSide_issueHead (b p k s) : waitingSide (issueHead b p k s) = waitingSide s := by
  unfold issueHead; split
  · rfl
  · exact waitingSide_issue _ _ _ _

theorem waitingSide_roundEnd (b s) : waitingSide (roundEnd b s) = waitingSide s := by
  unfold roundEnd; split
  · exact (waitingSide_ports rfl).trans (waitingSide_adopt b s)
  · rfl

theorem waitingSide_choose (b : Bay) (s t : State) (h : choose b s = some t) : waitingSide t = waitingSide s := by
  unfold choose at h
  split at h
  · split at h
    · cases h; rfl
    · split at h
      · cases h; exact waitingSide_issueHead _ _ _ _
      · split at h
        · dsimp only at h
          split at h
          · cases h; exact (waitingSide_issueHead _ _ _ _).trans (waitingSide_roundEnd _ _)
          · split at h
            · cases h; exact (waitingSide_issueHead _ _ _ _).trans (waitingSide_roundEnd _ _)
            · cases h; exact waitingSide_roundEnd _ _
        · cases h
  · cases h

theorem waitingSide_chooseLoop (b : Bay) : ∀ n s, waitingSide (chooseLoop b n s) = waitingSide s := by
  intro n
  induction n with
  | zero => intro s; rfl
  | succ n ih =>
    intro s
    unfold chooseLoop
    split
    · next h => rw [ih, waitingSide_choose _ _ _ h]
    · rfl

theorem waitingSide_chooseAll (b s) : waitingSide (chooseAll b s) = waitingSide s := waitingSide_chooseLoop _ _ _

theorem flowAct_reserved (n : NodePort) : (flowAct n).reserved = n.reserved := by
  unfold flowAct; split <;> split <;> rfl

theorem leaveHead_reserved (p q : Port) (s : State) : ((leaveHead p s).port q).reserved = if p = q then false else (s.port q).reserved := by
  unfold leaveHead
  rw [modPort_port]
  split
  · rw [flowAct_reserved]
  · rfl

theorem waitingHead_congr {s t : State} (h : waitingSide s = waitingSide t)
    (p : Port) : waitingHead s p = waitingHead t p := by
  have := congrFun h p
  unfold waitingSide at this
  obtain ⟨h1, h2⟩ := Prod.mk.inj this
  unfold waitingHead; rw [h1, h2]

theorem allocateHolding_reserved (held c p k b f s) (q : Port) :
    ((allocateHolding held c p k b f s).port q).reserved = if p = q then false else (s.port q).reserved := by
  have h : ((seat c p k b f s).port q).reserved = if p = q then false else (s.port q).reserved :=
    (leaveHead_reserved p q _).trans rfl
  unfold allocateHolding allocate
  split
  · exact h
  · exact (congrArg Prod.fst (congrFun (waitingSide_chooseAll b _) q)).trans h

theorem refuseOperation_reserved (p f st s)
    (q : Port) : ((refuseOperation p f st s).port q).reserved = if p = q then false else (s.port q).reserved := by
  unfold refuseOperation answerHead
  rw [leaveHead_reserved]
  split
  · rfl
  · next h => unfold placeAnswer; rw [modPort_port_ne _ _ h]

/-- The ports whose head waits for a context. -/
def reservedPorts (s : State) : List Port := allPorts.filter fun p => (s.port p).reserved

theorem nextEligible_reserved {s : State} {p : Port} (h : nextEligible s = some p) : (s.port p).reserved = true := by
  unfold nextEligible at h
  have h := List.find?_some h
  simp only [Bool.and_eq_true] at h
  unfold waitingHead at h
  split at h
  · assumption
  · cases h.1

theorem nextEligible_waits {s : State} {p : Port} (h : nextEligible s = some p) :
    ∃ kind f, waitingHead s p = some (kind, f) := by
  unfold nextEligible at h
  have h := List.find?_some h
  simp only [Bool.and_eq_true] at h
  obtain ⟨x, hx⟩ := Option.isSome_iff_exists.1 h.1
  exact ⟨x.1, x.2, hx⟩

theorem offer_reserved {held : Option Bay} {s t : State} (h : offerHolding held s = some t) :
    ∃ p, (s.port p).reserved = true ∧ ∀ q : Port,
      (t.port q).reserved = if p = q then false else (s.port q).reserved := by
  unfold offerHolding at h
  split at h
  · next c p _ hp =>
    cases h
    refine ⟨p, nextEligible_reserved hp, ?_⟩
    obtain ⟨kind, f, hw⟩ := nextEligible_waits hp
    cases hc : admissionCheck s p kind f with
    | ok b => rw [(takeUp_eq hw).1 b hc]; exact allocateHolding_reserved _ _ _ _ _ _ _
    | error st => rw [(takeUp_eq hw).2 st hc]; exact refuseOperation_reserved _ _ _ _
  · cases h

theorem filter_shorter {l : List Port} {f g : Port → Bool} {p : Port} (hp : p ∈ l) (hf : f p = true)
    (hg : g p = false) (hi : ∀ q, g q = true → f q = true) :
    (l.filter g).length < (l.filter f).length := by
  induction l with
  | nil => cases hp
  | cons a l ih =>
    rcases List.mem_cons.1 hp with rfl | hm
    · rw [List.filter_cons_of_neg (by simp [hg]), List.filter_cons_of_pos hf, List.length_cons]
      have : ∀ l : List Port, (l.filter g).length ≤ (l.filter f).length := by
        intro l
        induction l with
        | nil => exact Nat.le_refl _
        | cons a l ih =>
          by_cases h : g a = true
          · rw [List.filter_cons_of_pos h, List.filter_cons_of_pos (hi a h)]; exact Nat.succ_le_succ ih
          · rw [List.filter_cons_of_neg h]
            by_cases h2 : f a = true
            · rw [List.filter_cons_of_pos h2]; exact Nat.le_succ_of_le ih
            · rw [List.filter_cons_of_neg h2]; exact ih
      exact Nat.lt_succ_of_le (this l)
    · have := ih hm
      by_cases h : g a = true
      · rw [List.filter_cons_of_pos h, List.filter_cons_of_pos (hi a h)]; exact Nat.succ_lt_succ this
      · rw [List.filter_cons_of_neg h]
        by_cases h2 : f a = true
        · rw [List.filter_cons_of_pos h2]; exact Nat.lt_succ_of_lt this
        · rw [List.filter_cons_of_neg h2]; exact this

/-- R72: a hand-out long enough for the ports that wait ends with nothing to offer. -/
theorem handOutLoop_ends : ∀ (n : Nat) (s : State), (reservedPorts s).length ≤ n →
    offer (handOutLoop none n s) = none := by
  intro n
  induction n with
  | zero =>
    intro s h
    show offer s = none
    cases ho : offer s with
    | none => rfl
    | some t =>
      obtain ⟨p, hp, -⟩ := offer_reserved ho
      have : p ∈ reservedPorts s := List.mem_filter.2 ⟨mem_allPorts p, hp⟩
      rw [List.eq_nil_of_length_eq_zero (Nat.le_zero.1 h)] at this
      cases this
  | succ n ih =>
    intro s h
    unfold handOutLoop
    cases ho : offerHolding none s with
    | none => exact ho
    | some t =>
      apply ih
      obtain ⟨p, hp, hq⟩ := offer_reserved ho
      have : (reservedPorts t).length < (reservedPorts s).length := by
        refine filter_shorter (mem_allPorts p) hp ?_ ?_
        · rw [hq]; simp
        · intro q hx; rw [hq] at hx; split at hx
          · cases hx
          · exact hx
      omega

/-- R72: a hand-out ends with nothing to offer. -/
theorem handOut_ends (s : State) : offer (handOut s) = none := by
  apply handOutLoop_ends
  exact Nat.le_trans (List.length_filter_le _ _) (by decide)

/-- R71: the first port in turn. -/
theorem turnAfter_find {P : Port → Bool} (q i : Port) (h : P (q + 1 + i) = true)
    (hj : ∀ j, j < i → P (q + 1 + j) = false) :
    (turnAfter q).find? P = some (q + 1 + i) := by
  unfold turnAfter
  rw [List.find?_map]
  have : allPorts.find? (P ∘ fun i => q + 1 + i) = some i := by
    rw [List.find?_eq_some_iff_append]
    refine ⟨h, ?_⟩
    have hso : allPorts.Pairwise (· < ·) := by decide
    obtain ⟨as, bs, hl⟩ := List.append_of_mem (mem_allPorts i)
    refine ⟨as, bs, hl, fun a ha => ?_⟩
    rw [hl] at hso
    have := (List.pairwise_append.1 hso).2.2 a ha i List.mem_cons_self
    have := hj a this
    simp [this]
  rw [this]; rfl

theorem uncreditedPort_none {s : State} {b : Bay} : uncreditedPort s b = none ↔ ∀ p, eligibleHead s b p = none := by
  unfold uncreditedPort turnAfter
  rw [List.find?_eq_none]
  constructor
  · intro h p
    obtain ⟨i, hi, hp⟩ := turnAfter_all (s.service b).lastServed p
    have := h p (List.mem_map.2 ⟨i, hi, hp⟩)
    simpa using this
  · intro h p _
    rw [h p]; simp

end Sys2Proof.Machine
end

