-- ==== Sys2Proof/Laws/Bytes.lean ====
section
/-! SUPPORT. What stands in the bytes of a number, of an event set and under a check value (R192, R193). -/

namespace Sys2Proof.Machine

theorem natOf_lt (l : List Byte) : natOf l < 256 ^ l.length := by
  induction l with
  | nil => simp [natOf]
  | cons x l ih =>
    rw [natOf_cons, List.length_cons, Nat.pow_succ]
    have := x.isLt
    have h2 : x.toNat * 256 ^ l.length ≤ 255 * 256 ^ l.length := Nat.mul_le_mul_right _ (by omega)
    omega

/-- Each byte of a number, the most significant first. -/
theorem bytesOf_get (n v i : Nat) (h : i < n) : (bytesOf n v)[i]? = some (byte (v / 256 ^ (n - 1 - i))) := by
  induction n generalizing i with
  | zero => omega
  | succ n ih =>
    rw [bytesOf]
    cases i with
    | zero =>
      simp only [List.getElem?_cons_zero, Nat.shiftRight_eq_div_pow, byte]
      rw [Nat.pow_mul, show 2 ^ 8 = 256 from rfl, show n + 1 - 1 - 0 = n by omega]
    | succ i =>
      rw [List.getElem?_cons_succ, ih i (by omega), show n + 1 - 1 - (i + 1) = n - 1 - i by omega]

/-- The bytes of a number depend on no more of it than they hold. -/
theorem bytesOf_congr (n v k : Nat) (h : k % 256 ^ n = v % 256 ^ n) : bytesOf n k = bytesOf n v := by
  induction n with
  | zero => rfl
  | succ n ih =>
    have hpn : (2 : Nat) ^ (8 * n) = 256 ^ n := by rw [Nat.pow_mul]
    rw [bytesOf, bytesOf]
    congr 1
    · apply BitVec.eq_of_toNat_eq
      rw [BitVec.toNat_ofNat, BitVec.toNat_ofNat, Nat.shiftRight_eq_div_pow, Nat.shiftRight_eq_div_pow, hpn]
      have := congrArg (· / 256 ^ n) h
      simp only [Nat.pow_succ, Nat.mod_mul_right_div_self] at this
      exact this
    · apply ih
      have := congrArg (· % 256 ^ n) h
      simp only [Nat.pow_succ, Nat.mod_mul_right_mod] at this
      exact this

/-- Bytes are those of the number they hold. -/
theorem bytesOf_natOf (l : List Byte) : bytesOf l.length (natOf l) = l := by
  induction l with
  | nil => rfl
  | cons x l ih =>
    have hp : (2 : Nat) ^ (8 * l.length) = 256 ^ l.length := by rw [Nat.pow_mul]
    have h256 : 0 < 256 ^ l.length := Nat.pow_pos (by omega)
    have e1 : BitVec.ofNat 8 ((x.toNat * 256 ^ l.length + natOf l) >>> (8 * l.length)) = x := by
      rw [Nat.shiftRight_eq_div_pow, hp, Nat.mul_comm, Nat.mul_add_div h256, Nat.div_eq_of_lt (natOf_lt l)]
      simp
    rw [List.length_cons, bytesOf, natOf_cons, e1]
    congr 1
    conv => rhs; rw [← ih]
    exact bytesOf_congr _ _ _ (by rw [Nat.mul_comm, Nat.mul_add_mod])

theorem reverse_reverse_set (v : EventSet) : v.reverse.reverse = v := by
  apply BitVec.eq_of_getLsbD_eq
  intro i _
  rw [BitVec.getLsbD_reverse, BitVec.getMsbD_reverse]

/-- R188: what is read as an event set is the ten bytes of that set. -/
theorem eventsOf_sound (x : List Byte) (v : EventSet) (h : eventsOf x = some v) : x = eventBytes v := by
  unfold eventsOf at h
  split at h
  · rename_i hc
    obtain rfl := Option.some.inj h
    have hl := natOf_lt x
    rw [hc.1] at hl
    unfold eventBytes
    rw [reverse_reverse_set, BitVec.toNat_ofNat, Nat.shiftRight_eq_div_pow, Nat.mod_eq_of_lt, Nat.shiftLeft_eq]
    · have : natOf x / 2 ^ 3 * 2 ^ 3 = natOf x := by omega
      rw [this, ← hc.1, bytesOf_natOf]
    · rw [show (256 : Nat) ^ 10 = 2 ^ 77 * 2 ^ 3 by decide] at hl
      exact Nat.div_lt_of_lt_mul (by rw [Nat.mul_comm]; exact hl)
  · cases h

theorem natOf_append_one (l : List Byte) (y : Byte) : natOf (l ++ [y]) = natOf l * 256 + y.toNat := by
  simp [natOf]

/-- R188: ten bytes are an event set exactly if the last three bits are zero. -/
theorem eventsOf_isSome (x : List Byte) :
    (∃ v, eventsOf x = some v) ↔ x.length = 10 ∧ ∃ y : Byte, x[9]? = some y ∧ y.toNat % 8 = 0 := by
  have key : ∀ y : Byte, x.length = 10 → x[9]? = some y → natOf x % 8 = y.toNat % 8 := by
    intro y hl hy
    have hx : x = x.take 9 ++ [y] := by
      have hd : x.drop 9 = [y] := by
        rw [List.drop_eq_getElem_cons (by omega), List.drop_eq_nil_of_le (by omega)]
        rw [List.getElem?_eq_getElem (by omega)] at hy
        rw [Option.some.inj hy]
      rw [← hd, List.take_append_drop]
    rw [hx, natOf_append_one]; omega
  unfold eventsOf
  constructor
  · rintro ⟨v, hv⟩
    split at hv
    · next hc =>
      have hy : x[9]? = some (x[9]'(by omega)) := List.getElem?_eq_getElem _
      exact ⟨hc.1, _, hy, (key _ hc.1 hy).symm.trans hc.2⟩
    · cases hv
  · rintro ⟨hl, y, hy, hm⟩
    rw [if_pos ⟨hl, (key y hl hy).trans hm⟩]
    exact ⟨_, rfl⟩

/-- R193: event n is bit 7 − (n mod 8) of byte n div 8. -/
theorem eventBytes_bit (x : EventSet) (n : Nat) (h : n < 77) :
    ((eventBytes x)[n / 8]?).map (fun y => y.getLsbD (7 - n % 8)) = some (x.getLsbD n) := by
  unfold eventBytes
  rw [bytesOf_get _ _ _ (by omega), Option.map_some]
  congr 1
  unfold byte
  rw [BitVec.getLsbD_ofNat, show decide (7 - n % 8 < 8) = true by simp; omega, Bool.true_and,
    show (256 : Nat) = 2 ^ 8 from rfl, ← Nat.pow_mul, ← Nat.shiftRight_eq_div_pow, Nat.testBit_shiftRight,
    Nat.testBit_shiftLeft]
  rw [show decide (8 * (10 - 1 - n / 8) + (7 - n % 8) ≥ 3) = true by simp; omega, Bool.true_and,
    BitVec.testBit_toNat, BitVec.getLsbD_reverse, BitVec.getMsbD_eq_getLsbD]
  have : 77 - 1 - (8 * (10 - 1 - n / 8) + (7 - n % 8) - 3) = n := by omega
  rw [this]
  simp; omega

/-- R192: the check value is the complement of a register that starts at all ones and takes every bit in turn. -/
theorem checkValue_eq (bytes : List Byte) : checkValue bytes =
    ~~~((bytes.flatMap fun x => (List.range 8).map fun i => x.getMsbD i).foldl
      (fun (r : Word32) bit => (r <<< 1) ^^^ (if r.msb = bit then 0#32 else 0x04C11DB7#32)) (BitVec.allOnes 32)) := by
  unfold checkValue
  congr 1
  rw [show BitVec.allOnes 32 = 0xFFFFFFFF#32 by decide]
  generalize 0xFFFFFFFF#32 = r
  induction bytes generalizing r with
  | nil => rfl
  | cons x l ih =>
    rw [List.foldl_cons, ih, List.flatMap_cons, List.foldl_append]
    congr 1
    have hf : crcFeed = fun (r : Word32) (bit : Bool) => (r <<< 1) ^^^ (if r.msb = bit then 0#32 else 0x04C11DB7#32) := by
      funext r bit
      unfold crcFeed
      by_cases e : r.msb = bit <;> simp [e]
    unfold crcByte
    rw [hf]
    rfl

end Sys2Proof.Machine
end

