-- ==== Sys2Proof/Laws/Choices.lean ====
section
/-! SUPPORT. Hand-outs and choices taken one at a time: each begins with one offer, or one choice, and goes on. -/

namespace Sys2Proof.Machine

/-! ## Hand-outs -/

/-- R71: each offer ends the wait of one port. -/
theorem offerHolding_shorter {held : Option Bay} {s t : State} (h : offerHolding held s = some t) :
    (reservedPorts t).length < (reservedPorts s).length := by
  obtain ⟨p, hp, hq⟩ := offer_reserved h
  refine filter_shorter (mem_allPorts p) hp ?_ fun q hx => ?_
  · rw [hq]; simp
  · rw [hq] at hx; split at hx
    · cases hx
    · exact hx

theorem handOutLoop_succ (held : Option Bay) (n : Nat) (s : State) : handOutLoop held (n + 1) s =
    match offerHolding held s with
    | some t => handOutLoop held n t
    | none => s := rfl

/-- Any two hand-outs long enough for the ports that wait are the same. -/
theorem handOutLoop_enough (held : Option Bay) : ∀ (n m : Nat) (s : State), (reservedPorts s).length ≤ n →
    (reservedPorts s).length ≤ m → handOutLoop held n s = handOutLoop held m s := by
  intro n
  induction n with
  | zero =>
    intro m s h _
    have : offerHolding held s = none := by
      cases ho : offerHolding held s with
      | none => rfl
      | some t => exact absurd (offerHolding_shorter ho) (by omega)
    cases m with
    | zero => rfl
    | succ m => rw [handOutLoop_succ, this]; rfl
  | succ n ih =>
    intro m s h k
    cases ho : offerHolding held s with
    | none =>
      rw [handOutLoop_succ, ho]
      cases m with
      | zero => rfl
      | succ m => rw [handOutLoop_succ, ho]
    | some t =>
      have := offerHolding_shorter ho
      cases m with
      | zero => omega
      | succ m =>
        rw [handOutLoop_succ, handOutLoop_succ, ho]
        exact ih m t (by omega) (by omega)

theorem reservedPorts_le (s : State) : (reservedPorts s).length ≤ 8 :=
  Nat.le_trans (List.length_filter_le _ _) (by decide)

/-- R71: a hand-out with nothing to offer does nothing. -/
theorem handOutHolding_none {held : Option Bay} {s : State} (h : offerHolding held s = none) :
    handOutHolding held s = s := by
  unfold handOutHolding; rw [handOutLoop_succ, h]

/-- R71: a hand-out makes an offer and goes on. -/
theorem handOutHolding_some {held : Option Bay} {s t : State} (h : offerHolding held s = some t) :
    handOutHolding held s = handOutHolding held t := by
  unfold handOutHolding
  rw [handOutLoop_succ, h]
  have h1 := offerHolding_shorter h
  have h2 := reservedPorts_le s
  exact handOutLoop_enough held 7 8 t (by omega) (by omega)

/-! ## Choices -/

/-- R116: an issue takes one slot. -/
theorem issue_slots (b : Bay) (c : CtxId) (l : Lane) (s : State) :
    ((issue b c l s).drive b).slots.length = (s.drive b).slots.length + 1 := by
  unfold issue; dsimp only
  rw [modDrive_drive_self, List.length_append]
  rfl

theorem eligibleHead_list {s : State} {b : Bay} {p : Port} (h : (eligibleHead s b p).isSome = true) :
    ∃ c rest, (s.service b).lists[p] = c :: rest := by
  unfold eligibleHead at h
  cases hl : (s.service b).lists[p] with
  | nil => rw [hl] at h; cases h
  | cons c rest => exact ⟨c, rest, rfl⟩

theorem issueHead_cons {s : State} {b : Bay} {p : Port} {c : CtxId} {rest : List CtxId}
    (h : (s.service b).lists[p] = c :: rest) (cost : Nat) :
    issueHead b p cost s = issue b c (s.drive b).policy.preferred (s.modService b fun v =>
      { v with lists := v.lists.set p rest, credits := v.credits.set p (v.credits[p] - cost), lastServed := p }) := by
  unfold issueHead
  rw [h]

theorem issueHead_slots {s : State} {b : Bay} {p : Port} (h : (eligibleHead s b p).isSome = true) (cost : Nat) :
    ((issueHead b p cost s).drive b).slots.length = (s.drive b).slots.length + 1 := by
  obtain ⟨c, rest, hl⟩ := eligibleHead_list h
  rw [issueHead_cons hl, issue_slots]; rfl

theorem creditedPort_eligible {s : State} {b : Bay} {p : Port} (h : creditedPort s b = some p) :
    (eligibleHead s b p).isSome = true := by
  have := List.find?_some h
  simp only [Bool.and_eq_true] at this
  exact this.2

theorem uncreditedPort_eligible {s : State} {b : Bay} {p : Port} (h : uncreditedPort s b = some p) :
    (eligibleHead s b p).isSome = true :=
  List.find?_some (p := fun p => (eligibleHead s b p).isSome) h

/-- What decides which heads are eligible at a bay, and in which turn. -/
structure ChoiceSide where
  lists : Vector (List CtxId) 8
  lastServed : Port
  drives : Vector DriveEngine 12
  contexts : Vector Context 64

/-- That side of a state. -/
def choiceSide (b : Bay) (s : State) : ChoiceSide :=
  ⟨(s.service b).lists, (s.service b).lastServed, s.drives, s.pool.contexts⟩

theorem choiceSide_tellSupervisors (b : Bay) (s : State) : choiceSide b (tellSupervisors s) = choiceSide b s := by
  have h := congrArg (choiceSide b) (tellSupervisors_only s)
  generalize tellSupervisors s = w at h ⊢
  exact h

theorem choiceSide_raiseEvent (b : Bay) (e : Event) (s : State) : choiceSide b (raiseEvent e s) = choiceSide b s := by
  obtain ⟨r, a, h | h⟩ := raiseEvent_only e s
  · rw [h]; rfl
  · rw [h, choiceSide_tellSupervisors]; rfl

theorem choiceSide_appendRecord (b : Bay) (x : Entry) (s : State) :
    choiceSide b (appendRecord x s) = choiceSide b s := by
  obtain ⟨r, a, j, u, hu, h | h⟩ := appendRecord_only x s
  · rw [h, hu]; rfl
  · rw [h, choiceSide_tellSupervisors, hu]; rfl

theorem choiceSide_modService (b : Bay) (f : Service → Service) (s : State)
    (h : (f (s.service b)).lists = (s.service b).lists ∧ (f (s.service b)).lastServed = (s.service b).lastServed) :
    choiceSide b (s.modService b f) = choiceSide b s := by
  unfold choiceSide
  rw [modService_service_self, h.1, h.2]; rfl

theorem choiceSide_adopt (b : Bay) (s : State) : choiceSide b (adopt b s) = choiceSide b s := by
  have key : ∀ t, choiceSide b (swapCheck t) = choiceSide b t := by
    intro t; unfold swapCheck
    split
    · exact (choiceSide_raiseEvent _ _ _).trans rfl
    · rfl
  unfold adopt; dsimp only
  exact (key _).trans ((choiceSide_appendRecord _ _ _).trans (choiceSide_modService _ _ _ ⟨rfl, rfl⟩))

/-- R97: a round's end changes no service list and no issue slot. -/
theorem choiceSide_roundEnd (b : Bay) (s : State) : choiceSide b (roundEnd b s) = choiceSide b s := by
  unfold roundEnd refill
  refine (choiceSide_modService b _ _ ⟨rfl, rfl⟩).trans ?_
  split
  · exact choiceSide_adopt b s
  · rfl

theorem eligible_congr {b : Bay} {s t : State} (h : choiceSide b s = choiceSide b t) (c : CtxId) :
    eligible s b c = eligible t b c := by
  injection h with h1 h2 h3 h4
  unfold eligible State.drive State.ctx
  rw [h3, h4]

theorem eligibleHead_congr {b : Bay} {s t : State} (h : choiceSide b s = choiceSide b t) (p : Port) :
    eligibleHead s b p = eligibleHead t b p := by
  have h1 : (s.service b).lists = (t.service b).lists := congrArg ChoiceSide.lists h
  unfold eligibleHead
  rw [h1]
  split
  · rw [eligible_congr h]
  · rfl

theorem uncreditedPort_congr {b : Bay} {s t : State} (h : choiceSide b s = choiceSide b t) :
    uncreditedPort s b = uncreditedPort t b := by
  have h1 : (s.service b).lastServed = (t.service b).lastServed := congrArg ChoiceSide.lastServed h
  unfold uncreditedPort
  rw [h1]
  exact congrArg (fun f => List.find? f _) (funext fun p => by rw [eligibleHead_congr h])

/-- R94, R96, R97, R98: a choice issues one context: one issue slot more is taken. -/
theorem choose_slots {b : Bay} {s t : State} (h : choose b s = some t) :
    (s.drive b).slots.length < Config.issueSlots ∧ (t.drive b).slots.length = (s.drive b).slots.length + 1 := by
  have hc : canIssue s b = true := by
    unfold choose at h
    split at h
    · assumption
    · cases h
  refine ⟨?_, ?_⟩
  · unfold canIssue at hc
    simp only [Bool.and_eq_true, decide_eq_true_eq] at hc
    exact hc.1.1
  · have hr : ((roundEnd b s).drive b).slots = (s.drive b).slots := by
      have := congrArg ChoiceSide.drives (choiceSide_roundEnd b s)
      exact congrArg (fun v : Vector DriveEngine 12 => (v[b]).slots) this
    unfold choose at h
    rw [if_pos hc] at h
    split at h
    · cases h
      unfold issueRetry
      rw [issue_slots]; rfl
    · split at h
      · next hp => cases h; exact issueHead_slots (creditedPort_eligible hp) 1
      · split at h
        · next hu =>
          dsimp only at h
          split at h
          · next hp => cases h; rw [issueHead_slots (creditedPort_eligible hp), hr]
          · split at h
            · next hp => cases h; rw [issueHead_slots (uncreditedPort_eligible hp), hr]
            · next hn => rw [uncreditedPort_congr (choiceSide_roundEnd b s)] at hn; rw [hn] at hu; cases hu
        · cases h

theorem chooseLoop_succ (b : Bay) (n : Nat) (s : State) : chooseLoop b (n + 1) s =
    match choose b s with
    | some t => chooseLoop b n t
    | none => s := rfl

/-- Any two runs of choices long enough for the issue slots that are left are the same. -/
theorem chooseLoop_enough (b : Bay) : ∀ (n m : Nat) (s : State), Config.issueSlots ≤ (s.drive b).slots.length + n →
    Config.issueSlots ≤ (s.drive b).slots.length + m → chooseLoop b n s = chooseLoop b m s := by
  intro n
  induction n with
  | zero =>
    intro m s h _
    have : choose b s = none := by
      cases ho : choose b s with
      | none => rfl
      | some t => exact absurd (choose_slots ho).1 (by omega)
    cases m with
    | zero => rfl
    | succ m => rw [chooseLoop_succ, this]; rfl
  | succ n ih =>
    intro m s h k
    cases ho : choose b s with
    | none =>
      rw [chooseLoop_succ, ho]
      cases m with
      | zero => rfl
      | succ m => rw [chooseLoop_succ, ho]
    | some t =>
      obtain ⟨h1, h2⟩ := choose_slots ho
      cases m with
      | zero => omega
      | succ m =>
        rw [chooseLoop_succ, chooseLoop_succ, ho]
        exact ih m t (by omega) (by omega)

theorem chooseLoop_ends (b : Bay) : ∀ (n : Nat) (s : State), Config.issueSlots ≤ (s.drive b).slots.length + n →
    choose b (chooseLoop b n s) = none := by
  intro n
  induction n with
  | zero =>
    intro s h
    show choose b s = none
    cases ho : choose b s with
    | none => rfl
    | some t => exact absurd (choose_slots ho).1 (by omega)
  | succ n ih =>
    intro s h
    rw [chooseLoop_succ]
    cases ho : choose b s with
    | none => exact ho
    | some t =>
      obtain ⟨-, h2⟩ := choose_slots ho
      exact ih t (by omega)

/-- R94: where a choice chooses nothing, there are no more choices. -/
theorem chooseAll_none {b : Bay} {s : State} (h : choose b s = none) : chooseAll b s = s := by
  unfold chooseAll; rw [show Config.issueSlots = 3 + 1 from rfl, chooseLoop_succ, h]

/-- R94: a choice is followed by another. -/
theorem chooseAll_some {b : Bay} {s t : State} (h : choose b s = some t) : chooseAll b s = chooseAll b t := by
  unfold chooseAll
  rw [show Config.issueSlots = 3 + 1 from rfl, chooseLoop_succ, h]
  obtain ⟨h1, h2⟩ := choose_slots h
  have h3 : Config.issueSlots = 4 := rfl
  exact chooseLoop_enough b 3 4 t (by omega) (by omega)

/-- R94: the choices at a bay end when one chooses nothing. -/
theorem choose_chooseAll (b : Bay) (s : State) : choose b (chooseAll b s) = none :=
  chooseLoop_ends b Config.issueSlots s (Nat.le_add_left _ _)

end Sys2Proof.Machine
end

