-- ==== Sys2Proof/Laws/CleanUps.lean ====
section
/-! SUPPORT. What a port's clean-up does at the Context Pool, and what a lapse and a disabling leave owed (R87, R159,
R163). -/

namespace Sys2Proof.Machine

theorem tellSupervisors_portStats (s : State) : (tellSupervisors s).portStats = s.portStats := by
  have h := congrArg State.portStats (tellSupervisors_only s)
  generalize tellSupervisors s = w at h ⊢
  exact h

theorem raiseEvent_portStats (e : Event) (s : State) : (raiseEvent e s).portStats = s.portStats := by
  obtain ⟨r, a, h | h⟩ := raiseEvent_only e s
  · rw [h]
  · rw [h, tellSupervisors_portStats]

theorem appendRecord_portStats (x : Entry) (s : State) : (appendRecord x s).portStats = s.portStats := by
  obtain ⟨r, a, j, u, hu, h | h⟩ := appendRecord_only x s
  · rw [h, hu]
  · rw [h, tellSupervisors_portStats, hu]

/-- R159: what a lapse makes of the Context Pool is the clean-up there. -/
theorem lapse_pool (p : Port) (s : State) (a : State) (ha : a = s.modPresence p fun m => { m with beatTimer := none }) :
    (lapse p s).pool = (cleanContexts p (cleanLoans .lapse p (a.modPort p cleanPort)).state).pool ∧
    (lapse p s).portStats = (cleanContexts p (cleanLoans .lapse p (a.modPort p cleanPort)).state).portStats := by
  subst ha
  unfold lapse dropNews
  dsimp only
  have hc : (cleanUp .lapse p (s.modPresence p fun m => { m with beatTimer := none })).state = cleanContexts p (cleanLoans .lapse p ((s.modPresence p fun m => { m with beatTimer := none }).modPort p cleanPort)).state := by unfold cleanUp; dsimp only
  rw [← hc]
  generalize cleanUp .lapse p (s.modPresence p fun m => { m with beatTimer := none }) = t
  refine ⟨(raiseEvent_pool _ _).trans ((appendRecord_pool _ _).trans rfl), (raiseEvent_portStats _ _).trans ((appendRecord_portStats _ _).trans rfl)⟩

/-- R163: what PORT_DISABLE makes of the Context Pool is the clean-up there. -/
theorem disable_pool (p : Port) (s : State) (a : State) (ha : a = s.modPresence p fun m => { m with beatTimer := none }) :
    (disable p s).pool = (cleanContexts p (cleanLoans .disabled p (a.modPort p cleanPort)).state).pool ∧
    (disable p s).portStats = (cleanContexts p (cleanLoans .disabled p (a.modPort p cleanPort)).state).portStats := by
  subst ha
  unfold disable dropNews
  dsimp only
  have hc : (cleanUp .disabled p (s.modPresence p fun m => { m with beatTimer := none })).state = cleanContexts p (cleanLoans .disabled p ((s.modPresence p fun m => { m with beatTimer := none }).modPort p cleanPort)).state := by unfold cleanUp; dsimp only
  rw [← hc]
  generalize cleanUp .disabled p (s.modPresence p fun m => { m with beatTimer := none }) = t
  exact ⟨(appendRecord_pool _ _).trans rfl, (appendRecord_portStats _ _).trans rfl⟩

/-- R156: what a HELLO at an ACTIVE port makes of the Context Pool is the clean-up there. -/
theorem rehello_pool (p : Port) (f : FrameFields) (a : State) :
    (rehello p f a).pool = (cleanContexts p (cleanLoans .rehello p (a.modPort p cleanPort)).state).pool ∧
    (rehello p f a).portStats = (cleanContexts p (cleanLoans .rehello p (a.modPort p cleanPort)).state).portStats := by
  unfold rehello oweNews
  dsimp only
  have hc : (cleanUp .rehello p a).state = cleanContexts p (cleanLoans .rehello p (a.modPort p cleanPort)).state := by unfold cleanUp; dsimp only
  rw [← hc]
  generalize cleanUp .rehello p a = t
  have h : ∀ e : Entry, ((appendRecord e (startBeats p t.state)).pool = t.state.pool) ∧ ((appendRecord e (startBeats p t.state)).portStats = t.state.portStats) := by
    intro e; exact ⟨(appendRecord_pool _ _).trans rfl, (appendRecord_portStats _ _).trans rfl⟩
  split <;> exact h _

theorem tellSupervisors_eventNews (s : State) (p : Port) (h : (s.presence p).state ≠ .active) (hp : (s.port p).eventNews = false) : ((tellSupervisors s).port p).eventNews = false := by
  rw [tellSupervisors_port]; split
  · next k => unfold hearsEvents at k; simp at k; exact absurd k.2 h
  · exact hp

theorem raiseEvent_eventNews (e : Event) (s : State) (p : Port) (h : (s.presence p).state ≠ .active) (hp : (s.port p).eventNews = false) : ((raiseEvent e s).port p).eventNews = false := by
  obtain ⟨r, a, k | k⟩ := raiseEvent_only e s
  · rw [k]; exact hp
  · rw [k]; exact tellSupervisors_eventNews _ p h hp

theorem appendRecord_eventNews (x : Entry) (s : State) (p : Port) (h : (s.presence p).state ≠ .active) (hp : (s.port p).eventNews = false) : ((appendRecord x s).port p).eventNews = false := by
  obtain ⟨r, a, j, u, hu, k | k⟩ := appendRecord_only x s
  · rw [k, hu]; exact hp
  · rw [k]; exact tellSupervisors_eventNews _ p (by rw [hu]; exact h) (by rw [hu]; exact hp)

theorem tellSupervisors_presences (s : State) : (tellSupervisors s).presences = s.presences := by
  have h := congrArg State.presences (tellSupervisors_only s)
  generalize tellSupervisors s = w at h ⊢
  exact h

theorem appendRecord_presences (x : Entry) (s : State) : (appendRecord x s).presences = s.presences := by
  obtain ⟨r, a, j, u, hu, h | h⟩ := appendRecord_only x s
  · rw [h, hu]
  · rw [h, tellSupervisors_presences, hu]

/-- R163: no EVENT frame is owed to a port that is disabled. -/
theorem disable_eventNews (p : Port) (s : State) : ((disable p s).port p).eventNews = false := by
  unfold disable; dsimp only
  generalize cleanUp .disabled p (s.modPresence p fun m => { m with beatTimer := none }) = t
  refine appendRecord_eventNews _ _ p ?_ ?_
  · unfold dropNews
    rw [show ∀ v : State, ∀ g, (v.modPort p g).presence p = v.presence p from fun _ _ => rfl, modPresence_presence_self]; simp
  · unfold dropNews; rw [modPort_port_self]

/-- R159: no EVENT frame is owed to a port that has lapsed. -/
theorem lapse_eventNews (p : Port) (s : State) : ((lapse p s).port p).eventNews = false := by
  unfold lapse; dsimp only
  generalize cleanUp .lapse p (s.modPresence p fun m => { m with beatTimer := none }) = t
  generalize hv : dropNews p (t.state.modPresence p fun m => { m with state := .lapsed }) = v
  have h1 : (v.presence p).state ≠ .active := by
    rw [← hv]; unfold dropNews
    rw [show ∀ v : State, ∀ g, (v.modPort p g).presence p = v.presence p from fun _ _ => rfl, modPresence_presence_self]; simp
  have h2 : (v.port p).eventNews = false := by rw [← hv]; unfold dropNews; rw [modPort_port_self]
  refine raiseEvent_eventNews _ _ p ?_ (appendRecord_eventNews _ _ p h1 h2)
  unfold State.presence; rw [appendRecord_presences]; exact h1

/-- R87 step 1: contexts orphaned in turn. -/
theorem orphanContext_fold (p : Port) : ∀ (l : List CtxId), l.Nodup → ∀ s : State,
    (∀ c, (l.foldl (orphanContext p) s).ctx c = if c ∈ l ∧ (s.ctx c).state = .issued ∧ (s.ctx c).port = p then { s.ctx c with orphaned := true } else s.ctx c) ∧
    (l.foldl (orphanContext p) s).live p = s.live p - (l.filter fun c => decide ((s.ctx c).state = .issued ∧ (s.ctx c).port = p ∧ (s.ctx c).orphaned = false)).length ∧
    (∀ q, q ≠ p → (l.foldl (orphanContext p) s).live q = s.live q) ∧
    l.foldl (orphanContext p) s = { s with pool := { s.pool with contexts := (l.foldl (orphanContext p) s).pool.contexts, live := (l.foldl (orphanContext p) s).pool.live } } := by
  intro l
  induction l with
  | nil => intro _ s; refine ⟨fun c => by simp, by simp, fun _ _ => rfl, rfl⟩
  | cons x l ih =>
    intro hn s
    obtain ⟨hx, hn⟩ := List.nodup_cons.1 hn
    rw [List.foldl_cons]
    obtain ⟨i1, i2, i3, i4⟩ := ih hn (orphanContext p s x)
    have e1 : ∀ c, (orphanContext p s x).ctx c = if c = x ∧ (s.ctx c).state = .issued ∧ (s.ctx c).port = p then { s.ctx c with orphaned := true } else s.ctx c := by
      intro c
      unfold orphanContext
      split
      · next h =>
        simp only [Bool.and_eq_true, decide_eq_true_eq, Bool.not_eq_true'] at h
        rw [modLive_ctx_read, modCtx_at]
        by_cases e : x = c
        · subst e; rw [if_pos rfl, if_pos ⟨rfl, h.1⟩]
        · rw [if_neg e, if_neg (fun k => e k.1.symm)]
      · next h =>
        simp only [Bool.and_eq_true, decide_eq_true_eq, Bool.not_eq_true'] at h
        split
        · next k =>
          obtain ⟨k1, k2⟩ := k
          subst k1
          have : (s.ctx c).orphaned = true := by
            cases ho : (s.ctx c).orphaned with
            | true => rfl
            | false => exact absurd ⟨k2, ho⟩ h
          have e : ∀ y : Context, y.orphaned = true → y = { y with orphaned := true } := by rintro ⟨⟩ rfl; rfl
          exact e _ this
        · rfl
    have e2 : (orphanContext p s x).live p = s.live p - (if (s.ctx x).state = .issued ∧ (s.ctx x).port = p ∧ (s.ctx x).orphaned = false then 1 else 0) := by
      unfold orphanContext
      by_cases h : (s.ctx x).state = .issued ∧ (s.ctx x).port = p ∧ (s.ctx x).orphaned = false
      · rw [if_pos (by simp [h]), if_pos h]; simp [State.modLive, State.live, State.modCtx]
      · rw [if_neg, if_neg h]
        · rfl
        · simp only [Bool.and_eq_true, decide_eq_true_eq, Bool.not_eq_true']
          exact fun k => h ⟨k.1.1, k.1.2, k.2⟩
    have e3 : ∀ q, q ≠ p → (orphanContext p s x).live q = s.live q := by
      intro q hq
      unfold orphanContext
      split
      · have hq' : ¬ (p.val = q.val) := fun h => hq (Fin.ext h.symm)
        simp [State.modLive, State.live, State.modCtx, hq']
      · rfl
    have e4 : orphanContext p s x = { s with pool := { s.pool with contexts := (orphanContext p s x).pool.contexts, live := (orphanContext p s x).pool.live } } := by
      unfold orphanContext; split <;> rfl
    refine ⟨fun c => ?_, ?_, fun q hq => (i3 q hq).trans (e3 q hq), ?_⟩
    · rw [i1, e1]
      by_cases e : c = x
      · subst e
        rw [if_neg (fun h => hx h.1)]
        simp
      · simp [e]
    · rw [i2, e2]
      have : (l.filter fun c => decide (((orphanContext p s x).ctx c).state = .issued ∧ ((orphanContext p s x).ctx c).port = p ∧ ((orphanContext p s x).ctx c).orphaned = false)) = (l.filter fun c => decide ((s.ctx c).state = .issued ∧ (s.ctx c).port = p ∧ (s.ctx c).orphaned = false)) := by
        refine List.filter_congr fun c hc => ?_
        rw [e1, if_neg]
        rintro ⟨rfl, -⟩; exact hx hc
      rw [this, List.filter_cons]
      by_cases h : (s.ctx x).state = .issued ∧ (s.ctx x).port = p ∧ (s.ctx x).orphaned = false
      · simp [h]; omega
      · simp [h]
    · refine i4.trans ?_
      generalize l.foldl (orphanContext p) (orphanContext p s x) = z
      rw [e4]

/-- R87 step 2: replies lost in turn. -/
theorem loseReply_fold (p : Port) : ∀ (l : List CtxId) (s : State),
    (∀ c, (l.foldl (loseReply p) s).ctx c = if c ∈ l then { state := .free } else s.ctx c) ∧
    l.foldl (loseReply p) s = { s with
      portStats := s.portStats.set p { s.portStats[p] with repliesLost := satAdd (s.portStats[p]).repliesLost l.length }
      pool := { s.pool with contexts := (l.foldl (loseReply p) s).pool.contexts } } := by
  intro l
  induction l with
  | nil =>
    intro s
    refine ⟨fun c => by simp, ?_⟩
    simp only [List.length_nil, satAdd_zero]
    have : s.portStats.set p { s.portStats[p] with repliesLost := (s.portStats[p]).repliesLost } = s.portStats := vector_set_self _ _ _
    show s = _
    rw [this]; rfl
  | cons x l ih =>
    intro s
    rw [List.foldl_cons]
    obtain ⟨i1, i2⟩ := ih (loseReply p s x)
    refine ⟨fun c => ?_, ?_⟩
    · rw [i1]
      have : (loseReply p s x).ctx c = if x = c then { state := .free } else s.ctx c := by
        unfold loseReply freeContext; rw [modCtx_at]; rfl
      rw [this]
      by_cases e : c = x
      · subst e; simp
      · simp [e, Ne.symm e]
    · refine i2.trans ?_
      generalize l.foldl (loseReply p) (loseReply p s x) = z
      have e1 : (loseReply p s x).portStats = s.portStats.set p { s.portStats[p] with repliesLost := satAdd (s.portStats[p]).repliesLost 1 } := rfl
      have e2 : loseReply p s x = { s with portStats := (loseReply p s x).portStats, pool := { s.pool with contexts := (loseReply p s x).pool.contexts } } := rfl
      rw [e2]
      dsimp only
      rw [e1]
      congr 1
      simp [satAdd_satAdd, Nat.add_comm]

end Sys2Proof.Machine
end

