-- ==== Sys2Proof/Laws/CleanUpCounts.lean ====
section
/-! SUPPORT. What a clean-up at the Loan Table leaves at other bays, and how many loans and claims it counts (R46). -/

namespace Sys2Proof.Machine

theorem startRecall_other (b : Bay) (s : State) {c : Bay} (hc : c ≠ b) : (startRecall b s).bay c = s.bay c := by
  unfold startRecall; dsimp only
  rw [modBay_bay_ne _ _ (Ne.symm hc)]
  generalize hu : (s.modBay b fun r => { r with patienceTimer := none, subject := none, phase := .recalled }) = u
  obtain ⟨-, -, r3, -, -⟩ := recallHolder_fold b _ (holderPorts_nodup (u.bay b)) u
  refine (r3 c hc).trans ?_
  rw [← hu, modBay_bay_ne _ _ (Ne.symm hc)]

theorem startPatience_other (b : Bay) (p : Port) (s : State) {c : Bay} (hc : c ≠ b) :
    (startPatience b p s).bay c = s.bay c := by
  unfold startPatience; dsimp only
  split
  · exact (startRecall_other b _ hc).trans (modBay_bay_ne _ _ (Ne.symm hc))
  · exact modBay_bay_ne _ _ (Ne.symm hc)

theorem patienceCheck_other (b : Bay) (s : State) {c : Bay} (hc : c ≠ b) : (patienceCheck b s).bay c = s.bay c := by
  unfold patienceCheck; dsimp only
  split
  · split
    · rfl
    · exact startPatience_other _ _ _ hc
  · rfl
  · split
    · rfl
    · split
      · exact modBay_bay_ne _ _ (Ne.symm hc)
      · exact startPatience_other _ _ _ hc
  · exact modBay_bay_ne _ _ (Ne.symm hc)
  · rfl

theorem completionCheck_other (b : Bay) (s : State) {c : Bay} (hc : c ≠ b) :
    (completionCheck b s).bay c = s.bay c := by
  unfold completionCheck; dsimp only
  split
  · exact (bay_congr (appendRecord_bays _ _) c).trans (modBay_bay_ne _ _ (Ne.symm hc))
  · rfl

/-- R29 step 4, R42 step 5: settling a bay leaves every other bay alone. -/
theorem settleBay_other {b c : Bay} {s : State} (hs : ClaimsSingle s) (hc : c ≠ b) :
    (settleBay b s).bay c = s.bay c := by
  obtain ⟨-, -, -, -, g⟩ := grantPassLoop_spec b (s.bay b).claims.length s hs
  unfold settleBay
  split
  · exact (completionCheck_other b _ hc).trans (g c hc)
  · exact (patienceCheck_other b _ hc).trans (g c hc)

/-- R42: a revocation leaves the holders and the claims of every other bay. -/
theorem revokeLoan_other (b : Bay) (cause : Cause) (p : Port) (h : Holder) (s : State) {c : Bay} (hc : c ≠ b) :
    ((revokeLoan b cause p h s).bay c).holders = (s.bay c).holders ∧
      ((revokeLoan b cause p h s).bay c).claims = (s.bay c).claims := by
  constructor
  · rw [revokeLoan_holders, if_neg (Ne.symm hc)]
  · have k := congrArg (fun x => x.2.1) (adminSide_endLoanContexts h.serial cause (removeHolder b p s) c)
    have hb : (removeHolder b p s).bay c = s.bay c := by
      unfold removeHolder; exact modBay_bay_ne _ _ (Ne.symm hc)
    rw [hb] at k
    refine Eq.trans ?_ k
    unfold revokeLoan; dsimp only
    generalize endLoanContexts h.serial cause (removeHolder b p s) = w
    rw [bay_congr (appendRecord_bays _ _) c]
    split <;> rfl

/-- R46: a clean-up at a bay leaves the holders and the claims of every other bay. -/
theorem cleanBay_other (cause : Cause) (p : Port) (t : CleanUp) (b : Bay) (hs : ClaimsSingle t.state) {c : Bay}
    (hc : c ≠ b) :
    (((cleanBay cause p t b).state.bay c).holders = (t.state.bay c).holders) ∧
      (((cleanBay cause p t b).state.bay c).claims = (t.state.bay c).claims) := by
  unfold cleanBay
  split
  · next h _ =>
    dsimp only
    rw [settleBay_other (ClaimsSingle.core.revokeLoan b cause p h _ hs) hc]
    exact revokeLoan_other b cause p h t.state hc
  · split
    · next x _ =>
      dsimp only
      rw [settleBay_other (ClaimsSingle.core.refuseClaim b cause true x _ hs) hc,
        (refuseClaim_at b cause true x t.state).2.1 c hc]
      exact ⟨rfl, rfl⟩
    · exact ⟨rfl, rfl⟩

/-- R46: the port holds a loan at a bay. -/
def holdsAt (s : State) (p : Port) (b : Bay) : Bool := decide ((s.bay b).holder p ≠ none)

/-- R46: the port has a claim at a bay. -/
def claimsAt (s : State) (p : Port) (b : Bay) : Bool := (s.bay b).claims.any fun x => decide (x.port = p)

theorem claimsAt_iff (s : State) (p : Port) (b : Bay) : claimsAt s p b = true ↔ waitsAt s p b := by
  unfold claimsAt waitsAt
  simp

/-- R46: what one bay's clean-up counts. -/
theorem cleanBay_counts (cause : Cause) (p : Port) (t : CleanUp) (b : Bay) (hs : ClaimsSingle t.state) :
    (cleanBay cause p t b).loans = t.loans + (if holdsAt t.state p b = true then 1 else 0) ∧
      (cleanBay cause p t b).claims = t.claims + (if claimsAt t.state p b = true then 1 else 0) := by
  unfold cleanBay holdsAt
  split
  · next h hh =>
    have hw : ¬ claimsAt t.state p b = true := fun k => by
      rw [(hs b).2 p ((claimsAt_iff _ _ _).1 k)] at hh; cases hh
    rw [hh, if_neg hw]; exact ⟨rfl, rfl⟩
  · next hh =>
    rw [hh]
    split
    · next x hx =>
      have : claimsAt t.state p b = true := by
        unfold claimsAt
        rw [List.any_eq_true]
        exact ⟨x, List.mem_of_find?_eq_some hx, by simpa using List.find?_some hx⟩
      rw [if_pos this]; exact ⟨rfl, rfl⟩
    · next hx =>
      have : ¬ claimsAt t.state p b = true := by
        unfold claimsAt
        rw [List.any_eq_true]
        rintro ⟨x, hm, hp⟩
        exact List.find?_eq_none.1 hx x hm hp
      rw [if_neg this]; exact ⟨rfl, rfl⟩

/-- R46: a clean-up counts the loans that the port held and the claims that it had. -/
theorem cleanLoans_counts (cause : Cause) (p : Port) (s : State) (hs : ClaimsSingle s) :
    (cleanLoans cause p s).loans = (allBays.filter (holdsAt s p)).length ∧
      (cleanLoans cause p s).claims = (allBays.filter (claimsAt s p)).length := by
  have go : ∀ (l : List Bay) (_ : l.Nodup) (t : CleanUp), ClaimsSingle t.state →
      (∀ b ∈ l, (t.state.bay b).holders = (s.bay b).holders ∧ (t.state.bay b).claims = (s.bay b).claims) →
      (l.foldl (cleanBay cause p) t).loans = t.loans + (l.filter (holdsAt s p)).length ∧
        (l.foldl (cleanBay cause p) t).claims = t.claims + (l.filter (claimsAt s p)).length := by
    intro l
    induction l with
    | nil => exact fun _ _ _ _ => ⟨rfl, rfl⟩
    | cons b l ih =>
      intro hn t ht hsame
      rw [List.nodup_cons] at hn
      obtain ⟨c1, c2⟩ := cleanBay_counts cause p t b ht
      obtain ⟨e1, e2⟩ := hsame b List.mem_cons_self
      have h1 : holdsAt t.state p b = holdsAt s p b := by unfold holdsAt; rw [holder_congr e1]
      have h2 : claimsAt t.state p b = claimsAt s p b := by unfold claimsAt; rw [e2]
      rw [h1] at c1
      rw [h2] at c2
      obtain ⟨a1, a2⟩ := ih hn.2 (cleanBay cause p t b) (ClaimsSingle.core.cleanBay cause p t b ht) fun d hd => by
        have hne : d ≠ b := fun k => hn.1 (k ▸ hd)
        obtain ⟨k1, k2⟩ := cleanBay_other cause p t b ht hne
        obtain ⟨m1, m2⟩ := hsame d (List.mem_cons_of_mem _ hd)
        exact ⟨k1.trans m1, k2.trans m2⟩
      rw [List.foldl_cons, a1, a2, c1, c2, List.filter_cons, List.filter_cons]
      constructor
      · cases holdsAt s p b <;> simp <;> omega
      · cases claimsAt s p b <;> simp <;> omega
  have := go allBays (by decide) { state := s, loans := 0, claims := 0 } hs fun _ _ => ⟨rfl, rfl⟩
  rw [Nat.zero_add, Nat.zero_add] at this
  exact this

end Sys2Proof.Machine
end

