-- ==== Sys2Proof/Laws/PlanSteps.lean ====
section
/-! SUPPORT. What a swap check and a pass of adoptions do to the plan. -/

namespace Sys2Proof.Machine

/-- The service units, the plan and the pool. -/
structure PlanSide where
  services : Vector Service 12
  plan : Plan
  pool : Pool

/-- The service units, the plan and the pool of a state. -/
def planSide (s : State) : PlanSide := ⟨s.services, s.plan, s.pool⟩

theorem planSide_tellSupervisors (s : State) : planSide (tellSupervisors s) = planSide s := by
  have h := congrArg planSide (tellSupervisors_only s)
  generalize tellSupervisors s = w at h ⊢
  exact h

theorem planSide_appendRecord (x : Entry) (s : State) : planSide (appendRecord x s) = planSide s := by
  obtain ⟨r, a, j, u, hu, h | h⟩ := appendRecord_only x s
  · rw [h, hu]; rfl
  · rw [h, planSide_tellSupervisors, hu]; rfl

theorem planSide_raiseEvent (e : Event) (s : State) : planSide (raiseEvent e s) = planSide s := by
  obtain ⟨r, a, h | h⟩ := raiseEvent_only e s
  · rw [h]; rfl
  · rw [h, planSide_tellSupervisors]; rfl

/-- R104: every bay uses the current bank. -/
def AllOnCurrent (s : State) : Prop := ∀ b, (s.service b).bank = s.plan.current

/-- R104: a swap check ends the swap exactly when every bay uses the current bank. -/
theorem swapCheck_spec (s : State) : ((swapCheck s).services = s.services ∧ (swapCheck s).pool = s.pool ∧
    ((AllOnCurrent s ∧ (swapCheck s).plan = { s.plan with swapPending := false }) ∨
        ((swapCheck s).plan = s.plan ∧ (s.plan.swapPending = true → ¬ AllOnCurrent s)))) := by
  unfold swapCheck
  by_cases h : (s.plan.swapPending && allBays.all fun b => decide ((s.service b).bank = s.plan.current)) = true
  · rw [if_pos h]
    have := planSide_raiseEvent .planAdopted { s with plan := { s.plan with swapPending := false } }
    generalize raiseEvent .planAdopted { s with plan := { s.plan with swapPending := false } } = w at this ⊢
    injection this with t1 t2 t3
    refine ⟨t1, t3, Or.inl ⟨?_, t2⟩⟩
    intro b
    rw [Bool.and_eq_true, List.all_eq_true] at h
    exact of_decide_eq_true (h.2 b (mem_allBays b))
  · rw [if_neg h]
    refine ⟨rfl, rfl, Or.inr ⟨rfl, fun hp ha => h ?_⟩⟩
    rw [Bool.and_eq_true, List.all_eq_true]
    exact ⟨hp, fun b _ => decide_eq_true (ha b)⟩

/-- R103: adoptions in turn at idle bays. -/
theorem adoptIfIdle_fold (s : State) (hp : s.plan.swapPending = true) : ∀ (l : List Bay) (t : State)
    (done : Bay → Prop),
    (t.pool = s.pool ∧ t.plan.current = s.plan.current ∧ t.plan.bankA = s.plan.bankA ∧ t.plan.bankB = s.plan.bankB ∧
      (t.plan.swapPending = true ∨ AllOnCurrent t) ∧
          (∀ b, (done b ∧ bayIdle s b = true → (t.service b).bank = s.plan.current) ∧
              (¬ (done b ∧ bayIdle s b = true) → (t.service b).bank = (s.service b).bank))) →
    ∀ u, u = l.foldl (fun s b => adoptIfIdle b s) t →
    (u.pool = s.pool ∧ u.plan.current = s.plan.current ∧ u.plan.bankA = s.plan.bankA ∧ u.plan.bankB = s.plan.bankB ∧
      (u.plan.swapPending = true ∨ AllOnCurrent u) ∧
          (∀ b, ((done b ∨ b ∈ l) ∧ bayIdle s b = true → (u.service b).bank = s.plan.current) ∧
              (¬ ((done b ∨ b ∈ l) ∧ bayIdle s b = true) → (u.service b).bank = (s.service b).bank))) := by
  intro l
  induction l with
  | nil =>
    intro t done h u hu
    subst hu
    simpa using h
  | cons x l ih =>
    intro t done h u hu
    rw [List.foldl_cons] at hu
    obtain ⟨h1, h2, h3, h4, h5, h6⟩ := h
    have hidle : bayIdle t x = bayIdle s x := by unfold bayIdle State.ctx; rw [h1]
    have := ih (adoptIfIdle x t) (fun b => done b ∨ b = x) ?_ u hu
    · obtain ⟨a1, a2, a3, a4, a5, a6⟩ := this
      refine ⟨a1, a2, a3, a4, a5, fun b => ?_⟩
      have := a6 b
      simp only [List.mem_cons]
      rw [or_assoc] at this
      exact this
    · unfold adoptIfIdle
      by_cases hd : (adoptionDue t x && bayIdle t x) = true
      · rw [if_pos hd]
        rw [Bool.and_eq_true, hidle] at hd
        unfold adopt; dsimp only
        generalize hw : (refill x (t.modService x fun v => { v with bank := t.plan.current })).modService x (fun v => { v with bank := (refill x (t.modService x fun v => { v with bank := t.plan.current })).plan.current }) = w
        have w1 : w.pool = t.pool := by rw [← hw]; rfl
        have w2 : w.plan = t.plan := by rw [← hw]; rfl
        have w3 : ∀ b, (w.service b).bank = if b = x then s.plan.current else (t.service b).bank := by
          intro b
          rw [← hw]
          unfold refill
          by_cases e : b = x
          · subst e; rw [modService_service_self, if_pos rfl]; exact h2
          · rw [modService_service_ne _ _ (Ne.symm e), modService_service_ne _ _ (Ne.symm e),
              modService_service_ne _ _ (Ne.symm e), if_neg e]
        have e1 := planSide_appendRecord { note := .plan w.plan.current, bay := some x } w
        generalize appendRecord { note := .plan w.plan.current, bay := some x } w = z at e1 ⊢
        injection e1 with z1 z2 z3
        obtain ⟨q1, q2, q3⟩ := swapCheck_spec z
        generalize swapCheck z = y at q1 q2 q3 ⊢
        have yb : ∀ b, (y.service b).bank = if b = x then s.plan.current else (t.service b).bank := by
          intro b
          rw [← w3]; unfold State.service; rw [q1, z1]
        have zb : ∀ b, (z.service b).bank = (y.service b).bank := by intro b; unfold State.service; rw [q1]
        have yp : y.plan.current = s.plan.current ∧ y.plan.bankA = s.plan.bankA ∧ y.plan.bankB = s.plan.bankB ∧
            (y.plan.swapPending = true ∨ AllOnCurrent y) := by
          have zc : z.plan = t.plan := z2.trans w2
          rcases q3 with ⟨ha, hpl⟩ | ⟨hpl, hn⟩
          · rw [hpl]; dsimp only
            refine ⟨by rw [zc]; exact h2, by rw [zc]; exact h3, by rw [zc]; exact h4, Or.inr ?_⟩
            intro b
            rw [hpl]; dsimp only
            rw [← zb]; exact ha b
          · rw [hpl, zc]
            refine ⟨h2, h3, h4, ?_⟩
            left
            have := hd.1
            unfold adoptionDue at this
            rw [Bool.and_eq_true] at this
            exact this.1
        refine ⟨q2.trans (z3.trans (w1.trans h1)), yp.1, yp.2.1, yp.2.2.1, yp.2.2.2, fun b => ?_⟩
        rw [yb]
        by_cases e : b = x
        · subst e
          rw [if_pos rfl]
          exact ⟨fun _ => rfl, fun h => absurd ⟨Or.inr rfl, hd.2⟩ h⟩
        · rw [if_neg e]
          refine ⟨fun h => (h6 b).1 ⟨h.1.resolve_right e, h.2⟩, fun h => (h6 b).2 fun g => h ⟨Or.inl g.1, g.2⟩⟩
      · rw [if_neg hd]
        refine ⟨h1, h2, h3, h4, h5, fun b => ?_⟩
        by_cases e : b = x
        · subst e
          refine ⟨fun h => ?_, fun h => (h6 b).2 fun g => h ⟨Or.inl g.1, g.2⟩⟩
          rw [Bool.and_eq_true, hidle] at hd
          have : ¬ adoptionDue t b = true := fun g => hd ⟨g, h.2⟩
          unfold adoptionDue at this
          rw [Bool.and_eq_true] at this
          rcases h5 with h5 | h5
          · have : ¬ ((!decide ((t.service b).bank = t.plan.current)) = true) := fun g => this ⟨h5, g⟩
            simp at this
            rw [this, h2]
          · rw [h5 b, h2]
        · refine ⟨fun h => (h6 b).1 ⟨h.1.resolve_right e, h.2⟩, fun h => (h6 b).2 fun g => h ⟨Or.inl g.1, g.2⟩⟩

theorem bankInUse_iff (s : State) (bank : Bank) : bankInUse s bank = true ↔ ∃ b, (s.service b).bank = bank := by
  unfold bankInUse
  rw [List.any_eq_true]
  exact ⟨fun ⟨b, _, h⟩ => ⟨b, of_decide_eq_true h⟩, fun ⟨b, h⟩ => ⟨b, mem_allBays b, decide_eq_true h⟩⟩

end Sys2Proof.Machine
end

