-- ==== Sys2Proof/Laws/EngineSteps.lean ====
section
/-! SUPPORT. What settling a bay leaves alone, and what a bay fault does to slots, retries and timers. -/

namespace Sys2Proof.Machine

/-- What the Loan Table's operations leave alone: drives, service units, the pool and the statistics. -/
structure EngineSide where
  drives : Vector DriveEngine 12
  services : Vector Service 12
  pool : Pool
  bayStats : Vector BayStats 12
  portStats : Vector PortStats 8

/-- That side of a state. -/
def engineSide (s : State) : EngineSide := ⟨s.drives, s.services, s.pool, s.bayStats, s.portStats⟩

theorem engineSide_tellSupervisors (s : State) : engineSide (tellSupervisors s) = engineSide s := by
  have h := congrArg engineSide (tellSupervisors_only s)
  generalize tellSupervisors s = w at h ⊢
  exact h

theorem engineSide_appendRecord (x : Entry) (s : State) : engineSide (appendRecord x s) = engineSide s := by
  obtain ⟨r, a, j, u, hu, h | h⟩ := appendRecord_only x s
  · rw [h, hu]; rfl
  · rw [h, engineSide_tellSupervisors, hu]; rfl

theorem engineSide_raiseEvent (e : Event) (s : State) : engineSide (raiseEvent e s) = engineSide s := by
  obtain ⟨r, a, h | h⟩ := raiseEvent_only e s
  · rw [h]; rfl
  · rw [h, engineSide_tellSupervisors]; rfl

theorem engineSide_takeSerial (s : State) : engineSide (takeSerial s) = engineSide s := by
  unfold takeSerial; dsimp only; split
  · exact engineSide_raiseEvent _ _
  · rfl

theorem engineSide_grant (b p m s) : engineSide (grant b p m s) = engineSide s := by
  unfold grant; dsimp only
  exact (engineSide_appendRecord _ _).trans (engineSide_takeSerial s)

theorem engineSide_grantClaim (b x s) : engineSide (grantClaim b x s) = engineSide s := by
  unfold grantClaim; dsimp only
  exact (engineSide_grant _ _ _ _).trans rfl

theorem engineSide_refuseClaim (b c sil x s) : engineSide (refuseClaim b c sil x s) = engineSide s := by
  unfold refuseClaim; dsimp only
  refine (engineSide_appendRecord _ _).trans ?_
  split <;> rfl

theorem engineSide_grantPassLoop (b : Bay) : ∀ n s, engineSide (grantPassLoop b n s) = engineSide s := by
  intro n
  induction n with
  | zero => exact fun _ => rfl
  | succ n ih =>
    intro s
    unfold grantPassLoop
    split
    · split
      · rfl
      · split
        · split
          · exact (ih _).trans (engineSide_grantClaim _ _ _)
          · exact (ih _).trans (engineSide_refuseClaim _ _ _ _ _)
        · rfl
    · rfl

theorem engineSide_recallHolder (b s p) : engineSide (recallHolder b s p) = engineSide s := by
  unfold recallHolder; split
  · split <;> rfl
  · rfl

theorem engineSide_recallHolder_fold (b : Bay) (l : List Port) : ∀ s,
    engineSide (l.foldl (recallHolder b) s) = engineSide s := by
  induction l with
  | nil => exact fun _ => rfl
  | cons x l ih => exact fun s => (ih _).trans (engineSide_recallHolder _ _ _)

theorem engineSide_startRecall (b s) : engineSide (startRecall b s) = engineSide s := by
  unfold startRecall; dsimp only
  exact (show engineSide _ = engineSide (recallHolders b _) from rfl).trans ((engineSide_recallHolder_fold b _ _).trans rfl)

theorem engineSide_patienceCheck (b s) : engineSide (patienceCheck b s) = engineSide s := by
  unfold patienceCheck; dsimp only
  have : ∀ p, engineSide (startPatience b p s) = engineSide s := by
    intro p; unfold startPatience; dsimp only
    split
    · exact (engineSide_startRecall _ _).trans rfl
    · rfl
  split
  · split
    · rfl
    · exact this _
  · rfl
  · split
    · rfl
    · split
      · rfl
      · exact this _
  · rfl
  · rfl

theorem engineSide_completionCheck (b s) : engineSide (completionCheck b s) = engineSide s := by
  unfold completionCheck; dsimp only; split
  · exact (engineSide_appendRecord _ _).trans rfl
  · rfl

/-- R54, R23, R24: settling a bay leaves drives, service units, the pool and the statistics alone. -/
theorem engineSide_settleBay (b s) : engineSide (settleBay b s) = engineSide s := by
  unfold settleBay grantPass; split
  · exact (engineSide_completionCheck _ _).trans (engineSide_grantPassLoop _ _ _)
  · exact (engineSide_patienceCheck _ _).trans (engineSide_grantPassLoop _ _ _)

theorem engineSide_meterCheck (b p s) : engineSide (meterCheck b p s) = engineSide s := by
  unfold meterCheck; split
  · dsimp only; split
    · exact (show engineSide _ = engineSide (appendRecord _ s) from rfl).trans (engineSide_appendRecord _ _)
    · rfl
  · rfl

theorem engineSide_trailingGone (f b s) : engineSide (trailingGone f b s) = engineSide s := by
  unfold trailingGone; split
  · rfl
  · exact engineSide_settleBay _ _

/-- What an adoption leaves alone. -/
structure AttemptSide where
  drives : Vector DriveEngine 12
  reissue : Bay → List CtxId
  pool : Pool
  bayStats : Vector BayStats 12
  portStats : Vector PortStats 8

/-- That side of a state. -/
def attemptSide (s : State) : AttemptSide :=
    ⟨s.drives, fun b => (s.service b).reissue, s.pool, s.bayStats, s.portStats⟩

theorem attemptSide_of {s t : State} (h : engineSide s = engineSide t) : attemptSide s = attemptSide t := by
  injection h with h1 h2 h3 h4 h5
  unfold attemptSide State.service; rw [h1, h2, h3, h4, h5]

theorem attemptSide_adoptIfIdle (b s) : attemptSide (adoptIfIdle b s) = attemptSide s := by
  unfold adoptIfIdle
  split
  · unfold adopt swapCheck; dsimp only
    have key : attemptSide ((refill b (s.modService b fun v => { v with bank := s.plan.current })).modService b (fun v => { v with bank := (refill b (s.modService b fun v => { v with bank := s.plan.current })).plan.current })) = attemptSide s := by
      unfold attemptSide refill
      congr 1
      funext c
      rw [modService_service]; split
      · next e =>
        subst e
        rw [modService_service_self, modService_service_self]
      · next e =>
        rw [modService_service_ne _ _ e, modService_service_ne _ _ e]
    split
    · exact (attemptSide_of (engineSide_raiseEvent _ _)).trans ((show attemptSide _ = attemptSide (appendRecord _ _) from rfl).trans ((attemptSide_of (engineSide_appendRecord _ _)).trans key))
    · exact (attemptSide_of (engineSide_appendRecord _ _)).trans key
  · rfl

theorem slots_filter (l : List Slot) (c : CtxId) : (l.filter fun slot => !decide (slot.ctx = c)) = l.filter fun x => decide (x.ctx ≠ c) := by
  congr 1; funext x; simp

theorem engineSide_drive {s t : State} (h : engineSide s = engineSide t) (b : Bay) : s.drive b = t.drive b := by
  injection h with h1; unfold State.drive; rw [h1]

theorem laneFalls_drive (b l n c1 c2 s) : (laneFalls b l n c1 c2 s).drive b = (s.drive b).modLane l fun r => { r with state := .down, probe := none } := by
  unfold laneFalls; dsimp only
  rw [engineSide_drive ((engineSide_raiseEvent _ _).trans (engineSide_appendRecord _ _)), modDrive_drive_self]

/-- The drives and the retry lists. -/
structure SlotSide where
  drives : Vector DriveEngine 12
  reissue : Bay → List CtxId

/-- The drives and the retry lists of a state. -/
def slotSide (s : State) : SlotSide := ⟨s.drives, fun b => (s.service b).reissue⟩

theorem slotSide_of_engineSide {s t : State} (h : engineSide s = engineSide t) : slotSide s = slotSide t := by
  injection h with h1 h2; unfold slotSide State.service; rw [h1, h2]

theorem slotSide_of_attemptSide {s t : State} (h : attemptSide s = attemptSide t) : slotSide s = slotSide t := by
  injection h with h1 h2; unfold slotSide; rw [h1, h2]

theorem slotSide_enterReply (c o s) : slotSide (enterReply c o s) = slotSide s := by
  unfold enterReply; dsimp only; exact (slotSide_of_attemptSide (attemptSide_adoptIfIdle _ _)).trans rfl

theorem slotSide_freeOrphan (c s) : slotSide (freeOrphan c s) = slotSide s := by
  unfold freeOrphan; dsimp only; exact (slotSide_of_attemptSide (attemptSide_adoptIfIdle _ _)).trans rfl

theorem slotSide_completeFinal (b c o s) : slotSide (completeFinal b c o s) = slotSide s := by
  unfold completeFinal; dsimp only
  refine (slotSide_enterReply _ _ _).trans ?_
  split
  · exact (slotSide_of_engineSide (engineSide_meterCheck _ _ _)).trans rfl
  · rfl

theorem slotSide_completeTrailing (f b c o s) : slotSide (completeTrailing f b c o s) = slotSide s := by
  unfold completeTrailing; dsimp only
  have h : ∀ v : State, slotSide (if (v.bay b).trailing = 0 then trailingGone f b v else v) = slotSide v := by
    intro v; split
    · exact slotSide_of_engineSide (engineSide_trailingGone _ _ _)
    · rfl
  have k : ∀ (w : Bool) (v x : State), slotSide (if w then v else x) = (if w then slotSide v else slotSide x) := by intro w v x; cases w <;> rfl
  split
  · refine (slotSide_freeOrphan _ _).trans ((h _).trans ?_)
    rfl
  · refine (slotSide_enterReply _ _ _).trans ((h _).trans ?_)
    rfl

/-- R118, R71: a completion leaves the bay's slots and its reissue list as the freed slot has left them. -/
theorem complete_atBay (f b c o s) : (complete f b c o s).drive b = (freeSlot b c s).drive b ∧
    ((complete f b c o s).service b).reissue = (s.service b).reissue := by
  have key : ∀ t, slotSide t = slotSide (freeSlot b c s) → (afterEnd b (s.ctx c) t).drive b = (freeSlot b c s).drive b ∧
      ((afterEnd b (s.ctx c) t).service b).reissue = (s.service b).reissue := by
    intro t h
    have k := afterEnd_handsOut b (s.ctx c) t
    injection h with h1 h2
    refine ⟨k.drive.trans ?_, k.reissue.trans (congrFun h2 b)⟩
    unfold State.drive; rw [h1]
  unfold complete; dsimp only
  apply key
  split
  · exact (slotSide_completeTrailing _ _ _ _ _).trans rfl
  · exact (slotSide_completeFinal _ _ _ _).trans rfl

/-- R60: completing every issued context empties the slots. -/
theorem complete_fold_slots (b : Bay) : ∀ (l : List CtxId) (s : State), (∀ x ∈ (s.drive b).slots, x.ctx ∈ l) →
    ((l.foldl (fun s c => complete true b c .bayFaulted s) s).drive b).slots = [] ∧
    ((l.foldl (fun s c => complete true b c .bayFaulted s) s).service b).reissue = (s.service b).reissue := by
  intro l
  induction l with
  | nil =>
    intro s h
    refine ⟨?_, rfl⟩
    cases hc : (s.drive b).slots with
    | nil => exact hc
    | cons x l => have := h x (by rw [hc]; exact List.mem_cons_self); cases this
  | cons c l ih =>
    intro s h
    obtain ⟨h1, hr⟩ := complete_atBay true b c .bayFaulted s
    rw [List.foldl_cons]
    generalize complete true b c .bayFaulted s = w at h1 hr ⊢
    have hs : (w.drive b).slots = (s.drive b).slots.filter fun x => decide (x.ctx ≠ c) := by
      rw [h1]
      unfold freeSlot; rw [modDrive_drive_self]; dsimp only; rw [slots_filter]
    obtain ⟨a1, a2⟩ := ih w (by
      intro x hx
      rw [hs] at hx
      have hx := List.mem_filter.1 hx
      rcases List.mem_cons.1 (h x hx.1) with e | e
      · exact absurd e (of_decide_eq_true hx.2)
      · exact e)
    exact ⟨a1, a2.trans hr⟩

/-- R60: ending every context that waits for a retry empties the list. -/
theorem faultReissue_fold (b : Bay) : ∀ (l : List CtxId) (s : State), (∀ x ∈ (s.service b).reissue, x ∈ l) →
    ((l.foldl (faultReissue b) s).service b).reissue = [] ∧ (l.foldl (faultReissue b) s).drive b = s.drive b := by
  intro l
  induction l with
  | nil =>
    intro s h
    refine ⟨?_, rfl⟩
    cases hc : (s.service b).reissue with
    | nil => exact hc
    | cons x l => have := h x (by rw [hc]; exact List.mem_cons_self); cases this
  | cons c l ih =>
    intro s h
    have hd := slotSide_completeFinal b c .bayFaulted ((s.modService b fun v => { v with reissue := v.reissue.filter fun d => !decide (d = c) }).modBayStats b fun t => { t with completed := satAdd t.completed 1 })
    rw [List.foldl_cons]
    have ha := afterEnd_handsOut b (s.ctx c) (completeFinal b c .bayFaulted ((s.modService b fun v => { v with reissue := v.reissue.filter fun d => !decide (d = c) }).modBayStats b fun t => { t with completed := satAdd t.completed 1 }))
    injection hd with g1 h2
    have h1 : (faultReissue b s c).drive b = s.drive b := by
      refine ha.drive.trans ?_
      unfold State.drive; rw [g1]; rfl
    have hr : ((faultReissue b s c).service b).reissue = (s.service b).reissue.filter fun d => !decide (d = c) := by
      refine ha.reissue.trans ((congrFun h2 b).trans ?_)
      refine (show _ = ((s.modService b fun v => { v with reissue := v.reissue.filter fun d => !decide (d = c) }).service b).reissue from rfl).trans ?_
      rw [modService_service_self]
    generalize faultReissue b s c = w at h1 hr ⊢
    obtain ⟨a1, a2⟩ := ih w (by
      intro x hx
      rw [hr] at hx
      have hx := List.mem_filter.1 hx
      rcases List.mem_cons.1 (h x hx.1) with e | e
      · subst e; simp at hx
      · exact e)
    exact ⟨a1, a2.trans h1⟩

/-- A bay's drive stays, and its empty retry list stays empty. -/
def Drains (b : Bay) (s t : State) : Prop :=
  t.drive b = s.drive b ∧ ((s.service b).reissue = [] → (t.service b).reissue = [])

theorem Drains.of_dr {b : Bay} {s t : State} (h : slotSide t = slotSide s) : Drains b s t := by
  injection h with h1 h2
  exact ⟨by unfold State.drive; rw [h1], fun hb => (congrFun h2 b).trans hb⟩

theorem Drains.trans {b : Bay} {s t u : State} (h : Drains b s t) (k : Drains b t u) : Drains b s u :=
    ⟨k.1.trans h.1, fun hb => k.2 (h.2 hb)⟩

theorem Drains.refl (b s) : Drains b s s := ⟨rfl, fun h => h⟩

theorem drains_endUnissued (b cause s c) : Drains b s (endUnissued cause s c) := by
  unfold endUnissued; dsimp only
  refine Drains.trans (t := s.modService (s.ctx c).bay fun v =>
    { v with
      lists := v.lists.set (s.ctx c).port (v.lists[(s.ctx c).port].filter fun d => !decide (d = c)),
      reissue := v.reissue.filter fun d => !decide (d = c) }) ⟨rfl, fun hb => ?_⟩ (Drains.of_dr ((slotSide_enterReply _ _ _).trans ?_))
  · rw [modService_service]; split
    · next e => subst e; dsimp only; rw [hb]; rfl
    · exact hb
  · split <;> rfl

theorem drains_endLoanContexts (b serial cause s) : Drains b s (endLoanContexts serial cause s) := by
  unfold endLoanContexts; dsimp only
  have h1 : ∀ (l : List CtxId) (s : State), Drains b s (l.foldl (makeTrailing cause) s) := by
    intro l
    induction l with
    | nil => exact fun s => Drains.refl b s
    | cons c l ih => exact fun s => Drains.trans (Drains.of_dr rfl) (ih _)
  have h2 : ∀ (l : List CtxId) (s : State), Drains b s (l.foldl (endUnissued cause) s) := by
    intro l
    induction l with
    | nil => exact fun s => Drains.refl b s
    | cons c l ih => exact fun s => Drains.trans (drains_endUnissued b _ _ _) (ih _)
  exact Drains.trans (h1 _ _) (h2 _ _)

theorem drains_revokeLoan (b cause p h s) : Drains b s (revokeLoan b cause p h s) := by
  unfold revokeLoan; dsimp only
  refine Drains.trans (Drains.trans (t := removeHolder b p s) (Drains.of_dr rfl)
      (drains_endLoanContexts b h.serial cause _)) (Drains.of_dr ?_)
  refine (slotSide_of_engineSide (engineSide_appendRecord _ _)).trans ?_
  split <;> rfl

theorem drains_revokePorts (b cause) : ∀ (l : List Port) s, Drains b s (revokePorts b cause l s) := by
  intro l
  induction l with
  | nil => exact fun s => Drains.refl b s
  | cons p l ih =>
    intro s
    refine Drains.trans ?_ (ih _)
    cases hh : (s.bay b).holder p with
    | none => unfold revokePort; rw [hh]; exact Drains.refl b s
    | some h =>
      have k := revokePort_handsOut b cause p h s hh
      exact (drains_revokeLoan b cause p h s).trans ⟨k.drive, fun e => k.reissue.trans e⟩

theorem engineSide_refuseAll (b cause s) : engineSide (refuseAll b cause s) = engineSide s := by
  unfold refuseAll
  generalize (s.bay b).claims = l
  induction l generalizing s with
  | nil => rfl
  | cons x l ih => exact (ih _).trans (engineSide_refuseClaim _ _ _ _ _)

/-- The parts of a bay record that say whether it is FAULTED with nothing under way. -/
def quietSide (r : BayRecord) : Availability × RecallPhase × Option Nat × Option Nat × Option Port :=
    (r.availability, r.phase, r.patienceTimer, r.recallTimer, r.subject)

/-- A bay that is FAULTED, with no recall and no timer. -/
def FaultQuiet (r : BayRecord) : Prop := quietSide r = (.faulted, .none, none, none, none)

theorem faultQuiet_removeHolder (b p s) (h : FaultQuiet (s.bay b)) : FaultQuiet ((removeHolder b p s).bay b) := by
  unfold removeHolder; rw [modBay_bay_self]; dsimp only
  unfold FaultQuiet quietSide at h ⊢
  simp only [Prod.mk.injEq] at h ⊢
  obtain ⟨h1, h2, h3, h4, h5⟩ := h
  rw [if_neg (by rintro ⟨g, -⟩; rw [h2] at g; cases g)]
  exact ⟨h1, h2, h3, h4, h5⟩

theorem faultQuiet_endLoanContexts (serial : Word48) (cause : Cause) (s : State) (b : Bay)
    (h : FaultQuiet (s.bay b)) : FaultQuiet ((endLoanContexts serial cause s).bay b) := by
  unfold endLoanContexts; dsimp only
  rw [bay_congr (endUnissued_fold_bays cause _ _) b]
  generalize issuedOf s serial = l
  induction l generalizing s with
  | nil => exact h
  | cons c l ih =>
    refine ih _ ?_
    unfold makeTrailing; dsimp only
    rw [modBay_bay]; split
    · next e => rw [e] at *; exact h
    · exact h

theorem faultQuiet_revokePorts (b : Bay) (cause : Cause) : ∀ (l : List Port) (s : State), FaultQuiet (s.bay b) →
    FaultQuiet ((revokePorts b cause l s).bay b) := by
  intro l
  induction l with
  | nil => exact fun _ h => h
  | cons p l ih =>
    intro s h
    refine ih _ ?_
    cases hh : (s.bay b).holder p with
    | none => unfold revokePort; rw [hh]; exact h
    | some hd =>
      have k := ((revokePort_handsOut b cause p hd s hh).loans b).1
      rw [k]
      show FaultQuiet ((revokeLoan b cause p hd s).bay b)
      have := faultQuiet_endLoanContexts hd.serial cause _ b (faultQuiet_removeHolder b p s h)
      unfold revokeLoan; dsimp only
      generalize endLoanContexts hd.serial cause (removeHolder b p s) = w at this ⊢
      rw [bay_congr (appendRecord_bays _ _) b]
      split
      · exact this
      · exact this

end Sys2Proof.Machine
end

