-- ==== Sys2Proof/Laws/Completions.lean ====
section
/-! SUPPORT. What a completion is made of, and what leaves every loan's meters alone (R65, R81, R83). -/

namespace Sys2Proof.Machine

/-- Every loan of `s` stands in `t` with its serial and its meters. -/
def MetersKept (s t : State) : Prop :=
  ∀ d q h, (s.bay d).holder q = some h → ∃ k, (t.bay d).holder q = some k ∧ k.serial = h.serial ∧
    k.blocksRead = h.blocksRead ∧ k.blocksWritten = h.blocksWritten

theorem MetersKept.refl (s : State) : MetersKept s s := fun _ _ h hh => ⟨h, hh, rfl, rfl, rfl⟩

theorem MetersKept.trans {s t u : State} (h : MetersKept s t) (k : MetersKept t u) : MetersKept s u := by
  intro d q x hx
  obtain ⟨y, hy, y1, y2, y3⟩ := h d q x hx
  obtain ⟨z, hz, z1, z2, z3⟩ := k d q y hy
  exact ⟨z, hz, z1.trans y1, z2.trans y2, z3.trans y3⟩

theorem MetersKept.of_holders {s t : State} (h : ∀ d, (t.bay d).holders = (s.bay d).holders) : MetersKept s t :=
  fun d q x hx => ⟨x, (holder_congr (h d) q).trans hx, rfl, rfl, rfl⟩

theorem MetersKept.of_bays {s t : State} (h : t.bays = s.bays) : MetersKept s t :=
  MetersKept.of_holders fun d => by rw [bay_congr h d]

/-- R65: a hand-out leaves every loan's meters alone. -/
theorem HandsOut.meters {b : Bay} {s t : State} (h : HandsOut b s t) : MetersKept s t := by
  intro d q x hx
  obtain ⟨f, hf⟩ := (h.loans d).2 q
  exact ⟨{ x with live := f x.live }, by rw [hf, hx]; rfl, rfl, rfl, rfl⟩

theorem grantPass_meters {b : Bay} {s : State} (hs : ClaimsSingle s) : MetersKept s (grantPass b s) := by
  obtain ⟨-, h2, -, -, h5⟩ := grantPassLoop_spec b (s.bay b).claims.length s hs
  intro d q x hx
  by_cases e : d = b
  · subst e; exact ⟨x, h2 q x hx, rfl, rfl, rfl⟩
  · exact ⟨x, by unfold grantPass; rw [h5 d e]; exact hx, rfl, rfl, rfl⟩

theorem modBay_meters (b : Bay) (f : BayRecord → BayRecord) (s : State) (h : (f (s.bay b)).holders = (s.bay b).holders) :
    MetersKept s (s.modBay b f) := by
  refine MetersKept.of_holders fun d => ?_
  rw [modBay_bay]; split
  · next e => subst e; exact h
  · rfl

theorem startRecall_meters (b : Bay) (s : State) : MetersKept s (startRecall b s) := by
  unfold startRecall; dsimp only
  generalize hu : (s.modBay b fun r => { r with patienceTimer := none, subject := none, phase := .recalled }) = u
  have h1 : MetersKept s u := by rw [← hu]; exact modBay_meters b _ s rfl
  refine h1.trans (MetersKept.trans (t := recallHolders b u) ?_ (modBay_meters b _ _ rfl))
  intro d q x hx
  obtain ⟨-, r2, r3, -, -⟩ := recallHolder_fold b _ (holderPorts_nodup (u.bay b)) u
  unfold recallHolders
  by_cases e : d = b
  · subst e
    rw [r2]
    split
    · exact ⟨{ x with recalled := true }, by rw [hx]; rfl, rfl, rfl, rfl⟩
    · exact ⟨x, hx, rfl, rfl, rfl⟩
  · rw [r3 d e]; exact ⟨x, hx, rfl, rfl, rfl⟩

theorem startPatience_meters (b : Bay) (p : Port) (s : State) : MetersKept s (startPatience b p s) := by
  unfold startPatience; dsimp only
  split
  · exact MetersKept.trans (modBay_meters b _ s rfl) (startRecall_meters b _)
  · exact modBay_meters b _ s rfl

theorem patienceCheck_meters (b : Bay) (s : State) : MetersKept s (patienceCheck b s) := by
  unfold patienceCheck; dsimp only
  split
  · split
    · exact .refl s
    · exact startPatience_meters _ _ _
  · exact .refl s
  · split
    · exact .refl s
    · split
      · exact modBay_meters b _ s rfl
      · exact startPatience_meters _ _ _
  · exact modBay_meters b _ s rfl
  · exact .refl s

theorem completionCheck_meters (b : Bay) (s : State) : MetersKept s (completionCheck b s) := by
  unfold completionCheck; dsimp only
  split
  · exact MetersKept.trans (modBay_meters b _ s rfl) (.of_bays (appendRecord_bays _ _))
  · exact .refl s

/-- R29, R42: settling a bay leaves every loan's meters alone. -/
theorem settleBay_meters {b : Bay} {s : State} (hs : ClaimsSingle s) : MetersKept s (settleBay b s) := by
  unfold settleBay
  split
  · exact (grantPass_meters hs).trans (completionCheck_meters b _)
  · exact (grantPass_meters hs).trans (patienceCheck_meters b _)

/-- R118, R177: what a context's leaving its issue slot counts and frees. -/
def leftSlot (b : Bay) (c : CtxId) (outcome : OpOutcome) (s : State) : State :=
  freeSlot b c (s.modBayStats b (countCompletion (s.ctx c) outcome))

/-- R81, R83: a completion is the end of the context, and then what the Context Pool does for the others. -/
theorem complete_eq (faulting : Bool) (b : Bay) (c : CtxId) (outcome : OpOutcome) (s : State) :
    complete faulting b c outcome s = afterEnd b (s.ctx c)
      (if (s.ctx c).trailing || (s.ctx c).orphaned then completeTrailing faulting b c outcome (leftSlot b c outcome s)
       else completeFinal b c outcome (leftSlot b c outcome s)) := rfl

theorem modHolder_some {b : Bay} {p : Port} {h : Holder} {s : State} (hh : (s.bay b).holder p = some h)
    (f : Holder → Holder) : modHolder b p f s = s.modBay b fun r => { r with holders := r.holders.set p (some (f h)) } := by
  unfold modHolder State.modBay
  have : (s.bays[b]).holders[p] = some h := hh
  dsimp only
  rw [this]; rfl
theorem completeTrailing_meters (b : Bay) (c : CtxId) (outcome : OpOutcome) {u : State} (hcs : ClaimsSingle u) :
    MetersKept u (completeTrailing false b c outcome u) := by
  unfold completeTrailing; dsimp only
  generalize hw : (if (u.ctx c).orphaned = true then (u.modCtx c fun x => { x with state := .reply, outcome := outcome })
    else (u.modCtx c fun x => { x with state := .reply, outcome := outcome }).modLive (u.ctx c).port fun n => n - 1) = w
  have wb : w.bays = u.bays := by rw [← hw]; split <;> rfl
  generalize hd : (w.modBay b fun r => { r with trailing := r.trailing - 1 }) = d
  have db : ∀ x, (d.bay x).holders = (u.bay x).holders ∧ (d.bay x).claims = (u.bay x).claims := by
    intro x
    rw [← hd, modBay_bay]
    split
    · next e => subst e; exact ⟨(congrArg BayRecord.holders (bay_congr wb b) :), (congrArg BayRecord.claims (bay_congr wb b) :)⟩
    · exact ⟨congrArg BayRecord.holders (bay_congr wb x), congrArg BayRecord.claims (bay_congr wb x)⟩
  have sd : MetersKept u d := .of_holders fun x => (db x).1
  have dcs : ClaimsSingle d := by
    intro x
    obtain ⟨p1, p2⟩ := hcs x
    refine ⟨by rw [(db x).2]; exact p1, fun p hp => ?_⟩
    rw [holder_congr (db x).1]
    exact p2 p (by obtain ⟨y, hy, e⟩ := hp; exact ⟨y, by rw [← (db x).2]; exact hy, e⟩)
  generalize he : (if (d.bay b).trailing = 0 then trailingGone false b d else d) = e
  have de : MetersKept u e := by
    rw [← he]; split
    · exact sd.trans (by unfold trailingGone; exact settleBay_meters dcs)
    · exact sd
  refine de.trans ?_
  split
  · exact .of_bays (by unfold freeOrphan; exact (adoptIfIdle_bays _ _).trans rfl)
  · exact .of_bays (enterReply_bays _ _ _)

end Sys2Proof.Machine
end

