-- ==== Sys2Proof/Laws/FaultSettles.lean ====
section
/-! SUPPORT. The last step of a bay fault finds nothing to settle (R59). -/

namespace Sys2Proof.Machine

/-- R4: the ports that hold loans at a bay. -/
theorem holderPorts_eq (r : BayRecord) : r.holderPorts = allPorts.filter fun q => decide (r.holder q ≠ none) := by
  unfold BayRecord.holderPorts
  apply List.filter_congr
  intro q _
  cases r.holder q <;> simp

/-- R59: settling a FAULTED bay with nothing under way does nothing. -/
theorem settleBay_quiet (b : Bay) (s : State) (h : FaultQuiet (s.bay b)) : settleBay b s = s := by
  unfold FaultQuiet quietSide at h
  simp only [Prod.mk.injEq] at h
  obtain ⟨h1, h2, h3, h4, h5⟩ := h
  have hg : grantPass b s = s := by
    unfold grantPass
    cases (s.bay b).claims.length with
    | zero => rfl
    | succ n => unfold grantPassLoop; rw [if_neg]; unfold grantsOpen; rw [h1]; simp
  unfold settleBay
  rw [h1, if_neg (by decide), hg]
  unfold patienceCheck; dsimp only
  rw [h1, h2, if_neg (by decide)]

/-- R31: refused claims leave availability, recall and timers alone. -/
theorem quietSide_refuse_fold (b : Bay) (cause : Cause) (l : List Claim) : ∀ s : State,
    quietSide ((l.foldl (fun t y => refuseClaim b cause false y t) s).bay b) = quietSide (s.bay b) := by
  induction l with
  | nil => intro s; rfl
  | cons x l ih => intro s; rw [List.foldl_cons, ih, (refuseClaim_at b cause false x s).1]; rfl

end Sys2Proof.Machine
end

