-- ==== Sys2Proof/Laws/LoanEndLists.lean ====
section
/-! SUPPORT. What a loan's end does to the lists and counts of its contexts (R77, R78, R79). -/

namespace Sys2Proof.Machine

/-- A bay's service lists and its reissue list. -/
def servingLists (s : State) (b : Bay) : Vector (List CtxId) 8 × List CtxId := ((s.service b).lists, (s.service b).reissue)

theorem servingLists_services {s t : State} (h : s.services = t.services) : servingLists s = servingLists t := by
  funext b; unfold servingLists State.service; rw [h]

theorem tellSupervisors_services (s : State) : (tellSupervisors s).services = s.services := by
  have h := congrArg State.services (tellSupervisors_only s)
  generalize tellSupervisors s = w at h ⊢
  exact h

theorem raiseEvent_services (e : Event) (s : State) : (raiseEvent e s).services = s.services := by
  obtain ⟨r, a, h | h⟩ := raiseEvent_only e s
  · rw [h]
  · rw [h, tellSupervisors_services]

theorem appendRecord_services (x : Entry) (s : State) : (appendRecord x s).services = s.services := by
  obtain ⟨r, a, j, u, hu, h | h⟩ := appendRecord_only x s
  · rw [h, hu]
  · rw [h, tellSupervisors_services, hu]

theorem servingLists_modService (s : State) (d : Bay) (f : Service → Service) (hf : ∀ v, (f v).lists = v.lists ∧ (f v).reissue = v.reissue) :
    servingLists (s.modService d f) = servingLists s := by
  funext b; unfold servingLists; rw [modService_service]; split
  · next e => subst e; rw [(hf _).1, (hf _).2]
  · rfl

theorem servingLists_adoptIfIdle (d : Bay) (s : State) : servingLists (adoptIfIdle d s) = servingLists s := by
  unfold adoptIfIdle; split
  · unfold adopt swapCheck refill; dsimp only
    have h1 : ∀ v : State, servingLists (appendRecord { note := .plan v.plan.current, bay := some d } (v.modService d fun x => { x with bank := v.plan.current })) = servingLists v := by
      intro v
      exact (servingLists_services (appendRecord_services _ _)).trans (servingLists_modService _ _ _ fun _ => ⟨rfl, rfl⟩)
    split
    · refine (servingLists_services (raiseEvent_services _ _)).trans ?_
      refine (servingLists_services (t := _) rfl).trans ((h1 _).trans ?_)
      refine (servingLists_modService _ _ _ ?_).trans (servingLists_modService _ _ _ ?_) <;> exact fun _ => ⟨rfl, rfl⟩
    · refine (h1 _).trans ?_
      refine (servingLists_modService _ _ _ ?_).trans (servingLists_modService _ _ _ ?_) <;> exact fun _ => ⟨rfl, rfl⟩
  · rfl

/-- R78: the context joins its port's Reply List and leaves the live-context count. -/
theorem endUnissued_pool (cause : Cause) (s : State) (c : CtxId) (p : Port) :
    (endUnissued cause s c).replies p = (if (s.ctx c).port = p then s.replies p ++ [c] else s.replies p) ∧
    (endUnissued cause s c).live p = (if (s.ctx c).port = p then s.live p - 1 else s.live p) := by
  unfold endUnissued enterReply; dsimp only
  have e : ∀ (d : Bay) (v : State), (adoptIfIdle d v).replies p = v.replies p ∧ (adoptIfIdle d v).live p = v.live p := by
    intro d v; unfold State.replies State.live; rw [adoptIfIdle_pool]; exact ⟨rfl, rfl⟩
  rw [(e _ _).1, (e _ _).2]
  split <;> constructor <;> simp [State.modReplies, State.modLive, State.replies, State.live, State.modCtx, State.modService, State.modBayStats, State.ctx, Vector.getElem_set, Fin.ext_iff] <;> split <;> first | rfl | (rename_i h; simp [h])

/-- R78: the context leaves its service list or the reissue list. -/
theorem servingLists_endUnissued (cause : Cause) (s : State) (c : CtxId) : servingLists (endUnissued cause s c) =
    servingLists (s.modService (s.ctx c).bay fun v =>
    { v with
      lists := v.lists.set (s.ctx c).port (v.lists[(s.ctx c).port].filter fun d => !decide (d = c)),
      reissue := v.reissue.filter fun d => !decide (d = c) }) := by
  unfold endUnissued enterReply; dsimp only
  rw [servingLists_adoptIfIdle]
  generalize (s.modService (s.ctx c).bay fun v =>
    { v with
      lists := v.lists.set (s.ctx c).port (v.lists[(s.ctx c).port].filter fun d => !decide (d = c)),
      reissue := v.reissue.filter fun d => !decide (d = c) }) = w
  apply servingLists_services
  unfold State.modReplies State.modCtx State.modLive
  dsimp only
  split <;> rfl

theorem endUnissued_lists (cause : Cause) (s : State) (c : CtxId) (b : Bay) (p : Port) :
    (servingLists (endUnissued cause s c) b).1[p] = (if (s.ctx c).bay = b ∧ (s.ctx c).port = p then ((s.service b).lists[p]).filter (fun d => decide (d ≠ c)) else (s.service b).lists[p]) ∧
    (servingLists (endUnissued cause s c) b).2 = (if (s.ctx c).bay = b then (s.service b).reissue.filter (fun d => decide (d ≠ c)) else (s.service b).reissue) := by
  rw [servingLists_endUnissued]
  unfold servingLists; dsimp only
  rw [modService_service]
  by_cases hb : (s.ctx c).bay = b
  · subst hb
    rw [if_pos rfl, if_pos rfl]
    refine ⟨?_, by simp⟩
    by_cases hp : (s.ctx c).port = p
    · subst hp; rw [if_pos ⟨rfl, rfl⟩]; simp
    · rw [if_neg (fun h => hp h.2)]
      simp [Vector.getElem_set, Fin.ext_iff] at hp ⊢
      intro h; exact absurd h hp
  · rw [if_neg hb, if_neg (fun h => hb h.1), if_neg hb]
    exact ⟨rfl, rfl⟩

/-- R77, R78: unissued contexts ended in turn. -/
theorem endUnissued_fold_lists (cause : Cause) : ∀ (l : List CtxId), ∀ (s : State) (p : Port),
    (l.foldl (endUnissued cause) s).replies p = s.replies p ++ l.filter (fun c => decide ((s.ctx c).port = p)) ∧
    (l.foldl (endUnissued cause) s).live p = s.live p - (l.filter (fun c => decide ((s.ctx c).port = p))).length ∧
    ∀ b, ((l.foldl (endUnissued cause) s).service b).lists[p] = ((s.service b).lists[p]).filter (fun d => decide (¬ (d ∈ l ∧ (s.ctx d).bay = b ∧ (s.ctx d).port = p))) ∧
      ((l.foldl (endUnissued cause) s).service b).reissue = ((s.service b).reissue).filter (fun d => decide (¬ (d ∈ l ∧ (s.ctx d).bay = b))) := by
  intro l
  induction l with
  | nil => intro s p; refine ⟨by simp, by simp, fun b => ⟨?_, ?_⟩⟩ <;> exact (List.filter_eq_self.2 fun x _ => by simp).symm
  | cons c l ih =>
    intro s p
    rw [List.foldl_cons]
    have hc : ∀ d, ((endUnissued cause s c).ctx d).port = (s.ctx d).port ∧ ((endUnissued cause s c).ctx d).bay = (s.ctx d).bay := by
      intro d; rw [endUnissued_ctx]; split <;> exact ⟨rfl, rfl⟩
    obtain ⟨i1, i2, i3⟩ := ih (endUnissued cause s c) p
    obtain ⟨e1, e2⟩ := endUnissued_pool cause s c p
    simp only [hc] at i1 i2 i3
    refine ⟨?_, ?_, fun b => ?_⟩
    · rw [i1, e1]
      by_cases h : (s.ctx c).port = p <;> simp [h]
    · rw [i2, e2]
      by_cases h : (s.ctx c).port = p
      · simp [h]; omega
      · simp [h]
    · obtain ⟨j1, j2⟩ := i3 b
      obtain ⟨l1, l2⟩ := endUnissued_lists cause s c b p
      refine ⟨?_, ?_⟩
      · rw [j1]
        change List.filter _ (servingLists (endUnissued cause s c) b).1[p] = _
        rw [l1]
        split
        · rw [List.filter_filter]
          refine List.filter_congr fun d hd => ?_
          simp only [List.mem_cons]
          rw [Bool.eq_iff_iff]; simp only [Bool.and_eq_true, decide_eq_true_eq]
          next h =>
          constructor
          · rintro ⟨h1, h2⟩ ⟨h3 | h3, h4⟩
            · exact h2 h3
            · exact h1 ⟨h3, h4⟩
          · intro h1
            exact ⟨fun ⟨h2, h3⟩ => h1 ⟨Or.inr h2, h3⟩, fun h2 => h1 ⟨Or.inl h2, by rw [h2]; exact h⟩⟩
        · refine List.filter_congr fun d hd => ?_
          next h =>
          simp only [List.mem_cons]
          rw [Bool.eq_iff_iff]; simp only [decide_eq_true_eq]
          constructor
          · rintro h1 ⟨h3 | h3, h4⟩
            · rw [h3] at h4; exact h h4
            · exact h1 ⟨h3, h4⟩
          · exact fun h1 ⟨h2, h3⟩ => h1 ⟨Or.inr h2, h3⟩
      · rw [j2]
        change List.filter _ (servingLists (endUnissued cause s c) b).2 = _
        rw [l2]
        split
        · rw [List.filter_filter]
          refine List.filter_congr fun d hd => ?_
          simp only [List.mem_cons]
          rw [Bool.eq_iff_iff]; simp only [Bool.and_eq_true, decide_eq_true_eq]
          next h =>
          constructor
          · rintro ⟨h1, h2⟩ ⟨h3 | h3, h4⟩
            · exact h2 h3
            · exact h1 ⟨h3, h4⟩
          · intro h1
            exact ⟨fun ⟨h2, h3⟩ => h1 ⟨Or.inr h2, h3⟩, fun h2 => h1 ⟨Or.inl h2, by rw [h2]; exact h⟩⟩
        · refine List.filter_congr fun d hd => ?_
          next h =>
          simp only [List.mem_cons]
          rw [Bool.eq_iff_iff]; simp only [decide_eq_true_eq]
          constructor
          · rintro h1 ⟨h3 | h3, h4⟩
            · rw [h3] at h4; exact h h4
            · exact h1 ⟨h3, h4⟩
          · exact fun h1 ⟨h2, h3⟩ => h1 ⟨Or.inr h2, h3⟩

/-- R79 step 3: the trailing count rises by the contexts made trailing. -/
theorem makeTrailing_fold_bay (cause : Cause) : ∀ (l : List CtxId) (s : State) (b : Bay),
    (l.foldl (makeTrailing cause) s).bay b = { s.bay b with trailing := (s.bay b).trailing + (l.filter fun c => decide ((s.ctx c).bay = b)).length } := by
  intro l
  induction l with
  | nil => intro s b; rfl
  | cons c l ih =>
    intro s b
    rw [List.foldl_cons, ih]
    have hc : ∀ d, ((makeTrailing cause s c).ctx d).bay = (s.ctx d).bay := by
      intro d; rw [makeTrailing_ctx]; split <;> rfl
    simp only [hc]
    have : (makeTrailing cause s c).bay b = if (s.ctx c).bay = b then { s.bay b with trailing := (s.bay b).trailing + 1 } else s.bay b := by
      unfold makeTrailing; dsimp only
      rw [modBay_bay]
      split
      · next e => rw [e]; rfl
      · rfl
    rw [this]
    by_cases h : (s.ctx c).bay = b
    · simp [h]; omega
    · simp [h]

theorem makeTrailing_fold_rest (cause : Cause) : ∀ (l : List CtxId) (s : State),
    (l.foldl (makeTrailing cause) s).services = s.services ∧ (l.foldl (makeTrailing cause) s).pool.live = s.pool.live ∧ (l.foldl (makeTrailing cause) s).pool.replies = s.pool.replies := by
  intro l
  induction l with
  | nil => intro s; exact ⟨rfl, rfl, rfl⟩
  | cons c l ih => intro s; exact ih _

/-- R77: the order of admission. -/
theorem inAdmissionOrder_sorted (s : State) (l : List CtxId) : (inAdmissionOrder s l).Pairwise fun c d => (s.ctx c).admission ≤ (s.ctx d).admission := by
  induction l with
  | nil => exact List.Pairwise.nil
  | cons c l ih =>
    unfold inAdmissionOrder
    generalize inAdmissionOrder s l = m at ih
    induction m with
    | nil => exact List.pairwise_singleton _ _
    | cons d m ihm =>
      obtain ⟨h1, h2⟩ := List.pairwise_cons.1 ih
      unfold admissionInsert
      split
      · next h =>
        refine List.pairwise_cons.2 ⟨fun x hx => ?_, ih⟩
        rcases List.mem_cons.1 hx with rfl | hx
        · exact Nat.le_of_lt h
        · exact Nat.le_trans (Nat.le_of_lt h) (h1 x hx)
      · next h =>
        refine List.pairwise_cons.2 ⟨fun x hx => ?_, ihm h2⟩
        rcases List.mem_cons.1 ((admissionInsert_perm s c m).mem_iff.1 hx) with rfl | hx
        · omega
        · exact h1 x hx

/-! ## The statistics of a loan's end -/

theorem tellSupervisors_stats (s : State) :
    (tellSupervisors s).bayStats = s.bayStats ∧ (tellSupervisors s).portStats = s.portStats := by
  have h1 := congrArg State.bayStats (tellSupervisors_only s)
  have h2 := congrArg State.portStats (tellSupervisors_only s)
  generalize tellSupervisors s = w at h1 h2 ⊢
  exact ⟨h1, h2⟩

theorem raiseEvent_stats (e : Event) (s : State) :
    (raiseEvent e s).bayStats = s.bayStats ∧ (raiseEvent e s).portStats = s.portStats := by
  obtain ⟨r, a, h | h⟩ := raiseEvent_only e s
  · rw [h]; exact ⟨rfl, rfl⟩
  · rw [h]; exact tellSupervisors_stats _

theorem appendRecord_stats (x : Entry) (s : State) :
    (appendRecord x s).bayStats = s.bayStats ∧ (appendRecord x s).portStats = s.portStats := by
  obtain ⟨r, a, j, u, hu, h | h⟩ := appendRecord_only x s
  · rw [h, hu]; exact ⟨rfl, rfl⟩
  · rw [h, hu]; exact tellSupervisors_stats _

theorem adoptIfIdle_stats (b : Bay) (s : State) :
    (adoptIfIdle b s).bayStats = s.bayStats ∧ (adoptIfIdle b s).portStats = s.portStats := by
  unfold adoptIfIdle
  split
  · unfold adopt swapCheck; dsimp only
    split
    · exact ⟨(raiseEvent_stats _ _).1.trans (appendRecord_stats _ _).1,
        (raiseEvent_stats _ _).2.trans (appendRecord_stats _ _).2⟩
    · exact appendRecord_stats _ _
  · exact ⟨rfl, rfl⟩

theorem modBayStats_congr_stats {s t : State} (h : s.bayStats = t.bayStats) (b : Bay) (f : BayStats → BayStats) :
    (s.modBayStats b f).bayStats = (t.modBayStats b f).bayStats := by
  unfold State.modBayStats; dsimp only; rw [h]

/-- R177: an unissued context that ends is counted as completed at its bay if it was in REISSUE. -/
theorem endUnissued_stats (cause : Cause) (s : State) (c : CtxId) :
    (endUnissued cause s c).bayStats = (if (s.ctx c).state = .reissue then
      s.modBayStats (s.ctx c).bay fun t => { t with completed := satAdd t.completed 1 } else s).bayStats ∧
      (endUnissued cause s c).portStats = s.portStats := by
  unfold endUnissued enterReply; dsimp only
  refine ⟨(adoptIfIdle_stats _ _).1.trans ?_, (adoptIfIdle_stats _ _).2.trans ?_⟩
  · rw [modReplies_bayStats, modCtx_bayStats, modLive_bayStats, modCtx_bayStats]
    by_cases hr : (s.ctx c).state = .reissue
    · rw [if_pos hr, if_pos hr, modBayStats_congr_stats (modService_bayStats _ _ _)]
    · rw [if_neg hr, if_neg hr, modService_bayStats]
  · rw [modReplies_portStats, modCtx_portStats, modLive_portStats, modCtx_portStats]
    by_cases hr : (s.ctx c).state = .reissue
    · rw [if_pos hr, modBayStats_portStats, modService_portStats]
    · rw [if_neg hr, modService_portStats]

/-- R177: the completed operations counted when the unissued contexts of a loan end in turn. -/
theorem endUnissued_fold_stats (cause : Cause) : ∀ (l : List CtxId), l.Nodup → ∀ (s : State) (b : Bay),
    (l.foldl (endUnissued cause) s).bayStats[b] =
      { s.bayStats[b] with
        completed := satAdd (s.bayStats[b]).completed
          (l.filter fun c => decide ((s.ctx c).state = .reissue ∧ (s.ctx c).bay = b)).length } := by
  intro l
  induction l with
  | nil => intro _ s b; rw [List.filter_nil, List.length_nil, satAdd_zero]; rfl
  | cons c l ih =>
    intro hn s b
    have hc := List.nodup_cons.1 hn
    rw [List.foldl_cons, ih hc.2 (endUnissued cause s c) b]
    have hf : l.filter (fun d => decide (((endUnissued cause s c).ctx d).state = .reissue ∧
        ((endUnissued cause s c).ctx d).bay = b)) =
        l.filter fun d => decide ((s.ctx d).state = .reissue ∧ (s.ctx d).bay = b) := by
      refine List.filter_congr fun d hd => ?_
      have hne : ¬ c = d := fun e => hc.1 (e ▸ hd)
      rw [endUnissued_ctx, if_neg hne]
    rw [hf, (endUnissued_stats cause s c).1, List.filter_cons]
    by_cases hr : (s.ctx c).state = .reissue
    · rw [if_pos hr]
      by_cases hb : (s.ctx c).bay = b
      · rw [if_pos (decide_eq_true ⟨hr, hb⟩), List.length_cons, ← hb]
        have e : (s.modBayStats (s.ctx c).bay fun t => { t with completed := satAdd t.completed 1 }).bayStats[(s.ctx c).bay] =
            { s.bayStats[(s.ctx c).bay] with completed := satAdd (s.bayStats[(s.ctx c).bay]).completed 1 } :=
          Vector.getElem_set_self ..
        rw [e]; dsimp only
        rw [satAdd_satAdd, Nat.add_comm]
      · rw [if_neg (by simp [hb])]
        have e : (s.modBayStats (s.ctx c).bay fun t => { t with completed := satAdd t.completed 1 }).bayStats[b] =
            s.bayStats[b] := Vector.getElem_set_ne (s.ctx c).bay.isLt b.isLt (fun e => hb (Fin.eq_of_val_eq e))
        rw [e]
    · rw [if_neg hr, if_neg (by simp [hr])]

/-- R177: a loan's end counts its REISSUE contexts as operations completed at their bays, and nothing else. -/
theorem endLoanContexts_stats (serial : Word48) (cause : Cause) (s : State) :
    (∀ b : Bay, (endLoanContexts serial cause s).bayStats[b] =
      { s.bayStats[b] with
        completed := satAdd (s.bayStats[b]).completed (allContexts.filter fun c =>
          decide ((s.ctx c).state = .reissue ∧ (s.ctx c).serial = serial ∧ (s.ctx c).bay = b)).length }) ∧
      (endLoanContexts serial cause s).portStats = s.portStats := by
  have h1 : ∀ (l : List CtxId) (s : State), (l.foldl (makeTrailing cause) s).bayStats = s.bayStats ∧
      (l.foldl (makeTrailing cause) s).portStats = s.portStats := by
    intro l
    induction l with
    | nil => exact fun _ => ⟨rfl, rfl⟩
    | cons c l ih => exact fun s => ⟨(ih _).1.trans rfl, (ih _).2.trans rfl⟩
  have h2 : ∀ (l : List CtxId) (s : State), (l.foldl (endUnissued cause) s).portStats = s.portStats := by
    intro l
    induction l with
    | nil => exact fun _ => rfl
    | cons c l ih => exact fun s => (ih _).trans (endUnissued_stats cause s c).2
  have hctx : ∀ c, (((issuedOf s serial).foldl (makeTrailing cause) s).ctx c).state = (s.ctx c).state ∧
      (((issuedOf s serial).foldl (makeTrailing cause) s).ctx c).serial = (s.ctx c).serial ∧
      (((issuedOf s serial).foldl (makeTrailing cause) s).ctx c).bay = (s.ctx c).bay := by
    intro c
    rw [makeTrailing_fold cause _ (show (issuedOf s serial).Nodup from allContexts_nodup.filter _)]
    split <;> exact ⟨rfl, rfl, rfl⟩
  unfold endLoanContexts; dsimp only
  refine ⟨fun b => ?_, (h2 _ _).trans (h1 _ _).2⟩
  have hp : (unissuedOf ((issuedOf s serial).foldl (makeTrailing cause) s) serial).Perm (allContexts.filter fun c =>
      ((((issuedOf s serial).foldl (makeTrailing cause) s).ctx c).state = .queued ||
        (((issuedOf s serial).foldl (makeTrailing cause) s).ctx c).state = .reissue) &&
      (((issuedOf s serial).foldl (makeTrailing cause) s).ctx c).serial = serial) := inAdmissionOrder_perm _ _
  have hl : ((unissuedOf ((issuedOf s serial).foldl (makeTrailing cause) s) serial).filter fun c =>
      decide ((((issuedOf s serial).foldl (makeTrailing cause) s).ctx c).state = .reissue ∧
        (((issuedOf s serial).foldl (makeTrailing cause) s).ctx c).bay = b)).length =
      (allContexts.filter fun c =>
        decide ((s.ctx c).state = .reissue ∧ (s.ctx c).serial = serial ∧ (s.ctx c).bay = b)).length := by
    refine ((hp.filter _).length_eq).trans ?_
    rw [List.filter_filter]
    congr 1
    refine List.filter_congr fun c _ => ?_
    rw [(hctx c).1, (hctx c).2.1, (hctx c).2.2]
    by_cases h : (s.ctx c).state = .reissue <;> by_cases hs : (s.ctx c).serial = serial <;> simp [h, hs]
  rw [endUnissued_fold_stats cause _ (hp.symm.nodup (allContexts_nodup.filter _)), hl, (h1 _ _).1]

end Sys2Proof.Machine
end

