-- ==== Sys2Proof/Laws/Records.lean ====
section
/-! SUPPORT. Tables and codes of the records, read from bytes (R193, R195, R197). -/

namespace Sys2Proof.Machine

/-- All values of a list are present exactly when the list is made of them. -/
theorem allSome_iff {α} : ∀ (xs : List (Option α)) (ys : List α), allSome xs = some ys ↔ xs = ys.map some := by
  intro xs
  induction xs with
  | nil => intro ys; cases ys <;> simp [allSome]
  | cons x xs ih =>
    intro ys
    cases x with
    | none => cases ys <;> simp [allSome]
    | some a =>
      unfold allSome
      cases h : allSome xs with
      | none =>
        cases ys with
        | nil => simp
        | cons y ys => simp; intro _ e; have := (ih ys).2 e; rw [h] at this; cases this
      | some zs =>
        cases ys with
        | nil => simp
        | cons y ys =>
          simp only [Option.some.injEq, List.cons.injEq, List.map_cons]
          have := ih ys
          rw [h] at this
          simp at this
          rw [this]

/-- Eight values out of eight options. -/
theorem vec8_iff {α} (xs : List (Option α)) (hx : xs.length = 8) (v : Vector α 8) :
    vec8 xs = some v ↔ ∀ p : Port, xs[p.val]? = some (some v[p]) := by
  unfold vec8
  constructor
  · intro h
    split at h
    · next ys e =>
      split at h
      · next hl =>
        cases h
        rw [allSome_iff] at e
        subst e
        intro p
        rw [List.getElem?_map]
        simp [hl]
      · cases h
    · cases h
  · intro h
    have : allSome xs = some v.toList := by
      rw [allSome_iff]
      apply List.ext_getElem?
      intro i
      by_cases hi : i < 8
      · have := h ⟨i, hi⟩
        rw [this]; simp [hi]
      · rw [List.getElem?_eq_none (by omega), List.getElem?_eq_none (by simp; omega)]
    rw [this]; simp [Vector.toList]

/-- Twelve values out of twelve options. -/
theorem vec12_iff {α} (xs : List (Option α)) (hx : xs.length = 12) (v : Vector α 12) :
    vec12 xs = some v ↔ ∀ p : Bay, xs[p.val]? = some (some v[p]) := by
  unfold vec12
  constructor
  · intro h
    split at h
    · next ys e =>
      split at h
      · next hl =>
        cases h
        rw [allSome_iff] at e
        subst e
        intro p
        rw [List.getElem?_map]
        simp [hl]
      · cases h
    · cases h
  · intro h
    have : allSome xs = some v.toList := by
      rw [allSome_iff]
      apply List.ext_getElem?
      intro i
      by_cases hi : i < 12
      · have := h ⟨i, hi⟩
        rw [this]; simp [hi]
      · rw [List.getElem?_eq_none (by omega), List.getElem?_eq_none (by simp; omega)]
    rw [this]; simp [Vector.toList]

/-- A field of one byte is that byte. -/
theorem fieldAt_one (x : List Byte) (i : Nat) (h : i < x.length) : fieldAt x i 1 = (x[i]).toNat := by
  unfold fieldAt slice natOf
  rw [List.drop_eq_getElem_cons h, List.take_succ_cons, List.take_zero]; simp

/-- A field of a field. -/
theorem slice_slice (x : List Byte) (a n b m : Nat) (h : b + m ≤ n) : slice (slice x a n) b m = slice x (a + b) m := by
  unfold slice
  rw [List.drop_take, List.take_take, List.drop_drop]
  congr 1; omega

/-- R195, R197: a table of 96 one-byte values, bay by bay, in port order. -/
theorem bayTable_iff {α} (one : Byte → Option α) (x : List Byte) (v : Vector (Vector α 8) 12) :
    bayTable one x = some v ↔ x.length = 96 ∧ ∀ (b : Bay) (p : Port), one (byte (fieldAt x (8 * b.val + p.val) 1)) = some v[b][p] := by
  unfold bayTable
  split
  · next h =>
    rw [vec12_iff _ (by simp [chunks])]
    simp only [h, true_and]
    have key : ∀ b : Bay, (((chunks x 8 12).map (portRow one))[b.val]? = some (some v[b])) ↔ ∀ p : Port, one (byte (fieldAt x (8 * b.val + p.val) 1)) = some v[b][p] := by
      intro b
      have e : ((chunks x 8 12).map (portRow one))[b.val]? = some (portRow one (slice x (b.val * 8) 8)) := by
        unfold chunks; simp [b.isLt]
      rw [e]
      simp only [Option.some.injEq]
      unfold portRow
      rw [vec8_iff _ (by simp [slice, h]; have := b.isLt; omega)]
      apply forall_congr'; intro p
      have l1 : 8 * b.val + p.val < x.length := by have := b.isLt; have := p.isLt; omega
      have : ((slice x (b.val * 8) 8).map one)[p.val]? = some (one x[8 * b.val + p.val]) := by
        unfold slice
        rw [List.getElem?_map, List.getElem?_take, if_pos p.isLt, List.getElem?_drop]
        rw [show b.val * 8 + p.val = 8 * b.val + p.val by omega, List.getElem?_eq_getElem l1]; rfl
      rw [this, fieldAt_one x _ l1]
      simp [byte]
    constructor
    · intro hh b p; exact (key b).1 (hh b) p
    · intro hh b; exact (key b).2 (hh b)
  · next h => simp [h]

/-- A field of one byte is below 256. -/
theorem fieldAt_one_lt (x : List Byte) (i : Nat) : fieldAt x i 1 < 256 := by
  by_cases h : i < x.length
  · rw [fieldAt_one x i h]; exact (x[i]).isLt
  · unfold fieldAt slice natOf; rw [List.drop_eq_nil_of_le (by omega)]; simp

/-- Bytes of small numbers differ as the numbers do. -/
theorem byte_inj (n k : Nat) (h : n < 256) (hk : k < 256) : byte n = byte k ↔ n = k := by
  unfold byte
  constructor
  · intro e; have := congrArg BitVec.toNat e; simp at this; omega
  · intro e; rw [e]

/-- R193: role codes. -/
theorem roleOf_iff (n : Nat) (h : n < 256) (r : Role) : roleOf (byte n) = some r ↔ n = if r = .supervisor then 1 else 0 := by
  unfold roleOf
  rw [show (0 : Byte) = byte 0 from rfl, show (1 : Byte) = byte 1 from rfl]
  simp only [byte_inj n _ h (by omega : 0 < 256), byte_inj n _ h (by omega : 1 < 256)]
  cases r <;> (repeat' split) <;> simp_all <;> omega

/-- R193: 0 for no, 1 for yes. -/
theorem boolOf_iff (n : Nat) (h : n < 256) (r : Bool) : boolOf (byte n) = some r ↔ n = if r = true then 1 else 0 := by
  unfold boolOf
  rw [show (0 : Byte) = byte 0 from rfl, show (1 : Byte) = byte 1 from rfl]
  simp only [byte_inj n _ h (by omega : 0 < 256), byte_inj n _ h (by omega : 1 < 256)]
  cases r <;> (repeat' split) <;> simp_all <;> omega

/-- R193: right codes. -/
theorem rightOf_iff (n : Nat) (h : n < 256) (r : Right) : rightOf (byte n) = some r ↔ n = match r with | .none => 0 | .read => 1 | .full => 2 := by
  unfold rightOf
  rw [show (0 : Byte) = byte 0 from rfl, show (1 : Byte) = byte 1 from rfl, show (2 : Byte) = byte 2 from rfl]
  simp only [byte_inj n _ h (by omega : 0 < 256), byte_inj n _ h (by omega : 1 < 256), byte_inj n _ h (by omega : 2 < 256)]
  cases r <;> (repeat' split) <;> simp_all <;> omega

/-- R193: resolution codes. -/
theorem resolutionOf_iff (n : Nat) (h : n < 256) (r : Resolution) : resolutionOf (byte n) = some r ↔ n = match r with | .us1 => 0 | .us8 => 1 | .us64 => 2 | .us512 => 3 := by
  unfold resolutionOf
  rw [show (0 : Byte) = byte 0 from rfl, show (1 : Byte) = byte 1 from rfl, show (2 : Byte) = byte 2 from rfl, show (3 : Byte) = byte 3 from rfl]
  simp only [byte_inj n _ h (by omega : 0 < 256), byte_inj n _ h (by omega : 1 < 256), byte_inj n _ h (by omega : 2 < 256), byte_inj n _ h (by omega : 3 < 256)]
  cases r <;> (repeat' split) <;> simp_all <;> omega

/-- R101: a weight of one byte. -/
theorem weightOf_iff (n : Nat) (h : n < 256) (r : Fin 16) : weightOf (byte n) = some r ↔ n = r.val := by
  unfold weightOf
  have : (byte n).toNat = n := by unfold byte; simp; omega
  rw [this]
  split
  · simp [Fin.ext_iff]
  · have := r.isLt; simp; omega

/-- R197: one record of several of the same length. -/
theorem chunks_map_get {α} (one : List Byte → Option α) (x : List Byte) (len n i : Nat) (h : i < n) : ((chunks x len n).map one)[i]? = some (one (slice x (len * i) len)) := by
  unfold chunks; simp [h, Nat.mul_comm]

end Sys2Proof.Machine
end

