-- ==== Sys2Proof/Laws/Swaps.lean ====
section
/-! SUPPORT. What a pass of adoptions does to the credits, the sequence counter and the raised set (R93, R102 to R104). -/

namespace Sys2Proof.Machine

theorem raiseEvent_journal (e : Event) (s : State) : (raiseEvent e s).journal = s.journal := by
  obtain ⟨r, a, h | h⟩ := raiseEvent_only e s
  · rw [h]
  · rw [h]
    have h := congrArg State.journal (tellSupervisors_only { s with raised := r, alert := a })
    generalize tellSupervisors { s with raised := r, alert := a } = w at h ⊢
    exact h

/-- R171: each record takes one number of the sequence counter. -/
theorem appendRecord_seq (x : Entry) (s : State) : (appendRecord x s).journal.seq = s.journal.seq + 1 := by
  unfold appendRecord; dsimp only
  split
  · split
    · rw [raiseEvent_journal]
    · rfl
  · rw [raiseEvent_journal]

theorem swapCheck_seq (s : State) : (swapCheck s).journal.seq = s.journal.seq := by
  unfold swapCheck
  split
  · rw [raiseEvent_journal]
  · rfl

/-- R104: a swap check completes a pending swap with PLAN_ADOPTED, or leaves it. -/
theorem swapCheck_adopted (s : State) :
    swapCheck s = s ∨
      (swapCheck s).plan.swapPending = false ∧ hasEvent (swapCheck s).raised .planAdopted = true := by
  unfold swapCheck
  split
  · right
    refine ⟨?_, raiseEvent_hasEvent _ _⟩
    have := planSide_raiseEvent .planAdopted { s with plan := { s.plan with swapPending := false } }
    injection this with _ t2 _
    rw [t2]
  · exact Or.inl rfl

/-- R93, R103: the service unit of a bay that has adopted the current bank. -/
def adopted (s : State) (b : Bay) : Service :=
  { s.service b with bank := s.plan.current, credits := byPort fun p => ((s.plan.bank s.plan.current)[b][p]).val }

/-- A swap is pending, or it has completed with its event. -/
def SwapOpen (s : State) : Prop :=
  s.plan.swapPending = true ∨ AllOnCurrent s ∧ s.plan.swapPending = false ∧ hasEvent s.raised .planAdopted = true

/-- R102: a bay adopts at the swap. -/
def adoptsAt (s : State) (b : Bay) : Bool := bayIdle s b && !decide ((s.service b).bank = s.plan.current)

/-- R103: a bay that does not adopt is not touched. -/
theorem adoptIfIdle_none {s : State} {b : Bay} (h : adoptsAt s b = false) : adoptIfIdle b s = s := by
  unfold adoptIfIdle adoptionDue
  rw [if_neg]
  intro k
  unfold adoptsAt at h
  rw [Bool.and_eq_true, Bool.and_eq_true] at k
  rw [k.2, k.1.2] at h
  exact absurd h (by decide)

/-- R103: one adoption. -/
theorem adoptIfIdle_some {s : State} {b : Bay} (ho : SwapOpen s) (h : adoptsAt s b = true) :
    (∀ d, (adoptIfIdle b s).service d = if d = b then adopted s b else s.service d) ∧
      (adoptIfIdle b s).journal.seq = s.journal.seq + 1 ∧ SwapOpen (adoptIfIdle b s) ∧
      (adoptIfIdle b s).pool = s.pool ∧ (adoptIfIdle b s).plan.current = s.plan.current ∧
      (∀ x, (adoptIfIdle b s).plan.bank x = s.plan.bank x) := by
  unfold adoptsAt at h
  rw [Bool.and_eq_true, Bool.not_eq_true', decide_eq_false_iff_not] at h
  have hp : s.plan.swapPending = true := ho.resolve_right fun k => h.2 (k.1 b)
  have hd : (adoptionDue s b && bayIdle s b) = true := by
    unfold adoptionDue
    rw [hp, h.1, decide_eq_false h.2]; rfl
  unfold adoptIfIdle
  rw [if_pos hd]
  unfold adopt; dsimp only
  generalize hw : (refill b (s.modService b fun v => { v with bank := s.plan.current })).modService b
    (fun v => { v with bank := (refill b (s.modService b fun v => { v with bank := s.plan.current })).plan.current }) = w
  have w1 : w.pool = s.pool ∧ w.plan = s.plan ∧ w.journal = s.journal := by rw [← hw]; exact ⟨rfl, rfl, rfl⟩
  have w3 : ∀ d, w.service d = if d = b then adopted s b else s.service d := by
    intro d
    rw [← hw]
    unfold refill
    by_cases e : d = b
    · subst e
      rw [if_pos rfl, modService_service_self, modService_service_self, modService_service_self]
      rfl
    · rw [modService_service_ne _ _ (Ne.symm e), modService_service_ne _ _ (Ne.symm e),
        modService_service_ne _ _ (Ne.symm e), if_neg e]
  have e1 := planSide_appendRecord { note := .plan w.plan.current, bay := some b } w
  have e2 := appendRecord_seq { note := .plan w.plan.current, bay := some b } w
  generalize appendRecord { note := .plan w.plan.current, bay := some b } w = z at e1 e2 ⊢
  injection e1 with z1 z2 z3
  obtain ⟨q1, q2, q3⟩ := swapCheck_spec z
  have q4 := swapCheck_adopted z
  have q5 := swapCheck_seq z
  have zp : z.plan.swapPending = true := by rw [z2, w1.2.1]; exact hp
  generalize swapCheck z = y at q1 q2 q3 q4 q5 ⊢
  have yp : y.plan.current = s.plan.current ∧ y.plan.bankA = s.plan.bankA ∧ y.plan.bankB = s.plan.bankB := by
    have zc : z.plan = s.plan := z2.trans w1.2.1
    rcases q3 with ⟨_, k⟩ | ⟨k, _⟩ <;> rw [k, zc] <;> exact ⟨rfl, rfl, rfl⟩
  refine ⟨fun d => ?_, by rw [q5, e2, w1.2.2], ?_, q2.trans (z3.trans w1.1), yp.1, fun x => ?_⟩
  · rw [← w3]; unfold State.service; rw [q1, z1]
  · rcases q4 with k | ⟨k, m⟩
    · left; rw [k]; exact zp
    · right
      refine ⟨?_, k, m⟩
      rcases q3 with ⟨ha, hpl⟩ | ⟨hpl, _⟩
      · intro d
        rw [hpl]; dsimp only
        rw [← ha d]; unfold State.service; rw [q1]
      · rw [hpl, zp] at k; cases k
  · cases x
    · exact yp.2.1
    · exact yp.2.2

/-- R102 step 2: adoptions in turn at different bays. -/
theorem adoptIfIdle_pass : ∀ (l : List Bay) (_ : l.Nodup) (s : State), SwapOpen s → ∀ u,
    u = l.foldl (fun t b => adoptIfIdle b t) s →
    (∀ d, u.service d = if d ∈ l ∧ adoptsAt s d = true then adopted s d else s.service d) ∧
      u.journal.seq = s.journal.seq + BitVec.ofNat 32 (l.filter (adoptsAt s)).length ∧ SwapOpen u := by
  intro l
  induction l with
  | nil =>
    intro _ s ho u hu
    subst hu
    refine ⟨fun d => by simp, ?_, ho⟩
    simp
  | cons b l ih =>
    intro hn s ho u hu
    rw [List.nodup_cons] at hn
    rw [List.foldl_cons] at hu
    cases hb : adoptsAt s b with
    | false =>
      rw [adoptIfIdle_none hb] at hu
      obtain ⟨a1, a2, a3⟩ := ih hn.2 s ho u hu
      refine ⟨fun d => ?_, ?_, a3⟩
      · rw [a1]
        by_cases e : d = b
        · subst e; simp [hb]
        · simp [e]
      · rw [a2, List.filter_cons, hb]; rfl
    | true =>
      obtain ⟨c1, c2, c3, c4, c5, c6⟩ := adoptIfIdle_some ho hb
      generalize adoptIfIdle b s = t at c1 c2 c3 c4 c5 c6 hu
      obtain ⟨a1, a2, a3⟩ := ih hn.2 t c3 u hu
      have hidle : ∀ d, bayIdle t d = bayIdle s d := by intro d; unfold bayIdle State.ctx; rw [c4]
      have hat : ∀ d, d ≠ b → adoptsAt t d = adoptsAt s d := by
        intro d hd
        unfold adoptsAt
        rw [hidle, c5, c1, if_neg hd]
      refine ⟨fun d => ?_, ?_, a3⟩
      · rw [a1]
        by_cases e : d = b
        · subst e
          rw [if_neg (fun k => hn.1 k.1), c1, if_pos rfl, if_pos ⟨List.mem_cons_self, hb⟩]
        · rw [hat d e, c1, if_neg e]
          have : adopted t d = adopted s d := by unfold adopted; rw [c5, c6, c1, if_neg e]
          rw [this]
          simp [e]
      · rw [a2, c2, List.filter_cons, hb]
        have : l.filter (adoptsAt t) = l.filter (adoptsAt s) := by
          apply List.filter_congr
          intro d hd
          exact hat d fun k => hn.1 (k ▸ hd)
        rw [this, if_pos rfl, List.length_cons, BitVec.add_assoc]
        congr 1
        rw [Nat.add_comm, BitVec.ofNat_add]; rfl

end Sys2Proof.Machine
end

