-- ==== Sys2Proof/Laws/Timers.lean ====
section
/-! SUPPORT. The timers of the part in the order of log 2, and that the overdue command is the expiry of the first of
them at the end of its range. -/

namespace Sys2Proof.Machine

/-- Every timer with the command that is its expiry, in the order of log 2; `none` where it is stopped. -/
def timers (s : State) : List (Instr × Option Nat) :=
  (allBays.flatMap fun b =>
    [(.patienceTimerExpiry b, (s.bay b).patienceTimer), (.recallTimerExpiry b, (s.bay b).recallTimer)]) ++
  (allPorts.flatMap fun p =>
    [(.beatTimerExpiry p, (s.presence p).beatTimer), (.holdTimerExpiry p, (s.port p).holdTimer)]) ++
  (allBays.flatMap fun b =>
    [(.probeTimerExpiry b .a, ((s.drive b).lane .a).probe.map Probe.deadline),
      (.probeTimerExpiry b .b, ((s.drive b).lane .b).probe.map Probe.deadline)] ++
    (s.drive b).slots.map fun x => (.responseTimerExpiry b x.ctx, some x.deadline)) ++
  [(.resetTimerExpiry, s.softReset.map SoftPending.deadline)]

/-- A timer with its command is overdue. -/
def timerOverdue (now : Nat) (x : Instr × Option Nat) : Bool := overdue x.2 now

theorem timerOverdue_some (now t : Nat) (c : Instr) :
    timerOverdue now (c, some t) = decide (t + 1000 ≤ now) := rfl

/-- The expiries of the overdue among some timers. -/
def overdueOf (now : Nat) (l : List (Instr × Option Nat)) : List Instr := (l.filter (timerOverdue now)).map Prod.fst

theorem overdueOf_append (now : Nat) (l m : List (Instr × Option Nat)) :
    overdueOf now (l ++ m) = overdueOf now l ++ overdueOf now m := by
  unfold overdueOf; rw [List.filter_append, List.map_append]

theorem overdueOf_one (now : Nat) (c : Instr) (t : Option Nat) :
    (if overdue t now then [c] else []) = overdueOf now [(c, t)] := by
  unfold overdueOf timerOverdue
  cases h : overdue t now <;> simp [h]

theorem overdueOf_two (now : Nat) (c d : Instr) (t u : Option Nat) :
    (if overdue t now then [c] else []) ++ (if overdue u now then [d] else []) = overdueOf now [(c, t), (d, u)] := by
  rw [overdueOf_one, overdueOf_one, ← overdueOf_append]; rfl

theorem overdueOf_flatMap (now : Nat) {α : Type} (l : List α) (f : α → List Instr) (g : α → List (Instr × Option Nat))
    (h : ∀ a, f a = overdueOf now (g a)) : l.flatMap f = overdueOf now (l.flatMap g) := by
  induction l with
  | nil => rfl
  | cons a l ih => rw [List.flatMap_cons, List.flatMap_cons, overdueOf_append, ih, h]

theorem overdueDrive_eq (s : State) (b : Bay) :
    overdueDrive s b = overdueOf s.now
      ([(.probeTimerExpiry b .a, ((s.drive b).lane .a).probe.map Probe.deadline),
        (.probeTimerExpiry b .b, ((s.drive b).lane .b).probe.map Probe.deadline)] ++
      (s.drive b).slots.map fun x => (.responseTimerExpiry b x.ctx, some x.deadline)) := by
  unfold overdueDrive overdueProbe
  rw [overdueOf_append, overdueOf_two]
  congr 1
  unfold overdueOf
  rw [List.filter_map, List.map_map]; rfl

/-- The overdue command is the expiry of the first timer, in the order of log 2, that is overdue. -/
theorem overdueCommand_eq {s : State} (h : s.phase = .running) :
    overdueCommand s = ((timers s).find? (timerOverdue s.now)).map Prod.fst := by
  rw [← List.head?_filter, ← List.head?_map]
  change _ = (overdueOf s.now (timers s)).head?
  unfold overdueCommand timers
  rw [if_pos h, overdueOf_append, overdueOf_append, overdueOf_append]
  congr 1
  congr 1
  · congr 1
    · congr 1
      · exact overdueOf_flatMap _ _ _ _ fun b => overdueOf_two _ _ _ _ _
      · exact overdueOf_flatMap _ _ _ _ fun p => overdueOf_two _ _ _ _ _
    · exact overdueOf_flatMap _ _ _ _ (overdueDrive_eq s)
  · exact overdueOf_one _ _ _

end Sys2Proof.Machine
end

