-- ==== Sys2Proof/Laws/Turns.lean ====
section
/-! SUPPORT. The turn of the ports (R71, R96). -/

namespace Sys2Proof.Machine

/-- R71, R96: the first port in turn after the last one: no port before it in the turn will do. -/
theorem turnAfter_find_iff (last : Port) (P : Port → Bool) (p : Port) (turn : Port → Nat) 
    (ht : ∀ q, turn q = (q.val + 7 - last.val) % 8) :
    (turnAfter last).find? P = some p ↔ P p = true ∧ ∀ q, turn q < turn p → P q = false := by
  have key : ∀ q : Port, q = last + 1 + ⟨turn q, by rw [ht]; omega⟩ := by
    intro q; apply Fin.ext
    simp only [Fin.val_add, ht]
    have := q.isLt; have := last.isLt
    simp; omega
  have key2 : ∀ i : Port, turn (last + 1 + i) = i.val := by
    intro i; rw [ht]; simp only [Fin.val_add]
    have := i.isLt; have := last.isLt
    simp; omega
  constructor
  · intro h
    refine ⟨List.find?_some h, ?_⟩
    intro q hq
    cases e : P q with
    | false => rfl
    | true =>
      exfalso
      obtain ⟨-, as, bs, h1, h2⟩ := List.find?_eq_some_iff_append.1 h
      have hall : ∀ i : Nat, ∀ hi : i < 8, (turnAfter last)[i]'(by simp [turnAfter, allPorts]; exact hi) = last + 1 + (⟨i, hi⟩ : Port) := by
        intro i hi; unfold turnAfter allPorts; rw [List.getElem_map]; congr 1; exact (show ∀ j : Fin 8, allPorts[j.val]'j.isLt = j by decide) ⟨i, hi⟩
      have hlen : (turnAfter last).length = 8 := by simp [turnAfter, allPorts]
      have ha : as.length < 8 := by rw [← hlen, h1]; simp
      have hp : p = last + 1 + (⟨as.length, ha⟩ : Port) := by
        rw [← hall as.length ha]; simp [h1]
      have hp2 : turn p = as.length := by rw [hp, key2]
      have hq2 : turn q < as.length := by omega
      have hq3 : q ∈ as := by
        have := hall (turn q) (by omega)
        rw [← key q] at this
        rw [← this]
        have h4 : (turnAfter last)[turn q]'(by omega) = as[turn q] := by
          simp only [h1]; rw [List.getElem_append_left]
        rw [h4]; exact List.getElem_mem _
      have := h2 q hq3
      rw [e] at this; cases this
  · rintro ⟨h1, h2⟩
    rw [key p] at h1 ⊢
    refine turnAfter_find _ _ h1 ?_
    intro j hj
    apply h2
    rw [key2]; exact hj

end Sys2Proof.Machine
end

