-- ==== Sys2Proof/Laws/Withdrawals.lean ====
section
/-! SUPPORT. What the revocations of a withdrawal leave raised, and where they leave the recall of their bay (R37, R51). -/

namespace Sys2Proof.Machine

/-! ## Events that revocations and hand-outs do not raise -/

/-- An event that comes only by its own rule, and not by a record or an adoption made on the way (R171, R104). -/
def RareEvent (e : Event) : Prop := e ≠ .journalHigh ∧ e ≠ .journalLost ∧ e ≠ .planAdopted

theorem raiseEvent_raised_ne {e x : Event} (h : e ≠ x) (s : State) :
    hasEvent (raiseEvent x s).raised e = hasEvent s.raised e := by
  have key : hasEvent (withRaised x s).raised e = hasEvent s.raised e := by
    show hasEvent (s.raised ||| eventBit x) e = _
    rw [hasEvent_or, decide_eq_false h, Bool.or_false]
  rw [raiseEvent_eq]
  split
  · rfl
  · split
    · have hr : (tellSupervisors (withRaised x s)).raised = (withRaised x s).raised := by
        have hc := congrArg State.raised (tellSupervisors_only (withRaised x s))
        generalize tellSupervisors (withRaised x s) = w at hc ⊢
        exact hc
      rw [hr]; exact key
    · exact key

theorem appendRecord_raised {e : Event} (h : RareEvent e) (x : Entry) (s : State) :
    hasEvent (appendRecord x s).raised e = hasEvent s.raised e := by
  unfold appendRecord; dsimp only
  split
  · split
    · exact raiseEvent_raised_ne h.1 _
    · rfl
  · exact raiseEvent_raised_ne h.2.1 _

theorem adopt_raised {e : Event} (h : RareEvent e) (b : Bay) (s : State) :
    hasEvent (adopt b s).raised e = hasEvent s.raised e := by
  unfold adopt swapCheck; dsimp only
  split
  · exact (raiseEvent_raised_ne h.2.2 _).trans (appendRecord_raised h _ _)
  · exact appendRecord_raised h _ _

theorem adoptIfIdle_raised {e : Event} (h : RareEvent e) (b : Bay) (s : State) :
    hasEvent (adoptIfIdle b s).raised e = hasEvent s.raised e := by
  unfold adoptIfIdle
  split
  · exact adopt_raised h _ _
  · rfl

theorem issueHead_raised (b : Bay) (p : Port) (k : Nat) (s : State) : (issueHead b p k s).raised = s.raised := by
  unfold issueHead; split <;> rfl

theorem roundEnd_raised {e : Event} (h : RareEvent e) (b : Bay) (s : State) :
    hasEvent (roundEnd b s).raised e = hasEvent s.raised e := by
  unfold roundEnd
  split
  · exact adopt_raised h b s
  · rfl

theorem choose_raised {e : Event} (h : RareEvent e) {b : Bay} {s t : State} (ht : choose b s = some t) :
    hasEvent t.raised e = hasEvent s.raised e := by
  rcases choose_cases ht with ⟨c, rfl⟩ | ⟨p, k, rfl⟩ | ⟨p, k, rfl⟩ | rfl
  · rfl
  · rw [issueHead_raised]
  · rw [issueHead_raised, roundEnd_raised h]
  · exact roundEnd_raised h b s

theorem chooseAll_raised {e : Event} (h : RareEvent e) (b : Bay) (s : State) :
    hasEvent (chooseAll b s).raised e = hasEvent s.raised e := by
  unfold chooseAll
  generalize Config.issueSlots = n
  induction n generalizing s with
  | zero => rfl
  | succ n ih =>
    unfold chooseLoop
    split
    · next t ht => exact (ih t).trans (choose_raised h ht)
    · rfl

theorem giveAtQuota_raised {e : Event} (h : RareEvent e) (held : Option Bay) (p : Port) (s : State) :
    hasEvent (giveAtQuota held p s).raised e = hasEvent s.raised e := by
  unfold giveAtQuota
  split
  · split
    · unfold takeUp allocateHolding
      split
      · split
        · split
          · rfl
          · exact chooseAll_raised h _ _
        · rfl
      · rfl
    · rfl
  · rfl

theorem endLoanContexts_raised {e : Event} (h : RareEvent e) (serial : Word48) (cause : Cause) (s : State) :
    hasEvent (endLoanContexts serial cause s).raised e = hasEvent s.raised e := by
  have h1 : ∀ (l : List CtxId) (s : State), (l.foldl (makeTrailing cause) s).raised = s.raised := by
    intro l
    induction l with
    | nil => exact fun _ => rfl
    | cons c l ih => exact fun s => (ih _).trans rfl
  have h2 : ∀ (l : List CtxId) (s : State),
      hasEvent (l.foldl (endUnissued cause) s).raised e = hasEvent s.raised e := by
    intro l
    induction l with
    | nil => exact fun _ => rfl
    | cons c l ih =>
      intro s
      refine (ih _).trans ?_
      unfold endUnissued enterReply; dsimp only
      refine (adoptIfIdle_raised h _ _).trans ?_
      split <;> rfl
  unfold endLoanContexts; dsimp only
  exact (h2 _ _).trans (by rw [h1])

theorem revokeLoan_raised {e : Event} (h : RareEvent e) (b : Bay) (cause : Cause) (p : Port) (x : Holder)
    (s : State) : hasEvent (revokeLoan b cause p x s).raised e = hasEvent s.raised e := by
  unfold revokeLoan; dsimp only
  refine (appendRecord_raised h _ _).trans ?_
  split <;> exact endLoanContexts_raised h _ _ _

/-- R51: revocations raise no event of their own. -/
theorem revokePorts_raised {e : Event} (h : RareEvent e) (b : Bay) (cause : Cause) : ∀ (l : List Port) (s : State),
    hasEvent (revokePorts b cause l s).raised e = hasEvent s.raised e := by
  intro l
  induction l with
  | nil => exact fun _ => rfl
  | cons p l ih =>
    intro s
    refine (ih _).trans ?_
    unfold revokePort
    split
    · exact (giveAtQuota_raised h _ _ _).trans (revokeLoan_raised h _ _ _ _ _)
    · rfl

theorem refuseAll_raised {e : Event} (h : RareEvent e) (b : Bay) (cause : Cause) (s : State) :
    hasEvent (refuseAll b cause s).raised e = hasEvent s.raised e := by
  unfold refuseAll
  generalize (s.bay b).claims = l
  induction l generalizing s with
  | nil => rfl
  | cons x l ih =>
    refine (ih _).trans ?_
    unfold refuseClaim; dsimp only
    exact (appendRecord_raised h _ _).trans rfl

theorem completionCheck_raised {e : Event} (h : RareEvent e) (b : Bay) (s : State) :
    hasEvent (completionCheck b s).raised e = hasEvent s.raised e := by
  unfold completionCheck; dsimp only
  split
  · exact appendRecord_raised h _ _
  · rfl

theorem recallHolders_raised (b : Bay) (s : State) : (recallHolders b s).raised = s.raised := by
  have h := congrArg State.raised (recallHolder_fold b _ (holderPorts_nodup (s.bay b)) s).2.2.2.2
  unfold recallHolders
  generalize (s.bay b).holderPorts.foldl (recallHolder b) s = w at h ⊢
  exact h

/-- R50 to R52: a withdrawal raises no event of its own: RECALL_FORCED is not raised. -/
theorem withdrawHolders_raised {e : Event} (h : RareEvent e) (b : Bay) (ms : Nat) (s : State) :
    hasEvent (withdrawHolders b ms (startWithdrawal b s)).raised e = hasEvent s.raised e := by
  have h0 : hasEvent (startWithdrawal b s).raised e = hasEvent s.raised e := refuseAll_raised h b .withdrawn _
  generalize startWithdrawal b s = w at h0
  unfold withdrawHolders
  split
  · exact (completionCheck_raised h b _).trans ((revokePorts_raised h b .withdrawn _ w).trans h0)
  · unfold withdrawByRecall
    split
    · exact (completionCheck_raised h b w).trans h0
    · have : (recallHolders b w).raised = w.raised := recallHolders_raised b w
      exact (congrArg (hasEvent · e) this).trans h0

/-! ## The recall of a bay while its loans are revoked -/

/-- The recall phase and the recall timer of a bay record. -/
def recallSide (r : BayRecord) : RecallPhase × Option Nat := (r.phase, r.recallTimer)

theorem recallSide_endLoanContexts (serial : Word48) (cause : Cause) (s : State) (b : Bay) :
    recallSide ((endLoanContexts serial cause s).bay b) = recallSide (s.bay b) := by
  unfold endLoanContexts; dsimp only
  rw [bay_congr (endUnissued_fold_bays cause _ _) b, makeTrailing_fold_bay]
  rfl

/-- R37, R71: the recall side of a bay after one revocation there is what removing the holder leaves. -/
theorem recallSide_revokePort (b : Bay) (cause : Cause) (p : Port) (h : Holder) (s : State)
    (hh : (s.bay b).holder p = some h) :
    recallSide ((revokePort b cause s p).bay b) = recallSide ((removeHolder b p s).bay b) := by
  have k := ((revokePort_handsOut b cause p h s hh).loans b).1
  rw [k]
  show recallSide ((revokeLoan b cause p h s).bay b) = _
  rw [← recallSide_endLoanContexts h.serial cause (removeHolder b p s) b]
  unfold revokeLoan; dsimp only
  generalize endLoanContexts h.serial cause (removeHolder b p s) = w
  rw [bay_congr (appendRecord_bays _ _) b]
  split <;> rfl

/-- R37: away from a recall in progress, removing a holder leaves the phase and the recall timer. -/
theorem revokePorts_still (b : Bay) (cause : Cause) : ∀ (l : List Port) (s : State),
    (s.bay b).phase ≠ .recalled → recallSide ((revokePorts b cause l s).bay b) = recallSide (s.bay b) := by
  intro l
  induction l with
  | nil => exact fun _ _ => rfl
  | cons p l ih =>
    intro s hp
    have key : recallSide ((revokePort b cause s p).bay b) = recallSide (s.bay b) := by
      cases hh : (s.bay b).holder p with
      | none => unfold revokePort; rw [hh]
      | some h =>
        rw [recallSide_revokePort b cause p h s hh]
        unfold removeHolder; rw [modBay_bay_self]; dsimp only
        rw [if_neg (fun e => hp e.1)]; rfl
    refine (ih (revokePort b cause s p) ?_).trans key
    have := congrArg Prod.fst key
    exact fun e => hp (this.symm.trans e)

/-- R37, R51: when every holder of a bay in phase RECALLED is revoked, one of them recalled, the recall set empties on
the way: the phase is NONE and the recall timer has stopped. -/
theorem revokePorts_endRecall (b : Bay) (cause : Cause) : ∀ (l : List Port) (s : State),
    (s.bay b).phase = .recalled → (∀ q h, (s.bay b).holder q = some h → h.recalled = true → q ∈ l) →
    (∃ q h, (s.bay b).holder q = some h ∧ h.recalled = true) →
    recallSide ((revokePorts b cause l s).bay b) = (.none, none) := by
  intro l
  induction l with
  | nil =>
    rintro s - hall ⟨q, h, hq, hr⟩
    exact absurd (hall q h hq hr) List.not_mem_nil
  | cons p l ih =>
    intro s hp hall hex
    have hstep : (revokePorts b cause (p :: l) s) = revokePorts b cause l (revokePort b cause s p) := rfl
    rw [hstep]
    cases hh : (s.bay b).holder p with
    | none =>
      have e : revokePort b cause s p = s := by unfold revokePort; rw [hh]
      rw [e]
      refine ih s hp (fun q h hq hr => ?_) hex
      rcases List.mem_cons.1 (hall q h hq hr) with rfl | hm
      · rw [hh] at hq; cases hq
      · exact hm
    | some h =>
      have hside := recallSide_revokePort b cause p h s hh
      have hold : ∀ q, ∃ k : Nat → Nat, ((revokePort b cause s p).bay b).holder q =
          (if p = q then none else (s.bay b).holder q).map fun h => { h with live := k h.live } := by
        intro q
        obtain ⟨k, hk⟩ := ((revokePort_handsOut b cause p h s hh).loans b).2 q
        refine ⟨k, hk.trans ?_⟩
        have := revokeLoan_holders b b cause p h s
        rw [if_pos rfl] at this
        rw [holder_set_of this q]
      by_cases hset : ∃ q k, q ≠ p ∧ (s.bay b).holder q = some k ∧ k.recalled = true
      · have hne : ({ s.bay b with holders := (s.bay b).holders.set p none } : BayRecord).recallSet ≠ [] := by
          obtain ⟨q, k, hq, hk, hr⟩ := hset
          have hm : q ∈ ({ s.bay b with holders := (s.bay b).holders.set p none } : BayRecord).recallSet := by
            unfold BayRecord.recallSet
            refine List.mem_filter.2 ⟨mem_allPorts q, ?_⟩
            have : ({ s.bay b with holders := (s.bay b).holders.set p none } : BayRecord).holder q = some k := by
              rw [holder_set_of rfl q, if_neg (Ne.symm hq)]; exact hk
            rw [this]; exact hr
          exact fun e => by rw [e] at hm; cases hm
        have hside' : recallSide ((revokePort b cause s p).bay b) = recallSide (s.bay b) := by
          rw [hside]; unfold removeHolder; rw [modBay_bay_self]; dsimp only
          rw [if_neg (fun e => hne e.2)]; rfl
        refine ih _ ((congrArg Prod.fst hside').trans hp) (fun q k hk hr => ?_) ?_
        · obtain ⟨f, hf⟩ := hold q
          by_cases e : p = q
          · rw [if_pos e] at hf; rw [hf] at hk; cases hk
          · rw [if_neg e] at hf
            cases hq : (s.bay b).holder q with
            | none => rw [hq] at hf; rw [hf] at hk; cases hk
            | some k0 =>
              rw [hq] at hf; rw [hf] at hk; cases hk
              rcases List.mem_cons.1 (hall q k0 hq hr) with e2 | hm
              · exact absurd e2.symm e
              · exact hm
        · obtain ⟨q, k, hq, hk, hr⟩ := hset
          obtain ⟨f, hf⟩ := hold q
          rw [if_neg (Ne.symm hq), hk] at hf
          exact ⟨q, _, hf, hr⟩
      · have hemp : ({ s.bay b with holders := (s.bay b).holders.set p none } : BayRecord).recallSet = [] := by
          unfold BayRecord.recallSet
          refine List.filter_eq_nil_iff.2 fun q _ hq => ?_
          have e := holder_set_of (r' := { s.bay b with holders := (s.bay b).holders.set p none }) (r := s.bay b)
            (p := p) rfl q
          rw [e] at hq
          by_cases hpq : p = q
          · rw [if_pos hpq] at hq; cases hq
          · rw [if_neg hpq] at hq
            cases hk : (s.bay b).holder q with
            | none => rw [hk] at hq; cases hq
            | some k => rw [hk] at hq; exact hset ⟨q, k, Ne.symm hpq, hk, hq⟩
        have hside' : recallSide ((revokePort b cause s p).bay b) = (.none, none) := by
          rw [hside]; unfold removeHolder; rw [modBay_bay_self]; dsimp only
          rw [if_pos ⟨hp, hemp⟩]; rfl
        refine (revokePorts_still b cause l _ ?_).trans hside'
        intro e
        have := (congrArg Prod.fst hside').symm.trans e
        cases this

/-! ## The steps of a withdrawal -/

/-- R54: the completion check of a WITHDRAWING bay. -/
theorem completionCheck_eq (b : Bay) (w : State) (hw : (w.bay b).availability = .withdrawing) :
    completionCheck b w =
      if (∀ q, (w.bay b).holder q = none) ∧ (w.bay b).trailing = 0 then
        appendRecord { note := .bay .withdrawn, port := none, bay := some b }
          (w.modBay b fun r => { r with availability := .withdrawn })
      else w := by
  unfold completionCheck bayRecordEntry; dsimp only
  have h := holderPorts_nil (w.bay b)
  by_cases hx : (∀ q, (w.bay b).holder q = none) ∧ (w.bay b).trailing = 0
  · rw [if_pos ⟨hw, h.2 hx.1, hx.2⟩, if_pos hx]
  · rw [if_neg (fun e => hx ⟨h.1 e.2.1, e.2.2⟩), if_neg hx]

/-- R52: the holders of a bay recalled with the notices of R41, and the recall timer set. -/
theorem recallHolders_timed (b : Bay) (v : State) (g : BayRecord → Option Nat) (w : State)
    (hw : w = (recallHolders b v).modBay b fun r => { r with phase := .recalled, recallTimer := g r }) :
    (∃ l, w.bay b = { v.bay b with holders := l, phase := .recalled, recallTimer := (w.bay b).recallTimer }) ∧
      (∀ q, (w.bay b).holder q = ((v.bay b).holder q).map fun h => { h with recalled := true }) ∧
      (∀ c, c ≠ b → w.bay c = v.bay c) ∧
      (∀ q, w.port q =
        match (v.bay b).holder q with
        | some h =>
          if h.recalled = true then v.port q
          else
            { v.port q with
              notices := noticeInto { bay := b, kind := .recall, tag := 0, serial := h.serial, cause := .none }
                (v.port q).notices }
        | none => v.port q) ∧
      w = { v with bays := w.bays, ports := w.ports } := by
  obtain ⟨⟨l, r1⟩, r2, r3, r4, r5⟩ := recallHolder_fold b _ (holderPorts_nodup (v.bay b)) v
  have hmem : ∀ q, q ∈ (v.bay b).holderPorts ↔ (v.bay b).holder q ≠ none := fun q => by
    rw [mem_holderPorts, Option.isSome_iff_ne_none]
  have hy : w = ((v.bay b).holderPorts.foldl (recallHolder b) v).modBay b fun r =>
      { r with phase := .recalled, recallTimer := g r } := hw
  clear hw
  generalize (v.bay b).holderPorts.foldl (recallHolder b) v = y at r1 r2 r3 r4 r5 hy
  subst hy
  refine ⟨⟨l, ?_⟩, fun q => ?_, fun c hc => ?_, fun q => ?_, ?_⟩
  · rw [modBay_bay_self, r1]
  · rw [modBay_bay_self]
    refine (r2 q).trans ?_
    cases hq : (v.bay b).holder q with
    | none => split <;> rfl
    | some h => rw [if_pos ((hmem q).2 (by rw [hq]; simp))]
  · rw [modBay_bay_ne _ _ (Ne.symm hc)]; exact r3 c hc
  · rw [modBay_port_read]
    refine (r4 q).trans ?_
    cases hq : (v.bay b).holder q with
    | none => split <;> rfl
    | some h => rw [if_pos ((hmem q).2 (by rw [hq]; simp))]
  · have := congrArg (fun z : State => z.modBay b fun r => { r with phase := .recalled, recallTimer := g r }) r5
    exact this

/-- R51, R52: what a withdrawal does with the holders, up to its completion check. -/
theorem withdrawHolders_steps (b : Bay) (ms : Nat) (v : State) (hv : (v.bay b).availability = .withdrawing) :
    ∃ w, withdrawHolders b ms v =
        (if (∀ q, (w.bay b).holder q = none) ∧ (w.bay b).trailing = 0 then
          appendRecord { note := .bay .withdrawn, port := none, bay := some b }
            (w.modBay b fun r => { r with availability := .withdrawn })
        else w) ∧
      (w.bay b).availability = .withdrawing ∧
      (ms = 0 → w = revokePorts b .withdrawn (v.bay b).holderPorts v) ∧
      (0 < ms → (∀ q, (v.bay b).holder q = none) → w = v) ∧
      (0 < ms → (∃ q h, (v.bay b).holder q = some h) →
        w = (recallHolders b v).modBay b fun r =>
          { r with
            phase := .recalled,
            recallTimer := some ((recallHolders b v).after
              (if r.recallTimer.isSome then min (msLeft r.recallTimer (recallHolders b v).now) ms else ms)) }) := by
  unfold withdrawHolders
  by_cases h0 : ms = 0
  · rw [if_pos h0]
    have ha : ((revokePorts b .withdrawn (v.bay b).holderPorts v).bay b).availability = .withdrawing :=
      (congrArg Prod.fst (adminSide_revokePorts b .withdrawn _ v)).trans hv
    exact ⟨_, completionCheck_eq b _ ha, ha, fun _ => rfl, fun h => by omega, fun h => by omega⟩
  · rw [if_neg h0]
    unfold withdrawByRecall
    by_cases hx : (v.bay b).holderPorts = []
    · rw [if_pos hx]
      have hn := (holderPorts_nil _).1 hx
      refine ⟨v, completionCheck_eq b v hv, hv, fun h => absurd h h0, fun _ _ => rfl, ?_⟩
      rintro _ ⟨q, h, hq⟩
      rw [hn q] at hq; cases hq
    · rw [if_neg hx]; dsimp only
      have hb : ((recallHolders b v).bay b).availability = .withdrawing := by
        obtain ⟨⟨l, r1⟩, -⟩ := recallHolder_fold b _ (holderPorts_nodup (v.bay b)) v
        rw [show (recallHolders b v).bay b = _ from r1]; exact hv
      have hh : ∀ q, ((recallHolders b v).bay b).holder q = ((v.bay b).holder q).map fun h => { h with recalled := true } := by
        intro q
        have := (recallHolders_timed b v (fun _ => none) _ rfl).2.1 q
        rw [modBay_bay_self] at this
        exact this
      refine ⟨_, ?_, ?_, fun h => absurd h h0, fun _ hn => absurd ((holderPorts_nil _).2 hn) hx, fun _ _ => rfl⟩
      · rw [if_neg]
        rintro ⟨hn, -⟩
        refine hx ((holderPorts_nil _).2 fun q => ?_)
        have hq := hn q
        rw [modBay_bay_self] at hq
        have := (hh q).symm.trans hq
        cases hv : (v.bay b).holder q with
        | none => rfl
        | some h => rw [hv] at this; cases this
      · rw [modBay_bay_self]; exact hb

end Sys2Proof.Machine
end

