-- ==== Sys2Proof/Tests/Slice0.lean ====
section
/-! SUPPORT. The model's own tests: what is ill-formed, written-out frames and images, one small run of most commands,
and for every statement with hypotheses a state and operands that meet them, clause by clause. -/

namespace Sys2Proof.Tests

set_option Elab.async false

open Sys2Proof Sys2Proof.Machine

/-! ## Ill-formed commands are refused -/

/-- A node-to-part header with a tag and nothing else. -/
def request : FrameFields :=
  { flags := 0, tag := 0x1234, bay := 0, arg := 0, count := 0, serial := 0, block := 0, payload := [] }

/-- A sector one byte short. -/
def shortSector : Sector := { data := List.replicate 4095 0, check := 0, address := 0 }

theorem test_longestPayload_wellFormed :
    FrameFields.wellFormed { request with payload := List.replicate 65572 0 } = true := by
  simp only [FrameFields.wellFormed, List.length_replicate]
  decide

theorem test_longHello_illFormed :
    (Instr.hello 0 { request with payload := List.replicate 65573 0 }).wellFormed = false := by
  simp only [Instr.wellFormed, FrameFields.wellFormed, List.length_replicate]
  decide

theorem test_longBeat_illFormed :
    (Instr.beat 0 { request with payload := List.replicate 65573 0 }).wellFormed = false := by
  simp only [Instr.wellFormed, FrameFields.wellFormed, List.length_replicate]
  decide

theorem test_longPattern_illFormed :
    (Instr.pattern 0 { request with payload := List.replicate 65573 0 }).wellFormed = false := by
  simp only [Instr.wellFormed, FrameFields.wellFormed, List.length_replicate]
  decide

theorem test_attemptNumbers_illFormed :
    (Instr.driveAnswer 0 .a 0 0 .mediumError).wellFormed = false ∧
      (Instr.driveAnswer 0 .a 0 4 .mediumError).wellFormed = false ∧
      (Instr.driveAnswer 0 .a 0 3 .mediumError).wellFormed = true := by decide

theorem test_shortSector_illFormed : (Instr.driveAnswer 0 .a 0 1 (.good [shortSector])).wellFormed = false := by
  simp only [Instr.wellFormed, DriveReply.wellFormed, List.all_cons, Sector.wellFormed, shortSector,
    List.length_replicate]
  decide

theorem test_probeNumbers_illFormed :
    (Instr.probeAnswer 0 .a 0 .mediumError).wellFormed = false ∧
      (Instr.restoreProbeAnswer 0 .a 0 .mediumError).wellFormed = false := by decide

/-! ## Bytes written out -/

/-- A CLAIM of bay 5 in EXCLUSIVE mode, byte by byte (R192). -/
def claimBytesOut : List Byte :=
  [0x00, 0x00, 0x00, 0x1C, 0x03, 0x00, 0x12, 0x34, 0x05, 0x02, 0x00, 0x00, 0x00, 0x00, 0x00, 0x00, 0x00, 0x00,
    0x00, 0x00, 0x00, 0x00, 0x00, 0x00, 0xD6, 0xBE, 0x12, 0xC9]

/-- A READ of 2 blocks at 0x0A0B0C0D0E0F of bay 3, byte by byte (R192). -/
def readBytesOut : List Byte :=
  [0x00, 0x00, 0x00, 0x1C, 0x06, 0x00, 0x12, 0x34, 0x03, 0x00, 0x00, 0x02, 0x01, 0x02, 0x03, 0x04, 0x05, 0x06,
    0x0A, 0x0B, 0x0C, 0x0D, 0x0E, 0x0F, 0x31, 0x85, 0x23, 0xC7]

theorem test_claim_read :
    judgeFrame claimBytesOut = .accepted { kind := kindClaim, fields := { request with bay := 5, arg := 2 } } := by
  decide +kernel

theorem test_read_read :
    judgeFrame readBytesOut =
      .accepted
        { kind := kindRead,
          fields := { request with bay := 3, count := 2, serial := 0x010203040506, block := 0x0A0B0C0D0E0F } } := by
  decide +kernel

theorem test_brokenFrame_discarded : judgeFrame (claimBytesOut.set 8 0x04) = .checkDiscard := by decide +kernel

theorem test_longFrame_cut : judgeFrame (claimBytesOut ++ [0x00]) = .overLength := by decide +kernel

/-- A configuration image with no section (R197). -/
def emptyImage : List Byte := [0x5B, 0x4C, 0x0E, 0x21, 0x01, 0x00, 0x00, 0x0C, 0x43, 0x39, 0xE3, 0x92]

/-- An image whose one section sets the meter interval to 9 (R197). -/
def meterImage : List Byte :=
  [0x5B, 0x4C, 0x0E, 0x21, 0x01, 0x01, 0x00, 0x11, 0x07, 0x00, 0x02, 0x00, 0x09, 0x55, 0xD5, 0x9B, 0x58]

/-- An image that promises a section and holds none, with a right check value. -/
def shortImage : List Byte := [0x5B, 0x4C, 0x0E, 0x21, 0x01, 0x01, 0x00, 0x0C, 0x42, 0xE1, 0x4F, 0x15]

theorem test_images :
    loadImage emptyImage = { settings := defaultSettings, fault := false } ∧
      loadImage meterImage = { settings := { defaultSettings with meterInterval := 9 }, fault := false } ∧
      loadImage shortImage = { settings := defaultSettings, fault := true } ∧
      loadImage (emptyImage.set 4 0x02) = { settings := defaultSettings, fault := true } ∧
      loadImage (emptyImage.set 11 0x00) = { settings := defaultSettings, fault := true } ∧
      loadImage (emptyImage.take 11) = { settings := defaultSettings, fault := true } ∧
      loadImage [] = { settings := defaultSettings, fault := false } := by decide +kernel

/-- 07, the start of a pattern payload. -/
theorem test_pattern_seedOne : patternBytes 4 1 = [0x00, 0x00, 0x00, 0x09] := by decide +kernel

theorem test_eventBytes_ends :
    eventBytes (eventBit (.portLapsed 0)) = [0x80, 0, 0, 0, 0, 0, 0, 0, 0, 0] ∧
      eventBytes (eventBit .configFault) = [0, 0, 0, 0, 0, 0, 0, 0, 0, 0x08] := by decide +kernel

/-! ## Small states -/

/-- A bay IN_SERVICE with 100 blocks and both lanes UP. -/
def bayUp (b : Bay) (s : State) : State :=
  (s.modBay b fun r => { r with availability := .inService, capacity := 100 }).modDrive b fun d =>
    { d with
      learnt := some 100, laneA := { d.laneA with state := .up, probe := none },
      laneB := { d.laneB with state := .up, probe := none } }

/-- A bay in a service state. -/
def bayIs (b : Bay) (x : Availability) (s : State) : State := s.modBay b fun r => { r with availability := x }

/-- A port in an admission state. -/
def portIs (p : Port) (x : PortState) (s : State) : State := s.modPresence p fun m => { m with state := x }

/-- Bay 0 is UP and ports 0, 1 and 2 are ACTIVE; port 0 is a supervisor. -/
def ready : State := portIs 2 .active (portIs 1 .active (portIs 0 .active (bayUp 0 State.reset)))

/-- A port whose Intake Queue holds one frame. -/
def withHead (p : Port) (k : Byte) (f : FrameFields) (s : State) : State :=
  s.modPort p fun n => { n with intake := [{ kind := k, fields := f }] }

/-- A MANAGE frame's fields. -/
def manage (sub : SubKind) (bay : Byte) (payload : List Byte) : FrameFields :=
  { request with arg := subKindCode sub, bay := bay, payload := payload }

/-- Port 0 asks for management. -/
def asks (sub : SubKind) (bay : Byte) (payload : List Byte) (s : State) : State :=
  withHead 0 kindManage (manage sub bay payload) s

/-- A holder entry with serial 7. -/
def holderOf (mode : Mode) (recalled : Bool) : Holder :=
  { mode := mode, serial := 7, grantTag := 0, recalled := recalled, live := 0, blocksRead := 0, blocksWritten := 0 }

/-- A port holds a loan. -/
def lends (b : Bay) (p : Port) (h : Holder) (s : State) : State :=
  s.modBay b fun r => { r with holders := r.holders.set p (some h) }

/-- A waiting claim. -/
def claimOf (p : Port) (mode : Mode) : Claim := { port := p, mode := mode, tag := 0x0042, arrivalTag := 0 }

/-- A port waits at a bay. -/
def waits (b : Bay) (p : Port) (mode : Mode) (s : State) : State :=
  s.modBay b fun r => { r with claims := r.claims ++ [claimOf p mode] }

/-- Context 0 is ISSUED for port 1 at bay 0 on lane A, its loan's serial 7. -/
def issued (kind : OpKind) (s : State) : State :=
  ((s.modCtx 0 fun _ =>
      { state := .issued, port := 1, tag := 5, kind := kind, bay := 0, serial := 7, block := 10, count := 2,
        lane := some .a, attempts := 1, data := List.replicate 2 0 }).modLive 1 fun n => n + 1).modDrive 0 fun d =>
    { d with
      slots := [{ ctx := 0, lane := .a, attempt := 1, deadline := 200000,
                  command := .read 0 1 10 2 150 }] }

/-- The state a command goes on to. -/
def after (c : Instr) (s : State) : State :=
  match exec c s with
  | .next t => t
  | .fault _ => s
  | .refused _ => s

/-- The answer that a port's transmitter is sending. -/
def sending (s : State) (p : Port) : Option (OutKind × Status) :=
  (s.port p).tx.map fun x => (x.frame.kind, x.frame.status)

/-! ## One run of a command -/

/-- R155: HELLO admits a NEW port and is answered OK. -/
theorem test_hello :
    let t := after (.hello 3 request) State.reset
    (t.presence 3).state = .active ∧ (t.presence 3).beatTimer = some 500000 ∧ sending t 3 = some (.answer, .ok) := by
  decide +kernel

/-- R161: an early BEAT counts. -/
theorem test_beat :
    let s := ready.modPresence 1 fun m => { m with lastBeat := some 0, miss := 3 }
    let t := after (.beat 1 request) s
    (t.presence 1).early = 1 ∧ (t.presence 1).miss = 0 := by decide +kernel

/-- R166: a PATTERN that is not well formed is a mismatch. -/
theorem test_pattern :
    let t := after (.pattern 1 request) (portIs 1 .test ready)
    (t.presence 1).patternError = true ∧ t.portStats[(1 : Port)].mismatches = 1 := by decide +kernel

/-- R136: an accepted CLAIM enters the Intake Queue. -/
theorem test_frameReceive :
    ((after (.frameReceive 1 claimBytesOut) ready).port 1).intake =
      [{ kind := kindClaim, fields := { request with bay := 5, arg := 2 } }] := by decide +kernel

/-- R134: the length watchdog cuts a frame at once. -/
theorem test_overLengthCut :
    let t := after (.overLengthCut 1 [0, 0, 0, 4, 9]) ready
    (t.port 1).receiver = .ignoring ∧ t.portStats[(1 : Port)].lengthDiscards = 1 := by decide +kernel

/-- R133: carrier loss is counted. -/
theorem test_carrierDown :
    let t := after (.carrierDown 1) ready
    (t.port 1).carrier = .down ∧ t.portStats[(1 : Port)].carrierDrops = 1 := by decide +kernel

/-- R15: a CLAIM on a vacant bay is granted with serial 1. -/
theorem test_claim :
    let t := after (.claim 1) (withHead 1 kindClaim { request with arg := 2 } ready)
    ((t.bay 0).holder 1).map (fun h => (h.mode, h.serial)) = some (.exclusive, 1) ∧ t.nextSerial = 2 ∧
      sending t 1 = some (.answer, .granted) := by decide +kernel

/-- R17, R25: a CLAIM that an EXCLUSIVE loan blocks waits, and patience starts. -/
theorem test_claim_waits :
    let s := lends 0 1 (holderOf .exclusive false) ready
    let t := after (.claim 2) (withHead 2 kindClaim { request with arg := 1 } s)
    (t.bay 0).claims.length = 1 ∧ (t.bay 0).phase = .patience ∧ (t.bay 0).patienceTimer = some 5000000 ∧
      sending t 2 = some (.answer, .waiting) := by decide +kernel

/-- R30: CANCEL takes a claim away. -/
theorem test_cancel :
    let t := after (.cancel 2) (withHead 2 kindCancel request (waits 0 2 .shared ready))
    (t.bay 0).claims = [] ∧ sending t 2 = some (.answer, .ok) := by decide +kernel

/-- R29, R19: RELEASE ends a loan, and the head that waited is granted and told so. -/
theorem test_release :
    let s := waits 0 2 .shared (lends 0 1 (holderOf .exclusive false) ready)
    let t := after (.release 1) (withHead 1 kindRelease { request with serial := 7 } s)
    (t.bay 0).holder 1 = none ∧ ((t.bay 0).holder 2).map Holder.mode = some .shared ∧
      sending t 2 = some (.notice, .ok) := by decide +kernel

/-- R70, R97, R116: a READ is admitted and issued at once on the preferred lane. -/
theorem test_operation :
    let s := lends 0 1 (holderOf .shared false) ready
    let t := after (.operationAdmission 1) (withHead 1 kindRead { request with count := 2, serial := 7, block := 98 } s)
    (t.ctx 0).state = .issued ∧ (t.ctx 0).lane = some .a ∧ t.live 1 = 1 ∧
      (t.drive 0).laneA.sent = some (.read 0 1 98 2 150) := by decide +kernel

/-- R67: a READ past the capacity is refused. -/
theorem test_operation_range :
    let s := lends 0 1 (holderOf .shared false) ready
    let t := after (.operationAdmission 1) (withHead 1 kindRead { request with count := 2, serial := 7, block := 99 } s)
    sending t 1 = some (.answer, .range) := by decide +kernel

/-- R71: a free context goes to the port that waits. -/
theorem test_contextHandout :
    let s := lends 0 1 (holderOf .shared false) ready
    let s := withHead 1 kindRead { request with count := 2, serial := 7 } s
    let s := s.modPort 1 fun n => { n with reserved := true }
    let t := after .contextHandout s
    (t.ctx 0).state = .issued ∧ (t.port 1).intake = [] ∧ (t.port 1).reserved = false := by decide +kernel

/-- R138: an unknown kind is answered FORMAT. -/
theorem test_headFormatRefuse :
    sending (after (.headFormatRefuse 1) (withHead 1 0x0B request ready)) 1 = some (.answer, .format) := by
  decide +kernel

/-- R48: REVOKE ends a loan with cause FORCED and a notice. -/
theorem test_revoke :
    let t := after (.revoke 0) (asks .revoke 0 [1] (lends 0 1 (holderOf .shared false) ready))
    (t.bay 0).holder 1 = none ∧ sending t 0 = some (.answer, .ok) ∧ sending t 1 = some (.notice, .ok) := by
  decide +kernel

/-- R50, R54: a vacant bay is WITHDRAWN at once. -/
theorem test_bayWithdraw :
    ((after (.bayWithdraw 0) (asks .bayWithdraw 0 [0, 0] ready)).bay 0).availability = .withdrawn := by
  decide +kernel

/-- R101: the idle bank takes new weights. -/
theorem test_planWrite :
    let t := after (.planWrite 0) (asks .planWrite 0 ([2, 0, 0, 0] ++ List.replicate 96 15) ready)
    sending t 0 = some (.answer, .ok) ∧ (t.plan.bankB[(11 : Bay)][(7 : Port)]).val = 15 := by decide +kernel

/-- R102, R104: with every bay idle a swap completes at once. -/
theorem test_planSwap :
    let t := after (.planSwap 0) (asks .planSwap 0 [] ready)
    t.plan.current = .b ∧ t.plan.swapPending = false ∧ (t.service 11).bank = .b := by decide +kernel

/-- R174: JOURNAL_READ drains the RESET record. -/
theorem test_journalRead :
    let t := after (.journalRead 0) (asks .journalRead 0 [1] ready)
    t.journal.ring = [] ∧ (t.port 0).tx.map (fun x => x.frame.payload.length) = some 48 := by decide +kernel

/-- R187: setting an event asserts ALERT, clearing it deasserts it. -/
theorem test_eventSet_alert :
    let t := after (.eventSet 0) (asks .eventSet 0 (eventBytes (eventBit .configFault)) ready)
    t.alert = true ∧ (t.port 0).eventNews = true := by decide +kernel

/-- R184: TIME_SET changes value and resolution. -/
theorem test_timeSet :
    (after (.timeSet 0) (asks .timeSet 0 [3, 0, 0, 0, 9] ready)).timeTag =
      { value := 9, resolution := .us512, elapsed := 0 } := by decide +kernel

/-- R191: RESET_PART's answer leaves, and the soft reset is done. -/
theorem test_resetPart :
    let t := after (.frameSent 0) (after (.resetPart 0) (asks .resetPart 0 [] ready))
    (t.presence 0).state = .new ∧ (t.bay 0).availability = .probing ∧ t.softReset = none ∧
      t.journal.ring.length = 2 := by decide +kernel

/-- R38: recall expiry revokes the recalled holder and raises RECALL_FORCED. -/
theorem test_recallTimerExpiry :
    let s := lends 0 1 (holderOf .shared true) ready
    let s := s.modBay 0 fun r => { r with phase := .recalled, recallTimer := some 0 }
    let t := after (.recallTimerExpiry 0) s
    (t.bay 0).holder 1 = none ∧ (t.bay 0).phase = .none ∧ hasEvent t.raised (.recallForced 0) = true := by
  decide +kernel

/-- R159: the last miss lapses the port. -/
theorem test_beatTimerExpiry :
    let s := ready.modPresence 1 fun m => { m with beatTimer := some 0, miss := 5 }
    let t := after (.beatTimerExpiry 1) (lends 0 1 (holderOf .shared false) s)
    (t.presence 1).state = .lapsed ∧ (t.bay 0).holder 1 = none := by decide +kernel

/-- R114, R115: the second lane's answer ends probing and the bay comes IN_SERVICE. -/
theorem test_probeAnswer :
    let t := after (.probeAnswer 0 .b 1 (.good 100)) (after (.probeAnswer 0 .a 1 (.good 100)) State.reset)
    (t.bay 0).availability = .inService ∧ (t.bay 0).capacity = 100 := by decide +kernel

/-- R129: a restored lane with the same capacity comes UP. -/
theorem test_restoreProbeAnswer :
    let s := ready.modDrive 0 fun d =>
      { d with laneB := { d.laneB with state := .probing, probe := some { clear := false, deadline := 9 } } }
    ((after (.restoreProbeAnswer 0 .b 1 (.good 100)) s).drive 0).laneB.state = .up := by decide +kernel

/-- R81, R85: a SYNC answered GOOD is replied to. -/
theorem test_driveAnswer :
    let t := after (.driveAnswer 0 .a 0 1 (.good [])) (issued .sync (lends 0 1 (holderOf .shared false) ready))
    (t.ctx 0).state = .reply ∧ t.live 1 = 0 ∧ sending t 1 = some (.reply, .good) := by decide +kernel

/-- R122, R123: after no response the operation is issued again on the other lane. -/
theorem test_responseTimerExpiry :
    let s := { issued .sync (lends 0 1 (holderOf .shared false) ready) with now := 200000 }
    let t := after (.responseTimerExpiry 0 0) s
    (t.ctx 0).state = .issued ∧ (t.ctx 0).lane = some .b ∧ (t.ctx 0).attempts = 2 := by decide +kernel

/-- R190: an absent image leaves the state of State.reset, but for the probe numbers and the time base. -/
theorem test_configLoadDone :
    let t := after (.configLoadDone []) { State.reset with phase := .loading, drives := byBay fun b =>
      { State.reset.drive b with
        laneA := { (State.reset.drive b).laneA with number := 0 },
        laneB := { (State.reset.drive b).laneB with number := 0 } } }
    t = State.reset := by decide +kernel

/-- R190: RESET asserted stops the part and deasserts ALERT. -/
theorem test_resetAssert :
    let t := after .resetAssert ready
    t.phase = .asserted ∧ t.alert = false := by decide +kernel

/-! ## The hypotheses of the statements are met

Each theorem is named after its statement and gives, clause by clause, a state and operands that meet the clause's
hypotheses together. -/

/-- The premises of `HeadReady`, as a test. -/
def headReady (s : State) (p : Port) (f : InFrame) : Bool :=
  decide (s.phase = .running) && s.softReset.isNone && !(s.port p).reserved && decide (2 ≤ freeEntries (s.port p)) &&
    decide ((s.port p).intake.head? = some f)

theorem headReady_sound {s : State} {p : Port} {f : InFrame} (h : headReady s p f = true) : HeadReady s p f := by
  simp only [headReady, Bool.and_eq_true, Bool.not_eq_true', decide_eq_true_eq] at h
  obtain ⟨⟨⟨⟨h1, h2⟩, h3⟩, h4⟩, h5⟩ := h
  refine ⟨h1, fun r hr => ?_, h3, h4, h5⟩
  rw [hr] at h2; cases h2

/-- The premises of `RequestReady`, as a test. -/
def requestReady (s : State) (p : Port) (kind : Byte) (f : FrameFields) : Bool :=
  headReady s p { kind := kind, fields := f } && decide ((s.presence p).state = .active)

theorem requestReady_sound {s : State} {p : Port} {kind : Byte} {f : FrameFields} (h : requestReady s p kind f = true) :
    RequestReady s p kind f := by
  simp only [requestReady, Bool.and_eq_true, decide_eq_true_eq] at h
  exact ⟨headReady_sound h.1, h.2⟩

/-- The premises of `ManageReady`, as a test. -/
def manageReady (s : State) (p : Port) (sub : SubKind) (f : FrameFields) : Bool :=
  requestReady s p kindManage f && decide ((s.port p).role = .supervisor) && decide (f.arg = subKindCode sub) &&
    decide (f.flags = 0)

theorem manageReady_sound {s : State} {p : Port} {sub : SubKind} {f : FrameFields} (h : manageReady s p sub f = true) :
    ManageReady s p sub f := by
  simp only [manageReady, Bool.and_eq_true, decide_eq_true_eq] at h
  obtain ⟨⟨⟨h1, h2⟩, h3⟩, h4⟩ := h
  have := requestReady_sound h1
  exact ⟨this.1, this.2, h2, h3, h4⟩

/-- A claim waits for a port, as a test. -/
def waitsFor (s : State) (p : Port) (b : Bay) : Bool := (s.bay b).claims.any fun x => decide (x.port = p)

theorem waitsFor_iff (s : State) (p : Port) (b : Bay) : waitsAt s p b ↔ waitsFor s p b = true := by
  simp [waitsAt, waitsFor]

/-- With no loan and no claim, and whatever the ports, the Loan Table is safe. -/
theorem claimsSafe_of {s : State} (h : ∀ b, (s.bay b).claims = [] ∧ ∀ p, (s.bay b).holder p = none) : ClaimsSafe s :=
  ClaimsSafe.empty h

/-- No bay of `ready` has a loan or a claim. -/
theorem ready_empty : ∀ b, (ready.bay b).claims = [] ∧ ∀ p, (ready.bay b).holder p = none := by decide +kernel

/-! ### Steps and invariants -/

theorem test_meets_StepIdles :
    (State.reset.pending = [] ∧ State.reset.phase = .running ∧ overdueCommand State.reset = none) ∧
      overdueCommand { State.reset with now := 3201000 } = some (.probeTimerExpiry 0 .a) ∧
      overdueCommand { State.reset with now := 3200999 } = none := by decide +kernel

theorem test_meets_StepIdles_order :
    (({ State.reset with phase := .loading } : State).pending = [] ∧
        ({ State.reset with phase := .loading } : State).phase ≠ .running) ∧
      overdueCommand { (ready.modPresence 0 fun m => { m with beatTimer := some 0 }).modBay 11 fun r =>
        { r with recallTimer := some 0 } with now := 1000 } = some (.recallTimerExpiry 11) ∧
      overdueCommand { ready.modPort 7 fun n => { n with holdTimer := some 0 } with
        now := 1000, softReset := some { first := 0, others := [], deadline := 0 } } =
          some (.holdTimerExpiry 7) := by decide +kernel

theorem test_meets_CommandsGoOn : exec .contextHandout ready = .next (after .contextHandout ready) := rfl

theorem test_meets_SettingsChangeByTheirRequests :
    exec (.carrierDown 1) ready = .next (after (.carrierDown 1) ready) ∧ ∀ m, Instr.carrierDown 1 ≠ .configLoadDone m :=
  ⟨rfl, fun _ h => by cases h⟩

/-- A state that waits for a HELLO of port 3. -/
def helloWaits : State := { ready with pending := [.hello 3 request] }

theorem test_meets_LoansSafeKept : LoansSafe helloWaits ∧ step helloWaits = .next (after (.hello 3 request) ready) :=
  ⟨LoansSafe.empty (fun b p => (ready_empty b).2 p) (fun _ => by decide +kernel), rfl⟩

theorem test_meets_ClaimsSafeKept : ClaimsSafe helloWaits ∧ step helloWaits = .next (after (.hello 3 request) ready) :=
  ⟨claimsSafe_of ready_empty, rfl⟩

theorem test_meets_QueuesBoundedKept :
    QueuesBounded helloWaits ∧ step helloWaits = .next (after (.hello 3 request) ready) := by
  have h : ∀ p, (helloWaits.port p).intake = [] ∧ (helloWaits.port p).notices = [] := by decide +kernel
  refine ⟨⟨fun p => ?_, by decide +kernel⟩, rfl⟩
  rw [(h p).1, (h p).2]
  exact ⟨by decide, by decide, List.Pairwise.nil⟩

theorem test_meets_OutputsKept :
    AlertRight helloWaits ∧ PeriodRight helloWaits ∧ step helloWaits = .next (after (.hello 3 request) ready) := by
  refine ⟨?_, ?_, rfl⟩
  · unfold AlertRight; decide +kernel
  · unfold PeriodRight; decide +kernel

/-! ### Resets -/

theorem test_meets_ResetAsserted :
    ({ State.reset with phase := .asserted } : State).phase = .asserted ∧
      ({ State.reset with phase := .loading } : State).phase ≠ .running := by decide

theorem test_meets_HardResetDone :
    exec (.configLoadDone meterImage) { ready with phase := .loading } =
      .next (after (.configLoadDone meterImage) { ready with phase := .loading }) := rfl

theorem test_meets_ImageFindings :
    (fieldAt [0x5B, 0x4C, 0x0E] 0 4 ≠ 0x5B4C0E21 ∧ fieldAt emptyImage 0 4 = 0x5B4C0E21) ∧
      (fieldAt (emptyImage.set 4 0) 4 1 ≠ 1 ∧ fieldAt (emptyImage.set 7 11) 6 2 < 12 ∧
        (emptyImage.take 11).length < fieldAt (emptyImage.take 11) 6 2) ∧
      (fieldAt emptyImage 6 2 ≤ emptyImage.length ∧ 12 ≤ fieldAt emptyImage 6 2 ∧
        (checkValue (emptyImage.take 8)).toNat = fieldAt emptyImage 8 4 ∧
        sectionsInto 0 (slice emptyImage 8 0) [] defaultSettings = some defaultSettings) ∧
      ((checkValue (shortImage.take 8)).toNat = fieldAt shortImage 8 4 ∧
        sectionsInto 1 (slice shortImage 8 0) [] defaultSettings = none) := by decide +kernel

theorem test_meets_ImageFindings_sections :
    ((sectionInto 1 ((List.replicate 14 0) ++ [1, 1]) defaultSettings).isSome = true ∧
        (sectionInto 4 (List.replicate 96 2) defaultSettings).isSome = true ∧
        (sectionInto 5 (List.replicate 96 15) defaultSettings).isSome = true ∧
        (sectionInto 6 (List.replicate 10 0) defaultSettings).isSome = true ∧
        (sectionInto 7 [0, 1] defaultSettings).isSome = true ∧ (sectionInto 8 [3] defaultSettings).isSome = true) ∧
      (sectionInto 7 [] defaultSettings = none ∧ sectionInto 8 [4] defaultSettings = none ∧
        sectionInto 5 (List.replicate 96 16) defaultSettings = none) ∧
      (3 + fieldAt [8, 0, 1, 3] 1 2 ≤ [8, 0, 1, 3].length ∧ fieldAt [8, 0, 1, 3] 0 1 = 8) ∧
      defaultSettings.roles[(0 : Port)] = (Role.supervisor, true) ∧
      ∀ p : Port, ({ defaultSettings with roles := byPort fun _ => (.supervisor, false) } : Settings).roles[p] ≠
        (Role.supervisor, true) := by decide +kernel

/-- A soft reset is pending for port 0, whose answer stands in its Answer Queue or does not. -/
def softPending (held : Bool) : State :=
  { ready.modPort 0 fun n =>
      { n with answers := [{ frame := { kind := .answer }, resetPart := held }] } with
    softReset := some { first := 0, others := [], deadline := 250000 } }

theorem test_meets_SoftResetDone :
    (softPending false).phase = .running ∧ resetAnswerHeld ((softPending false).port 0) = false ∧
      resetAnswerHeld ((softPending true).port 0) = true ∧ (softPending true).now < 250000 ∧
      (∀ r, (softPending true).softReset = some r →
        r.deadline ≤ ({ softPending true with now := 250000 } : State).now) ∧
      ready.softReset = none := by
  refine ⟨by decide +kernel, by decide +kernel, by decide +kernel, by decide +kernel, fun r h => ?_, by decide +kernel⟩
  cases h; decide

/-- R191: a clean-up that has removed a later requester's answer starts nothing while the first one's is held. -/
theorem test_laterAnswerRemoved_waits :
    startIfAnswerGone
        { softPending true with softReset := some { first := 0, others := [1], deadline := 250000 } } =
      { softPending true with softReset := some { first := 0, others := [1], deadline := 250000 } } := rfl

/-! ### Links and presence -/

/-- A port with its carrier DOWN. -/
def carrierLost (p : Port) (s : State) : State := s.modPort p fun n => { n with carrier := .down }

theorem test_meets_CarrierReported :
    (ready.port 1).carrier = .up ∧ ((carrierLost 1 ready).port 1).carrier = .down := by decide +kernel

theorem test_meets_FramesDiscarded :
    ((ready.port 1).carrier = .up ∧ (ready.port 1).receiver = .idle) ∧
      (List.replicate 65601 (0 : Byte)).length = 65601 ∧
      fieldAt [0, 0, 0, 3] 0 4 < [0, 0, 0, 3].length ∧
      [0, 0, 0, 4].length ≤ fieldAt [0, 0, 0, 4] 0 4 ∧ fieldAt [0, 0, 0, 4] 0 4 < 28 ∧
      [0, 0, 0, 28].length < fieldAt [0, 0, 0, 28] 0 4 ∧
      (checkValue ((claimBytesOut.set 8 4).take 24)).toNat ≠ fieldAt (claimBytesOut.set 8 4) 24 4 := by
  refine ⟨by decide +kernel, List.length_replicate, ?_⟩
  decide +kernel

/-- A receiver in a state of its own. -/
def receiverIs (p : Port) (x : Receiver) (s : State) : State := s.modPort p fun n => { n with receiver := x }

theorem test_meets_FramesDiscarded_receiving :
    ((receiverIs 1 .ignoring ready).phase = .running ∧ ((receiverIs 1 .ignoring ready).port 1).carrier = .up ∧
        ((receiverIs 1 .ignoring ready).port 1).receiver = .ignoring) ∧
      ((receiverIs 1 (.receiving [0]) ready).port 1).carrier = .up ∧
      ((receiverIs 1 (.receiving [0]) ready).port 1).receiver = .receiving [0] := by decide +kernel

theorem test_meets_BytesReadBack :
    FrameFields.wellFormed { request with payload := List.replicate 65572 0 } = true ∧
      (eventsOf [0x80, 0, 0, 0, 0, 0, 0, 0, 0, 0x08] =
          some (eventBit (.portLapsed 0) ||| eventBit .configFault) ∧
        eventsOf [0x80, 0, 0, 0, 0, 0, 0, 0, 0, 0x04] = none ∧ eventsOf [0] = none) :=
  ⟨test_longestPayload_wellFormed, by decide +kernel⟩

/-- A NOTICE of a grant, byte by byte up to its check value (R192, R193). -/
theorem test_notice_bytes :
    (outBytes
        { kind := .notice, status := .ok, tag := 0x1234, bay := 5, serial := 7,
          detail := [1, 0, 0, 0, 0, 0] }).take 24 =
      [0x00, 0x00, 0x00, 0x1C, 0x83, 0x00, 0x12, 0x34, 0x05, 0x00, 0x00, 0x00, 0x00, 0x00, 0x00, 0x00, 0x00, 0x07,
        0x01, 0x00, 0x00, 0x00, 0x00, 0x00] := by decide +kernel

theorem test_meets_ArrivalRowsAreFrames : request.wellFormed = true ∧ LinkReady ready 1 := by
  unfold LinkReady; decide +kernel

theorem test_meets_FramesEnterIntake :
    LinkReady ready 1 ∧
      judgeFrame claimBytesOut = .accepted { kind := kindClaim, fields := { request with bay := 5, arg := 2 } } ∧
      (kindClaim ≠ kindHello ∧ kindClaim ≠ kindBeat ∧ kindClaim ≠ kindPattern) ∧
      ((ready.port 1).intake.length < 32 ∧ occupancy (ready.port 1).intake + (28 + 0) ≤ 262144) ∧
      ((List.replicate 32 ({ kind := 3, fields := request } : InFrame)).length < 32) = False ∧
      ((portIs 1 .off ready).presence 1).state = .off ∧ ((portIs 1 .test ready).presence 1).state = .test ∧
      ((portIs 1 .lapsed ready).presence 1).state = .lapsed := by
  refine ⟨by unfold LinkReady; decide +kernel, test_claim_read, by decide, by decide +kernel, by simp,
    by decide +kernel, by decide +kernel, by decide +kernel⟩

theorem test_meets_FramesEnterIntake_pieces :
    (receiverIs 1 (.receiving (claimBytesOut.take 10)) ready).phase = .running ∧
      ((receiverIs 1 (.receiving (claimBytesOut.take 10)) ready).port 1).receiver = .receiving (claimBytesOut.take 10) ∧
      judgeFrame (claimBytesOut.take 10 ++ claimBytesOut.drop 10) =
        .accepted { kind := kindClaim, fields := { request with bay := 5, arg := 2 } } :=
  ⟨by decide +kernel, by decide +kernel, by rw [List.take_append_drop]; exact test_claim_read⟩

/-- A port with 65,536 bytes of intake. -/
def fullPort : NodePort :=
  { ready.port 1 with
    intake := List.replicate 2 { kind := kindWrite, fields := { request with payload := List.replicate 32740 0 } } }

/-- Its occupancy is 4 units of 16 KiB. -/
theorem fullPort_occupancy : occupancy fullPort.intake = 4 * 16384 := by
  simp only [occupancy, fullPort, frameLength, Config.minFrameBytes, List.map_replicate, List.length_replicate]
  decide

theorem test_meets_IntakeFlows :
    (occupancy fullPort.intake ≤ 4 * 16384 ∧ 4 * 16384 ≤ occupancy fullPort.intake) ∧
      (occupancy (ready.port 1).intake < (ready.port 1).highWater * 16384 ∧ (ready.port 1).hold = .isOpen) ∧
      ({ ready.port 1 with hold := .spent, flowSlot := some (.hold 20) } : NodePort).hold ≠ .isOpen ∧
      (((ready.modPort 1 fun n => { n with holdTimer := some 0, hold := .held, repeatCount := 8 }).port 1).repeatLimit ≤
        8) := by
  rw [fullPort_occupancy]; decide +kernel

theorem test_meets_TransmittersTake :
    ((ready.port 1).tx = none ∧ (ready.port 1).carrier = .up ∧ (ready.port 1).flowSlot = none ∧
        (ready.port 1).answers = [] ∧ (ready.port 1).notices = [] ∧ (ready.port 1).role = .node ∧
        ready.replies 1 = []) ∧
      ((carrierLost 1 ready).port 1).carrier = .down ∧
      ((ready.modPort 0 fun n => { n with eventNews := true }).port 0).role = .supervisor ∧
      ((ready.modPort 1 fun n => { n with flowSlot := some (.hold 20) }).port 1).flowSlot = some (.hold 20) ∧
      ((ready.modPort 1 fun n => { n with flowSlot := some .resume }).port 1).flowSlot = some .resume ∧
      ((ready.modPort 1 fun n => { n with answers := [{ frame := { kind := .answer } }] }).port 1).answers =
        [{ frame := { kind := .answer } }] ∧
      (ready.modReplies 1 fun _ => [63]).replies 1 = [63] := by decide +kernel

/-- A port that sends a frame from a source. -/
def sends (p : Port) (x : TxSource) (s : State) : State :=
  s.modPort p fun n => { n with tx := some { source := x, frame := { kind := .answer } } }

theorem test_meets_FrameLeaves :
    ((sends 1 .hold ready).port 1).tx.map TxFrame.source = some .hold ∧
      ((sends 1 (.reply 63) ready).port 1).tx.map TxFrame.source = some (.reply 63) ∧
      ((sends 1 .notice ready).port 1).tx.map TxFrame.source = some .notice ∧
      ((sends 0 (.answer true) (softPending false)).port 0).answers.any Answer.resetPart = false ∧
      (softPending false).softReset.map SoftPending.first = some 0 ∧ ready.softReset = none := by decide +kernel

/-- A soft reset is pending for ports 0 and 1; port 0's answer stands in its Answer Queue, and port 1's is being sent. -/
def bothRequested : State :=
  { sends 1 (.answer true) (softPending true) with
    softReset := some { first := 0, others := [1], deadline := 250000 } }

theorem test_meets_FrameLeaves_pending :
    ((sends 2 (.answer false) (softPending true)).port 2).tx.map TxFrame.source = some (.answer false) ∧
      (bothRequested.port 1).tx.map TxFrame.source = some (.answer true) ∧
      bothRequested.softReset.map SoftPending.others = some [1] ∧ (bothRequested.port 1).carrier = .up := by
  decide +kernel

/-- R191: the departure of a later requester's answer starts the reset, though the first one's is held. -/
theorem test_laterAnswerLeaves_starts :
    frameLeft 1 (.answer true) bothRequested = performSoftReset 0 bothRequested := rfl

/-- A port whose Answer Queue is full. -/
def answersFull (p : Port) (s : State) : State :=
  s.modPort p fun n => { n with answers := List.replicate 8 { frame := { kind := .answer } } }

theorem test_meets_HelloAnswered :
    (0 < freeEntries (ready.port 3) ∧ (ready.presence 3).state = .new ∧ helloOk request = true) ∧
      (freeEntries ((answersFull 3 ready).port 3) = 0 ∧ helloOk { request with flags := 1 } = false) ∧
      ((portIs 3 .off ready).presence 3).state = .off ∧ ((portIs 3 .test ready).presence 3).state = .test ∧
      ((portIs 3 .lapsed ready).presence 3).state = .lapsed := by decide +kernel

theorem test_meets_HelloEndsTheOldNode :
    ClaimsSafe ready ∧ ready.phase = .running ∧ (ready.port 1).carrier = .up ∧ (ready.presence 1).state = .active ∧
      helloOk request = true :=
  ⟨claimsSafe_of ready_empty, by decide +kernel⟩

theorem test_meets_HelloEndsTheOldNode_bays :
    ((lends 0 1 (holderOf .shared true) ready).bay 0).holder 1 = some (holderOf .shared true) ∧
      ((waits 0 1 .shared ready).bay 0).claims.find? (fun x => decide (x.port = 1)) = some (claimOf 1 .shared) ∧
      (allBays.filter fun b =>
        decide (((lends 0 1 (holderOf .shared true) ready).bay b).holder 1 ≠ none)).length = 1 ∧
      (allBays.filter fun b => ((waits 0 1 .shared ready).bay b).claims.any fun x => decide (x.port = 1)).length = 1 ∧
      ((waits 0 1 .shared ready).bay 0).holder 1 = none := by decide +kernel

/-- Port 1 had a BEAT at 0, and the time is `now`. -/
def beaten (now early : Nat) : State :=
  { ready.modPresence 1 fun m => { m with lastBeat := some 0, early := early } with now := now }

theorem test_meets_BeatsAndPatternsJudged :
    ((beaten 125000 0).presence 1).window * 250 ≤ (beaten 125000 0).now - 0 ∧
      (beaten 124999 14).now - 0 < ((beaten 124999 14).presence 1).window * 250 ∧
      min (14 + 1) 255 < ((beaten 124999 14).presence 1).earlyLimit ∧
      ((beaten 124999 15).presence 1).earlyLimit ≤ min (15 + 1) 255 ∧
      ((portIs 1 .test ready).presence 1).state = .test ∧
      patternMatches
        { request with tag := 0, payload := List.replicate 1024 0 } = true ∧
      patternMatches request = false := by decide +kernel

/-- Port 1's beat timer is due, after some misses. -/
def missed (n : Nat) : State := ready.modPresence 1 fun m => { m with beatTimer := some 0, miss := n }

theorem test_meets_BeatTimerExpires :
    ((missed 4).phase = .running ∧ ((missed 4).presence 1).beatTimer = some 0 ∧ 0 ≤ (missed 4).now ∧
        min (4 + 1) 255 < ((missed 4).presence 1).missLimit) ∧
      ClaimsSafe (missed 5) ∧ 0 < ((missed 5).presence 1).missLimit ∧
      ((missed 5).presence 1).missLimit ≤ min (5 + 1) 255 :=
  ⟨by decide +kernel, claimsSafe_of ready_empty, by decide +kernel⟩

/-! ### Loans and claims -/

theorem test_meets_UnknownHeadsRefused :
    HeadReady (withHead 1 0x09 request ready) 1 { kind := 0x09, fields := request } ∧
      HeadReady (withHead 1 0 request ready) 1 { kind := 0, fields := request } ∧
      HeadReady (withHead 1 0x0B request ready) 1 { kind := 0x0B, fields := request } ∧
      HeadReady (withHead 0 0x0A { request with arg := 0x1B } ready) 0
        { kind := 0x0A, fields := { request with arg := 0x1B } } ∧
      HeadReady (withHead 0 0x0A request (portIs 0 .lapsed ready)) 0 { kind := 0x0A, fields := request } := by
  refine ⟨?_, ?_, ?_, ?_, ?_⟩ <;> exact headReady_sound (by decide +kernel)

/-- Port 1 asks for a loan of bay 0. -/
def claimHead (f : FrameFields) (s : State) : State := withHead 1 kindClaim f s

/-- A CLAIM's fields: EXCLUSIVE, at a bay. -/
def claimFields (bay : Byte) : FrameFields := { request with arg := 2, bay := bay }

theorem test_meets_ClaimRefused :
    (∀ x : PortState,
      HeadReady (claimHead (claimFields 0) (portIs 1 x ready)) 1 { kind := kindClaim, fields := claimFields 0 }) ∧
      HeadReady (claimHead (claimFields 12) ready) 1 { kind := kindClaim, fields := claimFields 12 } ∧
      (∀ x : Availability,
        HeadReady (claimHead (claimFields 0) (bayIs 0 x ready)) 1 { kind := kindClaim, fields := claimFields 0 }) ∧
      bayOf (claimFields 11).bay = some 11 ∧ modeOf (claimFields 0).arg = some .exclusive ∧
      permits ((ready.setRight 1 0 .read).right 1 0) .exclusive = false ∧
      ((lends 0 1 (holderOf .shared false) ready).bay 0).holder 1 = some (holderOf .shared false) ∧
      waitsAt (waits 0 1 .shared ready) 1 0 ∧
      ¬ waitsAt ({ ready with exhausted := true }) 1 0 := by
  refine ⟨fun x => headReady_sound (by cases x <;> decide +kernel), headReady_sound (by decide +kernel),
    fun x => headReady_sound (by cases x <;> decide +kernel), by decide, by decide, by decide +kernel,
    by decide +kernel, ?_, ?_⟩
  · rw [waitsFor_iff]; decide +kernel
  · rw [waitsFor_iff]; decide +kernel

theorem test_meets_ClaimRefused_position :
    let s := waits 0 1 .shared ready
    (waitsAt s 1 0 ∧ ClaimsSingle s) ∧ positionOf 2 [claimOf 1 .shared, claimOf 2 .shared] = 2 := by
  refine ⟨⟨?_, fun b => ⟨by revert b; decide +kernel, fun p h => ?_⟩⟩, by decide +kernel⟩
  · rw [waitsFor_iff]; decide +kernel
  · rw [waitsFor_iff] at h; revert b p; decide +kernel

theorem test_meets_ClaimTaken :
    (RequestReady (claimHead (claimFields 0) ready) 1 kindClaim (claimFields 0) ∧
        (ready.bay 0).availability = .inService ∧ permits (ready.right 1 0) .exclusive = true ∧
        (ready.bay 0).claims = [] ∧ ready.exhausted = false ∧ (ready.bay 0).trailing = 0 ∧
        (ready.bay 0).loanMode = .vacant) ∧
      ((lends 0 2 (holderOf .shared false) ready).bay 0).loanMode = .shared ∧
      ((lends 0 2 (holderOf .exclusive false) ready).bay 0).loanMode = .exclusive ∧
      ((waits 0 2 .shared ready).bay 0).claims ≠ [] ∧ ¬ waitsAt (waits 0 2 .shared ready) 1 0 := by
  refine ⟨⟨requestReady_sound (by decide +kernel), by decide +kernel⟩, by decide +kernel, by decide +kernel,
    by decide +kernel, ?_⟩
  rw [waitsFor_iff]; decide +kernel

theorem test_meets_ClaimCancelled :
    HeadReady (withHead 1 kindCancel { request with bay := 12 } ready) 1
        { kind := kindCancel, fields := { request with bay := 12 } } ∧
      HeadReady (withHead 1 kindRelease { request with serial := 7 } (portIs 1 .test ready)) 1
        { kind := kindRelease, fields := { request with serial := 7 } } ∧
      RequestReady (withHead 1 kindCancel request (waits 0 1 .shared ready)) 1 kindCancel request ∧
      waitsAt (withHead 1 kindCancel request (waits 0 1 .shared ready)) 1 0 ∧
      ((waits 0 1 .shared (waits 0 2 .shared ready)).bay 0).claims.head?.map Claim.port = some 2 ∧
      ¬ waitsAt ready 1 0 := by
  refine ⟨headReady_sound (by decide +kernel), headReady_sound (by decide +kernel),
    requestReady_sound (by decide +kernel), ?_, by decide +kernel, ?_⟩
  · rw [waitsFor_iff]; decide +kernel
  · rw [waitsFor_iff]; decide +kernel

theorem test_meets_LoanReleased :
    RequestReady (withHead 1 kindRelease { request with serial := 7 } (lends 0 1 (holderOf .exclusive true) ready)) 1
        kindRelease { request with serial := 7 } ∧
      ((lends 0 1 (holderOf .exclusive true) ready).bay 0).holder 1 = some (holderOf .exclusive true) ∧
      (holderOf .exclusive true).serial = 7 ∧ (ready.bay 0).holder 1 = none :=
  ⟨requestReady_sound (by decide +kernel), by decide +kernel⟩

theorem test_meets_GrantsMade :
    ClaimsSingle (waits 0 2 .exclusive ready) ∧ permits ((waits 0 2 .exclusive ready).right 2 0) .exclusive = true ∧
      ((waits 0 2 .exclusive ready).bay 0).claims = [claimOf 2 .exclusive] := by
  have h : ∀ b p, ((waits 0 2 .exclusive ready).bay b).holder p = none := by decide +kernel
  exact ⟨fun b => ⟨by revert b; decide +kernel, fun p _ => h b p⟩, by decide +kernel⟩

theorem test_meets_GrantsMade_heads :
    (let s := waits 0 2 .exclusive ready;
      (s.bay 0).availability = .inService ∧ (s.bay 0).trailing = 0 ∧ s.exhausted = false ∧
        (s.bay 0).loanMode = .vacant ∧ permits ((s.setRight 2 0 .read).right 2 0) .exclusive = false) ∧
      (let s := waits 0 2 .exclusive (lends 0 1 (holderOf .shared false) ready);
        ClaimsSingle s ∧ (s.bay 0).loanMode = .shared ∧ (s.bay 0).claims = [claimOf 2 .exclusive]) ∧
      (let s := waits 0 2 .shared (lends 0 1 (holderOf .shared false) ready);
        (s.bay 0).loanMode = .shared ∧ (s.bay 0).claims = [claimOf 2 .shared]) ∧
      ((bayIs 0 .probing ready).bay 0).availability ≠ .inService ∧ (ready.bay 0).claims = [] := by
  refine ⟨by decide +kernel, ⟨fun b => ⟨by revert b; decide +kernel, fun p h => ?_⟩, by decide +kernel⟩,
    by decide +kernel⟩
  rw [waitsFor_iff] at h; revert b p; decide +kernel

/-- Bay 0 with an EXCLUSIVE loan of port 1 and a waiting claim of port 2, in a recall phase. -/
def blocked (x : RecallPhase) (subject : Option Port) (ms : BitVec 16) : State :=
  (waits 0 2 .shared (lends 0 1 (holderOf .exclusive false) ready)).modBay 0 fun r =>
    { r with phase := x, subject := subject, patienceTime := ms }

theorem test_meets_PatienceChecked :
    headBlocked ((blocked .none none 5000).bay 0) = some 2 ∧ headBlocked ((blocked .none none 0).bay 0) = some 2 ∧
      headBlocked ((blocked .none none 65535).bay 0) = some 2 ∧
      headBlocked ((blocked .patience (some 2) 1).bay 0) = some 2 ∧
      headBlocked ((blocked .patience (some 3) 65534).bay 0) = some 2 ∧
      (headBlocked ((blocked .patience (some 3) 65535).bay 0) = some 2 ∧
        ((blocked .patience (some 3) 65535).bay 0).subject ≠ some 2 ∧
        ((blocked .patience (some 3) 65535).bay 0).patienceTime = 65535) ∧
      ((blocked .recalled none 0).bay 0).phase = .recalled ∧ headBlocked (ready.bay 0) = none ∧
      headBlocked ((waits 0 2 .shared (lends 0 1 (holderOf .shared false) ready)).bay 0) = none ∧
      headBlocked ((waits 0 2 .exclusive ready).bay 0) = none := by decide +kernel

theorem test_meets_PatienceChecked_settled :
    (∀ q, ((bayIs 0 .withdrawing ready).bay 0).holder q = none) ∧
      ((bayIs 0 .withdrawing ready).bay 0).trailing = 0 ∧
      ((bayIs 0 .withdrawing (lends 0 7 (holderOf .shared true) ready)).bay 0).holder 7 =
        some (holderOf .shared true) ∧
      (((bayIs 0 .withdrawing ready).modBay 0 fun r => { r with trailing := 1 }).bay 0).trailing ≠ 0 ∧
      (ready.bay 0).availability ≠ .withdrawing := by decide +kernel

theorem test_meets_RecallStarts :
    let s := (blocked .patience (some 2) 5000).modBay 0 fun r => { r with patienceTimer := some 0 }
    s.phase = .running ∧ (s.bay 0).patienceTimer = some 0 ∧ 0 ≤ s.now := by decide +kernel

theorem test_meets_RecallExpires :
    let s := (lends 0 1 (holderOf .shared true) ready).modBay 0 fun r => { r with recallTimer := some 0 }
    (s.phase = .running ∧ (s.bay 0).recallTimer = some 0 ∧ (s.bay 0).availability ≠ .withdrawing) ∧
      ((bayIs 0 .withdrawing s).bay 0).availability = .withdrawing ∧ ClaimsSingle s ∧ OnlyActiveHold s := by
  refine ⟨by decide +kernel, by decide +kernel, fun b => ⟨by revert b; decide +kernel, fun p h => ?_⟩, fun p h b => ?_⟩
  · rw [waitsFor_iff] at h; revert b p; decide +kernel
  · rw [waitsFor_iff]; revert p b; decide +kernel

theorem test_meets_LoansAndClaimsEnded :
    let s := (lends 0 2 (holderOf .shared false) (lends 0 1 (holderOf .shared true) ready)).modBay 0 fun r =>
      { r with phase := .recalled }
    (s.bay 0).holder 1 = some (holderOf .shared true) ∧ (s.bay 0).phase = .recalled ∧
      (∀ q, q ≠ 1 → (s.bay 0).recallSet.contains q = false) ∧
      ((lends 0 2 (holderOf .shared true) s).bay 0).recallSet.contains 2 = true ∧ (ready.bay 0).phase ≠ .recalled := by
  decide +kernel

theorem test_meets_LoansAndClaimsEnded_inTurn :
    ((lends 0 1 (holderOf .shared true) ready).bay 0).holder 0 = none ∧
      ((lends 0 1 (holderOf .shared true) ready).bay 0).holder 1 = some (holderOf .shared true) := by decide +kernel

/-! ### Journal, operations -/

theorem test_meets_RecordProduced :
    (List.replicate 383 ({ seq := 0, time := 0, entry := { note := .meter } } : Record)).length = 383 ∧
      (List.replicate 511 ({ seq := 0, time := 0, entry := { note := .meter } } : Record)).length < 512 ∧
      512 ≤ (List.replicate 512 ({ seq := 0, time := 0, entry := { note := .meter } } : Record)).length ∧
      State.reset.journal.ring.length = 1 := by
  simp only [List.length_replicate]; decide

theorem test_meets_EventRaised :
    hasEvent ready.raised .configFault = false ∧
      hasEvent ({ ready with raised := eventBit .configFault } : State).raised .configFault = true := by decide +kernel

/-- Port 1 asks for an operation at bay 0. -/
def opHead (k : Byte) (f : FrameFields) (s : State) : State := withHead 1 k f s

/-- A WRITE of `n` blocks. -/
def writeFields (n : BitVec 16) : FrameFields := { request with serial := 7, count := n }

/-- Port 1 holds bay 0. -/
def lent (mode : Mode) : State := lends 0 1 (holderOf mode false) ready

theorem test_meets_OperationRefused :
    (∀ x : PortState,
      HeadReady (opHead kindSync request (portIs 1 x ready)) 1 { kind := kindSync, fields := request }) ∧
      HeadReady (opHead kindWrite (writeFields 17) (lent .exclusive)) 1
        { kind := kindWrite, fields := writeFields 17 } ∧
      operationLengthOk .write (writeFields 1) = false ∧
      (operationLengthOk .read { writeFields 16 with block := 84 } = true ∧
        operationCountOk .read { writeFields 16 with block := 84 } = true ∧
        operationCountOk .read (writeFields 17) = false) ∧
      (tagInUse (issued .read (lent .exclusive)) 1 5 = true ∧ tagInUse (lent .shared) 1 5 = false) ∧
      (((lent .shared).bay 0).holder 1 = some (holderOf .shared false) ∧ (holderOf .shared false).serial = 7) ∧
      ((lent .shared).bay 0).capacity.toNat < 85 + 16 := by
  refine ⟨fun x => headReady_sound (by cases x <;> decide +kernel), headReady_sound (by decide +kernel), ?_⟩
  decide +kernel

theorem test_meets_OperationAdmitted :
    let f := { writeFields 16 with block := 84 }
    let s := opHead kindRead f (lent .shared)
    HeadReady s 1 { kind := kindRead, fields := f } ∧ admissionCheck s 1 .read f = .ok 0 ∧ (s.ctx 0).state = .free ∧
      s.live 1 < s.quota 1 ∧ (s.modLive 1 fun _ => 12).quota 1 ≤ (s.modLive 1 fun _ => 12).live 1 :=
  ⟨headReady_sound (by decide +kernel), by rfl, by decide +kernel⟩

theorem test_meets_ContextsHandedOut :
    let f := { writeFields 1 with block := 99 }
    let s := (opHead kindRead f (lent .shared)).modPort 1 fun n => { n with reserved := true }
    s.phase = .running ∧ (s.ctx 0).state = .free ∧ s.pool.lastGranted + 1 + 1 = 1 ∧
      waitingHead s 1 = some (.read, f) ∧ s.live 1 < s.quota 1 ∧ waitingHead s 0 = none := by decide +kernel

/-- No context is FREE. -/
def noneFree (s : State) : State := { s with pool := { s.pool with contexts := Vector.replicate 64 { state := .reply } } }

theorem test_meets_ContextsHandedOut_atQuota :
    let f := { writeFields 1 with block := 99 }
    let s := (opHead kindRead f (lent .shared)).modPort 1 fun n => { n with reserved := true }
    (admissionCheck s 1 .read f = .ok 0 ∧ admissionCheck (portIs 1 .lapsed s) 1 .read f = .error .lapsed ∧
        waitingHead (portIs 1 .lapsed s) 1 = some (.read, f)) ∧
      (∀ c, ((noneFree s).ctx c).state ≠ .free) ∧ (∀ p, waitingHead ready p = none) ∧
      (s.modLive 1 fun _ => 12).quota 1 ≤ (s.modLive 1 fun _ => 12).live 1 :=
  ⟨⟨by rfl, by rfl, by decide +kernel⟩, by decide +kernel, by decide +kernel, by decide +kernel⟩

/-- Context 0 is QUEUED at bay 0 for port 1. -/
def queued (kind : OpKind) (block : Word48) (s : State) : State :=
  (s.modCtx 1 fun _ =>
      { state := .queued, port := 1, kind := kind, bay := 0, serial := 7, block := block, count := 2 }).modService 0
    fun v => { v with lists := v.lists.set 1 [1] }

/-- Port 1 has no credits at bay 0. -/
def spent (s : State) : State := s.modService 0 fun v => { v with credits := Vector.replicate 8 0 }

theorem test_meets_ContextsIssued :
    (canIssue State.reset 0 = false ∧ canIssue (queued .read 0 ready) 0 = true) ∧
      ((ready.service 0).reissue = [] ∧
        creditedPort (queued .read 0 ready) 0 = some 1 ∧ creditedPort (spent (queued .read 0 ready)) 0 = none ∧
        creditedPort (roundEnd 0 (spent (queued .read 0 ready))) 0 = some 1) ∧
      (eligible (queued .read 12 (issued .read ready)) 0 1 = true ∧
        eligible (queued .read 11 (issued .read ready)) 0 1 = false ∧
        eligible (queued .sync 12 (issued .read ready)) 0 1 = false) ∧
      (ready.drive 0).laneA.state = .up := by decide +kernel

/-- A swap to a bank is pending. -/
def swapping (x : Bank) (s : State) : State := { s with plan := { s.plan with current := x, swapPending := true } }

theorem test_meets_ContextsIssued_rounds :
    ((choose 0 (queued .read 0 ready)).isSome = true ∧ (choose 0 ready).isSome = false) ∧
      (((queued .read 0 ready).service 0).lists[(1 : Port)] = [1] ∧
        ((issued .write ready).ctx 0).lane = some .a) ∧
      (ready.plan.swapPending = false ∧ (ready.service 0).bank = ready.plan.current) ∧
      ((swapping .b ready).plan.swapPending = true ∧ ((swapping .b ready).service 0).bank ≠ .b ∧
        bayIdle (swapping .b ready) 0 = true ∧ bayIdle (swapping .b (queued .read 0 ready)) 0 = false) ∧
      (∀ d, ((swapping .a ready).service d).bank = (swapping .a ready).plan.current) := by decide +kernel

theorem test_meets_ContextsIssued_turn :
    uncreditedPort (spent (queued .read 0 ready)) 0 = some 1 ∧ uncreditedPort ready 0 = none ∧
      (ready.service 0).lastServed = 7 ∧ ((0 : Port).val + 7 - (7 : Port).val) % 8 = 0 ∧
      ((7 : Port).val + 7 - (7 : Port).val) % 8 = 7 := by decide +kernel

/-! ### Management -/

theorem test_meets_ManagementRefused :
    (∀ sub, HeadReady (asks sub 0 [] (portIs 0 .lapsed ready)) 0 { kind := kindManage, fields := manage sub 0 [] }) ∧
      HeadReady (withHead 1 kindManage (manage .planSwap 0 []) ready) 1
        { kind := kindManage, fields := manage .planSwap 0 [] } ∧
      HeadReady (withHead 0 kindManage { manage .planSwap 0 [] with flags := 1 } ready) 0
        { kind := kindManage, fields := { manage .planSwap 0 [] with flags := 1 } } ∧
      (∀ sub, ManageReady (asks sub 12 [] ready) 0 sub (manage sub 12 [])) ∧
      (∀ sub, ManageReady (asks sub 8 [1] ready) 0 sub (manage sub 8 [1])) ∧
      (∀ sub, ManageReady (asks sub 7 [8, 0] ready) 0 sub (manage sub 7 [8, 0])) ∧
      (bayPolicyOf [1] = none ∧ portLimitsOf [8, 0] = none ∧ planWriteOf [1] = none ∧ eventsOf [1] = none) := by
  refine ⟨fun sub => headReady_sound (by cases sub <;> decide +kernel), headReady_sound (by decide +kernel),
    headReady_sound (by decide +kernel), fun sub => manageReady_sound (by cases sub <;> decide +kernel),
    fun sub => manageReady_sound (by cases sub <;> decide +kernel),
    fun sub => manageReady_sound (by cases sub <;> decide +kernel), by decide +kernel⟩

theorem test_meets_ManagementRefused_lengths :
    (∀ sub, ManageReady (asks sub 0 [] ready) 0 sub (manage sub 0 [])) ∧
      (∀ sub, ManageReady (asks sub 0 [1, 2] ready) 0 sub (manage sub 0 [1, 2])) ∧
      (∀ sub, ManageReady (asks sub 0 [1, 2, 0, 0, 0, 0] ready) 0 sub (manage sub 0 [1, 2, 0, 0, 0, 0])) :=
  ⟨fun sub => manageReady_sound (by cases sub <;> decide +kernel),
    fun sub => manageReady_sound (by cases sub <;> decide +kernel),
    fun sub => manageReady_sound (by cases sub <;> decide +kernel)⟩

theorem test_meets_RightsManaged :
    ManageReady (asks .accessSet 11 [7, 2] ready) 0 .accessSet (manage .accessSet 11 [7, 2]) ∧
      ([7, 2] = [byte (7 : Port).val, rightCode .full] ∧ bayOf 11 = some 11) ∧
      ((waits 0 2 .exclusive ready).bay 0).claims.find? (fun x => decide (x.port = 2)) = some (claimOf 2 .exclusive) ∧
      permits .read (claimOf 2 .exclusive).mode = false ∧
      ManageReady (asks .accessGet 12 [7] ready) 0 .accessGet (manage .accessGet 12 [7]) ∧
      ManageReady (asks .accessGet 11 [7] ready) 0 .accessGet (manage .accessGet 11 [7]) :=
  ⟨manageReady_sound (by decide +kernel), by decide, by decide +kernel, by decide,
    manageReady_sound (by decide +kernel), manageReady_sound (by decide +kernel)⟩

theorem test_meets_RightsManaged_empty :
    ManageReady (asks .accessSet 12 [] ready) 0 .accessSet (manage .accessSet 12 []) ∧
      ManageReady (asks .accessGet 12 [] ready) 0 .accessGet (manage .accessGet 12 []) :=
  ⟨manageReady_sound (by decide +kernel), manageReady_sound (by decide +kernel)⟩

theorem test_meets_SnapshotsAnswered :
    ManageReady (asks .loanQuery 11 [] ready) 0 .loanQuery (manage .loanQuery 11 []) ∧
      ManageReady (asks .planStatus 0 [] ready) 0 .planStatus (manage .planStatus 0 []) ∧
      ManageReady (asks .portStatus 7 [] ready) 0 .portStatus (manage .portStatus 7 []) ∧
      ManageReady (asks .eventRead 0 [] ready) 0 .eventRead (manage .eventRead 0 []) := by
  refine ⟨?_, ?_, ?_, ?_⟩ <;> exact manageReady_sound (by decide +kernel)

theorem test_meets_SnapshotsAnswered_payloads :
    msLeft none ready.now = 0 ∧ ∀ t, msLeft (some t) ready.now = (t - ready.now) / 1000 := ⟨rfl, fun _ => rfl⟩

theorem test_meets_LoanForced :
    ManageReady (asks .revoke 0 [1] (lent .shared)) 0 .revoke (manage .revoke 0 [1]) ∧
      ((lent .shared).bay 0).holder 1 = some (holderOf .shared false) ∧
      ((waits 0 2 .shared ready).bay 0).claims.find? (fun x => decide (x.port = 2)) = some (claimOf 2 .shared) ∧
      ¬ waitsAt ready 7 11 := by
  refine ⟨manageReady_sound (by decide +kernel), by decide +kernel, by decide +kernel, ?_⟩
  rw [waitsFor_iff]; decide +kernel

theorem test_meets_BayWithdrawn :
    (∀ x : Availability,
      ManageReady (asks .bayWithdraw 0 [0, 0] (bayIs 0 x ready)) 0 .bayWithdraw (manage .bayWithdraw 0 [0, 0])) ∧
      ManageReady (asks .bayWithdraw 0 [0xFF, 0xFF] (lent .shared)) 0 .bayWithdraw
        (manage .bayWithdraw 0 [0xFF, 0xFF]) ∧
      ([0, 0] = bytesOf 2 0 ∧ [0xFF, 0xFF] = bytesOf 2 65535) ∧ ((lent .shared).bay 0).recallTimer = none :=
  ⟨fun x => manageReady_sound (by cases x <;> decide +kernel), manageReady_sound (by decide +kernel), by decide,
    by decide +kernel⟩

theorem test_meets_BayWithdrawn_phases :
    let s := (lends 0 1 (holderOf .shared true) ready).modBay 0 fun r =>
      { r with phase := .recalled, recallTimer := some 5000 }
    ((s.bay 0).availability = .inService ∧ (s.bay 0).phase = .recalled ∧
        (s.bay 0).holder 1 = some (holderOf .shared true) ∧ (holderOf .shared true).recalled = true) ∧
      (ready.bay 0).phase ≠ .recalled ∧ (∀ q, (ready.bay 0).holder q = none) := by decide +kernel

theorem test_meets_BayAndLaneRestored :
    (∀ x : Availability,
      ManageReady (asks .bayRestore 0 [] (bayIs 0 x ready)) 0 .bayRestore (manage .bayRestore 0 [])) ∧
      (∀ x : Availability,
        ManageReady
          (withHead 0 kindManage { manage .laneRestore 0 [] with count := 2 } (bayIs 0 x ready)) 0 .laneRestore
          { manage .laneRestore 0 [] with count := 2 }) ∧
      (laneOf 1 = some .a ∧ laneOf 2 = some .b) ∧
      (ready.drive 0).laneA.state = .up ∧ (State.reset.drive 0).laneA.state = .probing :=
  ⟨fun x => manageReady_sound (by cases x <;> decide +kernel),
    fun x => manageReady_sound (by cases x <;> decide +kernel), by decide, by decide +kernel⟩

/-- A bay policy record in range (R195). -/
def policyBytes : List Byte := [1, 0, 0, 50, 1, 15, 2, 1, 2, 1, 0xFF, 0xFF, 0, 1]

/-- A port limits record at the ends of its ranges (R195). -/
def limitBytes : List Byte := [64, 16, 15, 1, 15, 0, 255, 0, 0x27, 0x10]

theorem test_meets_PoliciesSet :
    ManageReady (asks .bayPolicySet 11 policyBytes ready) 0 .bayPolicySet (manage .bayPolicySet 11 policyBytes) ∧
      (bayPolicyOf policyBytes).isSome = true ∧
      ManageReady (asks .limitsSet 7 limitBytes ready) 0 .limitsSet (manage .limitsSet 7 limitBytes) ∧
      (portLimitsOf limitBytes).isSome = true ∧ portLimitsOf (limitBytes.set 9 0x11) = none :=
  ⟨manageReady_sound (by decide +kernel), by decide +kernel, manageReady_sound (by decide +kernel), by decide +kernel⟩

theorem test_meets_PoliciesSet_records :
    (policyBytes.take 13).length ≠ 14 ∧ (limitBytes ++ [0]).length ≠ 10 ∧
      (bayPolicyOf (policyBytes.set 5 16) = none ∧ bayPolicyOf (policyBytes.set 0 4) = none ∧
        bayPolicyOf (policyBytes.set 6 3) = none ∧ bayPolicyOf (policyBytes.set 13 0) = none) := by decide +kernel

/-- A PLAN_WRITE payload. -/
def planBytes (bank : Byte) : List Byte := [bank, 0, 0, 0] ++ List.replicate 96 15

theorem test_meets_PlanChanged :
    ManageReady (asks .planWrite 0 (planBytes 2) ready) 0 .planWrite (manage .planWrite 0 (planBytes 2)) ∧
      (planWriteOf (planBytes 1)).map Prod.fst = some .a ∧ (planWriteOf (planBytes 2)).map Prod.fst = some .b ∧
      (ready.service 0).bank = .a ∧ (∀ b, (ready.service b).bank ≠ .b) ∧
      ManageReady (asks .planSwap 0 [] ready) 0 .planSwap (manage .planSwap 0 []) ∧ ready.plan.swapPending = false :=
  ⟨manageReady_sound (by decide +kernel), by decide +kernel, by decide +kernel, by decide +kernel, by decide +kernel,
    manageReady_sound (by decide +kernel), by decide +kernel⟩

theorem test_meets_PlanChanged_adopting :
    (allBays.filter fun b => bayIdle ready b && decide ((ready.service b).bank ≠ .b)).length = 12 ∧
      (allBays.filter fun b => bayIdle (queued .read 0 ready) b &&
        decide (((queued .read 0 ready).service b).bank ≠ .b)).length = 11 := by decide +kernel

theorem test_meets_PortEnabledOrDisabled :
    (∀ x : PortState,
      ManageReady (asks .portDisable 7 [] (portIs 7 x ready)) 0 .portDisable (manage .portDisable 7 [])) ∧
      ManageReady (asks .portDisable 0 [] ready) 0 .portDisable (manage .portDisable 0 []) ∧ ClaimsSafe ready ∧
      (∀ x : PortState,
        ManageReady (asks .portEnable 7 [] (portIs 7 x ready)) 0 .portEnable (manage .portEnable 7 [])) :=
  ⟨fun x => manageReady_sound (by cases x <;> decide +kernel), manageReady_sound (by decide +kernel),
    claimsSafe_of ready_empty, fun x => manageReady_sound (by cases x <;> decide +kernel)⟩

theorem test_meets_PortTestedOrResynchronised :
    ManageReady (asks .portTestOn 7 [] ready) 0 .portTestOn (manage .portTestOn 7 []) ∧
      (∀ b, (ready.bay b).holder 7 = none) ∧ ready.live 7 = 0 ∧
      ManageReady (asks .portTestOff 7 [] (portIs 7 .test ready)) 0 .portTestOff (manage .portTestOff 7 []) ∧
      ManageReady (asks .portResync 0 [] ready) 0 .portResync (manage .portResync 0 []) ∧
      ((lent .shared).bay 0).holder 1 = some (holderOf .shared false) :=
  ⟨manageReady_sound (by decide +kernel), by decide +kernel, by decide +kernel, manageReady_sound (by decide +kernel),
    manageReady_sound (by decide +kernel), by decide +kernel⟩

theorem test_meets_JournalAndStatisticsRead :
    ManageReady (asks .journalRead 0 [byte 16] ready) 0 .journalRead (manage .journalRead 0 [byte 16]) ∧
      ManageReady (asks .journalRead 0 [byte 255] ready) 0 .journalRead (manage .journalRead 0 [byte 255]) ∧
      ManageReady (asks .statsRead 0 [1, 7, 1] ready) 0 .statsRead (manage .statsRead 0 [1, 7, 1]) ∧
      ManageReady (asks .statsRead 0 [2, 11, 0] ready) 0 .statsRead (manage .statsRead 0 [2, 11, 0]) ∧
      ManageReady (asks .statsRead 0 [1, 8, 0] ready) 0 .statsRead (manage .statsRead 0 [1, 8, 0]) ∧
      ManageReady (asks .statsRead 0 [3, 0, 2] ready) 0 .statsRead (manage .statsRead 0 [3, 0, 2]) ∧
      portOf 7 = some 7 ∧ bayOf 11 = some 11 := by
  refine ⟨?_, ?_, ?_, ?_, ?_, ?_, by decide, by decide⟩ <;> exact manageReady_sound (by decide +kernel)

/-- R196: the 32 bytes of a record, written out. -/
theorem test_recordBytes :
    recordBytes { seq := 1, time := 2, entry := { note := .bay (.laneDown .b), bay := some 11, count1 := 3 } } =
      [0, 0, 0, 1, 0, 0, 0, 2, 6, 0xFF, 11, 5, 0, 0, 0, 0, 0, 0, 0, 0, 0, 3, 0, 0, 0, 0, 0, 0, 0, 0, 0, 0] := by
  decide +kernel

/-- An event set's bytes. -/
def oneEvent : List Byte := [0, 0, 0, 0, 0, 0, 0, 0, 0, 0x08]

theorem test_meets_EventSetsChanged :
    eventsOf oneEvent = some (eventBit .configFault) ∧
      ManageReady (asks .eventEnable 0 oneEvent ready) 0 .eventEnable (manage .eventEnable 0 oneEvent) ∧
      ManageReady (asks .eventSet 0 oneEvent ready) 0 .eventSet (manage .eventSet 0 oneEvent) ∧
      ManageReady (asks .eventClear 0 oneEvent ready) 0 .eventClear (manage .eventClear 0 oneEvent) := by
  refine ⟨by decide +kernel, ?_, ?_, ?_⟩ <;> exact manageReady_sound (by decide +kernel)

theorem test_meets_TimeSetAndResetAsked :
    ManageReady (asks .timeSet 0 [3, 0, 0, 0, 9] ready) 0 .timeSet (manage .timeSet 0 [3, 0, 0, 0, 9]) ∧
      [3, 0, 0, 0, 9] = 3 :: bytesOf 4 (9 : Word32).toNat ∧ resolutionOf 3 = some .us512 ∧
      ManageReady (asks .timeSet 0 [4, 0, 0, 0, 9] ready) 0 .timeSet (manage .timeSet 0 [4, 0, 0, 0, 9]) ∧
      ManageReady (asks .resetPart 0 [] ready) 0 .resetPart (manage .resetPart 0 []) ∧ ready.softReset = none :=
  ⟨manageReady_sound (by decide +kernel), by decide +kernel, by decide, manageReady_sound (by decide +kernel),
    manageReady_sound (by decide +kernel), by decide +kernel⟩

/-- RESET_PART at port 0 while a soft reset of port 1 is pending. -/
def secondReset : State :=
  { asks .resetPart 0 [] ready with softReset := some { first := 1, others := [], deadline := 9 } }

theorem test_meets_TimeSetAndResetAsked_pending : ManageReady secondReset 0 .resetPart (manage .resetPart 0 []) := by
  refine ⟨⟨by decide +kernel, fun r h => ?_, by decide +kernel, by decide +kernel, by decide +kernel⟩,
    by decide +kernel⟩
  cases h; decide

/-! ### Drives -/

theorem test_meets_ProbesResolved :
    (State.reset.phase = .running ∧
        ((State.reset.drive 11).lane .b).probe = some { clear := true, deadline := 3200000 } ∧
        ((State.reset.drive 11).lane .b).number = 1 ∧ (State.reset.drive 11).learnt = none) ∧
      3200000 ≤ ({ State.reset with now := 3200000 } : State).now ∧ (ready.drive 0).learnt = some 100 ∧
      ((ready.drive 0).laneA.state ≠ .probing ∧ (ready.drive 0).laneB.state ≠ .probing ∧
        (ready.drive 0).laneA.state = .up) := by decide +kernel

/-- Lane B of bay 0 is being restored, and lane A is in a state. -/
def restoring (x : LaneState) : State :=
  ready.modDrive 0 fun d =>
    { d with
      laneA := { d.laneA with state := x },
      laneB := { d.laneB with state := .probing, probe := some { clear := false, deadline := 0 } } }

theorem test_meets_RestoreProbeResolved :
    (∀ x : LaneState, ((restoring x).drive 0).laneA.state = x ∧ (restoring x).phase = .running ∧
      ((restoring x).drive 0).laneB.probe = some { clear := false, deadline := 0 } ∧
      ((restoring x).drive 0).laneB.number = 1) ∧
      ((restoring .up).bay 0).capacity = 100 ∧ (99 : Word48) ≠ ((restoring .down).bay 0).capacity ∧
      0 ≤ (restoring .down).now := by
  refine ⟨fun x => ?_, by decide +kernel⟩
  cases x <;> decide +kernel

theorem test_meets_AttemptAnswered :
    ((issued .read ready).phase = .running ∧
        ((issued .read ready).drive 0).slots.find? (fun x => decide (x.ctx = 0)) =
          some { ctx := 0, lane := .a, attempt := 1, deadline := 200000, command := .read 0 1 10 2 150 }) ∧
      ((issued .read ready).ctx 0).kind = .read ∧ ((issued .sync ready).ctx 0).kind ≠ .read ∧
      ((issued .read ready).ctx 0).count = 2 ∧ ((issued .read ready).drive 0).policy.checkMode = .enforce ∧
      200000 ≤ ({ issued .read ready with now := 200000 } : State).now := by decide +kernel

theorem test_meets_AttemptAnswered_unreadable : ∃ x ∈ [shortSector], x.data.length ≠ 4096 :=
  ⟨shortSector, List.mem_singleton_self _, fun e => by
    rw [show shortSector.data.length = 4095 from List.length_replicate] at e; omega⟩

theorem test_meets_AttemptAnswered_mismatches :
    mismatchCount 0xFFFFFFFF 0
      [{ data := [1], check := checkValue [1], address := 0xFFFFFFFF },
        { data := [1], check := checkValue [1], address := 0 },
        { data := [1], check := checkValue [0], address := 1 },
        { data := [1], check := checkValue [1], address := 1 }] = 2 := by decide +kernel

theorem test_meets_AttemptsEnd :
    ((issued .read ready).ctx 0).attempts ≤ ((issued .read ready).drive 0).policy.retryCount ∧
      ((issued .read ready).drive 0).policy.retryCount < 3 ∧
      (((issued .read ready).drive 0).lane .a).failures + 1 < ((issued .read ready).drive 0).policy.failLimit ∧
      ((issued .read ready).drive 0).policy.failLimit ≤ 2 + 1 ∧
      ((issued .read (lent .exclusive)).bay 0).holder 1 = some (holderOf .exclusive false) ∧
      (ready.journal.meterInterval ≠ 0 ∧ 4095 < ready.journal.meterInterval.toNat ∧
        ready.journal.meterInterval.toNat ≤ 4096) := by decide +kernel

/-- Context 0 is trailing or orphaned, and `n` contexts trail at bay 0. -/
def ending (trailing orphaned : Bool) (n : Nat) : State :=
  ((issued .read ready).modCtx 0 fun x => { x with trailing := trailing, orphaned := orphaned }).modBay 0 fun r =>
    { r with trailing := n }

theorem test_meets_AttemptsEnd_ended :
    (((issued .read (lent .exclusive)).ctx 0).trailing = false ∧ ((issued .read (lent .exclusive)).ctx 0).orphaned = false ∧
        (holderOf .exclusive false).serial = ((issued .read (lent .exclusive)).ctx 0).serial) ∧
      (((ending true false 1).ctx 0).trailing = true ∧ ((ending true false 1).bay 0).trailing ≤ 1) ∧
      (((ending true false 2).ctx 0).orphaned = false ∧ 1 < ((ending true false 2).bay 0).trailing) ∧
      (((ending true true 1).ctx 0).orphaned = true ∧ ((ending true true 1).bay 0).trailing ≤ 1) ∧
      ((ending true true 2).ctx 0).orphaned = true ∧ 1 < ((ending true true 2).bay 0).trailing ∧
      ClaimsSingle (ending true false 1) := by
  refine ⟨by decide +kernel, by decide +kernel, by decide +kernel, by decide +kernel, by decide +kernel,
    by decide +kernel, fun b => ⟨by revert b; decide +kernel, fun p h => ?_⟩⟩
  rw [waitsFor_iff] at h; revert b p; decide +kernel

theorem test_meets_BayFaults :
    (((issued .read (lent .exclusive)).bay 0).holder ((issued .read (lent .exclusive)).ctx 0).port =
        some (holderOf .exclusive false) ∧
        (holderOf .exclusive false).serial = ((issued .read (lent .exclusive)).ctx 0).serial) ∧
      ((bayIs 0 .withdrawing (ending true false 1)).bay 0).availability = .withdrawing ∧
      ((ending true true 1).bay 0).availability ≠ .withdrawing ∧ ((faultBay 0 (ending true false 1)).ctx 0).outcome =
        .bayFaulted ∧
      ((faultBay 0 (lent .exclusive)).journal.ring.map fun r => r.entry.note).drop 1 =
        [.loanEnd .fault, .bay .faulted] := by decide +kernel

end Sys2Proof.Tests
end

section
/-! PROOF. The start of a recall (R26): what it leaves of the bay, of the holders and of the ports. -/

namespace Sys2Proof.Machine

/-! ## The expiry as an event -/

theorem timerDue_some {t now : Nat} (h : t ≤ now) : timerDue (some t) now = true :=
  decide_eq_true h

theorem exec_patienceTimerExpiry {s : State} {b : Bay} {d : Nat} (hr : s.phase = .running)
    (hd : (s.bay b).patienceTimer = some d) (h : d ≤ s.now) :
    exec (.patienceTimerExpiry b) s = .next (transmit (startRecall b s)) := by
  simp only [exec, execPatienceTimerExpiry]
  rw [hd, if_pos (timerDue_some h), whenRunning_running _ _ hr]

/-! ## The recall of the holders -/

/-- Two updates that agree on the record they find are the same update. -/
theorem modBay_congr {s : State} {b : Bay} {f g : BayRecord → BayRecord} (h : f (s.bay b) = g (s.bay b)) :
    s.modBay b f = s.modBay b g :=
  congrArg (fun r => { s with bays := s.bays.set b r }) h

theorem recallHolders_bay (b : Bay) (s : State) :
    ∃ v, (recallHolders b s).bay b = { s.bay b with holders := v } := by
  obtain ⟨hbay, -⟩ := recallHolder_fold b _ (holderPorts_nodup (s.bay b)) s
  exact hbay

theorem recallHolders_now (b : Bay) (s : State) : (recallHolders b s).now = s.now := by
  obtain ⟨-, -, -, -, hrest⟩ := recallHolder_fold b _ (holderPorts_nodup (s.bay b)) s
  exact (congrArg State.now hrest).trans rfl

/-! ## The two ends of a recall's start -/

/-- R26 steps 1 and 2: the patience timer stops, its subject is gone, and the phase is RECALLED. -/
def recallOpened (b : Bay) (s : State) : State :=
  s.modBay b fun r => { r with patienceTimer := none, subject := none, phase := .recalled }

theorem recallOpened_bay_self (b : Bay) (s : State) :
    (recallOpened b s).bay b = { s.bay b with patienceTimer := none, subject := none, phase := .recalled } :=
  modBay_bay_self _ _ _

theorem recallOpened_bay_ne {b c : Bay} (s : State) (h : c ≠ b) : (recallOpened b s).bay c = s.bay c :=
  modBay_bay_ne _ _ (Ne.symm h)

theorem recallOpened_holder (b : Bay) (s : State) (q : Port) :
    ((recallOpened b s).bay b).holder q = (s.bay b).holder q := by
  rw [recallOpened_bay_self]; rfl

theorem recallOpened_port (b : Bay) (s : State) (q : Port) : (recallOpened b s).port q = s.port q := rfl

/-- R26: a recall's start opens it, recalls the holders and sets the recall timer. The phase, which is RECALLED by
then, is written once more: this is the form of the update that `recallHolders_timed` speaks of. -/
theorem startRecall_eq (b : Bay) (s : State) :
    startRecall b s = (recallHolders b (recallOpened b s)).modBay b fun r =>
      { r with phase := .recalled, recallTimer := some (s.now + r.recallTime.toNat * 1000) } := by
  obtain ⟨v, hv⟩ := recallHolders_bay b (recallOpened b s)
  have hphase : ((recallHolders b (recallOpened b s)).bay b).phase = .recalled := by
    rw [hv, recallOpened_bay_self]
  have hafter : ∀ ms, (recallHolders b (recallOpened b s)).after ms = s.now + ms * 1000 := fun ms =>
    congrArg (· + ms * 1000) (recallHolders_now b (recallOpened b s))
  have hset : startRecall b s = (recallHolders b (recallOpened b s)).modBay b fun r =>
      { r with recallTimer := some ((recallHolders b (recallOpened b s)).after r.recallTime.toNat) } := rfl
  rw [hset]
  refine modBay_congr ?_
  rw [hafter, hphase]

/-- R26: what a recall's start leaves of its bay. -/
theorem startRecall_bay_self (b : Bay) (s : State) :
    ∃ v, (startRecall b s).bay b =
      { s.bay b with
        patienceTimer := none, subject := none, phase := .recalled, holders := v,
        recallTimer := some (s.now + (s.bay b).recallTime.toNat * 1000) } := by
  obtain ⟨v, hv⟩ := recallHolders_bay b (recallOpened b s)
  exact ⟨v, by rw [startRecall_eq, modBay_bay_self, hv, recallOpened_bay_self]⟩

end Sys2Proof.Machine

namespace Sys2Proof.Proofs

open Sys2Proof.Machine

/-- Settles O33: the expiry's event is the start of the recall, which recalls the holders of the opened bay by
`recallHolders_timed`; opening it changes no holder, no other bay and no port. -/
theorem recallStarts : Obligations.RecallStarts := by
  intro b d s hr hd h
  obtain ⟨-, hholder, hother, hport, hrest⟩ := recallHolders_timed b (recallOpened b s) _ _ (startRecall_eq b s)
  refine ⟨startRecall b s, exec_patienceTimerExpiry hr hd h, startRecall_bay_self b s, fun q => ?_, fun c hc => ?_,
    fun q => ?_, hrest⟩
  · rw [hholder, recallOpened_holder]
  · rw [hother c hc, recallOpened_bay_ne s hc]
  · exact (hport q).trans (recallOpened_holder b s q ▸ rfl)

end Sys2Proof.Proofs
end

section
/-! PROOF. A record produced (R171): the saturating count of the lost, and what the Journal does with a record at each
occupancy. -/

namespace Sys2Proof.Machine

/-! ## A saturating counter stepped by one -/

theorem toNat_lt_of_ne_allOnes {c : Word32} (h : c ≠ BitVec.allOnes 32) : c.toNat < 2 ^ 32 - 1 := by
  have hne : c.toNat ≠ 2 ^ 32 - 1 := fun hc => h (BitVec.eq_of_toNat_eq (hc.trans BitVec.toNat_allOnes.symm))
  omega

theorem satAdd_one (c : Word32) : satAdd c 1 = if c = BitVec.allOnes 32 then c else c + 1 := by
  split
  · next h => subst h; rfl
  · next h =>
    have hmin : min (c.toNat + 1) (2 ^ 32 - 1) = c.toNat + 1 := Nat.min_eq_left (toNat_lt_of_ne_allOnes h)
    rw [satAdd, hmin, BitVec.ofNat_add, BitVec.ofNat_toNat, BitVec.setWidth_eq]
    rfl

/-! ## What the Journal does with a record -/

/-- R171 steps 1 to 3: the record joins the tail of the ring, with its sequence number and time tag. -/
def recordJoined (x : Entry) (s : State) : State :=
  { s with
    journal := { s.journal with
      ring := s.journal.ring ++ [{ seq := s.journal.seq, time := s.timeTag.value, entry := x }],
      seq := s.journal.seq + 1 } }

/-- R171 steps 1 and 4: the record is lost; it has consumed its sequence number and is counted. -/
def recordLost (s : State) : State :=
  { s with
    journal := { s.journal with
      seq := s.journal.seq + 1,
      lost := if s.journal.lost = BitVec.allOnes 32 then s.journal.lost else s.journal.lost + 1 } }

theorem appendRecord_of_room {x : Entry} {s : State} (h : s.journal.ring.length < Config.journalRecords) :
    appendRecord x s =
      if s.journal.ring.length + 1 = Config.journalHigh then raiseEvent .journalHigh (recordJoined x s)
      else recordJoined x s :=
  if_pos h

theorem appendRecord_of_full {x : Entry} {s : State} (h : Config.journalRecords ≤ s.journal.ring.length) :
    appendRecord x s = raiseEvent .journalLost (recordLost s) := by
  rw [recordLost, ← satAdd_one]
  exact if_neg (Nat.not_lt.mpr h)

end Sys2Proof.Machine

namespace Sys2Proof.Proofs

open Sys2Proof.Machine

/-- Settles O37, by the occupancy: below 512 the record joins the ring, at 383 with JOURNAL_HIGH raised; at 512 it is
lost. -/
theorem recordProduced : Obligations.RecordProduced := by
  rintro x s u rfl
  refine ⟨fun hroom hne => ?below, fun hlast => ?reachesHigh, fun hfull => appendRecord_of_full hfull⟩
  case below =>
    have hhigh : s.journal.ring.length + 1 ≠ Config.journalHigh := fun h => hne (Nat.succ.inj h)
    exact (appendRecord_of_room hroom).trans (if_neg hhigh)
  case reachesHigh =>
    have hroom : s.journal.ring.length < Config.journalRecords := hlast ▸ by decide
    exact (appendRecord_of_room hroom).trans (if_pos (congrArg (· + 1) hlast))

end Sys2Proof.Proofs
end

section
/-! PROOF. The invariants of every step: the safety of the loans (R4, R10, R11), the admission discipline (R5, R6,
R153), the bounds of the queues (R136, R148, R170), ALERT (R187, R190) and the time tag's period (R184). -/

namespace Sys2Proof.Machine

/-! ## ALERT and the phase of a reset -/

/-- While the part is held in a hard reset, ALERT is deasserted. -/
theorem AlertRight.stopped {s : State} (hr : s.phase ≠ .running) (hs : s.alert = false) : AlertRight s := by
  rw [AlertRight, hs, decide_eq_false hr, Bool.false_and]

theorem AlertRight.alert_false {s : State} (hr : s.phase ≠ .running) (hs : AlertRight s) : s.alert = false := by
  rw [hs, decide_eq_false hr, Bool.false_and]

theorem AlertRight.running {s : State} (hr : s.phase = .running) : AlertRight s ↔ AlertFollows s := by
  rw [AlertRight, AlertFollows, decide_eq_true hr, Bool.true_and]
  exact ⟨fun h => ⟨hr, h⟩, And.right⟩

theorem AlertFollows.right {s : State} (hs : AlertFollows s) : AlertRight s := (AlertRight.running hs.1).2 hs

/-- The enable set alone of the settings bears on ALERT, and replacing it drives ALERT anew. -/
theorem AlertFollows.settings (c : Instr) : KeepsSettings AlertFollows c where
  right := fun _ _ _ _ _ hs => hs
  quota := fun _ _ _ _ hs => hs
  enabled := fun _ _ _ hs => ⟨hs.1, rfl⟩
  timeTag := fun _ _ _ _ hs => hs

/-- Every command keeps ALERT with the two sets: while the part runs by `exec_keeps`; in a hard reset ALERT stays
deasserted until the load makes it follow its settings. -/
theorem AlertRight.exec (c : Instr) (s t : State) (hs : AlertRight s) (ht : exec c s = .next t) : AlertRight t := by
  by_cases hassert : c = .resetAssert
  · subst hassert
    exact next_inj ht ▸ AlertRight.stopped (nofun : ResetPhase.asserted ≠ .running) rfl
  by_cases hr : s.phase = .running
  · exact (exec_keeps AlertFollows.closed c (AlertFollows.settings c) s t hr hassert ht
      ((AlertRight.running hr).1 hs)).right
  by_cases hrelease : c = .resetRelease
  · subst hrelease
    change execResetRelease s = _ at ht
    unfold execResetRelease at ht
    split at ht
    · exact next_inj ht ▸
        AlertRight.stopped (nofun : ResetPhase.loading ≠ .running) (AlertRight.alert_false (s := s) hr hs)
    · exact next_inj ht ▸ hs
  by_cases hload : ∃ m, c = .configLoadDone m
  · obtain ⟨m, rfl⟩ := hload
    change execConfigLoadDone m s = _ at ht
    unfold execConfigLoadDone at ht
    split at ht
    · have hhard := AlertFollows.closed.performHardReset (loadImage m) s (AlertFollows.hard s _)
      exact next_inj ht ▸ (AlertFollows.closed.transmit _ hhard).right
    · exact next_inj ht ▸ hs
  rcases exec_stopped c s t hr hassert hrelease (fun m hm => hload ⟨m, hm⟩) ht with rfl | ⟨p, x, rfl⟩
  · exact hs
  · exact AlertRight.stopped hr (hs.alert_false hr)

theorem AlertRight.step (s t : State) (hs : AlertRight s) (ht : step s = .next t) : AlertRight t := by
  unfold Machine.step at ht
  split at ht
  · next c rest _ => exact AlertRight.exec c { s with pending := rest } t hs ht
  · split at ht
    · exact AlertRight.exec _ s t hs ht
    · rw [← next_inj ht, tick]
      split <;> exact hs

end Sys2Proof.Machine

namespace Sys2Proof.Proofs

open Sys2Proof.Machine

/-- Settles O5: `LoansSafe.kept` has each elementary update of the Loan Table. -/
theorem loansSafeKept : Obligations.LoansSafeKept := fun s t hs ht => LoansSafe.kept.step s t ht hs

/-- Settles O6: `ClaimsSafe.kept` has each elementary update of holders, claims and port states. -/
theorem claimsSafeKept : Obligations.ClaimsSafeKept := fun s t hs ht => ClaimsSafe.kept.step s t ht hs

/-- Settles O7: `QueuesBounded.kept` has each elementary update of the queues and the ring. -/
theorem queuesBoundedKept : Obligations.QueuesBoundedKept := fun s t hs ht => QueuesBounded.kept.step s t ht hs

/-- Settles O8: ALERT by the phase of the reset, the period by `PeriodRight.kept`. -/
theorem outputsKept : Obligations.OutputsKept :=
  ⟨AlertRight.step, fun s t hs ht => PeriodRight.kept.step s t ht hs⟩

end Sys2Proof.Proofs
end

section
/-! PROOF. That every command goes on (00_scope), and what the commands leave of the settings, the queue of commands
and the time base (logs 2, 31). -/

namespace Sys2Proof.Machine

/-! ## Every command goes on -/

theorem goes_next (s : State) : Goes (.next s) := ⟨s, rfl⟩

theorem goes_ite {P : Prop} [Decidable P] {x y : Result} (hx : Goes x) (hy : Goes y) : Goes (if P then x else y) := by
  split
  · exact hx
  · exact hy

theorem whenRunning_goes (s : State) (event : State → State) : Goes (whenRunning s event) :=
  goes_ite (goes_next _) (goes_next _)

theorem serveHead_goes (p : Port) (names : InFrame → Bool) (event : FrameFields → State → State) (s : State) :
    Goes (serveHead p names event s) := by
  unfold serveHead
  split
  · exact goes_ite (goes_next _) (goes_next _)
  · exact goes_next _

theorem serveManage_goes (p : Port) (sub : SubKind) (request : FrameFields → State → State) (s : State) :
    Goes (serveManage p sub request s) :=
  serveHead_goes p _ _ s

theorem arrive_goes (p : Port) (kind : Byte) (f : FrameFields) (s : State) : Goes (arrive p kind f s) :=
  goes_ite (goes_next _) (whenRunning_goes _ _)

theorem exec_goes (c : Instr) (s : State) : Goes (exec c s) := by
  cases c with
  | resetAssert => exact goes_next _
  | resetRelease => exact goes_ite (goes_next _) (goes_next _)
  | configLoadDone m => exact goes_ite (goes_next _) (goes_next _)
  | softReset =>
    change Goes (execSoftReset s)
    unfold execSoftReset
    split
    · exact goes_ite (whenRunning_goes _ _) (goes_next _)
    · exact goes_next _
  | resetTimerExpiry =>
    change Goes (execResetTimerExpiry s)
    unfold execResetTimerExpiry
    split
    · exact goes_ite (whenRunning_goes _ _) (goes_next _)
    · exact goes_next _
  | carrierDown p => exact goes_ite (goes_next _) (goes_ite (goes_next _) (goes_next _))
  | carrierUp p => exact goes_ite (goes_next _) (goes_ite (goes_next _) (goes_next _))
  | frameReceive p bytes => exact goes_ite (goes_next _) (whenRunning_goes _ _)
  | overLengthCut p bytes => exact goes_ite (goes_next _) (whenRunning_goes _ _)
  | hello p f | beat p f | pattern p f => exact arrive_goes p _ f s
  | headFormatRefuse p =>
    change Goes (execHeadFormatRefuse p s)
    unfold execHeadFormatRefuse
    split
    · exact goes_ite (goes_next _) (goes_next _)
    · exact goes_next _
  | operationAdmission p =>
    change Goes (execOperationAdmission p s)
    unfold execOperationAdmission
    split
    · split <;> exact goes_next _
    · exact goes_next _
  | contextHandout => exact whenRunning_goes _ _
  | patienceTimerExpiry b => exact goes_ite (whenRunning_goes _ _) (goes_next _)
  | recallTimerExpiry b => exact goes_ite (whenRunning_goes _ _) (goes_next _)
  | beatTimerExpiry p => exact goes_ite (whenRunning_goes _ _) (goes_next _)
  | holdTimerExpiry p => exact goes_ite (whenRunning_goes _ _) (goes_next _)
  | frameSent p =>
    change Goes (execFrameSent p s)
    unfold execFrameSent
    split
    · exact goes_ite (goes_next _) (whenRunning_goes _ _)
    · exact goes_next _
  | probeAnswer b l n reply =>
    change Goes (execProbeAnswer b l n reply s)
    unfold execProbeAnswer
    split
    · exact goes_ite (whenRunning_goes _ _) (goes_next _)
    · exact goes_next _
  | restoreProbeAnswer b l n reply =>
    change Goes (execRestoreProbeAnswer b l n reply s)
    unfold execRestoreProbeAnswer
    split
    · exact goes_ite (whenRunning_goes _ _) (goes_next _)
    · exact goes_next _
  | probeTimerExpiry b l =>
    change Goes (execProbeTimerExpiry b l s)
    unfold execProbeTimerExpiry
    split
    · exact goes_ite (whenRunning_goes _ _) (goes_next _)
    · exact goes_next _
  | driveAnswer b l c attempt reply =>
    change Goes (execDriveAnswer b l c attempt reply s)
    unfold execDriveAnswer
    split
    · split
      · exact goes_ite (goes_next _) (goes_next _)
      · exact goes_next _
    · exact goes_next _
  | responseTimerExpiry b c =>
    change Goes (execResponseTimerExpiry b c s)
    unfold execResponseTimerExpiry
    split
    · exact whenRunning_goes _ _
    · exact goes_next _
  | claim p | cancel p | release p => exact serveHead_goes p _ _ s
  | accessSet p | accessGet p | loanQuery p | revoke p | bayWithdraw p | bayRestore p | laneRestore p | bayPolicySet p
  | planWrite p | planSwap p | planStatus p | portEnable p | portDisable p | portTestOn p | portTestOff p
  | portStatus p | portResync p | limitsSet p | journalRead p | statsRead p | eventRead p | eventEnable p
  | eventSet p | eventClear p | timeSet p | resetPart p => exact serveManage_goes p _ _ s

/-! ## What the commands leave of the settings -/

/-- A command leaves the queue and the time base; and each setting, but for the command that sets it. -/
def SettingsKept (c : Instr) (s t : State) : Prop :=
  (t.pending = s.pending ∧ t.now = s.now) ∧
  ((∀ m, c ≠ .configLoadDone m) →
    t.journal.meterInterval = s.journal.meterInterval ∧
    (∀ p, (t.port p).role = (s.port p).role) ∧
    ((∀ p, c ≠ .accessSet p) → t.access = s.access) ∧
    ((∀ p, c ≠ .limitsSet p) → t.pool.quota = s.pool.quota) ∧
    ((∀ p, c ≠ .eventEnable p) → t.enabled = s.enabled) ∧
    (c ≠ .resetAssert → (∀ p, c ≠ .timeSet p) → t.timeTag = s.timeTag) ∧
    (c ≠ .resetAssert → c ≠ .resetRelease → t.phase = s.phase))

theorem SettingsKept.refl (c : Instr) (s : State) : SettingsKept c s s :=
  ⟨⟨rfl, rfl⟩, fun _ => ⟨rfl, fun _ => rfl, fun _ => rfl, fun _ => rfl, fun _ => rfl, fun _ _ => rfl, fun _ _ => rfl⟩⟩

/-- New Node Ports keep the settings where each keeps its role. -/
theorem SettingsKept.ports {c : Instr} {s t : State} (v : Vector NodePort 8)
    (hv : ∀ p : Port, (v[p]).role = (t.port p).role) (h : SettingsKept c s t) :
    SettingsKept c s { t with ports := v } :=
  ⟨h.1, fun hc => ⟨(h.2 hc).1, fun p => (hv p).trans ((h.2 hc).2.1 p), (h.2 hc).2.2⟩⟩

theorem SettingsKept.modPort {c : Instr} {s t : State} (p : Port) (f : NodePort → NodePort)
    (hf : (f (t.port p)).role = (t.port p).role) (h : SettingsKept c s t) : SettingsKept c s (t.modPort p f) := by
  refine h.ports _ fun q => ?_
  change ((t.modPort p f).port q).role = _
  rw [modPort_port]
  split
  · next hq => exact hq ▸ hf
  · rfl

/-- The elementary updates keep the settings. -/
theorem SettingsKept.closed (c : Instr) (s : State) : Closed (SettingsKept c s) where
  bay := fun _ _ _ _ h => h
  holder := fun _ _ _ _ _ h => h
  unlend := fun _ _ _ h => h
  lendClaim := fun _ _ _ _ _ _ _ _ _ _ h => h
  services := fun _ _ h => h
  drives := fun _ _ h => h
  plan := fun _ _ h => h
  pool := fun _ _ hv h =>
    ⟨h.1, fun hc => ⟨(h.2 hc).1, (h.2 hc).2.1, (h.2 hc).2.2.1, fun hl => hv.trans ((h.2 hc).2.2.2.1 hl),
      (h.2 hc).2.2.2.2⟩⟩
  portStats := fun _ _ h => h
  bayStats := fun _ _ h => h
  journal := fun _ _ _ hv h => ⟨h.1, fun hc => ⟨hv.trans (h.2 hc).1, (h.2 hc).2⟩⟩
  raised := fun _ _ h => h
  port := fun _ p f hq h => h.modPort p f hq.2.2
  notice := fun _ p _ h => h.modPort p _ rfl
  lendNow := fun _ _ _ _ _ _ _ _ _ h => h
  queue := fun _ _ _ _ _ _ h => h
  softReset := fun _ _ h => h
  intake := fun _ p _ _ _ h => h.modPort p _ rfl
  presence := fun _ _ _ _ h => h
  shift := fun _ _ _ _ h => h
  test := fun _ _ _ _ _ h => h
  leave := fun s cause p f _ hs => by
    generalize (cleanUp cause p s).state = u at hs ⊢
    exact hs
  soft := fun t h => h.ports (byPort fun p => softPort t.ports[p]) fun p => by rw [byPort_get]; rfl

/-- The one request that sets a setting is excepted from what `SettingsKept` says of it. -/
theorem SettingsKept.settings (c : Instr) (s : State) : KeepsSettings (SettingsKept c s) c where
  right := fun ⟨p, hp⟩ _ _ _ _ h =>
    ⟨h.1, fun hc => ⟨(h.2 hc).1, (h.2 hc).2.1, fun hn => absurd hp (hn p), (h.2 hc).2.2.2⟩⟩
  quota := fun ⟨p, hp⟩ _ _ _ h =>
    ⟨h.1, fun hc => ⟨(h.2 hc).1, (h.2 hc).2.1, (h.2 hc).2.2.1, fun hn => absurd hp (hn p), (h.2 hc).2.2.2.2⟩⟩
  enabled := fun ⟨p, hp⟩ _ _ h =>
    ⟨h.1, fun hc => ⟨(h.2 hc).1, (h.2 hc).2.1, (h.2 hc).2.2.1, (h.2 hc).2.2.2.1, fun hn => absurd hp (hn p),
      (h.2 hc).2.2.2.2.2⟩⟩
  timeTag := fun ⟨p, hp⟩ _ _ _ h =>
    ⟨h.1, fun hc => ⟨(h.2 hc).1, (h.2 hc).2.1, (h.2 hc).2.2.1, (h.2 hc).2.2.2.1, (h.2 hc).2.2.2.2.1,
      fun _ hn => absurd hp (hn p), (h.2 hc).2.2.2.2.2.2⟩⟩

theorem SettingsKept.resetAssert (s t : State) (ht : execResetAssert s = .next t) : SettingsKept .resetAssert s t := by
  rw [← next_inj ht]
  have hports := (SettingsKept.refl .resetAssert s).ports (byPort fun p => stopLink s.ports[p])
    fun p => by rw [byPort_get]; rfl
  obtain ⟨hqueue, hrest⟩ := hports
  refine ⟨hqueue, fun hc => ?_⟩
  obtain ⟨hm, hrole, ha, hq, he, -, -⟩ := hrest hc
  exact ⟨hm, hrole, ha, hq, he, fun h => absurd rfl h, fun h => absurd rfl h⟩

/-- Every command leaves the queue, the time base and the settings it does not set. -/
theorem SettingsKept.exec (c : Instr) (s t : State) (ht : exec c s = .next t) : SettingsKept c s t := by
  have hrefl := SettingsKept.refl c s
  by_cases hassert : c = .resetAssert
  · subst hassert
    exact SettingsKept.resetAssert s t ht
  by_cases hr : s.phase = .running
  · exact exec_keeps (SettingsKept.closed c s) c (SettingsKept.settings c s) s t hr hassert ht hrefl
  by_cases hrelease : c = .resetRelease
  · subst hrelease
    change execResetRelease s = _ at ht
    unfold execResetRelease at ht
    split at ht
    · obtain ⟨hqueue, hrest⟩ := hrefl
      refine next_inj ht ▸ ⟨hqueue, fun hc => ?_⟩
      obtain ⟨hm, hrole, ha, hq, he, htag, -⟩ := hrest hc
      exact ⟨hm, hrole, ha, hq, he, htag, fun _ h => absurd rfl h⟩
    · exact next_inj ht ▸ hrefl
  by_cases hload : ∃ m, c = .configLoadDone m
  · obtain ⟨m, rfl⟩ := hload
    change execConfigLoadDone m s = _ at ht
    unfold execConfigLoadDone at ht
    have hclosed := SettingsKept.closed (.configLoadDone m) s
    split at ht
    · exact next_inj ht ▸ hclosed.transmit _
        (hclosed.performHardReset (loadImage m) s ⟨⟨rfl, rfl⟩, fun hc => absurd rfl (hc m)⟩)
    · exact next_inj ht ▸ hrefl
  rcases exec_stopped c s t hr hassert hrelease (fun m hm => hload ⟨m, hm⟩) ht with rfl | ⟨p, x, rfl⟩
  · exact hrefl
  · exact hrefl.modPort p _ rfl

end Sys2Proof.Machine

namespace Sys2Proof.Proofs

open Sys2Proof.Machine

/-- Settles O3: every row's meaning ends in `.next`, and `SettingsKept` has the queue and the time base. -/
theorem commandsGoOn : Obligations.CommandsGoOn :=
  ⟨exec_goes, fun c s t ht => (SettingsKept.exec c s t ht).1⟩

/-- Settles O4, by `SettingsKept`. -/
theorem settingsChangeByTheirRequests : Obligations.SettingsChangeByTheirRequests :=
  fun c s t ht hc => (SettingsKept.exec c s t ht).2 hc

end Sys2Proof.Proofs
end

section
/-! PROOF. A step (logs 2, 31): the command at the front of the queue, the first overdue timer, or a microsecond. -/

namespace Sys2Proof.Machine

theorem step_overdue {s : State} {c : Instr} (h : s.pending = []) (hc : overdueCommand s = some c) :
    step s = exec c s := by
  simp only [step, h, hc]

theorem step_tick {s : State} (h : s.pending = []) (hc : overdueCommand s = none) : step s = .next (tick s) := by
  simp only [step, h, hc]

/-- R184: one microsecond of the time tag, by whether it ends the period. -/
theorem tickTag_eq (t : TimeTag) :
    tickTag t =
      if t.elapsed + 1 = resolutionUs t.resolution ∨ resolutionUs t.resolution < t.elapsed + 1 then
        { t with value := t.value + 1, elapsed := 0 }
      else { t with elapsed := t.elapsed + 1 } := by
  by_cases h : t.elapsed + 1 < resolutionUs t.resolution
  · have hn : ¬ (t.elapsed + 1 = resolutionUs t.resolution ∨ resolutionUs t.resolution < t.elapsed + 1) := by omega
    rw [tickTag, if_pos h, if_neg hn]
  · have hn : t.elapsed + 1 = resolutionUs t.resolution ∨ resolutionUs t.resolution < t.elapsed + 1 := by omega
    rw [tickTag, if_neg h, if_pos hn]

/-- Where no command is overdue, every running timer is within 1 ms of its earliest expiry. -/
theorem timers_within {s : State} (hr : s.phase = .running) (hn : overdueCommand s = none) {c : Instr} {t : Nat}
    (hm : (c, some t) ∈ timers s) : s.now < t + 1000 := by
  rw [overdueCommand_eq hr, Option.map_eq_none_iff, List.find?_eq_none] at hn
  have ht := hn _ hm
  rw [timerOverdue_some, decide_eq_true_eq] at ht
  omega

/-- The command that is overdue is the expiry of a running timer before which none in the order is overdue. -/
theorem overdue_first {s : State} {c : Instr} (hr : s.phase = .running) (hc : overdueCommand s = some c) :
    ∃ before t after, timers s = before ++ (c, some t) :: after ∧ t + 1000 ≤ s.now ∧
      ∀ x ∈ before, ∀ u, x.2 = some u → s.now < u + 1000 := by
  rw [overdueCommand_eq hr, Option.map_eq_some_iff] at hc
  obtain ⟨⟨d, timer⟩, hfind, rfl⟩ := hc
  obtain ⟨hdue, before, after, hsplit, hbefore⟩ := List.find?_eq_some_iff_append.1 hfind
  cases timer with
  | none => exact absurd hdue Bool.false_ne_true
  | some t =>
    refine ⟨before, t, after, hsplit, of_decide_eq_true hdue, ?_⟩
    rintro ⟨e, timer⟩ hx u rfl
    have hu := hbefore _ hx
    rw [timerOverdue_some, Bool.not_eq_eq_eq_not, Bool.not_true, decide_eq_false_iff_not] at hu
    omega

/-! ## Where each timer stands among the timers -/

theorem mem_timers_loans (s : State) (b : Bay) :
    (.patienceTimerExpiry b, (s.bay b).patienceTimer) ∈ timers s ∧
      (.recallTimerExpiry b, (s.bay b).recallTimer) ∈ timers s := by
  simp [timers, mem_allBays]

theorem mem_timers_port (s : State) (p : Port) :
    (.beatTimerExpiry p, (s.presence p).beatTimer) ∈ timers s ∧
      (.holdTimerExpiry p, (s.port p).holdTimer) ∈ timers s := by
  simp [timers, mem_allPorts]

theorem mem_timers_probe (s : State) (b : Bay) (l : Lane) :
    (.probeTimerExpiry b l, ((s.drive b).lane l).probe.map Probe.deadline) ∈ timers s := by
  cases l <;> simp [timers, mem_allBays]

theorem mem_timers_slot {s : State} {b : Bay} {x : Slot} (hx : x ∈ (s.drive b).slots) :
    (.responseTimerExpiry b x.ctx, some x.deadline) ∈ timers s := by
  have hslot : (.responseTimerExpiry b x.ctx, some x.deadline) ∈ (s.drive b).slots.map fun y =>
      (Instr.responseTimerExpiry b y.ctx, some y.deadline) := List.mem_map.2 ⟨x, hx, rfl⟩
  unfold timers
  exact List.mem_append_left _ (List.mem_append_right _
    (List.mem_flatMap.2 ⟨b, mem_allBays b, List.mem_append_right _ hslot⟩))

theorem mem_timers_reset (s : State) : (.resetTimerExpiry, s.softReset.map SoftPending.deadline) ∈ timers s := by
  simp [timers]

end Sys2Proof.Machine

namespace Sys2Proof.Proofs

open Sys2Proof.Machine

/-- Settles O1: `step` takes the front of the queue by definition. -/
theorem stepTakesFront : Obligations.StepTakesFront := fun _ _ _ => rfl

/-- Settles O2: `overdueCommand_eq` finds the first overdue timer; where none is found, each timer's place among the
timers gives its bound. -/
theorem stepIdles : Obligations.StepIdles := by
  refine ⟨fun s hp hr => ?held, fun s hp hr => ⟨fun c l hc hl => ?expires, fun hn => ?passes⟩⟩
  case held =>
    rw [step_tick hp (if_neg hr), tick, if_neg hr]
  case expires =>
    exact ⟨step_overdue hp hc, hl ▸ overdue_first hr hc⟩
  case passes =>
    refine ⟨?_, fun b t ht => ?_, fun p t ht => ?_, fun b l x hx => ?_, fun b x hx => ?_, fun r hs => ?_⟩
    · rw [step_tick hp hn, tick, if_pos hr, tickTag_eq]
    · obtain ⟨hpat, hrec⟩ := mem_timers_loans s b
      rcases ht with h | h
      · exact timers_within hr hn (h ▸ hpat)
      · exact timers_within hr hn (h ▸ hrec)
    · obtain ⟨hbeat, hhold⟩ := mem_timers_port s p
      rcases ht with h | h
      · exact timers_within hr hn (h ▸ hbeat)
      · exact timers_within hr hn (h ▸ hhold)
    · have hm := mem_timers_probe s b l
      rw [hx] at hm
      exact timers_within hr hn hm
    · exact timers_within hr hn (mem_timers_slot hx)
    · have hm := mem_timers_reset s
      rw [hs] at hm
      exact timers_within hr hn hm

end Sys2Proof.Proofs
end

section
/-! PROOF. The resets: the state after a hard reset without an image, RESET_ASSERT and RESET_RELEASE, and what
CONFIG_LOAD_DONE and the soft reset make in their one event (R189 to R191). -/

namespace Sys2Proof.Machine

theorem emptyPool_free (quota : Vector Nat 8) (c : CtxId) : ((emptyPool quota).contexts[c]).state = .free := by
  simp [emptyPool]

theorem emptyService_at (bank : Bank) (weights : Vector (Fin 16) 8) (p : Port) :
    (emptyService bank weights).lists[p] = [] ∧ (emptyService bank weights).credits[p] = (weights[p]).val :=
  ⟨byPort_get _ p, byPort_get _ p⟩

/-! ## State.reset -/

theorem reset_bay (b : Bay) :
    State.reset.bay b =
      { availability := .probing, holders := Vector.replicate 8 none, claims := [], phase := .none,
        patienceTimer := none, subject := none, recallTimer := none, trailing := 0, capacity := 0,
        patienceTime := 5000, recallTime := 30000 } :=
  byBay_get _ b

theorem reset_no_holder (b : Bay) (p : Port) : (State.reset.bay b).holder p = none :=
  no_holder _ (congrArg BayRecord.holders (reset_bay b)) p

theorem reset_port (p : Port) :
    State.reset.port p =
      { carrier := .up, receiver := .idle, silent := true, intake := [], reserved := false, hold := .isOpen,
        repeatCount := 0, holdTimer := none, flowSlot := none, answers := [], notices := [], eventNews := false,
        tx := none, highWater := 12, lowWater := 4, holdTime := 20, repeatLimit := 8,
        role := if p = 0 then .supervisor else .node } :=
  byPort_get _ p

theorem reset_bounded : QueuesBounded State.reset := by
  refine ⟨fun p => ?_, by decide⟩
  rw [reset_port]
  exact ⟨Nat.zero_le _, Nat.zero_le _, List.Pairwise.nil⟩

theorem reset_drive (b : Bay) :
    State.reset.drive b =
      { laneA :=
          { state := .probing, failures := 0, probe := some { clear := true, deadline := 3200000 }, number := 1,
            sent := some (.probe 1 true 2400) },
        laneB :=
          { state := .probing, failures := 0, probe := some { clear := true, deadline := 3200000 }, number := 1,
            sent := some (.probe 1 true 2400) },
        slots := [], learnt := none,
        policy :=
          { checkMode := .enforce, timeout := .ms200, preferred := if b.val % 2 = 0 then .a else .b, failLimit := 3,
            retryCount := 2, firstRetry := .alternate, secondRetry := .same, retryMedium := false } } :=
  byBay_get _ b

theorem reset_lane (b : Bay) (l : Lane) :
    (State.reset.drive b).lane l =
      { state := .probing, failures := 0, probe := some { clear := true, deadline := 3200000 }, number := 1,
        sent := some (.probe 1 true 2400) } := by
  rw [reset_drive]
  cases l <;> rfl

theorem reset_service (b : Bay) :
    State.reset.service b =
      { lists := byPort fun _ => [], reissue := [], credits := byPort fun _ => 4, bank := .a, lastServed := 7 } :=
  byBay_get _ b

theorem constantWeights_get (b : Bay) (p : Port) : ((byBay fun _ => byPort fun _ => (4 : Fin 16))[b][p]).val = 4 := by
  rw [byBay_get, byPort_get]
  rfl

/-! ## RESET_ASSERT and what is discarded in a hard reset -/

theorem whenRunning_discards {s : State} (hr : s.phase ≠ .running) (P : Prop) [Decidable P]
    (event : State → State) : (if P then whenRunning s event else .next s) = .next s := by
  rw [whenRunning_stopped s event hr, ite_self]

theorem discards_whenRunning {s : State} (hr : s.phase ≠ .running) (P : Prop) [Decidable P]
    (event : State → State) : (if P then .next s else whenRunning s event) = .next s := by
  rw [whenRunning_stopped s event hr, ite_self]

theorem probeAnswer_stopped {s : State} (hr : s.phase ≠ .running) (b : Bay) (l : Lane) (n : Nat) (r : ProbeReply) :
    exec (.probeAnswer b l n r) s = .next s ∧ exec (.restoreProbeAnswer b l n r) s = .next s := by
  simp only [exec, execProbeAnswer, execRestoreProbeAnswer]
  split
  · exact ⟨whenRunning_discards hr _ _, whenRunning_discards hr _ _⟩
  · exact ⟨rfl, rfl⟩

theorem driveAnswer_stopped {s : State} (hr : s.phase ≠ .running) (b : Bay) (l : Lane) (c : CtxId) (a : Nat)
    (r : DriveReply) : exec (.driveAnswer b l c a r) s = .next s := by
  simp only [exec, execDriveAnswer]
  split
  · split
    · exact if_neg hr
    · rfl
  · rfl

/-! ## The hard reset -/

/-- R190: the values of the hard reset with CONFIG_FAULT and the RESET record, before probing starts. -/
def hardReady (r : LoadResult) (s : State) : State :=
  { hardValues r.settings s with
    raised := if r.fault then eventBit .configFault else 0,
    alert := r.fault && hasEvent r.settings.enabled .configFault,
    journal :=
      { ring := [{ seq := 0, time := 0, entry := { note := .reset .hard } }], seq := 1, lost := 0,
        meterInterval := r.settings.meterInterval } }

theorem hardReady_bay (r : LoadResult) (s : State) (b : Bay) :
    (hardReady r s).bay b = hardBay r.settings.policies[b] :=
  byBay_get _ b

theorem hardReady_drive (r : LoadResult) (s : State) (b : Bay) :
    (hardReady r s).drive b = emptyDrive (r.settings.policies[b]).drive (s.drive b) :=
  byBay_get _ b

theorem hardReady_service (r : LoadResult) (s : State) (b : Bay) :
    (hardReady r s).service b = emptyService .a r.settings.bankA[b] :=
  byBay_get _ b

/-- A record that finds an empty ring joins it and raises nothing. -/
theorem appendRecord_empty (x : Entry) {s : State} (h : s.journal.ring = []) :
    appendRecord x s =
      { s with
        journal := { s.journal with
          ring := [{ seq := s.journal.seq, time := s.timeTag.value, entry := x }], seq := s.journal.seq + 1 } } := by
  have hroom : s.journal.ring.length < Config.journalRecords := by rw [h]; decide
  have hhigh : s.journal.ring.length + 1 ≠ Config.journalHigh := by rw [h]; decide
  rw [appendRecord_of_room hroom, if_neg hhigh, recordJoined, h]
  rfl

theorem performHardReset_eq (r : LoadResult) (s : State) :
    performHardReset r s = startAllProbing (hardReady r s) := by
  unfold performHardReset
  dsimp only
  rw [hardValues_configFault]
  cases hf : r.fault
  · rw [if_neg Bool.false_ne_true, appendRecord_empty _ rfl, hardReady, hf]
    rfl
  · rw [if_pos rfl, appendRecord_empty _ rfl, hardReady, hf]
    rfl

theorem exec_configLoadDone (m : List Byte) {s : State} (h : s.phase = .loading) :
    exec (.configLoadDone m) s = .next (transmit (startAllProbing (hardReady (loadImage m) s))) := by
  rw [← performHardReset_eq]
  exact if_pos h

/-- The start of probing at every bay changes bays and drives alone. -/
theorem startAllProbing_parts (v : State) :
    ∃ bays drives, startAllProbing v = { v with bays := bays, drives := drives } ∧
      (∀ b : Bay, bays[b] = { v.bay b with capacity := 0 }) ∧ ∀ b : Bay, drives[b] = probedDrive v.now (v.drive b) := by
  obtain ⟨hdrive, hbay, hrest⟩ := startAllProbing_eq v
  exact ⟨_, _, hrest, hbay, hdrive⟩

/-- A lane of a Drive Engine emptied by a reset, once its probing has started. -/
theorem probedDrive_lane (now : Nat) (policy : DrivePolicy) (d : DriveEngine) (l : Lane) :
    (probedDrive now (emptyDrive policy d)).lane l =
      { state := .probing, failures := 0, probe := some { clear := true, deadline := now + 3200 * 1000 },
        number := (d.lane l).number + 1, sent := some (.probe ((d.lane l).number + 1) true 2400) } := by
  cases l <;> rfl

/-! ## The soft reset -/

/-- R191: the values of the soft reset with its RESET record, before probing starts. -/
def softReady (first : Port) (s : State) : State := softRecord first (driveAlert { softValues s with raised := 0 })

theorem performSoftReset_eq (first : Port) (s : State) :
    performSoftReset first s = startAllProbing (softReady first s) := rfl

theorem softReady_bay (first : Port) (s : State) (b : Bay) : (softReady first s).bay b = softBay (s.bay b) := by
  rw [softReady, softRecord_eq]
  exact byBay_get _ b

theorem softReady_drive (first : Port) (s : State) (b : Bay) :
    (softReady first s).drive b = emptyDrive (s.drive b).policy (s.drive b) := by
  rw [softReady, softRecord_eq]
  exact byBay_get _ b

theorem softReady_service (first : Port) (s : State) (b : Bay) :
    (softReady first s).service b = emptyService s.plan.current ((s.plan.bank s.plan.current)[b]) := by
  rw [softReady, softRecord_eq]
  exact byBay_get _ b

theorem softReady_now (first : Port) (s : State) : (softReady first s).now = s.now := by
  rw [softReady, softRecord_eq]
  rfl

theorem exec_softReset_due {s : State} {r : SoftPending} (hr : s.phase = .running) (h : s.softReset = some r)
    (hd : softResetDue s r = true) : exec .softReset s = .next (transmit (performSoftReset r.first s)) := by
  simp only [exec, execSoftReset, h, hd, if_true]
  exact whenRunning_running _ _ hr

theorem exec_softReset_early {s : State} {r : SoftPending} (h : s.softReset = some r)
    (hd : softResetDue s r = false) : exec .softReset s = .next s := by
  simp only [exec, execSoftReset, h, hd]
  rfl

theorem softResetDue_iff (s : State) (r : SoftPending) :
    softResetDue s r = true ↔ ¬ (resetAnswerHeld (s.port r.first)) ∨ r.deadline ≤ s.now := by
  simp [softResetDue, resetAnswerGone]

theorem restartReceiver_eq (r : Receiver) : restartReceiver r = if r = .idle then .idle else .ignoring := by
  cases r <;> rfl

/-- R191: where a port's RESET_PART answer can stand. -/
theorem resetAnswerHeld_iff (n : NodePort) :
    resetAnswerHeld n ↔
      (∃ x ∈ n.answers, x.resetPart = true) ∨ ∃ f, n.tx = some { source := .answer true, frame := f } := by
  rw [resetAnswerHeld, Bool.or_eq_true, List.any_eq_true]
  refine or_congr Iff.rfl ?_
  rcases n.tx with _ | ⟨source, frame⟩
  · simp
  · cases source <;> simp

end Sys2Proof.Machine

namespace Sys2Proof.Proofs

open Sys2Proof.Machine

/-- Settles O9: the tables of State.reset are read by bay and by port; with no loan, no claim and no frame the
invariants hold. -/
theorem resetState : Obligations.ResetState := by
  refine ⟨⟨?_, ?_, reset_bounded, rfl, resolutionUs_pos _⟩, rfl, rfl, reset_bay, rfl, rfl, fun p b => ?_, fun c => ?_,
    fun p => ⟨?_, ?_, ?_⟩, rfl, fun b p => ⟨?_, ?_, ?_, ?_⟩, fun b => ?_, rfl, rfl, fun b l => ?_, fun b => ?_, reset_port,
    fun p => byPort_get _ p, rfl, byPort_get _, byBay_get _, rfl, rfl, rfl, rfl, rfl⟩
  · exact LoansSafe.empty reset_no_holder (by intro _; decide)
  · exact ClaimsSafe.empty fun b => ⟨congrArg BayRecord.claims (reset_bay b), reset_no_holder b⟩
  · change (byBay fun _ => byPort fun _ => Right.full)[b][p] = .full
    rw [byBay_get, byPort_get]
  · exact emptyPool_free _ c
  · exact byPort_get _ p
  · exact byPort_get _ p
  · exact byPort_get _ p
  · rw [reset_service]; exact byPort_get _ p
  · rw [reset_service]; exact byPort_get _ p
  · exact constantWeights_get b p
  · exact constantWeights_get b p
  · rw [reset_service]; exact ⟨rfl, rfl, rfl⟩
  · rw [reset_lane]; exact ⟨rfl, rfl, rfl⟩
  · rw [reset_drive]; exact ⟨rfl, rfl, rfl⟩

/-- Settles O10: RESET_ASSERT and RESET_RELEASE by definition; every event of a link or a lane goes through
`whenRunning`, which discards it. -/
theorem resetAsserted : Obligations.ResetAsserted := by
  refine ⟨fun s => ⟨_, rfl, fun p => byPort_get _ p, rfl⟩, fun s h => if_pos h, fun s hr =>
    ⟨fun p bytes => ⟨discards_whenRunning hr _ _, discards_whenRunning hr _ _⟩, fun b l n r => ?_,
      driveAnswer_stopped hr⟩⟩
  exact probeAnswer_stopped hr b l n r

/-- Settles O11: the hard reset's values with the RESET record (`performHardReset_eq`), and the start of probing, which
changes bays and drives alone. -/
theorem hardResetDone : Obligations.HardResetDone := by
  intro m s hload
  obtain ⟨bays, drives, hu, hbay, hdrive⟩ := startAllProbing_parts (hardReady (loadImage m) s)
  have hdrive' : ∀ b : Bay, drives[b] =
      probedDrive s.now (emptyDrive ((loadImage m).settings.policies[b]).drive (s.drive b)) := fun b => by
    rw [hdrive, hardReady_drive]
    rfl
  refine ⟨_, exec_configLoadDone m hload, ?_⟩
  rw [hu]
  have hservice : ∀ b, State.service { hardReady (loadImage m) s with bays := bays, drives := drives } b = _ :=
    hardReady_service (loadImage m) s
  refine ⟨rfl, rfl, rfl, rfl, fun b => ?_, rfl, rfl, rfl, emptyPool_free _, fun p => ⟨?_, ?_, ?_⟩, rfl,
    fun b p => ?_, fun b => ?_, rfl, fun b l => ?_, fun b => ?_, fun p => byPort_get _ p, fun p => byPort_get _ p, rfl,
    byPort_get _, byBay_get _, rfl, rfl, rfl, rfl⟩
  · rw [State.bay, hbay, hardReady_bay]
    rfl
  · exact byPort_get _ p
  · exact byPort_get _ p
  · exact byPort_get _ p
  · exact hservice b ▸ emptyService_at _ _ p
  · rw [hservice]; exact ⟨rfl, rfl, rfl⟩
  · rw [State.drive, hdrive']; exact probedDrive_lane _ _ _ l
  · rw [State.drive, hdrive']; exact ⟨rfl, rfl, rfl⟩

/-- Settles O13: the soft reset's values with its record (`softRecord_eq`), the start of probing, and when the row and
a clean-up start it. -/
theorem softResetDone : Obligations.SoftResetDone := by
  refine ⟨fun r s hr h => ⟨exec_resetTimerExpiry s r hr h, fun hdue => ?values⟩,
    fun s => ⟨startIfAnswerGone_none s, fun r h => ⟨fun hheld => ?held, fun hgone hr => ?gone⟩,
      fun p => resetAnswerHeld_iff _⟩⟩
  case values =>
    obtain ⟨bays, drives, hu, hbay, hdrive⟩ := startAllProbing_parts (softReady r.first s)
    refine ⟨_, exec_softReset_due hr h ((softResetDue_iff s r).2 hdue), ?_⟩
    rw [performSoftReset_eq, hu]
    have hdrives : ∀ b, State.drive { softReady r.first s with bays := bays, drives := drives } b =
        probedDrive s.now (emptyDrive (s.drive b).policy (s.drive b)) := fun b => by
      rw [State.drive, hdrive, softReady_drive, softReady_now]
    have hbays : ∀ b, State.bay { softReady r.first s with bays := bays, drives := drives } b =
        softBay (s.bay b) := fun b => by
      rw [State.bay, hbay, softReady_bay]
      rfl
    have hservice : ∀ b, State.service { softReady r.first s with bays := bays, drives := drives } b = _ :=
      softReady_service r.first s
    clear hbay hdrive hu
    rw [softReady, softRecord_eq] at hdrives hbays hservice ⊢
    refine ⟨hr, rfl, rfl, rfl, hbays, rfl, rfl, rfl, emptyPool_free _, fun p => ⟨?_, rfl, ?_⟩, rfl,
      fun b p => ?_, fun b => ?_, rfl, fun b l => ?_, fun b => ?_, fun p => ?_, fun p => byPort_get _ p, rfl,
      byPort_get _, byBay_get _, rfl, rfl, rfl, rfl⟩
    · exact byPort_get _ p
    · exact byPort_get _ p
    · exact hservice b ▸ emptyService_at _ _ p
    · rw [hservice]; exact ⟨rfl, rfl, rfl⟩
    · rw [hdrives]; exact probedDrive_lane _ _ _ l
    · rw [hdrives]; exact ⟨rfl, rfl, rfl⟩
    · rw [← restartReceiver_eq]; exact byPort_get _ p
  case held =>
    refine ⟨startIfAnswerGone_held s r h hheld, fun hearly => exec_softReset_early h ?_⟩
    rw [Bool.eq_false_iff]
    intro hdue
    rcases (softResetDue_iff s r).1 hdue with hgone | hlate
    · exact hgone hheld
    · omega
  case gone =>
    rw [startIfAnswerGone_gone s r h (Bool.eq_false_iff.2 hgone)]
    exact exec_softReset_due hr h ((softResetDue_iff s r).2 (Or.inl hgone))

end Sys2Proof.Proofs
end

section
/-! PROOF. Frames and event sets in bytes (R192, R193), and the rows that are the arrival of a frame (R155, R161,
R166). -/

namespace Sys2Proof.Machine

/-! ## Event sets -/

theorem eventBytes_length (x : EventSet) : (eventBytes x).length = 10 := bytesOf_length 10 _

/-- The ten bytes tell an event set apart: each event has its bit there. -/
theorem eventBytes_inj {x y : EventSet} (h : eventBytes x = eventBytes y) : x = y := by
  refine BitVec.eq_of_getLsbD_eq fun n hn => Option.some.inj ?_
  rw [← eventBytes_bit x n hn, ← eventBytes_bit y n hn, h]

theorem eventBytes_last (x : EventSet) : ∃ y : Byte, (eventBytes x)[9]? = some y ∧ y.toNat % 8 = 0 := by
  refine ⟨_, bytesOf_get 10 _ 9 (by decide), ?_⟩
  rw [byte, BitVec.toNat_ofNat, Nat.shiftLeft_eq]
  omega

theorem eventsOf_eventBytes (x : EventSet) : eventsOf (eventBytes x) = some x := by
  obtain ⟨v, hv⟩ := (eventsOf_isSome _).2 ⟨eventBytes_length x, eventBytes_last x⟩
  rw [hv, eventBytes_inj (eventsOf_sound _ v hv)]

/-! ## The fields of a node-to-part frame -/

/-- R192: the bytes of a frame before its check value, field by field. -/
def bodySegments (f : InFrame) : List (List Byte) :=
  [bytesOf 4 (28 + f.fields.payload.length), [f.kind], [f.fields.flags], bytesOf 2 f.fields.tag.toNat, [f.fields.bay],
    [f.fields.arg], bytesOf 2 f.fields.count.toNat, bytesOf 6 f.fields.serial.toNat, bytesOf 6 f.fields.block.toNat,
    f.fields.payload]

theorem inBytes_eq (f : InFrame) :
    inBytes f = (bodySegments f).flatten ++ bytesOf 4 (checkValue (bodySegments f).flatten).toNat := by
  simp [inBytes, bodySegments]

theorem body_length (f : InFrame) : (bodySegments f).flatten.length = 24 + f.fields.payload.length := by
  simp [bodySegments, bytesOf_length]
  omega

theorem inBytes_length (f : InFrame) : (inBytes f).length = 28 + f.fields.payload.length := by
  rw [inBytes_eq, List.length_append, body_length, bytesOf_length]
  omega

/-- A segment stands where those before it end. -/
theorem slice_flatten {l : List (List Byte)} {i : Nat} {m : List Byte} (h : l[i]? = some m) (r : List Byte) :
    slice (l.flatten ++ r) (l.take i).flatten.length m.length = m := by
  obtain ⟨hi, rfl⟩ := List.getElem?_eq_some_iff.1 h
  have hsplit : l.flatten ++ r = (l.take i).flatten ++ (l[i] ++ ((l.drop (i + 1)).flatten ++ r)) := by
    rw [← List.append_assoc l[i], ← List.flatten_cons, ← List.drop_eq_getElem_cons hi, ← List.append_assoc,
      ← List.flatten_append, List.take_append_drop]
  rw [hsplit, slice_append _ _ _ _ _ rfl rfl]

theorem inBytes_segment (f : InFrame) (i off n : Nat) {m : List Byte} (h : (bodySegments f)[i]? = some m)
    (ho : ((bodySegments f).take i).flatten.length = off) (hn : m.length = n) : fieldAt (inBytes f) off n = natOf m := by
  rw [← ho, ← hn, fieldAt, inBytes_eq, slice_flatten h]

/-- A word of the width of its field is read back from its bytes. -/
theorem ofNat_natOf_bytesOf {w : Nat} (n : Nat) (v : BitVec w) (hw : 2 ^ w = 256 ^ n) :
    BitVec.ofNat w (natOf (bytesOf n v.toNat)) = v := by
  rw [natOf_bytesOf, ← hw, Nat.mod_eq_of_lt v.isLt, BitVec.ofNat_toNat, BitVec.setWidth_eq]

theorem byte_natOf_one (x : Byte) : byte (natOf [x]) = x := by
  rw [natOf_one, byte, BitVec.ofNat_toNat, BitVec.setWidth_eq]

theorem inBytes_lengthField (f : InFrame) (h : f.fields.wellFormed = true) :
    fieldAt (inBytes f) 0 4 = 28 + f.fields.payload.length := by
  have hlen : f.fields.payload.length + 28 ≤ 65600 := of_decide_eq_true h
  rw [inBytes_segment f 0 0 4 rfl rfl (bytesOf_length _ _), natOf_bytesOf]
  omega

theorem inBytes_kind (f : InFrame) : byte (fieldAt (inBytes f) 4 1) = f.kind := by
  rw [inBytes_segment f 1 4 1 rfl rfl rfl, byte_natOf_one]

theorem inBytes_checkValue (f : InFrame) :
    fieldAt (inBytes f) ((inBytes f).length - 4) 4 = (checkValue ((inBytes f).take ((inBytes f).length - 4))).toNat := by
  have hlen : (inBytes f).length - 4 = (bodySegments f).flatten.length := by rw [inBytes_length, body_length]; omega
  have hfield := fieldAt_append (bodySegments f).flatten (bytesOf 4 (checkValue (bodySegments f).flatten).toNat) [] _ 4
    rfl (bytesOf_length _ _)
  rw [List.append_nil] at hfield
  rw [hlen, inBytes_eq, hfield, List.take_left, natOf_bytesOf]
  exact Nat.mod_eq_of_lt (checkValue (bodySegments f).flatten).isLt

theorem inBytes_payload (f : InFrame) : slice (inBytes f) 24 ((inBytes f).length - 28) = f.fields.payload := by
  have hlen : (inBytes f).length - 28 = f.fields.payload.length := by rw [inBytes_length]; omega
  rw [hlen, inBytes_eq]
  exact slice_flatten (l := bodySegments f) (i := 9) rfl _

/-- R192: every field and the payload are read back from the bytes. -/
theorem parseFields_inBytes (f : InFrame) : parseFields (inBytes f) = f.fields := by
  rw [parseFields, inBytes_segment f 2 5 1 rfl rfl rfl, inBytes_segment f 3 6 2 rfl rfl (bytesOf_length _ _),
    inBytes_segment f 4 8 1 rfl rfl rfl, inBytes_segment f 5 9 1 rfl rfl rfl,
    inBytes_segment f 6 10 2 rfl rfl (bytesOf_length _ _), inBytes_segment f 7 12 6 rfl rfl (bytesOf_length _ _),
    inBytes_segment f 8 18 6 rfl rfl (bytesOf_length _ _), inBytes_payload, byte_natOf_one, byte_natOf_one,
    byte_natOf_one, ofNat_natOf_bytesOf 2 f.fields.tag rfl, ofNat_natOf_bytesOf 2 f.fields.count rfl,
    ofNat_natOf_bytesOf 6 f.fields.serial rfl, ofNat_natOf_bytesOf 6 f.fields.block rfl]

/-- R134: no byte string that a node sends for a frame is discarded, and what is read from it is that frame. -/
theorem judgeFrame_inBytes (f : InFrame) (h : f.fields.wellFormed = true) : judgeFrame (inBytes f) = .accepted f := by
  have hlen : f.fields.payload.length + 28 ≤ 65600 := of_decide_eq_true h
  have hfield := inBytes_lengthField f h
  have hpass : passesLength (inBytes f) = false := by
    rw [Bool.eq_false_iff, Ne, passesLength_iff, hfield, inBytes_length]
    omega
  have hshort : (decide ((inBytes f).length < 4) || decide ((inBytes f).length < fieldAt (inBytes f) 0 4) ||
      decide (fieldAt (inBytes f) 0 4 < Config.minFrameBytes)) = false := by
    rw [hfield, inBytes_length, Config.minFrameBytes]
    simp
    omega
  rw [judgeFrame, hpass, hshort, inBytes_checkValue, inBytes_kind, parseFields_inBytes]
  simp

/-! ## Numbers of events -/

theorem eventNumber_eq (e : Event) :
    eventNumber e =
      match e with
      | .portLapsed p => p.val
      | .beatErratic p => 8 + p.val
      | .intakeOverrun p => 16 + p.val
      | .laneDown b .a => 24 + 2 * b.val
      | .laneDown b .b => 25 + 2 * b.val
      | .bayFaulted b => 48 + b.val
      | .recallForced b => 60 + b.val
      | .journalHigh => 72
      | .journalLost => 73
      | .planAdopted => 74
      | .serialExhausted => 75
      | .configFault => 76 := by
  cases e with
  | laneDown b l =>
    cases l
    · rfl
    · simp only [eventNumber, laneIndex]; omega
  | portLapsed _ | beatErratic _ | intakeOverrun _ | bayFaulted _ | recallForced _ | journalHigh | journalLost
  | planAdopted | serialExhausted | configFault => rfl

/-! ## A frame that arrives -/

theorem exec_frameReceive_inBytes {s : State} {p : Port} {f : FrameFields} (kind : Byte) (h : LinkReady s p)
    (hf : f.wellFormed = true) :
    arrive p kind f s = exec (.frameReceive p (inBytes { kind := kind, fields := f })) s := by
  obtain ⟨hr, hc, hidle⟩ := h
  rw [arrive_running s p kind f hr hc]
  exact (exec_frameReceive_accepted s p _ [] _ hr hc (Or.inr ⟨hidle, rfl⟩)
    (judgeFrame_inBytes { kind := kind, fields := f } hf)).symm

end Sys2Proof.Machine

namespace Sys2Proof.Proofs

open Sys2Proof.Machine

/-- Settles O16: `judgeFrame_inBytes` for the frames a node sends; event sets by their bits; the other encodings by
their laws. -/
theorem bytesReadBack : Obligations.BytesReadBack := by
  refine ⟨judgeFrame_inBytes, ⟨eventsOf_eventBytes, eventsOf_sound, eventsOf_isSome, fun x e n hn => ?event⟩,
    fun n v => ⟨bytesOf_length n v, natOf_bytesOf n v, fun i hi => bytesOf_get n v i hi⟩, checkValue_eq,
    fun f body hbody => hbody ▸ rfl, rfl, rfl⟩
  case event =>
    obtain rfl : n = eventNumber e := hn.trans (eventNumber_eq e).symm
    exact ⟨eventBytes_length x, eventBytes_bit x _ (eventNumber_lt e)⟩

/-- Settles O17, by `exec_frameReceive_inBytes` for each of the three kinds. -/
theorem arrivalRowsAreFrames : Obligations.ArrivalRowsAreFrames := fun _ _ _ hf h =>
  ⟨exec_frameReceive_inBytes kindHello h hf, exec_frameReceive_inBytes kindBeat h hf,
    exec_frameReceive_inBytes kindPattern h hf⟩

end Sys2Proof.Proofs
end

section
/-! PROOF. The configuration image (R189, R197): the first finding that applies, the sections, the supervisor and the
defaults. -/

namespace Sys2Proof.Machine

/-! ## The supervisor -/

theorem roles_any_iff (t : Settings) :
    ([0, 1, 2, 3, 4, 5, 6, 7].any fun p : Port => decide (t.roles[p] = (Role.supervisor, true))) = true ↔
      ∃ p : Port, t.roles[p] = (Role.supervisor, true) := by
  rw [List.any_eq_true]
  exact ⟨fun ⟨p, _, hp⟩ => ⟨p, of_decide_eq_true hp⟩, fun ⟨p, hp⟩ => ⟨p, mem_allPorts p, decide_eq_true hp⟩⟩

theorem withSupervisor_none {t : Settings} (h : ∀ p : Port, t.roles[p] ≠ (Role.supervisor, true)) :
    withSupervisor t = { t with roles := t.roles.set 0 (Role.supervisor, true) } :=
  if_neg fun hany => ((roles_any_iff t).1 hany).elim h

theorem withSupervisor_has (t : Settings) : ∃ p : Port, (withSupervisor t).roles[p] = (Role.supervisor, true) := by
  by_cases h : ∃ p : Port, t.roles[p] = (Role.supervisor, true)
  · rw [withSupervisor_of t h]
    exact h
  · rw [withSupervisor_none fun p hp => h ⟨p, hp⟩]
    exact ⟨0, Vector.getElem_set_self _⟩

/-! ## The findings -/

theorem loadImage_eq (m : List Byte) :
    loadImage m = { settings := withSupervisor (readImage m).settings, fault := (readImage m).fault } := rfl

/-- A finding of an absent or faulty image gives the defaults. -/
theorem loadImage_default {m : List Byte} {fault : Bool}
    (h : readImage m = { settings := defaultSettings, fault := fault }) :
    loadImage m = { settings := defaultSettings, fault := fault } := by
  rw [loadImage_eq, h, withSupervisor_default]

theorem readImage_absent {m : List Byte} (h : m.length < 4 ∨ fieldAt m 0 4 ≠ 0x5B4C0E21) :
    readImage m = { settings := defaultSettings, fault := false } :=
  if_pos (by simpa using h)

/-- R189, R197: an image with a fault of length, version or check value. -/
def ImageFaulty (m : List Byte) : Prop :=
  m.length < 8 ∨ fieldAt m 4 1 ≠ 1 ∨ m.length < fieldAt m 6 2 ∨ fieldAt m 6 2 < 12 ∨
    (checkValue (m.take (fieldAt m 6 2 - 4))).toNat ≠ fieldAt m (fieldAt m 6 2 - 4) 4

/-- R189: an image that is present and sound so far is read by its sections. -/
theorem readImage_sections {m : List Byte} (hm : fieldAt m 0 4 = 0x5B4C0E21) (h : ¬ ImageFaulty m) :
    readImage m =
      (sectionsInto (fieldAt m 5 1) (slice m 8 (fieldAt m 6 2 - 12)) [] defaultSettings).elim
        { settings := defaultSettings, fault := true } fun t => { settings := t, fault := false } := by
  simp only [ImageFaulty, not_or, Nat.not_lt, Classical.not_not] at h
  obtain ⟨h8, hv, hl, h12, hc⟩ := h
  have hpresent : (decide (m.length < 4) || decide (fieldAt m 0 4 ≠ 0x5B4C0E21)) = false := by
    simp [hm]
    omega
  have hform : (decide (m.length < 8) || decide (fieldAt m 4 1 ≠ 1) || decide (m.length < fieldAt m 6 2) ||
      decide (fieldAt m 6 2 < 12)) = false := by
    simp [hv]
    omega
  simp only [readImage, hpresent, hform, hc, ne_eq, not_true_eq_false, Bool.false_eq_true, if_false]
  generalize sectionsInto _ _ _ _ = o
  cases o <;> rfl

/-- R189: an image that is present and faulty. -/
theorem readImage_faulty {m : List Byte} (h4 : 4 ≤ m.length) (hm : fieldAt m 0 4 = 0x5B4C0E21) (h : ImageFaulty m) :
    readImage m = { settings := defaultSettings, fault := true } := by
  have hpresent : ¬ (decide (m.length < 4) || decide (fieldAt m 0 4 ≠ 0x5B4C0E21)) = true := by
    simp [hm]
    omega
  unfold readImage
  dsimp only
  rw [if_neg hpresent]
  by_cases hform : m.length < 8 ∨ fieldAt m 4 1 ≠ 1 ∨ m.length < fieldAt m 6 2 ∨ fieldAt m 6 2 < 12
  · exact if_pos (by simpa [or_assoc] using hform)
  · have hcheck : (checkValue (m.take (fieldAt m 6 2 - 4))).toNat ≠ fieldAt m (fieldAt m 6 2 - 4) 4 := by
      simp only [not_or] at hform
      obtain ⟨h8, hv, hl, h12⟩ := hform
      exact (((h.resolve_left h8).resolve_left hv).resolve_left hl).resolve_left h12
    rw [if_neg (by simpa [or_assoc] using hform), if_pos hcheck]

/-! ## The walk over the sections -/

theorem sectionsInto_zero (rest : List Byte) (seen : List Nat) (t : Settings) :
    sectionsInto 0 rest seen t = if rest = [] then some t else none := rfl

theorem sectionsInto_refused (n : Nat) {rest : List Byte} {seen : List Nat} (t : Settings)
    (h : rest.length < 3 + fieldAt rest 1 2 ∨ fieldAt rest 0 1 ∈ seen) : sectionsInto (n + 1) rest seen t = none := by
  unfold sectionsInto
  dsimp only
  by_cases hlen : rest.length < 3 + fieldAt rest 1 2
  · rw [if_pos hlen]
  · rw [if_neg hlen, if_pos (List.contains_iff_mem.2 (h.resolve_left hlen))]

theorem sectionsInto_taken (n : Nat) {rest : List Byte} {seen : List Nat} (t : Settings)
    (hlen : 3 + fieldAt rest 1 2 ≤ rest.length) (hseen : fieldAt rest 0 1 ∉ seen) :
    sectionsInto (n + 1) rest seen t =
      (sectionInto (fieldAt rest 0 1) (slice rest 3 (fieldAt rest 1 2)) t).bind
        (sectionsInto n (rest.drop (3 + fieldAt rest 1 2)) (fieldAt rest 0 1 :: seen)) := by
  rw [sectionsInto, if_neg (Nat.not_lt.2 hlen), if_neg (fun h => hseen (List.contains_iff_mem.1 h))]
  generalize sectionInto _ _ t = o
  cases o <;> rfl

/-! ## The sections -/

theorem sectionInto_unknown {i : Nat} (h : i = 0 ∨ 8 < i) (x : List Byte) (t : Settings) : sectionInto i x t = none := by
  rcases h with rfl | h
  · rfl
  · obtain ⟨k, rfl⟩ := Nat.exists_eq_add_of_lt h
    rw [show 8 + k + 1 = k + 9 by omega]
    rfl

/-- One setting replaced by what is read, if anything is. -/
theorem map_setting_iff {α : Type} {put : α → Settings} {get : Settings → α} (hget : ∀ v, get (put v) = v)
    (o : Option α) (u : Settings) : o.map put = some u ↔ u = put (get u) ∧ o = some (get u) := by
  rw [Option.map_eq_some_iff]
  constructor
  · rintro ⟨v, rfl, rfl⟩
    exact ⟨by rw [hget], by rw [hget]⟩
  · rintro ⟨hu, ho⟩
    exact ⟨_, ho, hu.symm⟩

theorem ite_setting_iff {P : Prop} [Decidable P] {α : Type} {put : α → Settings} {get : Settings → α}
    (hget : ∀ v, get (put v) = v) (o : Option α) (u : Settings) :
    (if P then o.map put else none) = some u ↔ P ∧ u = put (get u) ∧ o = some (get u) := by
  rw [Option.ite_none_right_eq_some, map_setting_iff hget]

theorem chunks_length (x : List Byte) (len n : Nat) : (chunks x len n).length = n := by simp [chunks]

/-- Eight records of `len` bytes each, in port order. -/
theorem vec8_chunks_iff {α : Type} (one : List Byte → Option α) (x : List Byte) (len : Nat) (v : Vector α 8) :
    vec8 ((chunks x len 8).map one) = some v ↔ ∀ p : Port, one (slice x (len * p.val) len) = some v[p] := by
  rw [vec8_iff _ (by rw [List.length_map, chunks_length])]
  refine forall_congr' fun p => ?_
  rw [chunks_map_get one x len 8 p.val p.isLt, Option.some_inj]

/-- Twelve records of `len` bytes each, in bay order. -/
theorem vec12_chunks_iff {α : Type} (one : List Byte → Option α) (x : List Byte) (len : Nat) (v : Vector α 12) :
    vec12 ((chunks x len 12).map one) = some v ↔ ∀ b : Bay, one (slice x (len * b.val) len) = some v[b] := by
  rw [vec12_iff _ (by rw [List.length_map, chunks_length])]
  refine forall_congr' fun b => ?_
  rw [chunks_map_get one x len 12 b.val b.isLt, Option.some_inj]

theorem fieldAt_slice (x : List Byte) (a n b m : Nat) (h : b + m ≤ n) :
    fieldAt (slice x a n) b m = fieldAt x (a + b) m := by
  rw [fieldAt, slice_slice x a n b m h, fieldAt]

theorem roleEnableOf_iff (x : List Byte) (r : Role × Bool) :
    roleEnableOf x = some r ↔
      fieldAt x 0 1 = (if r.1 = .supervisor then 1 else 0) ∧ fieldAt x 1 1 = (if r.2 = true then 1 else 0) := by
  obtain ⟨role, enable⟩ := r
  rw [← roleOf_iff _ (fieldAt_one_lt x 0), ← boolOf_iff _ (fieldAt_one_lt x 1), roleEnableOf]
  cases roleOf (byte (fieldAt x 0 1)) <;> cases boolOf (byte (fieldAt x 1 1)) <;> simp

theorem sectionInto_roles (x : List Byte) (t u : Settings) :
    sectionInto 1 x t = some u ↔ x.length = 16 ∧ u = { t with roles := u.roles } ∧ ∀ p : Port,
      fieldAt x (2 * p.val) 1 = (if (u.roles[p]).1 = .supervisor then 1 else 0) ∧
      fieldAt x (2 * p.val + 1) 1 = if (u.roles[p]).2 = true then 1 else 0 := by
  refine (ite_setting_iff (get := Settings.roles) (fun _ => rfl) _ u).trans ?_
  rw [vec8_chunks_iff]
  refine and_congr Iff.rfl (and_congr Iff.rfl (forall_congr' fun p => ?_))
  rw [roleEnableOf_iff, fieldAt_slice x _ _ _ _ (by decide), fieldAt_slice x _ _ _ _ (by decide), Nat.add_zero]

theorem sectionInto_limits (x : List Byte) (t u : Settings) :
    sectionInto 2 x t = some u ↔ x.length = 80 ∧ u = { t with limits := u.limits } ∧
      ∀ p : Port, portLimitsOf (slice x (10 * p.val) 10) = some u.limits[p] := by
  refine (ite_setting_iff (get := Settings.limits) (fun _ => rfl) _ u).trans ?_
  rw [vec8_chunks_iff]

theorem sectionInto_policies (x : List Byte) (t u : Settings) :
    sectionInto 3 x t = some u ↔ x.length = 168 ∧ u = { t with policies := u.policies } ∧
      ∀ b : Bay, bayPolicyOf (slice x (14 * b.val) 14) = some u.policies[b] := by
  refine (ite_setting_iff (get := Settings.policies) (fun _ => rfl) _ u).trans ?_
  rw [vec12_chunks_iff]

theorem sectionInto_access (x : List Byte) (t u : Settings) :
    sectionInto 4 x t = some u ↔ x.length = 96 ∧ u = { t with access := u.access } ∧ ∀ (b : Bay) (p : Port),
      fieldAt x (8 * b.val + p.val) 1 =
        match u.access[b][p] with
        | .none => 0
        | .read => 1
        | .full => 2 := by
  refine (map_setting_iff (get := Settings.access) (fun _ => rfl) _ u).trans ?_
  rw [bayTable_iff, and_left_comm]
  refine and_congr Iff.rfl (and_congr Iff.rfl (forall_congr' fun b => forall_congr' fun p => ?_))
  exact rightOf_iff _ (fieldAt_one_lt x _) _

theorem sectionInto_bankA (x : List Byte) (t u : Settings) :
    sectionInto 5 x t = some u ↔ x.length = 96 ∧ u = { t with bankA := u.bankA } ∧
      ∀ (b : Bay) (p : Port), fieldAt x (8 * b.val + p.val) 1 = (u.bankA[b][p]).val := by
  refine (map_setting_iff (get := Settings.bankA) (fun _ => rfl) _ u).trans ?_
  rw [bayTable_iff, and_left_comm]
  refine and_congr Iff.rfl (and_congr Iff.rfl (forall_congr' fun b => forall_congr' fun p => ?_))
  exact weightOf_iff _ (fieldAt_one_lt x _) _

theorem sectionInto_enabled (x : List Byte) (t u : Settings) :
    sectionInto 6 x t = some u ↔ ∃ v, eventsOf x = some v ∧ u = { t with enabled := v } := by
  refine Option.map_eq_some_iff.trans (exists_congr fun v => and_congr Iff.rfl eq_comm)

theorem fieldAt_whole {x : List Byte} {n : Nat} (h : x.length = n) : fieldAt x 0 n = natOf x := by
  rw [fieldAt, slice, List.drop_zero, List.take_of_length_le (Nat.le_of_eq h)]

theorem sectionInto_meterInterval (x : List Byte) (t u : Settings) :
    sectionInto 7 x t = some u ↔
      x.length = 2 ∧ u = { t with meterInterval := BitVec.ofNat 16 (fieldAt x 0 2) } := by
  refine Option.ite_none_right_eq_some.trans (and_congr_right fun h => ?_)
  rw [fieldAt_whole h, Option.some_inj, eq_comm]

theorem sectionInto_resolution (x : List Byte) (t u : Settings) :
    sectionInto 8 x t = some u ↔ x.length = 1 ∧ u = { t with resolution := u.resolution } ∧
      fieldAt x 0 1 =
        match u.resolution with
        | .us1 => 0
        | .us8 => 1
        | .us64 => 2
        | .us512 => 3 := by
  refine (ite_setting_iff (get := Settings.resolution) (fun _ => rfl) _ u).trans (and_congr_right fun h => ?_)
  rw [← fieldAt_whole h]
  exact and_congr Iff.rfl (resolutionOf_iff _ (fieldAt_one_lt x 0) _)

end Sys2Proof.Machine

namespace Sys2Proof.Proofs

open Sys2Proof.Machine

/-- Settles O12: the findings in their order (`readImage_faulty`, `readImage_sections`), the supervisor check, the walk over the sections,
what each of the eight gives, and the defaults. -/
theorem imageFindings : Obligations.ImageFindings := by
  refine ⟨fun m => ⟨fun h => loadImage_default (readImage_absent h), fun h4 hm hbad => ?faulty,
      fun h8 hm hv hl h12 hc => ?sound, withSupervisor_has _⟩,
    fun t => ⟨withSupervisor_of t, withSupervisor_none⟩,
    fun n rest seen t => ⟨⟨rfl, fun h => if_neg h⟩, sectionsInto_refused n t, fun hlen hseen => ⟨fun hn => ?bad, fun u hu => ?good⟩⟩,
    fun x t u => ⟨fun i hi => sectionInto_unknown hi x t, sectionInto_roles x t u, sectionInto_limits x t u,
      sectionInto_policies x t u, sectionInto_access x t u, sectionInto_bankA x t u, sectionInto_enabled x t u,
      sectionInto_meterInterval x t u, sectionInto_resolution x t u⟩,
    fun p => ⟨byPort_get _ p, byPort_get _ p⟩, fun b => ⟨byBay_get _ b, fun p => ⟨?_, constantWeights_get b p⟩⟩,
    rfl, rfl, rfl⟩
  case faulty => exact loadImage_default (readImage_faulty h4 hm hbad)
  case sound =>
    have hsound : ¬ ImageFaulty m := by
      simp only [ImageFaulty, not_or, Nat.not_lt, Classical.not_not]
      exact ⟨h8, hv, hl, h12, hc⟩
    have hread := readImage_sections hm hsound
    refine ⟨fun t ht => ?_, fun hn => loadImage_default ?_⟩
    · rw [loadImage_eq, hread, ht, Option.elim_some]
    · rw [hread, hn, Option.elim_none]
  case bad => rw [sectionsInto_taken n t hlen hseen, hn, Option.bind_none]
  case good => rw [sectionsInto_taken n t hlen hseen, hu, Option.bind_some]
  · change (byBay fun _ => byPort fun _ => Right.full)[b][p] = .full
    rw [byBay_get, byPort_get]

end Sys2Proof.Proofs
end

section
/-! PROOF. The node links: carrier (R133), the frames that are discarded or enter the Intake Queue (R134 to R136), Flow
Control (R142 to R144), and the frames that a transmitter takes and that leave (R146). -/

namespace Sys2Proof.Machine

/-- Two updates that agree on the port they find make the same event. -/
theorem next_modPort_congr {s : State} {p : Port} {f g : NodePort → NodePort} (h : f (s.port p) = g (s.port p)) :
    (.next (transmit (s.modPort p f)) : Result) = .next (transmit (s.modPort p g)) := by
  rw [modPort_congr s p f g h]

/-! ## Carrier -/

theorem exec_carrierDown {s : State} {p : Port} (hr : s.phase = .running) (hc : (s.port p).carrier = .up) :
    exec (.carrierDown p) s = .next (transmit (loseCarrier p s)) := by
  have hup : (s.port p).carrier ≠ .down := by rw [hc]; exact nofun
  exact (if_neg hup).trans (if_pos hr)

theorem exec_carrierUp {s : State} {p : Port} (hr : s.phase = .running) (hc : (s.port p).carrier = .down) :
    exec (.carrierUp p) s = .next (transmit (s.modPort p fun n => { n with carrier := .up })) := by
  have hdown : (s.port p).carrier ≠ .up := by rw [hc]; exact nofun
  exact (if_neg hdown).trans (if_pos hr)

/-! ## Frames that are discarded -/

/-- The Link Receiver waits for a start mark. -/
def idleAt (p : Port) (s : State) : State := s.modPort p fun n => { n with receiver := .idle }

theorem idleAt_idle (p : Port) (s : State) :
    ((idleAt p s).port p).receiver = .receiving [] ∨ ((idleAt p s).port p).receiver = .idle ∧ ([] : List Byte) = [] :=
  Or.inr ⟨congrArg NodePort.receiver (modPort_port_self s p _), rfl⟩

theorem idleAt_carrier (p : Port) (s : State) :
    ((idleAt p s).port p).carrier = (s.port p).carrier := by
  rw [idleAt, modPort_port_self]

/-- R134: a frame that arrives in pieces ends as it does when it arrives at once. -/
theorem frameReceive_pieces {s : State} {p : Port} {before : List Byte} (bytes : List Byte) (hr : s.phase = .running)
    (hc : (s.port p).carrier = .up) (h : (s.port p).receiver = .receiving before) :
    exec (.frameReceive p bytes) s = exec (.frameReceive p (before ++ bytes)) (idleAt p s) := by
  rw [exec_frameReceive s p before bytes hr hc (Or.inl h),
    exec_frameReceive (idleAt p s) p [] _ hr ((idleAt_carrier p s).trans hc) (idleAt_idle p s), idleAt, modPort_modPort,
    List.nil_append]

/-- R134: the length watchdog judges a frame that arrives in pieces as it does one that arrives at once. -/
theorem overLengthCut_pieces {s : State} {p : Port} {before : List Byte} (bytes : List Byte) (hr : s.phase = .running)
    (hc : (s.port p).carrier = .up) (h : (s.port p).receiver = .receiving before) :
    exec (.overLengthCut p bytes) s = exec (.overLengthCut p (before ++ bytes)) (idleAt p s) := by
  rw [exec_overLengthCut s p before bytes hr hc (Or.inl h),
    exec_overLengthCut (idleAt p s) p [] _ hr ((idleAt_carrier p s).trans hc) (idleAt_idle p s), idleAt,
    modPort_modPort, modPort_modPort, List.nil_append]

theorem judgeFrame_overLength {l : List Byte} (h : passesLength l = true) : judgeFrame l = .overLength := if_pos h

theorem judgeFrame_checkDiscard {l : List Byte} (hp : passesLength l = false)
    (h : l.length < 4 ∨ l.length < fieldAt l 0 4 ∨ fieldAt l 0 4 < 28 ∨
      (checkValue (l.take (l.length - 4))).toNat ≠ fieldAt l (l.length - 4) 4) : judgeFrame l = .checkDiscard := by
  rw [judgeFrame, hp, if_neg Bool.false_ne_true]
  by_cases hform : (l.length < 4 || decide (l.length < fieldAt l 0 4) ||
      decide (fieldAt l 0 4 < Config.minFrameBytes)) = true
  · exact if_pos hform
  · rw [if_neg hform]
    simp only [Bool.or_eq_true, decide_eq_true_eq, not_or] at hform
    obtain ⟨⟨h4, hlen⟩, hmin⟩ := hform
    exact if_pos (((h.resolve_left h4).resolve_left hlen).resolve_left hmin)

theorem passesLength_false {l : List Byte} (hmax : l.length ≤ 65600) (hlen : 4 ≤ l.length → l.length ≤ fieldAt l 0 4) :
    passesLength l = false := by
  rw [Bool.eq_false_iff, Ne, passesLength_iff]
  omega

/-! ## Frames that enter the Intake Queue -/

theorem routeFrame_intake {s : State} {p : Port} {f : InFrame} (ho : (s.presence p).state ≠ .off)
    (ht : (s.presence p).state ≠ .test) (hh : f.kind ≠ kindHello) (hb : f.kind ≠ kindBeat) :
    routeFrame p f s = enterIntake p f s := by
  unfold routeFrame
  cases hs : (s.presence p).state with
  | off => exact absurd hs ho
  | test => exact absurd hs ht
  | new | active | lapsed => exact (if_neg hh).trans (if_neg hb)

theorem takeBeat_inactive {s : State} {p : Port} (h : (s.presence p).state ≠ .active) : takeBeat p s = s := if_pos h

/-- R157, R161: at a TEST port a frame that is no PATTERN, and at a NEW or LAPSED port a BEAT, does nothing more. -/
theorem routeFrame_nothing {s : State} {p : Port} {f : InFrame}
    (h : (s.presence p).state = .test ∧ f.kind ≠ kindPattern ∨
      f.kind = kindBeat ∧ ((s.presence p).state = .new ∨ (s.presence p).state = .lapsed)) : routeFrame p f s = s := by
  obtain ⟨kind, fields⟩ := f
  rcases h with ⟨ht, hk⟩ | ⟨rfl, hs⟩
  · exact routeFrame_test p kind fields s ht hk
  · rw [routeFrame_beat p fields s (hs.imp id Or.inr)]
    exact takeBeat_inactive (by rcases hs with hs | hs <;> rw [hs] <;> exact nofun)

/-- R135: an accepted frame that is no sign of life, since its port is not ACTIVE. -/
theorem accepted_inactive (s : State) (p : Port) (h : (s.presence p).state ≠ .active) :
    (((s.modPort p fun n => { n with receiver := .idle, silent := false }).modPortStats p fun t =>
        { t with accepted := satAdd t.accepted 1 }).modPresence p fun m =>
      if m.state = .active then { m with miss := 0, beatTimer := some (s.now + m.window * 1000) } else m) =
      (s.modPort p fun n => { n with receiver := .idle, silent := false }).modPortStats p fun t =>
        { t with accepted := satAdd t.accepted 1 } :=
  modPresence_id _ p _ (if_neg h)

theorem acceptFrame_off {s : State} {p : Port} {f : InFrame} (h : (s.presence p).state = .off) :
    acceptFrame p f (s.modPort p fun n => { n with receiver := .idle }) =
      s.modPort p fun n => { n with receiver := .idle } :=
  if_pos h

theorem enterIntake_room {s : State} {p : Port} {f : InFrame}
    (h : (s.port p).intake.length < 32 ∧ occupancy (s.port p).intake + (28 + f.fields.payload.length) ≤ 262144) :
    enterIntake p f s = s.modPort p fun n => flowAct { n with intake := n.intake ++ [f] } :=
  if_pos h

theorem enterIntake_overrun {s : State} {p : Port} {f : InFrame}
    (h : ¬ ((s.port p).intake.length < 32 ∧
      occupancy (s.port p).intake + (28 + f.fields.payload.length) ≤ 262144)) :
    enterIntake p f s =
      raiseEvent (.intakeOverrun p) (s.modPortStats p fun t => { t with overruns := satAdd t.overruns 1 }) :=
  if_neg h

/-! ## Flow Control -/

theorem flowAct_holds {n : NodePort} (h : n.hold = .isOpen) (hw : n.highWater * 16384 ≤ occupancy n.intake) :
    flowAct n = { n with flowSlot := some (.hold n.holdTime), hold := .held, repeatCount := 1 } := by
  unfold flowAct
  rw [h]
  exact if_pos hw

theorem flowAct_open {n : NodePort} (h : n.hold = .isOpen) (hw : occupancy n.intake < n.highWater * 16384) :
    flowAct n = n := by
  unfold flowAct
  rw [h]
  exact if_neg (Nat.not_le.2 hw)

theorem flowAct_held {n : NodePort} (h : n.hold ≠ .isOpen) (hw : n.lowWater * 16384 < occupancy n.intake) :
    flowAct n = n := by
  unfold flowAct
  cases hh : n.hold with
  | isOpen => exact absurd hh h
  | held | spent => exact if_neg (Nat.not_le.2 hw)

/-- The flow slot after a hold has ended: an unsent HOLD is withdrawn, else a RESUME is owed. -/
def resumeSlot (slot : Option FlowFrame) : Option FlowFrame :=
  match slot with
  | some (.hold _) => none
  | _ => some .resume

theorem flowEnd_ends {n : NodePort} (h : n.hold ≠ .isOpen) :
    flowEnd n = { n with flowSlot := resumeSlot n.flowSlot, holdTimer := none, repeatCount := 0, hold := .isOpen } := by
  unfold flowEnd
  cases hh : n.hold with
  | isOpen => exact absurd hh h
  | held | spent => rfl

theorem flowAct_ends {n : NodePort} (h : n.hold ≠ .isOpen) (hw : occupancy n.intake ≤ n.lowWater * 16384) :
    flowAct n = { n with flowSlot := resumeSlot n.flowSlot, holdTimer := none, repeatCount := 0, hold := .isOpen } := by
  unfold flowAct
  cases hh : n.hold with
  | isOpen => exact absurd hh h
  | held | spent => exact if_pos hw

theorem exec_holdTimerExpiry {s : State} {p : Port} {t : Nat} (hr : s.phase = .running)
    (ht : (s.port p).holdTimer = some t) (h : t ≤ s.now) :
    exec (.holdTimerExpiry p) s = .next (transmit (s.modPort p holdExpired)) := by
  have hdue : timerDue (s.port p).holdTimer s.now = true := ht ▸ timerDue_some h
  exact (if_pos hdue).trans (whenRunning_running _ _ hr)

theorem holdExpired_repeats {n : NodePort} (hw : n.lowWater * 16384 < occupancy n.intake)
    (hl : n.repeatCount < n.repeatLimit) :
    holdExpired n =
      { n with holdTimer := none, flowSlot := some (.hold n.holdTime), repeatCount := n.repeatCount + 1 } :=
  (if_pos hw).trans (if_pos hl)

theorem holdExpired_spent {n : NodePort} (hw : n.lowWater * 16384 < occupancy n.intake)
    (hl : n.repeatLimit ≤ n.repeatCount) : holdExpired n = { n with holdTimer := none, hold := .spent } :=
  (if_pos hw).trans (if_neg (Nat.not_lt.2 hl))

theorem holdExpired_ends {n : NodePort} (h : n.hold ≠ .isOpen) (hw : occupancy n.intake ≤ n.lowWater * 16384) :
    holdExpired n =
      { n with holdTimer := none, repeatCount := 0, hold := .isOpen, flowSlot := resumeSlot n.flowSlot } :=
  (if_neg (Nat.not_lt.2 hw)).trans (flowEnd_ends (n := { n with holdTimer := none }) h)

/-! ## The Port Transmitter -/

theorem takeFrame_busy {s : State} {p : Port} (h : (s.port p).tx ≠ none ∨ (s.port p).carrier = .down) :
    takeFrame s p = s := by
  refine if_pos ?_
  rw [Bool.or_eq_true, decide_eq_true_eq, Option.isSome_iff_ne_none]
  exact h

theorem noNews {n : NodePort} (h : n.role = .node ∨ n.eventNews = false) :
    (decide (n.role = .supervisor) && n.eventNews) = false := by
  rcases h with h | h <;> rw [h]
  · rfl
  · exact Bool.and_false _

section
variable {s : State} {p : Port} (htx : (s.port p).tx = none) (hc : (s.port p).carrier = .up)
include htx hc

theorem takeFrame_hold {t : Byte} (hf : (s.port p).flowSlot = some (.hold t)) :
    takeFrame s p = s.modPort p fun n =>
      { n with
        flowSlot := none, tx := some { source := .hold, frame := { kind := .hold, detail := [t, 0, 0, 0, 0, 0] } } } := by
  simp [takeFrame, htx, hc, hf, detailOf]

theorem takeFrame_resume (hf : (s.port p).flowSlot = some .resume) :
    takeFrame s p = s.modPort p fun n =>
      { n with flowSlot := none, tx := some { source := .resume, frame := { kind := .resume } } } := by
  simp [takeFrame, htx, hc, hf]

variable (hf : (s.port p).flowSlot = none)
include hf

theorem takeFrame_answer {a : Answer} {rest : List Answer} (ha : (s.port p).answers = a :: rest) :
    takeFrame s p = s.modPort p fun n =>
      { n with answers := rest, tx := some { source := .answer a.resetPart, frame := a.frame } } := by
  simp [takeFrame, htx, hc, hf, ha]

variable (ha : (s.port p).answers = [])
include ha

theorem takeFrame_notice {x : Notice} {rest : List Notice} (hn : (s.port p).notices = x :: rest) :
    takeFrame s p = s.modPort p fun n =>
      { n with notices := rest, tx := some { source := .notice, frame := noticeFrame x } } := by
  simp [takeFrame, htx, hc, hf, ha, hn]

variable (hn : (s.port p).notices = [])
include hn

theorem takeFrame_event (hrole : (s.port p).role = .supervisor) (he : (s.port p).eventNews = true) :
    takeFrame s p = s.modPort p fun n =>
      { n with eventNews := false, tx := some { source := .event, frame := eventFrame s } } := by
  simp [takeFrame, htx, hc, hf, ha, hn, hrole, he]

variable (he : (s.port p).role = .node ∨ (s.port p).eventNews = false)
include he

theorem takeFrame_reply {c : CtxId} {rest : List CtxId} (hrep : s.replies p = c :: rest) :
    takeFrame s p = (s.modReplies p fun _ => rest).modPort p fun n =>
      { n with tx := some { source := .reply c, frame := replyFrame (s.ctx c) } } := by
  simp [takeFrame, htx, hc, hf, ha, hn, noNews he, hrep]

theorem takeFrame_nothing (hrep : s.replies p = []) : takeFrame s p = s := by
  simp [takeFrame, htx, hc, hf, ha, hn, noNews he, hrep]

end

/-- R146: every port's transmitter acts on its own port alone. -/
theorem transmit_at (s : State) (p : Port) :
    (transmit s).port p = (takeFrame s p).port p ∧ (transmit s).replies p = (takeFrame s p).replies p := by
  obtain ⟨hport, hreplies, -⟩ := transmit_fold allPorts (by decide) s
  have hp := hport p
  have hr := hreplies p
  rw [if_pos (mem_allPorts p)] at hp hr
  rw [takeFrame_eq, modPort_port_self, modPort_replies_read, modReplies_replies_self]
  exact ⟨hp, hr⟩

/-- R193, R194: the first detail byte of a REPLY, as a number. -/
theorem replyFlags_eq (trailing warn : Bool) :
    flagByte trailing ||| (flagByte warn <<< 1) =
      byte ((if trailing = true then 1 else 0) + (if warn = true then 2 else 0)) := by
  cases trailing <;> cases warn <;> rfl

theorem laneAttemptsOf_eq (l : Option Lane) (attempts : Nat) :
    laneAttemptsOf l attempts =
      byte (match l with
        | none => attempts
        | some .a => 16 + attempts
        | some .b => 32 + attempts) := by
  rcases l with _ | l
  · simp [laneAttemptsOf]
  · cases l <;> rfl

/-- R85, R194: a REPLY by its fields. -/
theorem replyFrame_of {x : Context} {status : Status} {laneAttempts : Byte} {detail payload : List Byte}
    (hs : outcomeStatus x.outcome = status) (hl : laneAttemptsOf x.lane x.attempts = laneAttempts)
    (hd : detailOf [flagByte x.trailing ||| (flagByte x.checkWarn <<< 1), endCauseCode x.endCause] = detail)
    (hp : (if x.kind = .read && x.outcome = .good then x.data.take (x.count * Config.blockBytes) else []) = payload) :
    replyFrame x =
      { kind := .reply, status := status, tag := x.tag, bay := byte x.bay.val, laneAttempts := laneAttempts,
        count := BitVec.ofNat 16 x.count, serial := x.serial, detail := detail, payload := payload } := by
  rw [replyFrame, hs, hl, hd, hp]

/-! ## A frame that leaves -/

theorem startPending_none {s : State} (h : s.softReset = none) : startPending s = s := by
  simp only [startPending, h]

theorem startPending_some {s : State} {r : SoftPending} (h : s.softReset = some r) :
    startPending s = performSoftReset r.first s := by
  simp only [startPending, h]

theorem holdSent_eq (p : Port) (s : State) :
    holdSent p (s.modPort p fun n => { n with tx := none }) =
      (s.modPort p fun n =>
          if n.hold = .held then { n with tx := none, holdTimer := some (s.now + n.holdTime.toNat * 1000) }
          else { n with tx := none }).modPortStats p fun t => { t with holdsSent := satAdd t.holdsSent 1 } := by
  rw [holdSent, modPort_modPort]
  rfl

end Sys2Proof.Machine

namespace Sys2Proof.Proofs

open Sys2Proof.Machine

/-- Settles O14: a report of carrier that is a change takes its event. -/
theorem carrierReported : Obligations.CarrierReported := fun _ _ hr => ⟨exec_carrierDown hr, exec_carrierUp hr⟩

/-- Settles O15: what the receiver holds is judged with what arrives; each discard by `judgeFrame`'s order. -/
theorem framesDiscarded : Obligations.FramesDiscarded := by
  refine ⟨fun p bytes s hr hc => ⟨fun hi => ?ignoring, fun before h => ?pieces⟩,
    fun p before bytes all s hr hc h hall => ⟨fun hover => ?overLength, fun hmax hlen => ?within⟩⟩
  case ignoring => exact ⟨exec_frameReceive_ignoring s p bytes hr hc hi, exec_overLengthCut_ignoring s p bytes hr hc hi⟩
  case pieces => exact ⟨frameReceive_pieces bytes hr hc h, overLengthCut_pieces bytes hr hc h⟩
  case overLength =>
    subst hall
    have hpass := (passesLength_iff _).2 hover
    rw [exec_frameReceive s p before bytes hr hc h, exec_overLengthCut s p before bytes hr hc h, if_pos hpass, endFrame,
      judgeFrame_overLength hpass]
    exact ⟨rfl, rfl⟩
  case within =>
    subst hall
    have hpass := passesLength_false hmax hlen
    rw [exec_frameReceive s p before bytes hr hc h, exec_overLengthCut s p before bytes hr hc h, hpass,
      if_neg Bool.false_ne_true]
    refine ⟨rfl, fun hbad => ?_⟩
    rw [endFrame, judgeFrame_checkDiscard hpass hbad]
    rfl

/-- Settles O18: an accepted frame is routed by its kind and the port state, and enters the Intake Queue where both
limits allow. -/
theorem framesEnterIntake : Obligations.FramesEnterIntake := by
  refine ⟨fun p before bytes f s b hr hc h hj hhello hbeat hoff htest hb => ?enters,
    fun p before bytes f s hr hc h hj => ⟨fun hoff => ?off, fun hnothing => ?nothing⟩⟩
  case enters =>
    have hstate : (b.presence p).state = (s.presence p).state := hb ▸ accepted_presence s p p
    have hintake : (b.port p).intake = (s.port p).intake := by
      rw [hb, modPresence_port_read, modPortStats_port_read, modPort_port_self]
    rw [exec_frameReceive_accepted s p f before bytes hr hc h hj, acceptFrame_eq s p f hoff, ← hb,
      routeFrame_intake (hstate ▸ hoff) (hstate ▸ htest) hhello hbeat, ← hintake]
    exact ⟨fun hroom => by rw [enterIntake_room hroom], fun hfull => by rw [enterIntake_overrun hfull]⟩
  case off => rw [exec_frameReceive_accepted s p f before bytes hr hc h hj, acceptFrame_off hoff]
  case nothing =>
    have hoff : (s.presence p).state ≠ .off := by
      rcases hnothing with ⟨ht, -⟩ | ⟨-, ht | ht⟩ <;> rw [ht] <;> exact nofun
    have hactive : (s.presence p).state ≠ .active := by
      rcases hnothing with ⟨ht, -⟩ | ⟨-, ht | ht⟩ <;> rw [ht] <;> exact nofun
    rw [exec_frameReceive_accepted s p f before bytes hr hc h hj, acceptFrame_eq s p f hoff,
      accepted_inactive s p hactive, routeFrame_nothing (s := (s.modPort p _).modPortStats p _) hnothing]

/-- Settles O19: Flow Control by the state of the hold and the water marks, the head's answer, and the hold timer's
expiry by occupancy and repeat count. -/
theorem intakeFlows : Obligations.IntakeFlows := by
  refine ⟨fun n => ⟨flowAct_holds, flowAct_open, flowAct_held, fun h hw => ⟨fun t ht => ?_, fun hslot => ?_⟩⟩,
    answerHead_eq, fun p t s hr ht hdue => ?expiry⟩
  · rw [flowAct_ends h hw, ht]; rfl
  · rw [flowAct_ends h hw]
    rcases hslot with hslot | hslot <;> rw [hslot] <;> rfl
  case expiry =>
    rw [exec_holdTimerExpiry hr ht hdue]
    refine ⟨fun hw hl => ?_, fun hw hl => ?_, fun h hw => ?_⟩
    · exact next_modPort_congr (holdExpired_repeats hw hl)
    · exact next_modPort_congr (holdExpired_spent hw hl)
    · exact next_modPort_congr (holdExpired_ends h hw)

/-- Settles O20: each frame by the priority of R146; each transmitter at its own port; the fields of a NOTICE and of a
REPLY. -/
theorem transmittersTake : Obligations.TransmittersTake := by
  refine ⟨fun s p => ⟨takeFrame_busy, fun htx hc => ⟨fun t => takeFrame_hold htx hc, takeFrame_resume htx hc,
      fun hf => ⟨fun a rest => takeFrame_answer htx hc hf, fun ha => ⟨fun x rest => takeFrame_notice htx hc hf ha,
        fun hn => ⟨takeFrame_event htx hc hf ha hn, fun he => ⟨fun c rest => takeFrame_reply htx hc hf ha hn he,
          takeFrame_nothing htx hc hf ha hn he⟩⟩⟩⟩⟩⟩,
    fun s => ⟨transmit_at s, transmit_only s⟩, fun x => ?notice, fun x => ?reply⟩
  case notice =>
    rcases x with ⟨bay, kind, tag, serial, cause⟩
    cases kind <;> cases cause <;> rfl
  case reply =>
    refine replyFrame_of ?_ (laneAttemptsOf_eq _ _) ?_ ?_
    · cases x.outcome <;> rfl
    · rw [replyFlags_eq]
      cases x.endCause <;> rfl
    · exact ite_congr (by rw [Bool.and_eq_true, decide_eq_true_eq, decide_eq_true_eq]) (fun _ => rfl) fun _ => rfl

/-- Settles O21, by the source of the frame in transmission. -/
theorem frameLeaves : Obligations.FrameLeaves := by
  intro p x s hr hc hx
  rw [exec_frameSent p x s hr hc hx]
  refine ⟨fun h => ?hold, fun h => ?leaves, fun c h => ?reply, fun r hs h => ?reset⟩
  case hold => rw [h, frameLeft, holdSent_eq]
  case leaves =>
    rcases h with h | h | h | h | ⟨h, hs⟩ <;> rw [h]
    · rfl
    · rfl
    · rfl
    · rfl
    · exact congrArg (fun t => Host.Outcome.next (transmit t)) (startPending_none (s := s.modPort p _) hs)
  case reply => rw [h]; rfl
  case reset =>
    rw [h]
    exact congrArg (fun t => Host.Outcome.next (transmit t)) (startPending_some (s := s.modPort p _) hs)

end Sys2Proof.Proofs
end

section
/-! PROOF. Presence: HELLO (R155 to R157), a clean-up (R46, R87, R149), BEAT and PATTERN (R161, R166), and the beat
timer (R158, R159). -/

namespace Sys2Proof.Machine

/-! ## HELLO at a port that admits no loans -/

theorem helloOk_of_fields {f : FrameFields} (hf : f.flags = 0) (hb : f.bay = 0) (ha : f.arg = 0) (hc : f.count = 0)
    (hs : f.serial = 0) (hk : f.block = 0) (hp : f.payload = []) : helloOk f = true :=
  (helloOk_iff f).2 ⟨hf, hb, ha, hc, hs, hk, hp⟩

theorem helloOk_eq_false {f : FrameFields} (h : f.flags ≠ 0 ∨ f.bay ≠ 0 ∨ f.arg ≠ 0 ∨ f.count ≠ 0 ∨ f.serial ≠ 0 ∨
    f.block ≠ 0 ∨ f.payload ≠ []) : helloOk f = false := by
  rw [Bool.eq_false_iff, Ne, helloOk_iff]
  grind

theorem takeHello_admits {p : Port} {f : FrameFields} {s : State}
    (h : (s.presence p).state = .new ∨ (s.presence p).state = .lapsed) (hr : 0 < freeEntries (s.port p))
    (hf : helloOk f = true) : takeHello p f s = admitPort p f s := by
  have hroom : freeEntries (s.port p) ≠ 0 := Nat.ne_of_gt hr
  unfold takeHello
  rcases h with h | h <;> rw [h] <;> exact (if_neg hroom).trans (if_pos hf)

theorem takeHello_rehello {p : Port} {f : FrameFields} {s : State} (h : (s.presence p).state = .active)
    (hf : helloOk f = true) : takeHello p f s = startIfAnswerGone (rehello p f s) := by
  unfold takeHello
  rw [h]
  exact if_pos hf

theorem takeHello_format {p : Port} {f : FrameFields} {s : State}
    (h : (s.presence p).state = .new ∨ (s.presence p).state = .active ∨ (s.presence p).state = .lapsed)
    (hr : 0 < freeEntries (s.port p)) (hf : helloOk f = false) : takeHello p f s = helloFormat p f s := by
  have hroom : freeEntries (s.port p) ≠ 0 := Nat.ne_of_gt hr
  have hbad : ¬ helloOk f = true := ne_true_of_eq_false hf
  unfold takeHello
  rcases h with h | h | h <;> rw [h]
  · exact (if_neg hroom).trans (if_neg hbad)
  · exact (if_neg hbad).trans (if_neg hroom)
  · exact (if_neg hroom).trans (if_neg hbad)

theorem takeHello_full {p : Port} {f : FrameFields} {s : State} (hr : freeEntries (s.port p) = 0)
    (h : (s.presence p).state = .new ∨ (s.presence p).state = .lapsed ∨
      (s.presence p).state = .active ∧ helloOk f = false) : takeHello p f s = s := by
  unfold takeHello
  rcases h with h | h | ⟨h, hf⟩ <;> rw [h]
  · exact if_pos hr
  · exact if_pos hr
  · exact (if_neg (ne_true_of_eq_false hf)).trans (if_pos hr)

/-! ## The OK answer to a HELLO -/

/-- R155 steps 5 and 6: the OK answer to a HELLO, and the EVENT frame owed to a supervisor. -/
theorem welcome_eq (p : Port) (f : FrameFields) (loans : Nat) (u : State) :
    oweNews p (placeAnswer p { frame := helloAnswer u p f loans } u) = u.modPort p fun n =>
      { n with
        answers := n.answers ++
          [{ frame :=
              { kind := .answer, status := .ok, tag := f.tag,
                detail := [byte loans, roleCode (u.port p).role] ++ bytesOf 2 (u.presence p).window ++
                  [byte (u.presence p).missLimit, 0] } }],
        eventNews := n.eventNews ||
          (decide ((u.port p).role = .supervisor) && shareEvent u.raised u.enabled) } := by
  have hrole : ((placeAnswer p { frame := helloAnswer u p f loans } u).port p).role = (u.port p).role :=
    (congrArg NodePort.role (modPort_port_self u p fun n => { n with answers := n.answers ++ _ })).trans rfl
  unfold oweNews
  rw [hrole]
  cases hnews : (decide ((u.port p).role = .supervisor) && shareEvent u.raised u.enabled)
  case true =>
    refine (if_pos hnews).trans ?_
    rw [placeAnswer, modPort_modPort]
    exact modPort_congr u p _ _ (by rw [Bool.or_true]; rfl)
  case false =>
    refine (if_neg (ne_true_of_eq_false hnews)).trans ?_
    exact modPort_congr u p _ _ (by rw [Bool.or_false]; rfl)

/-- R155 steps 2 to 4: the port becomes ACTIVE with its counters cleared and its beat timer started, and a PORT record
is produced. -/
def admitted (p : Port) (s : State) : State :=
  appendRecord { note := .port .admission, port := some p } (s.modPresence p fun m =>
    { m with
      state := .active, miss := 0, early := 0, earlyFrozen := false, lastBeat := none,
      beatTimer := some (s.now + m.window * 1000) })

theorem admitted_presence (p : Port) (s : State) : (admitted p s).presence p =
    { s.presence p with
      state := .active, miss := 0, early := 0, earlyFrozen := false, lastBeat := none,
      beatTimer := some (s.now + (s.presence p).window * 1000) } := by
  have hkept : (admitted p s).presences = (s.modPresence p _).presences := appendRecord_presences _ _
  exact (congrArg (fun v : Vector Presence 8 => v[p]) hkept).trans (modPresence_presence_self s p _)

/-! ## What every operation leaves of a port's role and of the clock -/

theorem roleKept_core (p : Port) (r : Role) : ClosedCore fun s => (s.port p).role = r where
  bay := fun _ _ _ _ hs => hs
  holder := fun _ _ _ _ _ hs => hs
  unlend := fun _ _ _ hs => hs
  lendClaim := fun _ _ _ _ _ _ _ _ _ _ hs => hs
  services := fun _ _ hs => hs
  drives := fun _ _ hs => hs
  plan := fun _ _ hs => hs
  pool := fun _ _ _ hs => hs
  portStats := fun _ _ hs => hs
  bayStats := fun _ _ hs => hs
  journal := fun _ _ _ _ hs => hs
  raised := fun _ _ hs => hs
  port := fun s q f h hs => by
    rw [modPort_port]
    split
    · next hq => subst hq; exact h.2.2.trans hs
    · exact hs
  notice := fun s q x hs => by
    unfold postNotice
    rw [modPort_port]
    split
    · next hq => subst hq; exact hs
    · exact hs

theorem nowKept_core (t : Nat) : ClosedCore fun s => s.now = t where
  bay := fun _ _ _ _ hs => hs
  holder := fun _ _ _ _ _ hs => hs
  unlend := fun _ _ _ hs => hs
  lendClaim := fun _ _ _ _ _ _ _ _ _ _ hs => hs
  services := fun _ _ hs => hs
  drives := fun _ _ hs => hs
  plan := fun _ _ hs => hs
  pool := fun _ _ _ hs => hs
  portStats := fun _ _ hs => hs
  bayStats := fun _ _ hs => hs
  journal := fun _ _ _ _ hs => hs
  raised := fun _ _ hs => hs
  port := fun _ _ _ _ hs => hs
  notice := fun _ _ _ hs => hs

theorem admitPort_eq (p : Port) (f : FrameFields) (s : State) : admitPort p f s = (admitted p s).modPort p fun n =>
    { n with
      answers := n.answers ++
        [{ frame :=
            { kind := .answer, status := .ok, tag := f.tag,
              detail := [0, roleCode (s.port p).role] ++ bytesOf 2 (s.presence p).window ++
                [byte (s.presence p).missLimit, 0] } }],
      eventNews := n.eventNews ||
        (decide ((s.port p).role = .supervisor) && shareEvent (admitted p s).raised (admitted p s).enabled) } := by
  have hrole : ((admitted p s).port p).role = (s.port p).role :=
    (roleKept_core p _).appendRecord _ (s.modPresence p _) rfl
  have hbeats : admitPort p f s =
      oweNews p (placeAnswer p { frame := helloAnswer (admitted p s) p f 0 } (admitted p s)) := by
    unfold admitPort startBeats admitted
    rw [modPresence_modPresence]
    rfl
  rw [hbeats, welcome_eq, hrole, admitted_presence]
  rfl

/-! ## The accepted frame -/

/-- R135: what the acceptance of a frame does besides the sign of life. -/
def counted (p : Port) (s : State) : State :=
  (s.modPort p fun n => { n with receiver := .idle, silent := false }).modPortStats p fun t =>
    { t with accepted := satAdd t.accepted 1 }

theorem counted_port (p : Port) (s : State) :
    (counted p s).port p = { s.port p with receiver := .idle, silent := false } :=
  modPort_port_self s p fun n => { n with receiver := .idle, silent := false }

theorem counted_role (p : Port) (s : State) : ((counted p s).port p).role = (s.port p).role := by
  rw [counted_port]

theorem counted_freeEntries (p : Port) (s : State) : freeEntries ((counted p s).port p) = freeEntries (s.port p) := by
  rw [counted_port]
  rfl

/-- R158: the sign of life that acceptance is at an ACTIVE port. -/
def lively (p : Port) (s : State) : State :=
  (counted p s).modPresence p fun m => { m with miss := 0, beatTimer := some (s.now + m.window * 1000) }

theorem lively_presence (p : Port) (s : State) : (lively p s).presence p =
    { s.presence p with miss := 0, beatTimer := some (s.now + (s.presence p).window * 1000) } :=
  modPresence_presence_self (counted p s) p _

theorem arrive_inactive {s : State} {p : Port} (k : Byte) (f : FrameFields) (hr : s.phase = .running)
    (hc : (s.port p).carrier = .up) (ho : (s.presence p).state ≠ .off) (ha : (s.presence p).state ≠ .active) :
    arrive p k f s = .next (transmit (routeFrame p { kind := k, fields := f } (counted p s))) :=
  arrive_routed s p k f hr hc ho _ (modPresence_id (counted p s) p _ (if_neg ha)).symm

theorem arrive_active {s : State} {p : Port} (k : Byte) (f : FrameFields) (hr : s.phase = .running)
    (hc : (s.port p).carrier = .up) (ha : (s.presence p).state = .active) :
    arrive p k f s = .next (transmit (routeFrame p { kind := k, fields := f } (lively p s))) :=
  arrive_routed s p k f hr hc (by rw [ha]; exact nofun) _
    (modPresence_congr (counted p s) p _ _ (if_pos ha)).symm

theorem exec_hello (p : Port) (f : FrameFields) (s : State) : exec (.hello p f) s = arrive p kindHello f s := rfl

theorem exec_beat (p : Port) (f : FrameFields) (s : State) : exec (.beat p f) s = arrive p kindBeat f s := rfl

theorem exec_pattern (p : Port) (f : FrameFields) (s : State) :
    exec (.pattern p f) s = arrive p kindPattern f s := rfl

/-! ## BEAT and PATTERN -/

/-- R161: a BEAT notes its time. -/
def beatNoted (p : Port) (s : State) : State := s.modPresence p fun m => { m with lastBeat := some s.now }

theorem beatEarly_none {m : Presence} {now : Nat} (h : ∀ t, m.lastBeat = some t → m.window * 250 ≤ now - t) :
    beatEarly m now = false := by
  cases hl : m.lastBeat with
  | none => simp only [beatEarly, hl]
  | some t =>
    simp only [beatEarly, hl]
    exact decide_eq_false (Nat.not_lt.2 (h t hl))

theorem beatEarly_some {m : Presence} {now t : Nat} (h : m.lastBeat = some t) (hw : now - t < m.window * 250) :
    beatEarly m now = true := by
  simp only [beatEarly, h]
  exact decide_eq_true hw

theorem takeBeat_timely {p : Port} {s : State} (ha : (s.presence p).state = .active)
    (h : beatEarly (s.presence p) s.now = false ∨ (s.presence p).earlyFrozen = true) :
    takeBeat p s = beatNoted p s := by
  have hact : ¬ (s.presence p).state ≠ .active := not_not_intro ha
  have hcalm : ¬ (beatEarly (s.presence p) s.now && !(s.presence p).earlyFrozen) = true := by
    rcases h with h | h <;> rw [h] <;> simp
  exact (if_neg hact).trans (if_neg hcalm)

theorem takeBeat_early {p : Port} {s : State} (ha : (s.presence p).state = .active)
    (h : beatEarly (s.presence p) s.now = true) (hf : (s.presence p).earlyFrozen = false) :
    takeBeat p s =
      if 0 < (s.presence p).earlyLimit ∧ (s.presence p).earlyLimit ≤ min ((s.presence p).early + 1) 255 then
        raiseEvent (.beatErratic p) ((beatNoted p s).modPresence p fun m =>
          { m with early := min ((s.presence p).early + 1) 255, earlyFrozen := true })
      else (beatNoted p s).modPresence p fun m => { m with early := min ((s.presence p).early + 1) 255 } := by
  have hact : ¬ (s.presence p).state ≠ .active := not_not_intro ha
  have hearly : (beatEarly (s.presence p) s.now && !(s.presence p).earlyFrozen) = true := by rw [h, hf]; rfl
  exact (if_neg hact).trans (if_pos hearly)

theorem patternMatches_iff (f : FrameFields) : patternMatches f = true ↔
    f.payload.length = 1024 ∧ f.flags = 0 ∧ f.tag = 0 ∧ f.bay = 0 ∧ f.arg = 0 ∧ f.count = 0 ∧ f.block = 0 ∧
      f.serial.toNat < 2 ^ 32 ∧ f.payload = patternBytes 1024 (BitVec.ofNat 32 f.serial.toNat) := by
  simp only [patternMatches, Bool.and_eq_true, decide_eq_true_eq, and_assoc]

theorem patternBytes_zero : ∀ n, patternBytes n 0 = List.replicate n 0
  | 0 => rfl
  | n + 1 => by
    have hbits : patternBits 8 0 0 = (0, 0) := by decide
    rw [patternBytes, hbits, patternBytes_zero n]
    rfl

/-! ## A clean-up -/

theorem cleanUp_state (cause : Cause) (p : Port) (s : State) :
    (cleanUp cause p s).state = cleanContexts p (cleanLoans cause p (s.modPort p cleanPort)).state := by
  unfold cleanUp
  dsimp only

theorem cleanUp_loans (cause : Cause) (p : Port) {s : State} (hs : ClaimsSingle s) :
    (cleanUp cause p s).loans = (allBays.filter fun b => decide ((s.bay b).holder p ≠ none)).length := by
  unfold cleanUp
  dsimp only
  exact (cleanLoans_counts cause p (s.modPort p cleanPort) hs).1

theorem cleanUp_claims (cause : Cause) (p : Port) {s : State} (hs : ClaimsSingle s) :
    (cleanUp cause p s).claims =
      (allBays.filter fun b => (s.bay b).claims.any fun x => decide (x.port = p)).length := by
  unfold cleanUp
  dsimp only
  exact (cleanLoans_counts cause p (s.modPort p cleanPort) hs).2

theorem cleanUp_role (cause : Cause) (p : Port) (s : State) :
    ((cleanUp cause p s).state.port p).role = (s.port p).role :=
  (roleKept_core p _).cleanUp cause p s rfl

theorem cleanUp_now (cause : Cause) (p : Port) (s : State) : (cleanUp cause p s).state.now = s.now :=
  (nowKept_core _).cleanUp cause p s rfl

theorem cleanLoans_eq (cause : Cause) (p : Port) (s : State) :
    cleanLoans cause p s = allBays.foldl (cleanBay cause p) { state := s, loans := 0, claims := 0 } := by
  unfold cleanLoans
  rfl

theorem cleanBay_holder {cause : Cause} {p : Port} {t : CleanUp} {b : Bay} {h : Holder}
    (hh : (t.state.bay b).holder p = some h) :
    cleanBay cause p t b =
      { state := settleBay b (revokeLoan b cause p h t.state), loans := t.loans + 1, claims := t.claims } := by
  simp only [cleanBay, hh]

theorem cleanBay_claim {cause : Cause} {p : Port} {t : CleanUp} {b : Bay} {x : Claim}
    (hh : (t.state.bay b).holder p = none)
    (hx : (t.state.bay b).claims.find? (fun x => decide (x.port = p)) = some x) :
    cleanBay cause p t b =
      { state := settleBay b (refuseClaim b cause true x t.state), loans := t.loans, claims := t.claims + 1 } := by
  simp only [cleanBay, hh, hx]

theorem find_claim_none {s : State} {p : Port} {b : Bay} (h : ¬ waitsAt s p b) :
    (s.bay b).claims.find? (fun x => decide (x.port = p)) = none := by
  rw [List.find?_eq_none]
  exact fun x hx hp => h ⟨x, hx, of_decide_eq_true hp⟩

theorem cleanBay_absent {cause : Cause} {p : Port} {t : CleanUp} {b : Bay}
    (hh : (t.state.bay b).holder p = none) (hw : ¬ waitsAt t.state p b) : cleanBay cause p t b = t := by
  simp only [cleanBay, hh, find_claim_none hw]

theorem cleanPort_eq (n : NodePort) : cleanPort n =
    { n with
      intake := [], reserved := false, answers := [], notices := [], flowSlot := none, holdTimer := none,
      repeatCount := 0, hold := .isOpen, eventNews := false,
      receiver := if n.receiver = .idle then .idle else .ignoring } := by
  rw [← restartReceiver_eq]
  rfl

/-! ### At the Context Pool (R87) -/

/-- R87 step 1: the port's ISSUED contexts are orphaned. -/
def orphaned (p : Port) (s : State) : State := allContexts.foldl (orphanContext p) s

/-- R87 step 2: the contexts of the port's Reply List are FREE, as lost replies. -/
def repliesGone (p : Port) (s : State) : State :=
  ((orphaned p s).replies p).foldl (loseReply p) ((orphaned p s).modReplies p fun _ => [])

theorem cleanContexts_eq (p : Port) (s : State) : cleanContexts p s = handOut (repliesGone p s) := rfl

theorem orphaned_ctx (p : Port) (s : State) (c : CtxId) : (orphaned p s).ctx c =
    if (s.ctx c).state = .issued ∧ (s.ctx c).port = p then { s.ctx c with orphaned := true } else s.ctx c := by
  obtain ⟨hctx, -⟩ := orphanContext_fold p allContexts allContexts_nodup s
  refine (hctx c).trans ?_
  simp only [mem_allContexts, true_and]

theorem orphaned_only (p : Port) (s : State) : orphaned p s =
    { s with pool := { s.pool with
        contexts := (orphaned p s).pool.contexts, live := (orphaned p s).pool.live } } := by
  obtain ⟨-, -, -, honly⟩ := orphanContext_fold p allContexts allContexts_nodup s
  unfold orphaned
  exact honly

theorem orphaned_replies (p q : Port) (s : State) : (orphaned p s).replies q = s.replies q := by
  have horphaned := orphaned_only p s
  generalize orphaned p s = o at horphaned
  rw [horphaned]
  rfl

theorem orphaned_live_self (p : Port) (s : State) : (orphaned p s).live p = s.live p -
    (allContexts.filter fun c =>
      decide ((s.ctx c).state = .issued ∧ (s.ctx c).port = p ∧ (s.ctx c).orphaned = false)).length := by
  obtain ⟨-, hself, -, -⟩ := orphanContext_fold p allContexts allContexts_nodup s
  exact hself

theorem orphaned_live_ne {p q : Port} (s : State) (h : q ≠ p) : (orphaned p s).live q = s.live q := by
  obtain ⟨-, -, hne, -⟩ := orphanContext_fold p allContexts allContexts_nodup s
  exact hne q h

theorem repliesGone_ctx (p : Port) (s : State) (c : CtxId) : (repliesGone p s).ctx c =
    if c ∈ s.replies p then { state := .free } else (orphaned p s).ctx c := by
  have hreplies := orphaned_replies p p s
  unfold repliesGone
  generalize orphaned p s = o at hreplies
  obtain ⟨hctx, -⟩ := loseReply_fold p (o.replies p) (o.modReplies p fun _ => [])
  rw [hctx c, hreplies, modReplies_ctx_read]

/-- R87: what the clean-up changes at the Context Pool before the FREE contexts are handed out. -/
theorem repliesGone_only (p : Port) (s : State) : repliesGone p s =
    { s with
      portStats := s.portStats.set p
        { s.portStats[p] with repliesLost := satAdd (s.portStats[p]).repliesLost (s.replies p).length },
      pool := { s.pool with
        contexts := (repliesGone p s).pool.contexts, live := (orphaned p s).pool.live,
        replies := s.pool.replies.set p [] } } := by
  have hreplies := orphaned_replies p p s
  have horphaned := orphaned_only p s
  unfold repliesGone
  generalize orphaned p s = o at hreplies horphaned
  obtain ⟨-, honly⟩ := loseReply_fold p (o.replies p) (o.modReplies p fun _ => [])
  refine honly.trans ?_
  generalize (o.replies p).foldl (loseReply p) (o.modReplies p fun _ => []) = w
  rw [hreplies, horphaned]
  rfl

theorem repliesGone_live (p q : Port) (s : State) : (repliesGone p s).live q = (orphaned p s).live q := by
  have honly := repliesGone_only p s
  unfold State.live
  generalize (orphaned p s).pool.live = l at honly ⊢
  generalize repliesGone p s = w at honly ⊢
  rw [honly]

theorem repliesGone_replies (p q : Port) (s : State) :
    (repliesGone p s).replies q = if p = q then [] else s.replies q := by
  have honly := repliesGone_only p s
  generalize repliesGone p s = w at honly
  rw [honly]
  exact modReplies_replies s p q fun _ => []

theorem repliesGone_lost (p : Port) (s : State) : ((repliesGone p s).portStats[p]).repliesLost =
    satAdd (s.portStats[p]).repliesLost (s.replies p).length := by
  have honly := repliesGone_only p s
  generalize repliesGone p s = w at honly
  rw [honly]
  exact congrArg PortStats.repliesLost (Vector.getElem_set_self _)

/-- R87: the clean-up at the Context Pool. -/
theorem cleanContexts_steps (p : Port) (s : State) : ∃ w, cleanContexts p s = handOut w ∧
    (∀ c, w.ctx c =
      if c ∈ s.replies p then { state := .free }
      else if (s.ctx c).state = .issued ∧ (s.ctx c).port = p then { s.ctx c with orphaned := true }
      else s.ctx c) ∧
    w.replies p = [] ∧ (∀ q, q ≠ p → w.replies q = s.replies q) ∧
    w.live p = s.live p - (allContexts.filter fun c =>
      decide ((s.ctx c).state = .issued ∧ (s.ctx c).port = p ∧ (s.ctx c).orphaned = false)).length ∧
    (∀ q, q ≠ p → w.live q = s.live q) ∧
    (w.portStats[p]).repliesLost = satAdd (s.portStats[p]).repliesLost (s.replies p).length ∧
    w = { s with
      portStats := s.portStats.set p { s.portStats[p] with repliesLost := (w.portStats[p]).repliesLost },
      pool := { s.pool with contexts := w.pool.contexts, live := w.pool.live, replies := w.pool.replies } } := by
  refine ⟨repliesGone p s, cleanContexts_eq p s, fun c => ?_, ?_, fun q hq => ?_, ?_, fun q hq => ?_,
    repliesGone_lost p s, ?_⟩
  · rw [repliesGone_ctx, orphaned_ctx]
  · rw [repliesGone_replies, if_pos rfl]
  · rw [repliesGone_replies, if_neg (Ne.symm hq)]
  · rw [repliesGone_live, orphaned_live_self]
  · rw [repliesGone_live, orphaned_live_ne s hq]
  · rw [repliesGone_lost]
    have honly := repliesGone_only p s
    generalize repliesGone p s = w at honly
    rw [honly]

/-! ## A HELLO at an ACTIVE port -/

/-- R156 steps 1 to 5: the old node's loans, claims and contexts have ended, the beat timer is restarted, and a PORT
record is produced. -/
def rejoined (p : Port) (s : State) : State :=
  appendRecord (portRecord p .rehello (cleanUp .rehello p s).loans (cleanUp .rehello p s).claims)
    (startBeats p (cleanUp .rehello p s).state)

theorem rehello_eq (p : Port) (f : FrameFields) (s : State) : rehello p f s = oweNews p (placeAnswer p
    { frame := helloAnswer (rejoined p s) p f (cleanUp .rehello p s).loans } (rejoined p s)) := by
  unfold rehello rejoined
  dsimp only

theorem startBeats_eq {p : Port} {s : State} {now : Nat} (h : s.now = now) :
    startBeats p s = s.modPresence p fun m =>
      { m with
        miss := 0, early := 0, earlyFrozen := false, lastBeat := none,
        beatTimer := some (now + m.window * 1000) } := by
  subst h
  rfl

theorem rejoined_kept {p : Port} {s : State} (hr : s.phase = .running) :
    PortKept p { s.presence p with
        miss := 0, early := 0, earlyFrozen := false, lastBeat := none,
        beatTimer := some (s.now + (s.presence p).window * 1000) } s.softReset s.presence (rejoined p s) := by
  have hclean := cleanUp_portKept .rehello p s hr
  have hnow := cleanUp_now .rehello p s
  unfold rejoined
  generalize cleanUp .rehello p s = t at hclean hnow ⊢
  refine (PortKept.core p _ _ _).appendRecord _ _ ?_
  rw [startBeats_eq hnow]
  exact hclean.mod _

theorem rejoined_role (p : Port) (s : State) : ((rejoined p s).port p).role = (s.port p).role := by
  have hclean := cleanUp_role .rehello p s
  unfold rejoined
  generalize cleanUp .rehello p s = t at hclean ⊢
  exact (roleKept_core p _).appendRecord _ (startBeats p t.state) hclean

theorem rejoined_nothing {p : Port} {s : State} (hs : ClaimsSingle s) (b : Bay) : Nothing (rejoined p s) p b := by
  have hclean := cleanUp_nothing .rehello p s hs b
  unfold rejoined
  generalize cleanUp .rehello p s = t at hclean ⊢
  exact (Nothing.core p b).appendRecord _ (startBeats p t.state) hclean

theorem rejoined_eq {p : Port} {s t : State} {loans claims : Nat} (hs : ClaimsSingle s)
    (ht : t = (cleanLoans .rehello p (s.modPort p cleanPort)).state)
    (hloans : loans = (allBays.filter fun b => decide ((s.bay b).holder p ≠ none)).length)
    (hclaims : claims = (allBays.filter fun b => (s.bay b).claims.any fun x => decide (x.port = p)).length) :
    rejoined p s = appendRecord
      { note := .port .rehello, port := some p, count1 := BitVec.ofNat 32 loans, count2 := BitVec.ofNat 32 claims }
      ((cleanContexts p t).modPresence p fun m =>
        { m with
          miss := 0, early := 0, earlyFrozen := false, lastBeat := none,
          beatTimer := some (s.now + m.window * 1000) }) := by
  unfold rejoined
  rw [startBeats_eq (cleanUp_now .rehello p s), cleanUp_state, cleanUp_loans .rehello p hs,
    cleanUp_claims .rehello p hs, ← hloans, ← hclaims, ← ht]
  rfl

theorem rehello_answer {p : Port} {f : FrameFields} {s : State} {loans : Nat} (hs : ClaimsSingle s)
    (hr : s.phase = .running)
    (hloans : loans = (allBays.filter fun b => decide ((s.bay b).holder p ≠ none)).length) :
    rehello p f s = (rejoined p s).modPort p fun n =>
      { n with
        answers := n.answers ++
          [{ frame :=
              { kind := .answer, status := .ok, tag := f.tag,
                detail := [byte loans, roleCode (s.port p).role] ++ bytesOf 2 (s.presence p).window ++
                  [byte (s.presence p).missLimit, 0] } }],
        eventNews := n.eventNews ||
          (decide ((s.port p).role = .supervisor) &&
            shareEvent (rejoined p s).raised (rejoined p s).enabled) } := by
  obtain ⟨-, hpresence, -⟩ := rejoined_kept (p := p) hr
  rw [rehello_eq, welcome_eq, rejoined_role, cleanUp_loans .rehello p hs, hpresence, ← hloans]

theorem rehello_kept {p : Port} {s : State} (f : FrameFields) (hr : s.phase = .running) :
    PortKept p { s.presence p with
        miss := 0, early := 0, earlyFrozen := false, lastBeat := none,
        beatTimer := some (s.now + (s.presence p).window * 1000) } s.softReset s.presence (rehello p f s) := by
  rw [rehello_eq, welcome_eq]
  exact (PortKept.core p _ _ _).port' _ p _ (rejoined_kept hr)

theorem rehello_nothing {p : Port} {s : State} (f : FrameFields) (hs : ClaimsSingle s) (b : Bay) :
    Nothing (rehello p f s) p b := by
  rw [rehello_eq, welcome_eq]
  exact (Nothing.core p b).port' _ p _ (rejoined_nothing hs b)

/-! ## The beat timer -/

theorem exec_beatTimerExpiry {s : State} {p : Port} {t : Nat} (hr : s.phase = .running)
    (ht : (s.presence p).beatTimer = some t) (h : t ≤ s.now) :
    exec (.beatTimerExpiry p) s = .next (transmit (beatExpired p s)) := by
  simp only [exec, execBeatTimerExpiry]
  rw [ht, if_pos (timerDue_some h), whenRunning_running _ _ hr]

/-- R158: an expiry counts a miss and restarts the beat timer. -/
def missed (p : Port) (s : State) : State :=
  s.modPresence p fun m => { m with miss := min (m.miss + 1) 255, beatTimer := some (s.now + m.window * 1000) }

theorem missed_presence (p : Port) (s : State) : (missed p s).presence p =
    { s.presence p with
      miss := min ((s.presence p).miss + 1) 255, beatTimer := some (s.now + (s.presence p).window * 1000) } :=
  modPresence_presence_self s p _

theorem missed_stopped (p : Port) (s : State) :
    ((missed p s).modPresence p fun m => { m with beatTimer := none }) =
      s.modPresence p fun m => { m with miss := min (m.miss + 1) 255, beatTimer := none } :=
  modPresence_modPresence s p _ _

theorem beatExpired_eq (p : Port) (s : State) : beatExpired p s =
    if 0 < (s.presence p).missLimit ∧ (s.presence p).missLimit ≤ min ((s.presence p).miss + 1) 255 then
      startIfAnswerGone (lapse p (missed p s))
    else missed p s := by
  have hlimit : ((missed p s).presence p).missLimit = (s.presence p).missLimit := by rw [missed_presence]
  have hmiss : ((missed p s).presence p).miss = min ((s.presence p).miss + 1) 255 := by rw [missed_presence]
  rw [← hlimit, ← hmiss]
  rfl

/-- R159 steps 1 to 4: the port has lapsed, and a PORT record is produced. -/
def lapsed (p : Port) (s : State) : State :=
  appendRecord (portRecord p .lapse (cleanUp .lapse p s).loans (cleanUp .lapse p s).claims)
    (dropNews p ((cleanUp .lapse p s).state.modPresence p fun m => { m with state := .lapsed }))

theorem lapse_eq (p : Port) (s : State) : lapse p s =
    raiseEvent (.portLapsed p) (lapsed p (s.modPresence p fun m => { m with beatTimer := none })) := by
  unfold lapse lapsed
  dsimp only

theorem lapsed_eq {p : Port} {s v : State} {loans claims : Nat} (hs : ClaimsSingle s)
    (hv : v = cleanContexts p (cleanLoans .lapse p (s.modPort p cleanPort)).state)
    (hloans : loans = (allBays.filter fun b => decide ((s.bay b).holder p ≠ none)).length)
    (hclaims : claims = (allBays.filter fun b => (s.bay b).claims.any fun x => decide (x.port = p)).length) :
    lapsed p s = appendRecord
      { note := .port .lapse, port := some p, count1 := BitVec.ofNat 32 loans, count2 := BitVec.ofNat 32 claims }
      ((v.modPresence p fun m => { m with state := .lapsed }).modPort p fun n => { n with eventNews := false }) := by
  unfold lapsed dropNews
  rw [cleanUp_state, cleanUp_loans .lapse p hs, cleanUp_claims .lapse p hs, ← hloans, ← hclaims, ← hv]
  rfl

theorem lapsed_kept {p : Port} {s : State} (hr : s.phase = .running) :
    PortKept p { s.presence p with state := .lapsed } s.softReset s.presence (lapsed p s) := by
  have hclean := cleanUp_portKept .lapse p s hr
  unfold lapsed dropNews
  generalize cleanUp .lapse p s = t at hclean ⊢
  exact (PortKept.core p _ _ _).appendRecord _ _ ((PortKept.core p _ _ _).port' _ p _
    (hclean.mod fun m => { m with state := .lapsed }))

theorem lapsed_nothing {p : Port} {s : State} (hs : ClaimsSingle s) (b : Bay) : Nothing (lapsed p s) p b := by
  have hclean := cleanUp_nothing .lapse p s hs b
  unfold lapsed
  generalize cleanUp .lapse p s = t at hclean ⊢
  exact (Nothing.core p b).appendRecord _ (dropNews p _) hclean

end Sys2Proof.Machine

namespace Sys2Proof.Proofs

open Sys2Proof.Machine

/-- Settles O22: the HELLO is accepted and routed to the Presence Monitor (`arrive_routed`), which decides by the
port's state, the free entries and the HELLO's form. -/
theorem helloAnswered : Obligations.HelloAnswered := by
  refine ⟨fun p f s hr hc hs hroom hf hb ha hn hx hk hp => ?admits, fun p f s b hr hc hb => ?otherwise⟩
  case admits =>
    have hinactive : (s.presence p).state ≠ .active := by rcases hs with hs | hs <;> rw [hs] <;> exact nofun
    have hoff : (s.presence p).state ≠ .off := by rcases hs with hs | hs <;> rw [hs] <;> exact nofun
    have hadmit : takeHello p f (counted p s) = admitPort p f (counted p s) :=
      takeHello_admits hs (Nat.lt_of_lt_of_eq hroom (counted_freeEntries p s).symm) (helloOk_of_fields hf hb ha hn hx hk hp)
    refine ⟨_, _, ?_, rfl, rfl⟩
    rw [exec_hello, arrive_inactive kindHello f hr hc hoff hinactive, routeFrame_hello p f (counted p s) (hs.imp id Or.inr),
      hadmit, admitPort_eq, counted_role]
    rfl
  case otherwise =>
    have hstate : (b.presence p).state = (s.presence p).state := hb ▸ accepted_presence s p p
    have hfree : freeEntries (b.port p) = freeEntries (s.port p) := hb ▸ accepted_freeEntries s p _
    have hhello : ((s.presence p).state = .new ∨ (s.presence p).state = .active ∨ (s.presence p).state = .lapsed) →
        exec (.hello p f) s = .next (transmit (takeHello p f b)) := fun hs => by
      rw [exec_hello, arrive_routed s p kindHello f hr hc (by rcases hs with hs | hs | hs <;> rw [hs] <;> exact nofun)
        b hb, routeFrame_hello p f b (hstate ▸ hs)]
    have htest : (s.presence p).state = .test → exec (.hello p f) s = .next (transmit b) := fun ht => by
      rw [exec_hello, arrive_routed s p kindHello f hr hc (by rw [ht]; exact nofun) b hb,
        routeFrame_test p kindHello f b (hstate.trans ht) (by decide)]
    refine ⟨fun ho => ?_, htest, fun ho hfull hbad => ?_, fun hs hfull => ?_, fun hs hroom hbad => ?_⟩
    · rw [exec_hello, arrive_running s p kindHello f hr hc, acceptFrame_off ho]
    · have hdrop := takeHello_full (p := p) (f := f) (hfree.trans hfull)
      cases hs : (s.presence p).state with
      | off => exact absurd hs ho
      | test => exact htest hs
      | new => rw [hhello (Or.inl hs), hdrop (Or.inl (hstate.trans hs))]
      | lapsed => rw [hhello (Or.inr (Or.inr hs)), hdrop (Or.inr (Or.inl (hstate.trans hs)))]
      | active => rw [hhello (Or.inr (Or.inl hs)), hdrop (Or.inr (Or.inr ⟨hstate.trans hs, hbad⟩))]
    · rw [hhello (hs.imp id Or.inr), takeHello_full (hfree.trans hfull)]
      rw [hstate]
      exact hs.imp id Or.inl
    · rw [hhello hs, takeHello_format (hstate ▸ hs) (Nat.lt_of_lt_of_eq hroom hfree.symm) (helloOk_eq_false hbad)]
      rfl

/-- Settles O24: a BEAT at an ACTIVE port by `takeBeat_timely` and `takeBeat_early`; a PATTERN at a TEST port by the
comparison that `patternMatches_iff` speaks of. -/
theorem beatsAndPatternsJudged : Obligations.BeatsAndPatternsJudged := by
  refine ⟨?beats, ?patterns, by decide, patternBytes_zero⟩
  case beats =>
    rintro p f s b hr hc ha rfl
    have hbeat : exec (.beat p f) s = .next (transmit (takeBeat p (lively p s))) := by
      have hact : ((lively p s).presence p).state = .active := by rw [lively_presence]; exact ha
      rw [exec_beat, arrive_active kindBeat f hr hc ha, routeFrame_beat p f (lively p s) (Or.inr (Or.inl hact))]
    have hnoted : beatNoted p (lively p s) = (counted p s).modPresence p fun m =>
        { m with miss := 0, beatTimer := some (s.now + m.window * 1000), lastBeat := some s.now } :=
      modPresence_modPresence _ _ _ _
    have hact : ((lively p s).presence p).state = .active := by rw [lively_presence]; exact ha
    refine ⟨fun h => ?timely, fun t hl hw hz => ⟨fun h => ?early, fun h h' => ?limit⟩⟩
    case timely =>
      rw [hbeat, takeBeat_timely hact, hnoted]
      · rfl
      · rw [lively_presence]
        exact h.imp_left fun h => beatEarly_none h
    all_goals
      have hearly := takeBeat_early (p := p) (s := lively p s) hact
        (by rw [lively_presence]; exact beatEarly_some hl hw) (by rw [lively_presence]; exact hz)
      rw [lively_presence, hnoted] at hearly
    case early =>
      have hbelow : ¬ (0 < (s.presence p).earlyLimit ∧
          (s.presence p).earlyLimit ≤ min ((s.presence p).early + 1) 255) := by omega
      rw [hbeat, hearly.trans (if_neg hbelow)]
      exact congrArg (fun u => Host.Outcome.next (transmit u)) (modPresence_congr _ p _ _ (by
        rw [modPresence_presence_self]; rfl))
    case limit =>
      rw [hbeat, hearly.trans (if_pos ⟨h, h'⟩)]
      exact congrArg (fun u => Host.Outcome.next (transmit (raiseEvent _ u))) (modPresence_congr _ p _ _ (by
        rw [modPresence_presence_self]; rfl))
  case patterns =>
    rintro p f s b hr hc ht rfl
    have hpattern : exec (.pattern p f) s = .next (transmit (takePattern p f (counted p s))) := by
      rw [exec_pattern, arrive_inactive kindPattern f hr hc (by rw [ht]; exact nofun) (by rw [ht]; exact nofun),
        routeFrame_pattern p f (counted p s) ht]
    refine ⟨fun h => ?_, fun h => ?_⟩
    · exact hpattern.trans (congrArg (fun u => Host.Outcome.next (transmit u)) (if_pos ((patternMatches_iff f).2 h)))
    · exact hpattern.trans
        (congrArg (fun u => Host.Outcome.next (transmit u)) (if_neg (mt (patternMatches_iff f).1 h)))

/-- Settles O23: after the clean-up the port has nothing anywhere (`rejoined_nothing`), and its presence, its Intake
Queue and the other ports are as `rejoined_kept` says; the answer of `welcome_eq` changes none of this. -/
theorem helloEndsTheOldNode : Obligations.HelloEndsTheOldNode := by
  refine ⟨?hello, fun cause p => ⟨cleanLoans_eq cause p, fun t b => ⟨fun h hh => cleanBay_holder hh, fun hn =>
    ⟨fun x hx => cleanBay_claim hn hx, cleanBay_absent hn⟩⟩⟩, cleanPort_eq, cleanContexts_steps⟩
  intro p f s a t loans claims hs hr hc hact hf hb hg hn hx hk hp ha ht hloans hclaims
  have hlively : a = lively p s := ha
  have hbay : ∀ b, a.bay b = s.bay b := fun b => by rw [ha]; rfl
  have hpresence : a.presence p =
      { s.presence p with miss := 0, beatTimer := some (s.now + (s.presence p).window * 1000) } :=
    hlively ▸ lively_presence p s
  have hothers : ∀ q, q ≠ p → a.presence q = s.presence q := fun q hq => by
    rw [ha, modPresence_presence_ne _ _ (Ne.symm hq)]
    rfl
  have hrole : (a.port p).role = (s.port p).role := hlively ▸ counted_role p s
  have hnow : a.now = s.now := by rw [ha]; rfl
  have hsoft : a.softReset = s.softReset := by rw [ha]; rfl
  have hrunning : a.phase = .running := by rw [ha]; exact hr
  have hsingle : ClaimsSingle a := hlively ▸ hs.1
  have hstate : (a.presence p).state = .active := by rw [hpresence]; exact hact
  have hexec : exec (.hello p f) s = .next (transmit (startIfAnswerGone (rehello p f a))) := by
    rw [exec_hello, arrive_active kindHello f hr hc hact, ← hlively,
      routeFrame_hello p f a (Or.inr (Or.inl hstate)),
      takeHello_rehello hstate (helloOk_of_fields hf hb hg hn hx hk hp)]
  simp only [← hbay] at hloans hclaims
  obtain ⟨⟨hsoftKept, hothersKept⟩, hkept, hintake, -⟩ := rehello_kept f hrunning
  obtain ⟨hpool, hstats⟩ := rehello_pool p f a
  have heq := rejoined_eq hsingle ht hloans hclaims
  have hanswer := rehello_answer (f := f) hsingle hrunning hloans
  rw [hpresence] at hanswer hkept
  rw [hrole] at hanswer
  rw [hnow] at heq hkept
  refine ⟨rehello p f a, rejoined p a, hexec, heq, hanswer, rehello_nothing f hsingle, hintake, ?_, ?_, ?_, ?_, ?_,
    fun q hq => (hothersKept q hq).trans (hothers q hq), hsoftKept.trans hsoft, ht ▸ hpool, ht ▸ hstats⟩
  all_goals rw [hkept]
  exact hact

/-- Settles O25: the miss counter decides by `beatExpired_eq`; a lapse leaves the port as `lapsed_kept` and
`lapsed_nothing` say, and raises its event. -/
theorem beatTimerExpires : Obligations.BeatTimerExpires := by
  intro p t s hr ht h
  have hexec := exec_beatTimerExpiry hr ht h
  refine ⟨fun hbelow => ?misses, ?lapses⟩
  case misses =>
    rw [hexec, beatExpired_eq, if_neg (by omega)]
    rfl
  case lapses =>
    intro a v loans claims hs hpos hlimit ha hv hloans hclaims
    have hbay : ∀ b, a.bay b = s.bay b := fun b => by rw [ha]; rfl
    have hothers : ∀ q, q ≠ p → a.presence q = s.presence q := fun q hq => by
      rw [ha, modPresence_presence_ne _ _ (Ne.symm hq)]
    have hpresence : a.presence p =
        { s.presence p with miss := min ((s.presence p).miss + 1) 255, beatTimer := none } := by
      rw [ha, modPresence_presence_self]
    have hsoft : a.softReset = s.softReset := by rw [ha]; rfl
    have hrunning : a.phase = .running := by rw [ha]; exact hr
    have hsingle : ClaimsSingle a := ha ▸ hs.1
    have hlapse : lapse p (missed p s) = raiseEvent (.portLapsed p) (lapsed p a) := by
      rw [lapse_eq, missed_stopped, ← ha]
    simp only [← hbay] at hloans hclaims
    have heq := lapsed_eq hsingle hv hloans hclaims
    obtain ⟨⟨hsoftKept, hothersKept⟩, hkept, hintake, -⟩ :=
      (PortKept.core p _ _ _).raiseEvent (.portLapsed p) _ (lapsed_kept (p := p) hrunning)
    have hnothing := fun b => (Nothing.core p b).raiseEvent (.portLapsed p) _ (lapsed_nothing hsingle b)
    obtain ⟨hpool, hstats⟩ := lapse_pool p (missed p s) a (ha.trans (missed_stopped p s).symm)
    have hnews := lapse_eventNews p (missed p s)
    rw [hlapse] at hpool hstats hnews
    rw [hexec, beatExpired_eq, if_pos ⟨hpos, hlimit⟩, hlapse]
    refine ⟨_, rfl, ?_, ?_, ?_, hnothing, hintake, raiseEvent_hasEvent _ _,
      fun q hq => (hothersKept q hq).trans (hothers q hq), hsoftKept.trans hsoft, hnews, hv ▸ hpool, hv ▸ hstats,
      congrArg _ heq⟩
    all_goals rw [hkept, hpresence]

end Sys2Proof.Proofs
end

section
/-! PROOF. Claims: the heads that no block owns (R138, R180), and the refusals and effects of CLAIM and CANCEL (R14 to
R17, R30). -/

namespace Sys2Proof.Machine

/-! ## Heads that no block owns -/

theorem exec_headFormatRefuse {s : State} {p : Port} {f : InFrame} (h : HeadReady s p f)
    (hf : isFormatHead f = true) :
    exec (.headFormatRefuse p) s = .next (transmit (refuseHead p f.fields (formatRefusal s p f) s)) := by
  simp only [exec, execHeadFormatRefuse, h.served]
  exact if_pos hf

theorem isRefusedKind_of {k : Byte} (h : k = 0x09 ∨ k = 0 ∨ 0x0A < k.toNat) : isRefusedKind k = true := by
  rcases h with rfl | rfl | h
  · decide
  · decide
  · have hnot : ¬ (1 ≤ k.toNat ∧ k.toNat ≤ 0x0A) := by omega
    simp only [isRefusedKind, hnot, decide_false, Bool.not_false, Bool.or_true]

theorem not_manage_of {k : Byte} (h : k = 0x09 ∨ k = 0 ∨ 0x0A < k.toNat) : k ≠ kindManage := by
  rintro rfl
  revert h
  decide

theorem isSubKind_unknown {x : Byte} (h : x = 0 ∨ 0x1A < x.toNat) : isSubKind x = false := by
  rcases h with rfl | h
  · decide
  · exact decide_eq_false (by omega)

/-- R180: the checks of a MANAGE frame of an unknown sub-kind always refuse it. -/
theorem manageRefusal_unknown {s : State} {p : Port} {f : FrameFields} (h : isSubKind f.arg = false) :
    manageRefusal s p f = some
      (if (s.presence p).state = .lapsed then .lapsed
      else if (s.presence p).state ≠ .active then .notAdmitted
      else if (s.port p).role = .node then .notPermitted
      else .format) := by
  have hunknown : (!isSubKind f.arg || decide (f.flags ≠ 0)) = true := by rw [h]; rfl
  cases hs : (s.presence p).state with
  | off | new | test | lapsed => simp only [manageRefusal, portRefusal_eq hs]; rfl
  | active =>
    simp only [manageRefusal, portRefusal_active hs]
    cases hr : (s.port p).role with
    | node => rfl
    | supervisor => simp only [hunknown]; rfl

/-! ## The numbers of a queue -/

theorem positionOf_append {p : Port} {ahead : List Claim} (behind : List Claim) {x : Claim}
    (ha : ∀ y ∈ ahead, y.port ≠ p) (hx : x.port = p) : positionOf p (ahead ++ x :: behind) = ahead.length + 1 := by
  induction ahead with
  | nil => exact if_pos hx
  | cons y ahead ih =>
    have hy : y.port ≠ p := ha y List.mem_cons_self
    exact (if_neg hy).trans (congrArg (· + 1) (ih fun z hz => ha z (List.mem_cons_of_mem y hz)))

theorem positionOf_bounds {p : Port} {l : List Claim} (h : ∃ x ∈ l, x.port = p) :
    1 ≤ positionOf p l ∧ positionOf p l ≤ l.length := by
  induction l with
  | nil => obtain ⟨x, hx, -⟩ := h; cases hx
  | cons y l ih =>
    rw [positionOf, List.length_cons]
    split
    · omega
    · next hy =>
      have hrest : ∃ x ∈ l, x.port = p := by
        obtain ⟨x, hx, hp⟩ := h
        rcases List.mem_cons.1 hx with rfl | hx
        · exact absurd hp hy
        · exact ⟨x, hx, hp⟩
      have := ih hrest
      omega

/-- R6: with one claim for each port, a queue holds at most eight. -/
theorem claims_length_le {s : State} (hs : ClaimsSingle s) (b : Bay) : (s.bay b).claims.length ≤ 8 := by
  have hports : ((s.bay b).claims.map Claim.port).Nodup := List.pairwise_map.2 (hs b).1
  rw [← List.length_map (f := Claim.port)]
  have hsubset : (s.bay b).claims.map Claim.port ⊆ allPorts := fun q _ => mem_allPorts q
  exact Nat.le_trans (hports.length_le_of_subset hsubset) (Nat.le_of_eq (List.length_finRange (n := 8)))

theorem modeOf_shared (x : Byte) : modeOf x = some .shared ↔ x = 1 := by
  unfold modeOf
  split
  · next h => exact ⟨fun _ => h, fun _ => rfl⟩
  · next h => exact ⟨fun k => (by split at k <;> cases k), fun k => absurd k h⟩

theorem modeOf_exclusive (x : Byte) : modeOf x = some .exclusive ↔ x = 2 := by
  unfold modeOf
  split
  · next h => subst h; decide
  · split
    · next h => exact ⟨fun _ => h, fun _ => rfl⟩
    · next h => exact ⟨nofun, fun k => absurd k h⟩

/-! ## The loan mode (R4) -/

theorem loanMode_vacant_iff (r : BayRecord) : r.loanMode = .vacant ↔ ∀ q, r.holder q = none := by
  rw [← holderPorts_nil]
  unfold BayRecord.loanMode
  split
  · next h => exact ⟨fun _ => h, fun _ => rfl⟩
  · next h => split <;> exact ⟨nofun, fun k => absurd k h⟩

theorem exclusive_any_iff (r : BayRecord) :
    (r.holderPorts.any fun p => decide ((r.holder p).map Holder.mode = some Mode.exclusive)) = true ↔
      ∃ q h, r.holder q = some h ∧ h.mode = .exclusive := by
  simp only [List.any_eq_true, decide_eq_true_eq, Option.map_eq_some_iff]
  constructor
  · rintro ⟨q, -, h⟩
    exact ⟨q, h⟩
  · rintro ⟨q, h, hq, hm⟩
    exact ⟨q, (mem_holderPorts r q).2 (by rw [hq]; rfl), h, hq, hm⟩

theorem loanMode_exclusive_iff (r : BayRecord) :
    r.loanMode = .exclusive ↔ ∃ q h, r.holder q = some h ∧ h.mode = .exclusive := by
  rw [← exclusive_any_iff]
  unfold BayRecord.loanMode
  split
  · next hnil => rw [hnil]; exact ⟨nofun, nofun⟩
  · split
    · next h => exact ⟨fun _ => h, fun _ => rfl⟩
    · next h => exact ⟨nofun, fun k => absurd k h⟩

theorem loanMode_shared_iff (r : BayRecord) : r.loanMode = .shared ↔
    (∃ q h, r.holder q = some h) ∧ ∀ q h, r.holder q = some h → h.mode = .shared := by
  have hheld : (¬ ∀ q, r.holder q = none) ↔ ∃ q h, r.holder q = some h := by
    simp only [Classical.not_forall, Option.ne_none_iff_exists']
  have hmodes : (¬ ∃ q h, r.holder q = some h ∧ h.mode = .exclusive) ↔
      ∀ q h, r.holder q = some h → h.mode = .shared := by
    simp only [not_exists, not_and]
    refine forall_congr' fun q => forall_congr' fun h => imp_congr_right fun _ => ?_
    cases h.mode <;> simp
  rw [← hheld, ← hmodes, ← loanMode_vacant_iff, ← loanMode_exclusive_iff]
  cases r.loanMode <;> simp

/-! ## CLAIM -/

/-- A command whose event is one answer does nothing else. -/
theorem answersOnly {c : Instr} {p : Port} {x : OutFrame} {s t : State} (hc : exec c s = .next (transmit t))
    (ht : t = answerHead p x s) : AnswersOnly c p x s := by
  subst ht
  exact hc

theorem answersOnly_claim {s : State} {p : Port} {f : FrameFields} {x : OutFrame}
    (h : HeadReady s p { kind := kindClaim, fields := f }) (hx : claimTaken p f s = answerHead p x s) :
    AnswersOnly (.claim p) p x s :=
  answersOnly (exec_claim h) hx

theorem claimTaken_refused {s : State} {p : Port} {f : FrameFields} {st : Status} (h : portRefusal s p = some st) :
    claimTaken p f s = refuseHead p f st s := by
  simp only [claimTaken, h]

theorem claimTaken_format {s : State} {p : Port} {f : FrameFields} (ha : (s.presence p).state = .active)
    (h : f.flags ≠ 0 ∧ f.flags ≠ 1 ∨ f.arg ≠ 1 ∧ f.arg ≠ 2 ∨ f.count ≠ 0 ∨ f.serial ≠ 0 ∨ f.block ≠ 0) :
    claimTaken p f s = refuseHead p f .format s := by
  cases hm : modeOf f.arg with
  | none => simp only [claimTaken, portRefusal_active ha, hm]
  | some mode =>
    have harg : ¬ (f.arg ≠ 1 ∧ f.arg ≠ 2) := fun k => by rw [modeOf_none.2 k] at hm; cases hm
    have hbad : claimFieldsOk f = false := by
      rw [Bool.eq_false_iff, Ne, claimFieldsOk_iff]
      grind
    simp only [claimTaken, portRefusal_active ha, hm, hbad]
    rfl

theorem claimTaken_range {s : State} {p : Port} {f : FrameFields} {mode : Mode}
    (ha : (s.presence p).state = .active) (hm : modeOf f.arg = some mode) (hf : claimFieldsOk f = true)
    (hb : 12 ≤ f.bay.toNat) : claimTaken p f s = refuseHead p f .range s := by
  simp only [claimTaken, portRefusal_active ha, hm, hf, bayOf_none.2 hb]
  rfl

theorem claimAt_faulted {s : State} {p : Port} {f : FrameFields} {b : Bay} {mode : Mode}
    (h : (s.bay b).availability = .faulted) : claimAt p f b mode s = refuseHead p f .faulted s :=
  if_pos h

theorem claimAt_withdrawn {s : State} {p : Port} {f : FrameFields} {b : Bay} {mode : Mode}
    (h : (s.bay b).availability = .withdrawing ∨ (s.bay b).availability = .withdrawn) :
    claimAt p f b mode s = refuseHead p f .withdrawn s := by
  have hnot : (s.bay b).availability ≠ .faulted := by rcases h with h | h <;> rw [h] <;> exact nofun
  exact (if_neg hnot).trans (if_pos h)

theorem claimAt_denied {s : State} {p : Port} {f : FrameFields} {b : Bay} {mode : Mode}
    (h : (s.bay b).availability = .inService ∨ (s.bay b).availability = .probing)
    (hr : permits (s.right p b) mode = false) : claimAt p f b mode s = refuseHead p f .denied s := by
  unfold claimAt
  dsimp only
  rw [hr]
  rcases h with h | h <;> rw [h] <;> rfl

/-- R14 steps 7 to 9: a CLAIM whose mode the port's right permits, at a bay that takes claims. -/
theorem claimAt_permitted {s : State} {p : Port} {f : FrameFields} {b : Bay} {mode : Mode}
    (h : (s.bay b).availability = .inService ∨ (s.bay b).availability = .probing)
    (hr : permits (s.right p b) mode = true) :
    (∀ x, (s.bay b).holder p = some x → claimAt p f b mode s = answerHead p
      { answerTo f .held with serial := x.serial, detail := detailOf [modeCode x.mode] } s) ∧
    ((s.bay b).holder p = none →
      (waitsAt s p b → claimAt p f b mode s = answerHead p
        { answerTo f .alreadyWaiting with detail := detailOf [byte (positionOf p (s.bay b).claims)] } s) ∧
      (¬ waitsAt s p b → s.exhausted = true → claimAt p f b mode s = refuseHead p f .exhausted s)) := by
  unfold claimAt
  dsimp only
  rw [if_neg (by rcases h with h | h <;> rw [h] <;> decide), if_neg (by rcases h with h | h <;> rw [h] <;> decide),
    if_neg (by rw [hr]; decide)]
  refine ⟨fun x hx => ?_, fun hn => ⟨fun hw => ?_, fun hw he => ?_⟩⟩
  · rw [hx]
  · rw [hn]
    exact if_pos (waitsAt_iff.1 hw)
  · rw [hn]
    exact (if_neg (mt waitsAt_iff.2 hw)).trans (if_pos he)

theorem grantsAtOnce_iff (s : State) (b : Bay) (mode : Mode) : grantsAtOnce s b mode = true ↔
    (s.bay b).claims = [] ∧ (s.bay b).availability = .inService ∧ (s.bay b).trailing = 0 ∧
      modeFits (s.bay b).loanMode mode = true := by
  simp only [grantsAtOnce, Bool.and_eq_true, decide_eq_true_eq, and_assoc]

theorem modeFits_true {loan : LoanMode} {mode : Mode} :
    modeFits loan mode = true ↔ loan = .vacant ∨ loan = .shared ∧ mode = .shared := by
  cases loan <;> cases mode <;> decide

theorem modeFits_eq_false {loan : LoanMode} {mode : Mode} :
    modeFits loan mode = false ↔ loan = .exclusive ∨ loan = .shared ∧ mode = .exclusive := by
  cases loan <;> cases mode <;> decide

/-- R29 step 4: at a bay that is not WITHDRAWING, settling is the grant pass and then the patience check. -/
theorem settleBay_serving {b : Bay} {s : State} (h : (s.bay b).availability ≠ .withdrawing) :
    settleBay b s = patienceCheck b (grantPass b s) :=
  if_neg h

/-! ## CANCEL and RELEASE -/

theorem cancelTaken_refused {s : State} {p : Port} {f : FrameFields} {st : Status} (h : portRefusal s p = some st) :
    cancelTaken p f s = refuseHead p f st s := by
  simp only [cancelTaken, h]

theorem releaseTaken_refused {s : State} {p : Port} {f : FrameFields} {st : Status}
    (h : portRefusal s p = some st) : releaseTaken p f s = refuseHead p f st s := by
  simp only [releaseTaken, h]

theorem cancelTaken_format {s : State} {p : Port} {f : FrameFields} (ha : (s.presence p).state = .active)
    (h : f.flags ≠ 0 ∨ f.arg ≠ 0 ∨ f.count ≠ 0 ∨ f.block ≠ 0 ∨ f.serial ≠ 0) :
    cancelTaken p f s = refuseHead p f .format s := by
  have hbad : cancelFieldsOk f = false := by
    rw [Bool.eq_false_iff, Ne, cancelFieldsOk_iff]
    grind
  simp only [cancelTaken, portRefusal_active ha, hbad]
  rfl

theorem releaseTaken_format {s : State} {p : Port} {f : FrameFields} (ha : (s.presence p).state = .active)
    (h : f.flags ≠ 0 ∨ f.arg ≠ 0 ∨ f.count ≠ 0 ∨ f.block ≠ 0) :
    releaseTaken p f s = refuseHead p f .format s := by
  have hbad : releaseFieldsOk f = false := by
    rw [Bool.eq_false_iff, Ne, releaseFieldsOk_iff]
    grind
  simp only [releaseTaken, portRefusal_active ha, hbad]
  rfl

theorem cancelTaken_range {s : State} {p : Port} {f : FrameFields} (ha : (s.presence p).state = .active)
    (hf : cancelFieldsOk f = true) (hb : 12 ≤ f.bay.toNat) : cancelTaken p f s = refuseHead p f .range s := by
  simp only [cancelTaken, portRefusal_active ha, hf, bayOf_none.2 hb]
  rfl

theorem releaseTaken_range {s : State} {p : Port} {f : FrameFields} (ha : (s.presence p).state = .active)
    (hf : releaseFieldsOk f = true) (hb : 12 ≤ f.bay.toNat) : releaseTaken p f s = refuseHead p f .range s := by
  simp only [releaseTaken, portRefusal_active ha, hf, bayOf_none.2 hb]
  rfl

theorem cancelTaken_at {s : State} {p : Port} {f : FrameFields} {b : Bay} (ha : (s.presence p).state = .active)
    (hf : cancelFieldsOk f = true) (hb : bayOf f.bay = some b) :
    (waitsAt s p b → cancelTaken p f s = okHead p f (cancelAt p b s)) ∧
      (¬ waitsAt s p b → cancelTaken p f s = refuseHead p f .notWaiting s) := by
  have hat : cancelTaken p f s =
      if (s.bay b).claims.any fun x => decide (x.port = p) then okHead p f (cancelAt p b s)
      else refuseHead p f .notWaiting s := by
    simp only [cancelTaken, portRefusal_active ha, hf, hb]
    rfl
  exact ⟨fun hw => hat.trans (if_pos (waitsAt_iff.1 hw)), fun hw => hat.trans (if_neg (mt waitsAt_iff.2 hw))⟩

theorem cancelAt_eq (p : Port) (b : Bay) (s : State) : cancelAt p b s =
    if (s.bay b).claims.head?.map Claim.port = some p then
      settleBay b (s.modBay b fun r => { r with claims := r.claims.filter fun x => x.port ≠ p })
    else s.modBay b fun r => { r with claims := r.claims.filter fun x => x.port ≠ p } := by
  unfold cancelAt
  dsimp only
  rw [removeClaim_eq]
  simp only [decide_eq_true_eq]

end Sys2Proof.Machine

namespace Sys2Proof.Proofs

open Sys2Proof.Machine

/-- Settles O26: HEAD_FORMAT_REFUSE serves the head, and the status of a MANAGE frame of an unknown sub-kind is the
first of its checks that fails (`manageRefusal_unknown`). -/
theorem unknownHeadsRefused : Obligations.UnknownHeadsRefused := by
  refine fun p k f s h => ⟨fun hk => ?refused, fun hk ha => ?unknown⟩
  case refused =>
    have hformat : isFormatHead { kind := k, fields := f } = true := by
      simp only [isFormatHead, isRefusedKind_of hk, Bool.true_or]
    have hstatus : formatRefusal s p { kind := k, fields := f } = .format := if_neg (not_manage_of hk)
    exact (exec_headFormatRefuse h hformat).trans (by rw [hstatus]; rfl)
  case unknown =>
    subst hk
    have hunknown := isSubKind_unknown ha
    have hformat : isFormatHead { kind := 0x0A, fields := f } = true := by
      simp only [isFormatHead, hunknown]
      rfl
    have hstatus : formatRefusal s p { kind := 0x0A, fields := f } = (manageRefusal s p f).getD .format :=
      if_pos rfl
    refine (exec_headFormatRefuse h hformat).trans ?_
    rw [hstatus, manageRefusal_unknown hunknown]
    rfl

/-- Settles O27, check by check in the order of R14. -/
theorem claimRefused : Obligations.ClaimRefused := by
  refine ⟨fun p f s h => ⟨fun hs => ?_, fun hs => ?_, fun ha => ⟨fun hbad => ?_, ?atBay⟩⟩,
    ⟨fun _ => rfl, rfl, rfl, fun _ => rfl⟩, fun x => ⟨modeOf_shared x, modeOf_exclusive x⟩,
    fun p ahead behind x ha hx => positionOf_append behind ha hx, fun s p b hs hw => ?bounds⟩
  · exact answersOnly_claim h (claimTaken_refused (portRefusal_notAdmitted hs))
  · exact answersOnly_claim h (claimTaken_refused (portRefusal_eq hs))
  · exact answersOnly_claim h (claimTaken_format ha hbad)
  case atBay =>
    intro mode hm hf hn hx hk
    have hfields := (claimFieldsOk_iff f).2 ⟨hf, hn, hx, hk⟩
    refine ⟨fun hb => answersOnly_claim h (claimTaken_range ha hm hfields hb), fun b hb => ?_⟩
    have hat := claimTaken_at ha hm hfields hb
    refine ⟨fun hv => ?_, fun hv => ?_, fun hv => ⟨fun hr => ?_, fun hr => ?_⟩⟩
    · exact answersOnly_claim h (hat.trans (claimAt_faulted hv))
    · exact answersOnly_claim h (hat.trans (claimAt_withdrawn hv))
    · exact answersOnly_claim h (hat.trans (claimAt_denied hv hr))
    · obtain ⟨hheld, hfree⟩ := claimAt_permitted (f := f) hv hr
      refine ⟨fun x hx => answersOnly_claim h (hat.trans (hheld x hx)), fun hn => ⟨fun hw => ?_, fun hw he => ?_⟩⟩
      · exact answersOnly_claim h (hat.trans ((hfree hn).1 hw))
      · exact answersOnly_claim h (hat.trans ((hfree hn).2 hw he))
  case bounds =>
    obtain ⟨hpos, hle⟩ := positionOf_bounds hw
    exact ⟨hpos, Nat.le_trans hle (claims_length_le hs b)⟩

/-- Settles O28: a CLAIM that passes its checks (`claimAt_reached`) is granted, refused BUSY or queued as
`grantsAtOnce_iff` decides. -/
theorem claimTaken : Obligations.ClaimTaken := by
  refine ⟨?granted, ?waits, fun r => ⟨loanMode_vacant_iff r, loanMode_exclusive_iff r, loanMode_shared_iff r⟩⟩
  case granted =>
    intro p f b mode s h hf hm hn hx hk hb hv hr hc he ht hl
    have hholder : (s.bay b).holder p = none := hl.elim (fun k => loanMode_vacant k p) fun k => k.2.2
    have hwaits : ¬ waitsAt s p b := by
      rintro ⟨x, hx, -⟩
      rw [hc] at hx
      cases hx
    have honce : grantsAtOnce s b mode = true :=
      (grantsAtOnce_iff s b mode).2 ⟨hc, hv, ht, modeFits_true.2 (hl.imp id fun k => ⟨k.1, k.2.1⟩)⟩
    rw [exec_claim h.1, claimTaken_at h.2 hm ((claimFieldsOk_iff f).2 ⟨hf, hn, hx, hk⟩) hb,
      claimAt_reached (Or.inl hv) hr hholder hwaits he, if_pos honce]
    rfl
  case waits =>
    intro p f b mode s h hm hn hx hk hb hv hr hd hw he hblocked
    have honce : ¬ grantsAtOnce s b mode = true := by
      rw [grantsAtOnce_iff]
      rintro ⟨hc, hi, ht, hfit⟩
      rcases hblocked with k | k | k | k
      · exact k hc
      · rw [hi] at k; cases k
      · exact k ht
      · rw [modeFits_eq_false.2 k] at hfit; cases hfit
    have htaken : (f.flags = 0 ∨ f.flags = 1) → Machine.claimTaken p f s =
        if f.flags = 1 then claimBusy p f b s else claimQueued p f b mode s := fun hf => by
      rw [claimTaken_at h.2 hm ((claimFieldsOk_iff f).2 ⟨hf, hn, hx, hk⟩) hb, claimAt_reached hv hr hd hw he,
        if_neg honce]
    refine ⟨fun hf => ?_, fun hf => ?_⟩
    · exact answersOnly_claim h.1 ((htaken (Or.inr hf)).trans (if_pos hf))
    · have hserving : ((s.modBay b fun r =>
          { r with
            claims := r.claims ++
              [{ port := p, mode := mode, tag := f.tag, arrivalTag := s.timeTag.value }] }).bay b).availability ≠
          .withdrawing := by
        rw [modBay_bay_self]
        rcases hv with hv | hv <;> rw [hv] <;> exact nofun
      rw [exec_claim h.1, htaken (Or.inl hf), if_neg (by rw [hf]; decide), ← settleBay_serving hserving]
      rfl

/-- Settles O29, check by check in the order of R28 and R30. -/
theorem claimCancelled : Obligations.ClaimCancelled := by
  refine ⟨fun p f c k s h hc => ?refused, fun p f b s h hf ha hn hx hk hb => ?cancelled⟩
  case refused =>
    rcases hc with ⟨rfl, rfl⟩ | ⟨rfl, rfl⟩
    · refine ⟨fun hs => answersOnly (exec_cancel h) (cancelTaken_refused (portRefusal_notAdmitted hs)),
        fun hs => answersOnly (exec_cancel h) (cancelTaken_refused (portRefusal_eq hs)),
        fun hs => ⟨fun hbad => answersOnly (exec_cancel h) (cancelTaken_format hs ?_),
          fun hf ha hn hk hx hb => answersOnly (exec_cancel h) (cancelTaken_range hs ?_ hb)⟩⟩
      · exact hbad.imp id (Or.imp id (Or.imp id (Or.imp id And.right)))
      · exact (cancelFieldsOk_iff f).2 ⟨hf, ha, hn, hx rfl, hk⟩
    · refine ⟨fun hs => answersOnly (exec_release h) (releaseTaken_refused (portRefusal_notAdmitted hs)),
        fun hs => answersOnly (exec_release h) (releaseTaken_refused (portRefusal_eq hs)),
        fun hs => ⟨fun hbad => answersOnly (exec_release h) (releaseTaken_format hs ?_),
          fun hf ha hn hk _ hb => answersOnly (exec_release h) (releaseTaken_range hs ?_ hb)⟩⟩
      · exact hbad.imp id (Or.imp id (Or.imp id fun k => k.elim id fun k => nomatch k.1))
      · exact (releaseFieldsOk_iff f).2 ⟨hf, ha, hn, hk⟩
  case cancelled =>
    obtain ⟨hwaits, hnot⟩ := cancelTaken_at h.2 ((cancelFieldsOk_iff f).2 ⟨hf, ha, hn, hx, hk⟩) hb
    refine ⟨fun hw => ?_, fun hw => ?_⟩
    · rw [exec_cancel h.1, hwaits hw, cancelAt_eq]
      rfl
    · exact answersOnly (exec_cancel h.1) (hnot hw)

end Sys2Proof.Proofs
end

section
/-! PROOF. Loans: RELEASE (R28, R29), grants and the grant pass (R10, R11, R19 to R23), patience (R24, R25), the recall
timer (R38), and the ends of loans and claims (R31, R37, R42, R45, R77 to R79, R148). -/

namespace Sys2Proof.Machine

/-! ## RELEASE -/

theorem releaseLoan_eq (b : Bay) (p : Port) (h : Holder) (s : State) : releaseLoan b p h s = appendRecord
    { note := .loanEnd .release, port := some p, bay := some b, serial := h.serial, count1 := h.blocksRead,
      count2 := h.blocksWritten }
    (endLoanContexts h.serial .release (removeHolder b p s)) := rfl

theorem releaseAt_own {p : Port} {f : FrameFields} {b : Bay} {s : State} {h : Holder}
    (hh : (s.bay b).holder p = some h) (hs : h.serial = f.serial) :
    releaseAt p f b s = handOut (answerHead p (releaseAnswer f .ok) (settleBay b (releaseLoan b p h s))) := by
  simp only [releaseAt, hh]
  exact if_pos hs

theorem releaseAt_stale {p : Port} {f : FrameFields} {b : Bay} {s : State}
    (hs : ∀ h, (s.bay b).holder p = some h → h.serial ≠ f.serial) :
    releaseAt p f b s = answerHead p (releaseAnswer f .stale) s := by
  cases hh : (s.bay b).holder p with
  | none => simp only [releaseAt, hh]
  | some h =>
    simp only [releaseAt, hh]
    exact if_neg (hs h hh)

theorem holder_not_waiting {s : State} {p : Port} {b : Bay} {h : Holder} (hs : ClaimsSingle s)
    (hh : (s.bay b).holder p = some h) : ¬ waitsAt s p b := fun hw => by
  obtain ⟨-, hnone⟩ := hs b
  rw [hnone p hw] at hh
  cases hh

/-- R29: a released loan is gone when its event ends. -/
theorem released_nothing {p : Port} {b : Bay} {s : State} {h : Holder} (x : OutFrame) (hs : ClaimsSingle s)
    (hh : (s.bay b).holder p = some h) :
    Nothing (transmit (handOut (answerHead p x (settleBay b (releaseLoan b p h s))))) p b := by
  have hkeep := Nothing.core p b
  have hremoved := removeHolder_nothing s b p (holder_not_waiting hs hh)
  have hended := hkeep.endLoanContexts h.serial .release _ hremoved
  exact hkeep.transmit _ (hkeep.handOut _ (hkeep.answerHead p x _
    (hkeep.settleBay b _ (hkeep.appendRecord _ _ hended))))

/-! ## A grant (R10, R11, R22) -/

/-- R10, R11: the serial counter after a grant, before the event of its exhaustion. -/
def serialTaken (s : State) : State :=
  { s with
    nextSerial := s.nextSerial + 1, exhausted := s.exhausted || decide (s.nextSerial = BitVec.allOnes 48) }

theorem takeSerial_eq (s : State) : takeSerial s =
    if s.nextSerial = BitVec.allOnes 48 then raiseEvent .serialExhausted (serialTaken s) else serialTaken s := by
  unfold takeSerial serialTaken
  by_cases h : s.nextSerial = BitVec.allOnes 48
  · simp only [h, if_true, decide_true, Bool.or_true]
  · simp only [h, if_false, decide_false, Bool.or_false]

theorem raiseEvent_timeTag (e : Event) (s : State) : (raiseEvent e s).timeTag = s.timeTag := by
  obtain ⟨r, a, h | h⟩ := raiseEvent_only e s
  · rw [h]
  · rw [h, tellSupervisors_only]

theorem takeSerial_timeTag (s : State) : (takeSerial s).timeTag = s.timeTag := by
  rw [takeSerial_eq]
  split
  · exact raiseEvent_timeTag _ _
  · rfl

/-! ## The grant pass -/

theorem grantsOpen_iff (s : State) (b : Bay) : grantsOpen s b = true ↔
    (s.bay b).availability = .inService ∧ (s.bay b).trailing = 0 ∧ s.exhausted = false := by
  simp only [grantsOpen, Bool.and_eq_true, decide_eq_true_eq, Bool.not_eq_true', and_assoc]

/-- R19, R20: what one look at the head does. -/
theorem grantPass_cons {b : Bay} {s : State} {x : Claim} {rest : List Claim} (hc : (s.bay b).claims = x :: rest)
    (ho : grantsOpen s b = true) : grantPass b s =
      if modeFits (s.bay b).loanMode x.mode then
        if permits (s.right x.port b) x.mode then grantPassLoop b rest.length (grantClaim b x s)
        else grantPassLoop b rest.length (refuseClaim b .access false x s)
      else s := by
  rw [grantPass, hc, List.length_cons]
  simp only [grantPassLoop, ho, hc]
  rfl

theorem grantPass_closed {b : Bay} {s : State} (h : grantsOpen s b = false) : grantPass b s = s := by
  unfold grantPass
  cases hn : (s.bay b).claims.length with
  | zero => rfl
  | succ n => exact if_neg (ne_true_of_eq_false h)

theorem grantPass_empty {b : Bay} {s : State} (h : (s.bay b).claims = []) : grantPass b s = s := by
  rw [grantPass, h]
  rfl

theorem grantPass_granted {b : Bay} {s : State} {x : Claim} {rest : List Claim} (hs : ClaimsSingle s)
    (hc : (s.bay b).claims = x :: rest) (ho : grantsOpen s b = true)
    (hf : modeFits (s.bay b).loanMode x.mode = true) (hp : permits (s.right x.port b) x.mode = true) :
    grantPass b s = grantPass b (grantClaim b x s) := by
  obtain ⟨⟨h, -, hbay⟩, -⟩ := grantClaim_bay hs hc
  rw [grantPass_cons hc ho, if_pos hf, if_pos hp, grantPass, hbay]

theorem grantPass_refused {b : Bay} {s : State} {x : Claim} {rest : List Claim} (hs : ClaimsSingle s)
    (hc : (s.bay b).claims = x :: rest) (ho : grantsOpen s b = true)
    (hf : modeFits (s.bay b).loanMode x.mode = true) (hp : permits (s.right x.port b) x.mode = false) :
    grantPass b s = grantPass b (refuseClaim b .access false x s) := by
  obtain ⟨hbay, -⟩ := refuseClaim_bay .access false hs hc
  rw [grantPass_cons hc ho, if_pos hf, if_neg (ne_true_of_eq_false hp), grantPass, hbay]

theorem removeClaim_head {b : Bay} {s : State} {x : Claim} {rest : List Claim} (hs : ClaimsSingle s)
    (hc : (s.bay b).claims = x :: rest) : removeClaim b x.port s = s.modBay b fun r => { r with claims := rest } := by
  rw [removeClaim_eq]
  refine modBay_congr ?_
  obtain ⟨hpair, -⟩ := hs b
  rw [hc] at hpair ⊢
  rw [claims_filter_head hpair]

/-! ## The patience check -/

theorem patienceOff_iff (t : BitVec 16) : t.toNat = Config.patienceOff ↔ t = 65535 :=
  ⟨fun h => BitVec.eq_of_toNat_eq h, fun h => by rw [h]; rfl⟩

/-- R24, R25: the head's port, where the head is blocked by holders at a bay IN_SERVICE. -/
def blockedPort (r : BayRecord) : Option Port := if r.availability = .inService then headBlocked r else none

theorem blockedPort_none {r : BayRecord} (h : r.availability ≠ .inService ∨ headBlocked r = none) :
    blockedPort r = none := by
  rcases h with h | h
  · exact if_neg h
  · unfold blockedPort
    rw [h, ite_self]

theorem blockedPort_some {r : BayRecord} {p : Port} (hv : r.availability = .inService) (h : headBlocked r = some p) :
    blockedPort r = some p :=
  (if_pos hv).trans h

theorem patienceCheck_recalled {b : Bay} {s : State} (h : (s.bay b).phase = .recalled) : patienceCheck b s = s := by
  unfold patienceCheck
  simp only [h]

theorem patienceCheck_unblocked {b : Bay} {s : State} (hb : blockedPort (s.bay b) = none) :
    ((s.bay b).phase = .none → patienceCheck b s = s) ∧
      ((s.bay b).phase = .patience → patienceCheck b s = stopPatience b s) := by
  have hblocked : (if (s.bay b).availability = .inService then headBlocked (s.bay b) else none) = none := hb
  unfold patienceCheck
  constructor <;> intro h <;> simp only [h, hblocked]

theorem patienceCheck_blocked {b : Bay} {s : State} {p : Port} (hb : blockedPort (s.bay b) = some p) :
    ((s.bay b).phase = .none → patienceCheck b s =
      if (s.bay b).patienceTime = 65535 then s else startPatience b p s) ∧
    ((s.bay b).phase = .patience → patienceCheck b s =
      if (s.bay b).subject = some p then s
      else if (s.bay b).patienceTime = 65535 then stopPatience b s else startPatience b p s) := by
  have hblocked : (if (s.bay b).availability = .inService then headBlocked (s.bay b) else none) = some p := hb
  unfold patienceCheck
  constructor <;> intro h <;> simp only [h, hblocked, patienceOff_iff, decide_eq_true_eq]

theorem startPatience_eq (b : Bay) (p : Port) (s : State) : startPatience b p s =
    if (s.bay b).patienceTime = 0 then
      startRecall b (s.modBay b fun r =>
        { r with
          patienceTimer := some (s.now + r.patienceTime.toNat * 1000), subject := some p, phase := .patience })
    else s.modBay b fun r =>
      { r with
        patienceTimer := some (s.now + r.patienceTime.toNat * 1000), subject := some p, phase := .patience } := by
  unfold startPatience
  dsimp only
  rw [modBay_bay_self]
  rfl

theorem headBlocked_empty {r : BayRecord} (h : r.claims = []) : headBlocked r = none := by
  simp only [headBlocked, h]

theorem headBlocked_exclusive {r : BayRecord} {x : Claim} {rest : List Claim} (hc : r.claims = x :: rest)
    (hm : x.mode = .exclusive) :
    ((∀ q, r.holder q = none) → headBlocked r = none) ∧
      ((∃ q h, r.holder q = some h) → headBlocked r = some x.port) := by
  have hhead : headBlocked r = if r.holderPorts = [] then none else some x.port := by
    simp only [headBlocked, hc, hm]
  refine ⟨fun h => hhead.trans (if_pos ((holderPorts_nil r).2 h)), fun ⟨q, h, hq⟩ => hhead.trans (if_neg fun k => ?_)⟩
  rw [(holderPorts_nil r).1 k q] at hq
  cases hq

theorem headBlocked_shared {r : BayRecord} {x : Claim} {rest : List Claim} (hc : r.claims = x :: rest)
    (hm : x.mode = .shared) :
    ((∃ q h, r.holder q = some h ∧ h.mode = .exclusive) → headBlocked r = some x.port) ∧
      ((∀ q h, r.holder q = some h → h.mode = .shared) → headBlocked r = none) := by
  have hhead : headBlocked r = if r.loanMode = .exclusive then some x.port else none := by
    simp only [headBlocked, hc, hm]
  refine ⟨fun h => hhead.trans (if_pos ((loanMode_exclusive_iff r).2 h)), fun h => hhead.trans (if_neg fun k => ?_)⟩
  obtain ⟨q, x, hq, hx⟩ := (loanMode_exclusive_iff r).1 k
  rw [h q x hq] at hx
  cases hx

/-! ## Settling a WITHDRAWING bay -/

/-- R54: at a WITHDRAWING bay, settling is the completion check. -/
theorem settleBay_withdrawing {b : Bay} {s : State} (h : (s.bay b).availability = .withdrawing) :
    settleBay b s = if (s.bay b).holderPorts = [] ∧ (s.bay b).trailing = 0 then
        appendRecord { note := .bay .withdrawn, port := none, bay := some b }
          (s.modBay b fun r => { r with availability := .withdrawn })
      else s := by
  have hclosed : grantsOpen s b = false := by
    rw [Bool.eq_false_iff, Ne, grantsOpen_iff, h]
    exact fun k => nomatch k.1
  have hsettle : settleBay b s = completionCheck b (grantPass b s) := if_pos h
  rw [hsettle, grantPass_closed hclosed]
  unfold completionCheck
  dsimp only
  simp only [h, true_and]
  rfl

/-! ## The recall timer -/

theorem exec_recallTimerExpiry {s : State} {b : Bay} {d : Nat} (hr : s.phase = .running)
    (hd : (s.bay b).recallTimer = some d) (h : d ≤ s.now) :
    exec (.recallTimerExpiry b) s = .next (transmit (handOut (recallExpiry b s))) := by
  simp only [exec, execRecallTimerExpiry]
  rw [hd, if_pos (timerDue_some h), whenRunning_running _ _ hr]

theorem recallExpiry_eq {b : Bay} {s : State} {cause : Cause}
    (hw : (s.bay b).availability = .withdrawing → cause = .withdrawn)
    (hr : (s.bay b).availability ≠ .withdrawing → cause = .recallExpired) :
    recallExpiry b s = settleBay b (raiseEvent (.recallForced b)
      ((revokePorts b cause (s.bay b).recallSet s).modBay b fun r =>
        { r with phase := .none, recallTimer := none })) := by
  have hcause : (if (s.bay b).availability = .withdrawing then Cause.withdrawn else Cause.recallExpired) = cause := by
    split
    · next h => exact (hw h).symm
    · next h => exact (hr h).symm
  unfold recallExpiry
  rw [hcause]

theorem mem_recallSet {r : BayRecord} {q : Port} {h : Holder} (hq : r.holder q = some h) (hr : h.recalled = true) :
    q ∈ r.recallSet := by
  refine List.mem_filter.2 ⟨mem_allPorts q, ?_⟩
  rw [hq]
  exact hr

/-- R45: a port whose loan at a bay is revoked has nothing there afterwards. -/
theorem revokePorts_nothing {b : Bay} {cause : Cause} {q : Port} {l : List Port} {s : State} {h : Holder}
    (hs : ClaimsSingle s) (hq : (s.bay b).holder q = some h) (hl : q ∈ l) : Nothing (revokePorts b cause l s) q b := by
  refine ⟨revokePorts_none b cause q l s (Or.inl hl), fun hw => holder_not_waiting hs hq ?_⟩
  have hclaims : ((revokePorts b cause l s).bay b).claims = (s.bay b).claims :=
    congrArg (fun x => x.2.1) (adminSide_revokePorts b cause l s)
  exact (waitsAt_congr hclaims q).1 hw

/-! ## The ends of loans and claims -/

theorem revokeLoan_eq (b : Bay) (cause : Cause) (p : Port) (h : Holder) (s : State) : revokeLoan b cause p h s =
    appendRecord
      { note := .loanEnd cause, port := some p, bay := some b, serial := h.serial, count1 := h.blocksRead,
        count2 := h.blocksWritten }
      (if postsRevoked cause then
        postNotice p { bay := b, kind := .revoked, tag := 0, serial := h.serial, cause := cause }
          (endLoanContexts h.serial cause (removeHolder b p s))
      else endLoanContexts h.serial cause (removeHolder b p s)) := rfl

theorem recallSet_set_nil {r : BayRecord} {p : Port} :
    ({ r with holders := r.holders.set p none } : BayRecord).recallSet = [] ↔
      ∀ q k, q ≠ p → r.holder q = some k → k.recalled = false := by
  rw [recallSet_nil]
  refine forall_congr' fun q => ⟨fun h k hq hk => h k ?_, fun h k hk => ?_⟩
  · rw [holder_set, if_neg (Ne.symm hq)]
    exact hk
  · rw [holder_set] at hk
    split at hk
    · cases hk
    · next hp => exact h k (Ne.symm hp) hk

theorem removeHolder_last {b : Bay} {p : Port} {s : State} (hp : (s.bay b).phase = .recalled)
    (h : ∀ q k, q ≠ p → (s.bay b).holder q = some k → k.recalled = false) :
    removeHolder b p s = s.modBay b fun r =>
      { r with holders := r.holders.set p none, phase := .none, recallTimer := none } :=
  modBay_congr (if_pos ⟨hp, recallSet_set_nil.2 h⟩)

theorem removeHolder_other {b : Bay} {p : Port} {s : State}
    (h : (s.bay b).phase ≠ .recalled ∨ ∃ q k, q ≠ p ∧ (s.bay b).holder q = some k ∧ k.recalled = true) :
    removeHolder b p s = s.modBay b fun r => { r with holders := r.holders.set p none } := by
  refine modBay_congr (if_neg ?_)
  rintro ⟨hp, hnil⟩
  rcases h with h | ⟨q, k, hq, hk, hr⟩
  · exact h hp
  · rw [recallSet_set_nil.1 hnil q k hq hk] at hr
    cases hr

theorem revokePorts_cons (b : Bay) (cause : Cause) (p : Port) (rest : List Port) (s : State) :
    revokePorts b cause (p :: rest) s = revokePorts b cause rest (revokePort b cause s p) := rfl

theorem revokePort_none {b : Bay} {cause : Cause} {p : Port} {s : State} (h : (s.bay b).holder p = none) :
    revokePort b cause s p = s := by
  simp only [revokePort, h]

theorem revokePort_some {b : Bay} {cause : Cause} {p : Port} {s : State} {h : Holder}
    (hh : (s.bay b).holder p = some h) :
    revokePort b cause s p = giveAtQuota none p (revokeLoan b cause p h s) := by
  simp only [revokePort, hh]

theorem noticeInto_new {x : Notice} {l : List Notice} (h : ∀ y ∈ l, y.bay ≠ x.bay) : noticeInto x l = l ++ [x] := by
  induction l with
  | nil => rfl
  | cons y l ih =>
    have hy : y.bay ≠ x.bay := h y List.mem_cons_self
    exact (if_neg hy).trans (congrArg (y :: ·) (ih fun z hz => h z (List.mem_cons_of_mem y hz)))

theorem noticeInto_replaces {x y : Notice} {l : List Notice} (r : List Notice) (h : ∀ z ∈ l, z.bay ≠ x.bay)
    (hy : y.bay = x.bay) : noticeInto x (l ++ y :: r) = l ++ x :: r := by
  induction l with
  | nil => exact if_pos hy
  | cons z l ih =>
    have hz : z.bay ≠ x.bay := h z List.mem_cons_self
    exact (if_neg hz).trans (congrArg (z :: ·) (ih fun w hw => h w (List.mem_cons_of_mem z hw)))

end Sys2Proof.Machine

namespace Sys2Proof.Proofs

open Sys2Proof.Machine

/-- Settles O30: by the serial of the port's loan; a released loan is gone by `released_nothing`. -/
theorem loanReleased : Obligations.LoanReleased := by
  intro p f b s hh hf ha hn hk hb
  have hexec := exec_release_at hh hf ha hn hk hb
  refine ⟨fun h hd hs => ⟨?_, fun hsafe t ht => ?_⟩, fun hstale => answersOnly hexec (releaseAt_stale hstale)⟩
  · rw [hexec, releaseAt_own hd hs, releaseLoan_eq]
    rfl
  · rw [hexec, releaseAt_own hd hs] at ht
    obtain ⟨hgone, -⟩ := released_nothing (releaseAnswer f .ok) hsafe.1 hd
    exact next_inj ht ▸ hgone

/-- Settles O31: the grant by the serial counter, the whole pass by `grantPassLoop_spec`, and one look at the head by
`grantPass_cons`. -/
theorem grantsMade : Obligations.GrantsMade := by
  refine ⟨?grant, ?pass, fun b s => ⟨fun h => ?closed, ?head⟩⟩
  case grant =>
    rintro b p mode s u rfl
    unfold grant
    dsimp only
    rw [takeSerial_timeTag, takeSerial_eq]
    rfl
  case pass =>
    rintro b s t hs rfl
    obtain ⟨hend, hheld, hsuffix, hgranted, hother⟩ := grantPassLoop_spec b (s.bay b).claims.length s hs
    refine ⟨fun hv ht he x rest hc => ?_, hheld, hsuffix, hgranted, hother⟩
    exact modeFits_false (hend (Nat.le_refl _) ((grantsOpen_iff _ b).2 ⟨hv, ht, he⟩) x rest hc)
  case closed =>
    by_cases hc : (s.bay b).claims = []
    · exact grantPass_empty hc
    · refine grantPass_closed ?_
      rw [Bool.eq_false_iff, Ne, grantsOpen_iff]
      rintro ⟨hv, ht, he⟩
      rcases h with h | h | h | h
      · exact h hv
      · exact h ht
      · rw [he] at h; cases h
      · exact hc h
  case head =>
    intro x rest hs hc hv ht he
    have hopen := (grantsOpen_iff s b).2 ⟨hv, ht, he⟩
    refine ⟨fun hmode => ?_, fun hmode => ⟨fun hp => ?_, fun hp => ?_⟩⟩
    · rw [grantPass_cons hc hopen, if_neg (ne_true_of_eq_false (modeFits_eq_false.2 hmode))]
    · rw [grantPass_granted hs hc hopen (modeFits_true.2 hmode) hp, grantClaim, removeClaim_head hs hc]
      rfl
    · exact grantPass_refused hs hc hopen (modeFits_true.2 hmode) hp

/-- Settles O32: the patience check by the phase and `blockedPort`; settling by the availability. -/
theorem patienceChecked : Obligations.PatienceChecked := by
  refine ⟨?check, fun r => ⟨headBlocked_empty, fun x rest hc => ?heads⟩, fun b s => ⟨settleBay_serving, fun hv => ?_⟩⟩
  case check =>
    rintro b s r rfl
    refine ⟨patienceCheck_recalled, fun h => ?_, fun p hv hb => ⟨fun hp hs => ?_, fun h => ?_⟩⟩
    · exact patienceCheck_unblocked (blockedPort_none h)
    · rw [(patienceCheck_blocked (blockedPort_some hv hb)).2 hp, if_pos hs]
    · obtain ⟨hnone, hpatience⟩ := patienceCheck_blocked (blockedPort_some hv hb)
      have hstart : (s.bay b).patienceTime ≠ 65535 → patienceCheck b s = startPatience b p s := fun ht => by
        rcases h with h | ⟨h, hs⟩
        · rw [hnone h, if_neg ht]
        · rw [hpatience h, if_neg hs, if_neg ht]
      refine ⟨fun ht hz => ?_, fun hz => ?_, fun ht => ⟨fun hp => ?_, fun hp => ?_⟩⟩
      · rw [hstart ht, startPatience_eq, if_neg hz]
      · rw [hstart (by rw [hz]; decide), startPatience_eq, if_pos hz]
        refine congrArg (startRecall b) (modBay_congr ?_)
        rw [hz]
        rfl
      · rw [hnone hp, if_pos ht]
      · have hs := (h.resolve_left (by rw [hp]; exact nofun)).2
        rw [hpatience hp, if_neg hs, if_pos ht]
        rfl
  case heads =>
    exact ⟨fun hm => (headBlocked_exclusive hc hm).1, fun hm => (headBlocked_exclusive hc hm).2,
      fun hm => (headBlocked_shared hc hm).1, fun hm => (headBlocked_shared hc hm).2⟩
  · refine ⟨fun h => ?_, fun hn ht => ?_⟩
    · rw [settleBay_withdrawing hv, if_neg]
      rintro ⟨hn, ht⟩
      rcases h with ⟨q, x, hq⟩ | h
      · rw [(holderPorts_nil _).1 hn q] at hq
        cases hq
      · exact h ht
    · rw [settleBay_withdrawing hv, if_pos ⟨(holderPorts_nil _).2 hn, ht⟩]

/-- Settles O34: the event is `recallExpiry_eq`; a revoked port neither holds nor waits, and later steps of the event
give it nothing. -/
theorem recallExpires : Obligations.RecallExpires := by
  intro b d s cause hr hd h hw hc
  have hexec := exec_recallTimerExpiry hr hd h
  rw [recallExpiry_eq hw hc] at hexec
  refine ⟨hexec, fun hsafe t ht q x hq hx => ?_⟩
  have hkeep := Nothing.core q b
  have hrevoked := revokePorts_nothing (cause := cause) hsafe.1 hq (mem_recallSet hq hx)
  obtain ⟨hgone, -⟩ := hkeep.transmit _ (hkeep.handOut _ (hkeep.settleBay b _
    (hkeep.raiseEvent (.recallForced b) _ (hkeep.bay' _ b
      (fun r => { r with phase := .none, recallTimer := none }) hrevoked))))
  exact next_inj (hexec.symm.trans ht) ▸ hgone

/-- Settles O35: each end by its equation; the Notice List by its recursion. -/
theorem loansAndClaimsEnded : Obligations.LoansAndClaimsEnded := by
  refine ⟨?loans, fun b cause s => ⟨rfl, fun p rest => ⟨fun h => ?_, fun h hh => ?_⟩⟩, ?claims,
    fun x => ⟨fun l => noticeInto_new, fun l y r h hy => noticeInto_replaces r h hy⟩⟩
  case loans =>
    rintro b cause p h s u rfl
    refine ⟨fun hc => ?_, fun hc => ?_, removeHolder_last, removeHolder_other⟩
    · rw [revokeLoan_eq]
      rcases hc with rfl | rfl | rfl <;> rfl
    · rw [revokeLoan_eq]
      rcases hc with rfl | rfl | rfl | rfl <;> rfl
  case claims =>
    rintro b cause x s u rfl
    unfold refuseClaim
    rw [removeClaim_eq]
    exact ⟨rfl, rfl⟩
  · rw [revokePorts_cons, revokePort_none h]
  · rw [revokePorts_cons, revokePort_some hh]

end Sys2Proof.Proofs
end

section
/-! PROOF. What the end of a loan does to its contexts (R77 to R79), and what raising an event does (R185 to R187). -/

namespace Sys2Proof.Machine

/-! ## The contexts of an ended loan -/

/-- R79: the state after the ISSUED contexts of a loan have become trailing. -/
def trailed (serial : Word48) (cause : Cause) (s : State) : State := (issuedOf s serial).foldl (makeTrailing cause) s

theorem endLoanContexts_eq (serial : Word48) (cause : Cause) (s : State) : endLoanContexts serial cause s =
    (unissuedOf (trailed serial cause s) serial).foldl (endUnissued cause) (trailed serial cause s) := rfl

theorem mem_issuedOf (s : State) (serial : Word48) (c : CtxId) :
    c ∈ issuedOf s serial ↔ (s.ctx c).state = .issued ∧ (s.ctx c).serial = serial := by
  simp only [issuedOf, List.mem_filter, mem_allContexts, true_and, Bool.and_eq_true, decide_eq_true_eq]

theorem issuedOf_nodup (s : State) (serial : Word48) : (issuedOf s serial).Nodup := allContexts_nodup.filter _

theorem mem_unissuedOf (s : State) (serial : Word48) (c : CtxId) : c ∈ unissuedOf s serial ↔
    ((s.ctx c).state = .queued ∨ (s.ctx c).state = .reissue) ∧ (s.ctx c).serial = serial := by
  rw [unissuedOf, (inAdmissionOrder_perm s _).mem_iff]
  simp only [List.mem_filter, mem_allContexts, true_and, Bool.and_eq_true, Bool.or_eq_true, decide_eq_true_eq]

theorem unissuedOf_nodup (s : State) (serial : Word48) : (unissuedOf s serial).Nodup :=
  (inAdmissionOrder_perm s _).symm.nodup (allContexts_nodup.filter _)

theorem trailed_ctx (serial : Word48) (cause : Cause) (s : State) (c : CtxId) : (trailed serial cause s).ctx c =
    if (s.ctx c).state = .issued ∧ (s.ctx c).serial = serial then
      { s.ctx c with trailing := true, endCause := endCauseOfCause cause }
    else s.ctx c := by
  unfold trailed
  rw [makeTrailing_fold cause _ (issuedOf_nodup s serial)]
  simp only [mem_issuedOf]

/-- What becoming trailing leaves of a context. -/
theorem trailed_fields (serial : Word48) (cause : Cause) (s : State) (c : CtxId) :
    ((trailed serial cause s).ctx c).state = (s.ctx c).state ∧
      ((trailed serial cause s).ctx c).serial = (s.ctx c).serial ∧
      ((trailed serial cause s).ctx c).port = (s.ctx c).port ∧
      ((trailed serial cause s).ctx c).bay = (s.ctx c).bay ∧
      ((trailed serial cause s).ctx c).admission = (s.ctx c).admission := by
  rw [trailed_ctx]
  split <;> exact ⟨rfl, rfl, rfl, rfl, rfl⟩

theorem mem_unissuedOf_trailed (serial : Word48) (cause : Cause) (s : State) (c : CtxId) :
    c ∈ unissuedOf (trailed serial cause s) serial ↔
      ((s.ctx c).state = .queued ∨ (s.ctx c).state = .reissue) ∧ (s.ctx c).serial = serial := by
  obtain ⟨hstate, hserial, -⟩ := trailed_fields serial cause s c
  rw [mem_unissuedOf, hstate, hserial]

theorem endLoanContexts_ctx (serial : Word48) (cause : Cause) (s : State) (c : CtxId) :
    (endLoanContexts serial cause s).ctx c =
      if ((s.ctx c).state = .queued ∨ (s.ctx c).state = .reissue) ∧ (s.ctx c).serial = serial then
        { (trailed serial cause s).ctx c with
          state := .reply, endCause := endCauseOfCause cause, outcome := outcomeOfCause cause }
      else (trailed serial cause s).ctx c := by
  rw [endLoanContexts_eq, endUnissued_fold cause _ (unissuedOf_nodup _ _)]
  simp only [mem_unissuedOf_trailed]

theorem endLoanContexts_bay (serial : Word48) (cause : Cause) (s : State) (b : Bay) :
    (endLoanContexts serial cause s).bay b =
      { s.bay b with
        trailing := (s.bay b).trailing + (allContexts.filter fun c =>
          decide ((s.ctx c).state = .issued ∧ (s.ctx c).serial = serial ∧ (s.ctx c).bay = b)).length } := by
  rw [endLoanContexts_eq, bay_congr (endUnissued_fold_bays cause _ _) b, trailed, makeTrailing_fold_bay, issuedOf,
    List.filter_filter]
  have hsame : (allContexts.filter fun c => decide ((s.ctx c).bay = b) &&
      (decide ((s.ctx c).state = .issued) && decide ((s.ctx c).serial = serial))) =
      allContexts.filter fun c =>
        decide ((s.ctx c).state = .issued ∧ (s.ctx c).serial = serial ∧ (s.ctx c).bay = b) :=
    List.filter_congr fun c _ => by
      rw [Bool.eq_iff_iff]
      simp only [Bool.and_eq_true, decide_eq_true_eq]
      grind
  rw [hsame]

/-- R77, R78: the contexts of a port that a loan's end sends to REPLY, in the order of admission. -/
def repliesOf (serial : Word48) (cause : Cause) (s : State) (p : Port) : List CtxId :=
  (unissuedOf (trailed serial cause s) serial).filter fun c => decide ((s.ctx c).port = p)

theorem repliesOf_nodup (serial : Word48) (cause : Cause) (s : State) (p : Port) :
    (repliesOf serial cause s p).Nodup :=
  (unissuedOf_nodup _ _).filter _

theorem mem_repliesOf (serial : Word48) (cause : Cause) (s : State) (p : Port) (c : CtxId) :
    c ∈ repliesOf serial cause s p ↔ (s.ctx c).serial = serial ∧
      ((s.ctx c).state = .queued ∨ (s.ctx c).state = .reissue) ∧ (s.ctx c).port = p := by
  rw [repliesOf, List.mem_filter, mem_unissuedOf_trailed, decide_eq_true_eq]
  grind

theorem repliesOf_sorted (serial : Word48) (cause : Cause) (s : State) (p : Port) :
    (repliesOf serial cause s p).Pairwise fun c d => (s.ctx c).admission ≤ (s.ctx d).admission := by
  have hsorted := inAdmissionOrder_sorted (trailed serial cause s)
    (allContexts.filter fun c =>
      (((trailed serial cause s).ctx c).state = .queued || ((trailed serial cause s).ctx c).state = .reissue) &&
        ((trailed serial cause s).ctx c).serial = serial)
  refine (hsorted.imp fun {c d} h => ?_).filter _
  obtain ⟨-, -, -, -, hc⟩ := trailed_fields serial cause s c
  obtain ⟨-, -, -, -, hd⟩ := trailed_fields serial cause s d
  rwa [hc, hd] at h

theorem endLoanContexts_lists (serial : Word48) (cause : Cause) (s : State) (p : Port) :
    (endLoanContexts serial cause s).replies p = s.replies p ++ repliesOf serial cause s p ∧
    (endLoanContexts serial cause s).live p = s.live p - (repliesOf serial cause s p).length ∧
    ∀ b, ((endLoanContexts serial cause s).service b).lists[p] = ((s.service b).lists[p]).filter (fun c =>
        decide (¬ (c ∈ unissuedOf (trailed serial cause s) serial ∧ (s.ctx c).bay = b ∧ (s.ctx c).port = p))) ∧
      ((endLoanContexts serial cause s).service b).reissue = (s.service b).reissue.filter (fun c =>
        decide (¬ (c ∈ unissuedOf (trailed serial cause s) serial ∧ (s.ctx c).bay = b))) := by
  have hfields := trailed_fields serial cause s
  obtain ⟨hservices, hlive, hreplies⟩ := makeTrailing_fold_rest cause (issuedOf s serial) s
  have hport : ∀ c, ((trailed serial cause s).ctx c).port = (s.ctx c).port := fun c => (hfields c).2.2.1
  have hbay : ∀ c, ((trailed serial cause s).ctx c).bay = (s.ctx c).bay := fun c => (hfields c).2.2.2.1
  have hlists := endUnissued_fold_lists cause (unissuedOf (trailed serial cause s) serial) (trailed serial cause s) p
  simp only [hport, hbay] at hlists
  rw [← endLoanContexts_eq] at hlists
  unfold State.replies State.live State.service at hlists ⊢
  unfold repliesOf
  rw [show (trailed serial cause s).pool.replies = s.pool.replies from hreplies,
    show (trailed serial cause s).pool.live = s.pool.live from hlive,
    show (trailed serial cause s).services = s.services from hservices] at hlists
  exact hlists

/-! ## Raising an event -/

theorem raiseEvent_new {e : Event} {s : State} (h : hasEvent s.raised e = false) : raiseEvent e s =
    if hasEvent s.enabled e then tellSupervisors (withRaised e s) else withRaised e s :=
  if_neg (ne_true_of_eq_false h)

theorem withRaised_hasEvent (e x : Event) (s : State) :
    hasEvent (withRaised e s).raised x = (hasEvent s.raised x || decide (x = e)) :=
  hasEvent_or s.raised e x

theorem raiseEvent_new_hasEvent {e : Event} {s : State} (h : hasEvent s.raised e = false) (x : Event) :
    hasEvent (raiseEvent e s).raised x = (hasEvent s.raised x || decide (x = e)) := by
  rw [raiseEvent_new h]
  split
  · rw [tellSupervisors_only]
    exact withRaised_hasEvent e x s
  · exact withRaised_hasEvent e x s

theorem raiseEvent_new_alert {e : Event} {s : State} (h : hasEvent s.raised e = false) :
    (raiseEvent e s).alert = shareEvent (raiseEvent e s).raised s.enabled := by
  rw [raiseEvent_new h]
  split
  · rw [tellSupervisors_only]
    rfl
  · rfl

theorem hearsEvents_iff (s : State) (p : Port) :
    hearsEvents s p = true ↔ (s.port p).role = .supervisor ∧ (s.presence p).state = .active := by
  simp only [hearsEvents, Bool.and_eq_true, decide_eq_true_eq]

theorem raiseEvent_new_port {e : Event} {s : State} (h : hasEvent s.raised e = false) (p : Port) :
    (raiseEvent e s).port p =
      if hasEvent s.enabled e = true ∧ (s.port p).role = .supervisor ∧ (s.presence p).state = .active then
        { s.port p with eventNews := true }
      else s.port p := by
  rw [raiseEvent_new h]
  by_cases he : hasEvent s.enabled e = true
  · rw [if_pos he, tellSupervisors_port]
    simp only [hearsEvents_iff, he, true_and]
    rfl
  · rw [if_neg he, if_neg (fun k => he k.1)]
    rfl

theorem raiseEvent_parts (e : Event) (s : State) : raiseEvent e s =
    { s with
      raised := (raiseEvent e s).raised, alert := (raiseEvent e s).alert, ports := (raiseEvent e s).ports } := by
  obtain ⟨r, a, h | h⟩ := raiseEvent_only e s
  · rw [h]
  · rw [h, tellSupervisors_only]

end Sys2Proof.Machine

namespace Sys2Proof.Proofs

open Sys2Proof.Machine

/-- Settles O36: each part of the state by its lemma above; the statistics by `endLoanContexts_stats`. -/
theorem loanEndDrainsContexts : Obligations.LoanEndDrainsContexts := by
  rintro serial cause s t rfl
  obtain ⟨hbayStats, hportStats⟩ := endLoanContexts_stats serial cause s
  refine ⟨fun c => ⟨fun hs hi => ?_, fun hs hq => ?_, fun h => ?_⟩, endLoanContexts_bay serial cause s, fun p => ?_,
    fun b => ⟨?_, fun p => ?_⟩, hbayStats, hportStats⟩
  · rw [endLoanContexts_ctx, if_neg (by rw [hi]; rintro ⟨h | h, -⟩ <;> cases h), trailed_ctx, if_pos ⟨hi, hs⟩]
    rfl
  · have hni : ¬ ((s.ctx c).state = .issued ∧ (s.ctx c).serial = serial) := by
      rintro ⟨h, -⟩
      rw [h] at hq
      rcases hq with h | h <;> cases h
    rw [endLoanContexts_ctx, if_pos ⟨hq, hs⟩, trailed_ctx, if_neg hni]
    rfl
  · rw [endLoanContexts_ctx, trailed_ctx, if_neg, if_neg]
    · rintro ⟨hi, hs⟩
      rw [hi] at h
      rcases h with h | h | h
      · exact h hs
      · cases h
      · cases h
    · rintro ⟨hq, hs⟩
      rcases h with h | h | h
      · exact h hs
      all_goals rw [h] at hq; rcases hq with hq | hq <;> cases hq
  · obtain ⟨hreplies, hlive, -⟩ := endLoanContexts_lists serial cause s p
    exact ⟨repliesOf serial cause s p, repliesOf_nodup _ _ _ _, mem_repliesOf _ _ _ _, repliesOf_sorted _ _ _ _,
      hreplies, hlive⟩
  · obtain ⟨-, -, hlists⟩ := endLoanContexts_lists serial cause s 0
    rw [(hlists b).2]
    refine List.filter_congr fun c _ => decide_eq_decide.2 (not_congr ?_)
    rw [mem_unissuedOf_trailed]
    grind
  · obtain ⟨-, -, hlists⟩ := endLoanContexts_lists serial cause s p
    rw [(hlists b).1]
    refine List.filter_congr fun c _ => decide_eq_decide.2 (not_congr ?_)
    rw [mem_unissuedOf_trailed]
    grind

/-- Settles O38: by whether the event is in the raised set. -/
theorem eventRaised : Obligations.EventRaised := by
  refine fun e s => ⟨fun h => if_pos h, fun h => ?_⟩
  exact ⟨raiseEvent e s, rfl, raiseEvent_new_hasEvent h, raiseEvent_new_alert h, raiseEvent_new_port h,
    raiseEvent_parts e s⟩

end Sys2Proof.Proofs
end

section
/-! PROOF. Operations: the nine checks (R66, R68), allocation (R69, R70), and the hand-out of contexts (R71, R72). -/

namespace Sys2Proof.Machine

/-! ## The checks of an operation -/

theorem admissionCheck_port {s : State} {p : Port} {kind : OpKind} {f : FrameFields} {st : Status}
    (h : portRefusal s p = some st) : admissionCheck s p kind f = .error st := by
  simp only [admissionCheck, h]

theorem admissionCheck_fields {s : State} {p : Port} {kind : OpKind} {f : FrameFields}
    (ha : (s.presence p).state = .active) (h : operationFieldsOk kind f = false) :
    admissionCheck s p kind f = .error .format := by
  simp only [admissionCheck, portRefusal_active ha, h]
  rfl

theorem admissionCheck_bay {s : State} {p : Port} {kind : OpKind} {f : FrameFields}
    (ha : (s.presence p).state = .active) (hf : operationFieldsOk kind f = true) (h : 12 ≤ f.bay.toNat) :
    admissionCheck s p kind f = .error .range := by
  simp only [admissionCheck, portRefusal_active ha, hf, bayOf_none.2 h]
  rfl

/-- R66 steps 4 to 9: the checks of an operation that names a bay. -/
def checkAt (s : State) (p : Port) (kind : OpKind) (f : FrameFields) (b : Bay) : Except Status Bay :=
  if operationLengthOk kind f = false then .error .length
  else if operationCountOk kind f = false then .error .range
  else if tagInUse s p f.tag = true then .error .dupTag
  else
    ((s.bay b).holder p).elim (.error .stale) fun h =>
      if h.serial ≠ f.serial then .error .stale
      else if kind = .write ∧ h.mode ≠ .exclusive then .error .denied
      else if kind ≠ .sync ∧ (s.bay b).capacity.toNat < f.block.toNat + f.count.toNat then .error .range
      else .ok b

theorem admissionCheck_at {s : State} {p : Port} {kind : OpKind} {f : FrameFields} {b : Bay}
    (ha : (s.presence p).state = .active) (hf : operationFieldsOk kind f = true) (hb : bayOf f.bay = some b) :
    admissionCheck s p kind f = checkAt s p kind f b := by
  simp only [admissionCheck, checkAt, portRefusal_active ha, hf, hb, Bool.not_true, Bool.false_eq_true, if_false,
    Bool.not_eq_true']
  cases (s.bay b).holder p <;> rfl

theorem checkAt_length {s : State} {p : Port} {kind : OpKind} {f : FrameFields} {b : Bay}
    (h : operationLengthOk kind f = false) : checkAt s p kind f b = .error .length :=
  if_pos h

theorem checkAt_count {s : State} {p : Port} {kind : OpKind} {f : FrameFields} {b : Bay}
    (hl : operationLengthOk kind f = true) (h : operationCountOk kind f = false) :
    checkAt s p kind f b = .error .range :=
  (if_neg (ne_false_of_eq_true hl)).trans (if_pos h)

theorem checkAt_tag {s : State} {p : Port} {kind : OpKind} {f : FrameFields} {b : Bay}
    (hl : operationLengthOk kind f = true) (hc : operationCountOk kind f = true) (h : tagInUse s p f.tag = true) :
    checkAt s p kind f b = .error .dupTag :=
  (if_neg (ne_false_of_eq_true hl)).trans ((if_neg (ne_false_of_eq_true hc)).trans (if_pos h))

theorem checkAt_stale {s : State} {p : Port} {kind : OpKind} {f : FrameFields} {b : Bay}
    (hl : operationLengthOk kind f = true) (hc : operationCountOk kind f = true) (ht : tagInUse s p f.tag = false)
    (h : ∀ x, (s.bay b).holder p = some x → x.serial ≠ f.serial) : checkAt s p kind f b = .error .stale := by
  unfold checkAt
  rw [if_neg (ne_false_of_eq_true hl), if_neg (ne_false_of_eq_true hc), if_neg (ne_true_of_eq_false ht)]
  cases hh : (s.bay b).holder p with
  | none => rfl
  | some x => exact if_pos (h x hh)

theorem checkAt_held {s : State} {p : Port} {kind : OpKind} {f : FrameFields} {b : Bay} {x : Holder}
    (hl : operationLengthOk kind f = true) (hc : operationCountOk kind f = true) (ht : tagInUse s p f.tag = false)
    (hh : (s.bay b).holder p = some x) (hs : x.serial = f.serial) : checkAt s p kind f b =
      if kind = .write ∧ x.mode ≠ .exclusive then .error .denied
      else if kind ≠ .sync ∧ (s.bay b).capacity.toNat < f.block.toNat + f.count.toNat then .error .range
      else .ok b := by
  unfold checkAt
  rw [if_neg (ne_false_of_eq_true hl), if_neg (ne_false_of_eq_true hc), if_neg (ne_true_of_eq_false ht), hh]
  exact if_neg (not_not_intro hs)

theorem operationLengthOk_write {f : FrameFields}
    (h : f.count = 0 ∨ 16 < f.count.toNat ∨ f.payload.length ≠ f.count.toNat * 4096) :
    operationLengthOk .write f = false := by
  rw [Bool.eq_false_iff]
  intro hok
  simp only [operationLengthOk, Bool.and_eq_true, decide_eq_true_eq] at hok
  obtain ⟨⟨hlow, hhigh⟩, hlen⟩ := hok
  rcases h with h | h | h
  · rw [h] at hlow
    exact absurd hlow (by decide)
  · omega
  · exact h hlen

theorem operationLengthOk_other {kind : OpKind} {f : FrameFields} (hk : kind ≠ .write) :
    operationLengthOk kind f = decide (f.payload = []) := by
  cases kind with
  | read | sync => rfl
  | write => exact absurd rfl hk

theorem operationCountOk_read {f : FrameFields} (h : f.count = 0 ∨ 16 < f.count.toNat) :
    operationCountOk .read f = false := by
  refine decide_eq_false ?_
  rintro ⟨hlow, hhigh⟩
  rcases h with h | h
  · rw [h] at hlow
    exact absurd hlow (by decide)
  · omega

/-! ## An operation that passes -/

theorem tagInUse_eq_false {s : State} {p : Port} {tag : BitVec 16} (h : tagInUse s p tag = false) (c : CtxId)
    (hl : isLive (s.ctx c) = true) (ho : (s.ctx c).orphaned = false) (hp : (s.ctx c).port = p) :
    (s.ctx c).tag ≠ tag := by
  rintro rfl
  have hlive : (s.ctx c).state = .queued ∨ (s.ctx c).state = .reissue ∨ (s.ctx c).state = .issued := by
    simpa only [isLive, Bool.or_eq_true, decide_eq_true_eq, or_assoc] using hl
  rw [(tagInUse_iff s p _).2 ⟨c, hlive, ho, hp, rfl⟩] at h
  cases h

theorem checkAt_ok {s : State} {p : Port} {kind : OpKind} {f : FrameFields} {b b' : Bay}
    (h : checkAt s p kind f b = .ok b') : b' = b ∧ tagInUse s p f.tag = false ∧
      ∃ x, (s.bay b).holder p = some x ∧ x.serial = f.serial ∧ (kind = .write → x.mode = .exclusive) ∧
        (kind ≠ .sync → f.block.toNat + f.count.toNat ≤ (s.bay b).capacity.toNat) := by
  cases hl : operationLengthOk kind f with
  | false => rw [checkAt_length hl] at h; cases h
  | true =>
  cases hc : operationCountOk kind f with
  | false => rw [checkAt_count hl hc] at h; cases h
  | true =>
  cases ht : tagInUse s p f.tag with
  | true => rw [checkAt_tag hl hc ht] at h; cases h
  | false =>
  by_cases hs : ∀ x, (s.bay b).holder p = some x → x.serial ≠ f.serial
  · rw [checkAt_stale hl hc ht hs] at h
    cases h
  · simp only [Classical.not_forall, Classical.not_not] at hs
    obtain ⟨x, hx, hserial⟩ := hs
    rw [checkAt_held hl hc ht hx hserial] at h
    split at h
    · cases h
    · next hmode =>
      split at h
      · cases h
      · next hfit =>
        refine ⟨(Except.ok.inj h).symm, rfl, x, hx, hserial, fun hk => ?_, fun hk => ?_⟩
        · exact Decidable.not_not.1 fun hm => hmode ⟨hk, hm⟩
        · exact Nat.not_lt.1 fun hlt => hfit ⟨hk, hlt⟩

theorem admissionCheck_ok {s : State} {p : Port} {kind : OpKind} {f : FrameFields} {b : Bay}
    (h : admissionCheck s p kind f = .ok b) :
    (s.presence p).state = .active ∧ bayOf f.bay = some b ∧ checkAt s p kind f b = .ok b := by
  cases hs : (s.presence p).state with
  | off | new | test | lapsed => rw [admissionCheck_port (portRefusal_eq hs)] at h; cases h
  | active =>
  cases hf : operationFieldsOk kind f with
  | false => rw [admissionCheck_fields hs hf] at h; cases h
  | true =>
  cases hb : bayOf f.bay with
  | none => rw [admissionCheck_bay hs hf (bayOf_none.1 hb)] at h; cases h
  | some b' =>
    rw [admissionCheck_at hs hf hb] at h
    obtain ⟨rfl, -⟩ := checkAt_ok h
    exact ⟨rfl, rfl, h⟩

/-! ## Allocation -/

theorem belowQuota_iff (s : State) (p : Port) : belowQuota s p = true ↔ s.live p < s.quota p := decide_eq_true_iff

theorem admitOperation_allocates {s : State} {p : Port} {kind : OpKind} {f : FrameFields} {b : Bay} {c : CtxId}
    (h : admissionCheck s p kind f = .ok b) (hc : firstFree s = some c) (hq : s.live p < s.quota p) :
    admitOperation p kind f s = allocate c p kind b f s := by
  simp only [admitOperation, h, hc]
  exact if_pos ((belowQuota_iff s p).2 hq)

theorem admitOperation_waits {s : State} {p : Port} {kind : OpKind} {f : FrameFields} {b : Bay}
    (h : admissionCheck s p kind f = .ok b) (hw : (∀ c, (s.ctx c).state ≠ .free) ∨ s.quota p ≤ s.live p) :
    admitOperation p kind f s = waitForContext p s := by
  cases hc : firstFree s with
  | none => simp only [admitOperation, h, hc]
  | some c =>
    have hfree : ¬ ∀ c, (s.ctx c).state ≠ .free := fun k => by
      rw [firstFree_none.2 k] at hc
      cases hc
    have hfull := hw.resolve_left hfree
    simp only [admitOperation, h, hc]
    exact if_neg (by rw [belowQuota_iff]; omega)

/-! ## Offers -/

theorem notEligible_of {s : State} {p : Port} (h : waitingHead s p = none ∨ s.quota p ≤ s.live p) :
    ((waitingHead s p).isSome && belowQuota s p) = false :=
  notEligible_iff.2 h

theorem eligiblePort_of {s : State} {p : Port} (h : waitingHead s p ≠ none) (hq : s.live p < s.quota p) :
    ((waitingHead s p).isSome && belowQuota s p) = true := by
  rw [← Bool.not_eq_false, notEligible_iff]
  rintro (k | k)
  · exact h k
  · omega

theorem nextEligible_turn {s : State} {i : Port} (h : waitingHead s (s.pool.lastGranted + 1 + i) ≠ none)
    (hq : s.live (s.pool.lastGranted + 1 + i) < s.quota (s.pool.lastGranted + 1 + i))
    (hj : ∀ j, j < i → waitingHead s (s.pool.lastGranted + 1 + j) = none ∨
      s.quota (s.pool.lastGranted + 1 + j) ≤ s.live (s.pool.lastGranted + 1 + j)) :
    nextEligible s = some (s.pool.lastGranted + 1 + i) :=
  turnAfter_find (P := fun p => (waitingHead s p).isSome && belowQuota s p) _ i (eligiblePort_of h hq)
    fun j hlt => notEligible_of (hj j hlt)

theorem offerHolding_some {held : Option Bay} {s : State} {c : CtxId} {p : Port} (hc : firstFree s = some c)
    (hp : nextEligible s = some p) : offerHolding held s = some (takeUp held c p s) := by
  simp only [offerHolding, hc, hp]

theorem offerHolding_none {held : Option Bay} {s : State}
    (h : (∀ c, (s.ctx c).state ≠ .free) ∨ ∀ p, waitingHead s p = none ∨ s.quota p ≤ s.live p) :
    offerHolding held s = none := by
  rcases h with h | h
  · simp only [offerHolding, firstFree_none.2 h]
  · cases hc : firstFree s <;> simp only [offerHolding, hc, nextEligible_none.2 h]

theorem giveAtQuota_eq (held : Option Bay) (p : Port) (s : State) : giveAtQuota held p s =
    (firstFree s).elim s fun c =>
      if (waitingHead s p).isSome && belowQuota s p then takeUp held c p s else s := by
  unfold giveAtQuota
  cases firstFree s <;> rfl

theorem seat_eq {c : CtxId} {p : Port} {kind : OpKind} {b : Bay} {f : FrameFields} {s u v : State}
    (hu : u = (((s.modCtx c fun _ =>
        { state := .queued, port := p, tag := f.tag, kind := kind, bay := b, serial := f.serial, block := f.block,
          count := f.count.toNat, lane := none, attempts := 0, outcome := .good, trailing := false,
          endCause := .none, checkWarn := false, orphaned := false,
          data := if kind = .write then f.payload else [], admission := s.pool.admitted }).modPort p fun n =>
      flowAct { n with intake := n.intake.drop 1, reserved := false }).modLive p fun n => n + 1))
    (hv : v = ((u.modBay b fun r =>
      { r with holders := r.holders.set p ((r.holder p).map fun h => { h with live := h.live + 1 }) }).modService b
        fun w => { w with lists := w.lists.set p (w.lists[p] ++ [c]) })) :
    seat c p kind b f s = { v with pool := { v.pool with lastGranted := p, admitted := s.pool.admitted + 1 } } := by
  subst hu hv
  rfl

end Sys2Proof.Machine

namespace Sys2Proof.Proofs

open Sys2Proof.Machine

/-- Settles O39: every refusal by the check of `admissionCheck` that fails first. -/
theorem operationRefused : Obligations.OperationRefused := by
  intro p k kind f s h hk
  refine ⟨fun hs => ?_, fun hs => ?_, fun ha => ⟨fun hbad => ?_, fun hf hg hn => ?fields⟩⟩
  · exact refusesOperation h hk (admissionCheck_port (portRefusal_notAdmitted hs))
  · exact refusesOperation h hk (admissionCheck_port (portRefusal_eq hs))
  · refine refusesOperation h hk (admissionCheck_fields ha ?_)
    rw [Bool.eq_false_iff, Ne, operationFieldsOk_iff]
    grind
  case fields =>
    have hfields := (operationFieldsOk_iff kind f).2 ⟨hf, hg, hn⟩
    refine ⟨fun hb => refusesOperation h hk (admissionCheck_bay ha hfields hb), fun b hb => ?_⟩
    have refuses : ∀ {st}, checkAt s p kind f b = .error st → RefusesOperation p f s st := fun hc =>
      refusesOperation h hk ((admissionCheck_at ha hfields hb).trans hc)
    refine ⟨fun hw hbad => ?_, fun hw hbad => ?_, fun hr hnil hbad => ?_, fun hl hc => ⟨fun ht => ?_, fun ht =>
      ⟨fun hs => refuses (checkAt_stale hl hc ht hs), fun x hx hs => ⟨fun hw hm => ?_, fun hsync hw hfit => ?_⟩⟩⟩⟩
    · subst hw
      exact refuses (checkAt_length (operationLengthOk_write hbad))
    · refine refuses (checkAt_length ?_)
      rw [operationLengthOk_other hw, decide_eq_false hbad]
    · subst hr
      exact refuses (checkAt_count (decide_eq_true hnil) (operationCountOk_read hbad))
    · exact refuses (checkAt_tag hl hc ((tagInUse_iff s p f.tag).2 ht))
    · refine refuses ((checkAt_held hl hc ht hx hs).trans (if_pos ⟨hw, ?_⟩))
      rw [hm]
      exact nofun
    · exact refuses ((checkAt_held hl hc ht hx hs).trans
        ((if_neg fun k => k.2 (hw k.1)).trans (if_pos ⟨hsync, hfit⟩)))

/-- Settles O40: an admitted operation is allocated or waits (`admitOperation_allocates`, `admitOperation_waits`), and
what it has shown is `admissionCheck_ok`. -/
theorem operationAdmitted : Obligations.OperationAdmitted := by
  refine ⟨fun p k kind f b s h hk hok => ⟨fun c hc hd hq => ?_, fun hw => ?_⟩, fun s p kind f b hok => ?_⟩
  · rw [exec_operationAdmission h hk, admitOperation_allocates hok (firstFree_some.2 ⟨hc, hd⟩) hq, allocate,
      seat_eq rfl rfl]
  · rw [exec_operationAdmission h hk, admitOperation_waits hok hw]
    rfl
  · obtain ⟨ha, hb, hcheck⟩ := admissionCheck_ok hok
    obtain ⟨-, ht, hheld⟩ := checkAt_ok hcheck
    exact ⟨ha, hb, tagInUse_eq_false ht, hheld⟩

/-- Settles O41: each offer goes to the port that `nextEligible_turn` names; a hand-out makes one offer and goes on. -/
theorem contextsHandedOut : Obligations.ContextsHandedOut := by
  refine ⟨fun s hr => whenRunning_running _ _ hr, fun s => ?ends, fun s c i kind f hc hd hw hq hj => ?offers,
    fun held s c p kind f hw => takeUp_eq hw, fun held s => ⟨fun h => handOutHolding_none (offerHolding_none h),
      fun c i hc hd hw hq hj => ?_, fun p h => ?_, fun p c hc hd hw hq => ?_⟩,
    fun s => rfl, fun c p kind b f s u v hu hv => seat_eq hu hv⟩
  case ends =>
    rcases offer_cases (handOut s) with ⟨-, h⟩ | ⟨t, ht⟩
    · exact h.imp firstFree_none.1 nextEligible_none.1
    · rw [handOut_ends] at ht
      cases ht
  case offers =>
    have hoffer : offer s = some (takeUp none c (s.pool.lastGranted + 1 + i) s) :=
      offerHolding_some (firstFree_some.2 ⟨hc, hd⟩) (nextEligible_turn (by rw [hw]; exact nofun) hq hj)
    obtain ⟨hok, herror⟩ := takeUp_eq (held := none) (c := c) hw
    exact ⟨fun b hb => hoffer.trans (congrArg some (hok b hb)),
      fun st hst => hoffer.trans (congrArg some (herror st hst))⟩
  · exact handOutHolding_some (offerHolding_some (firstFree_some.2 ⟨hc, hd⟩) (nextEligible_turn hw hq hj))
  · rw [giveAtQuota_eq]
    rcases h with h | h
    · rw [firstFree_none.2 h]
      rfl
    · rw [notEligible_of h]
      cases firstFree s <;> rfl
  · rw [giveAtQuota_eq, firstFree_some.2 ⟨hc, hd⟩, eligiblePort_of hw hq]
    rfl

end Sys2Proof.Proofs
end

section
/-! PROOF. The choice of the next context at a bay, the adoption of a bank, and the issue on a lane (R94 to R98, R102 to
R104, R111, R112, R116). -/

namespace Sys2Proof.Machine

/-! ## What a choice looks at -/

theorem canIssue_iff (s : State) (b : Bay) : canIssue s b = true ↔
    (s.drive b).slots.length < 4 ∧ (∀ x ∈ (s.drive b).slots, (s.ctx x.ctx).kind ≠ .sync) ∧
      ((s.drive b).laneA.state = .up ∨ (s.drive b).laneB.state = .up) := by
  simp only [canIssue, Bool.and_eq_true, Bool.or_eq_true, List.all_eq_true, Bool.not_eq_true', decide_eq_true_eq,
    decide_eq_false_iff_not, and_assoc]
  rfl

theorem bayIdle_iff (s : State) (b : Bay) : bayIdle s b = true ↔ ∀ c, (s.ctx c).bay = b →
    (s.ctx c).state ≠ .queued ∧ (s.ctx c).state ≠ .reissue ∧ (s.ctx c).state ≠ .issued := by
  simp only [bayIdle, isLive, List.all_eq_true, mem_allContexts, true_imp_iff, Bool.not_eq_true', Bool.and_eq_false_iff,
    Bool.or_eq_false_iff, decide_eq_false_iff_not]
  refine forall_congr' fun c => ?_
  grind

theorem eligibleHead_iff (s : State) (b : Bay) (p : Port) (c : CtxId) : eligibleHead s b p = some c ↔
    ((s.service b).lists[p]).head? = some c ∧ eligible s b c = true := by
  unfold eligibleHead
  cases ((s.service b).lists[p]).head? with
  | none => exact ⟨nofun, fun h => nomatch h.1⟩
  | some d =>
    by_cases hd : eligible s b d = true
    · simp only [hd, if_true, Option.some.injEq]
      exact ⟨fun h => ⟨h, h ▸ hd⟩, And.left⟩
    · simp only [hd, Option.some.injEq]
      exact ⟨nofun, fun h => absurd (h.1 ▸ h.2) hd⟩

theorem eligibleHead_isSome (s : State) (b : Bay) (p : Port) :
    (eligibleHead s b p).isSome = true ↔ ∃ c, eligibleHead s b p = some c :=
  Option.isSome_iff_exists

theorem creditedPort_iff {s : State} {b : Bay} {turn : Port → Nat}
    (ht : ∀ q, turn q = (q.val + 7 - (s.service b).lastServed.val) % 8) (p : Port) : creditedPort s b = some p ↔
      (0 < (s.service b).credits[p] ∧ ∃ c, eligibleHead s b p = some c) ∧
        ∀ q, turn q < turn p → ¬ (0 < (s.service b).credits[q] ∧ ∃ c, eligibleHead s b q = some c) := by
  unfold creditedPort
  rw [turnAfter_find_iff _ _ p turn ht]
  simp only [Bool.and_eq_true, decide_eq_true_eq, eligibleHead_isSome, ← Bool.not_eq_true]

theorem uncreditedPort_iff {s : State} {b : Bay} {turn : Port → Nat}
    (ht : ∀ q, turn q = (q.val + 7 - (s.service b).lastServed.val) % 8) (p : Port) : uncreditedPort s b = some p ↔
      (∃ c, eligibleHead s b p = some c) ∧ ∀ q, turn q < turn p → eligibleHead s b q = none := by
  unfold uncreditedPort
  rw [turnAfter_find_iff _ _ p turn ht]
  simp only [eligibleHead_isSome, Option.isSome_eq_false_iff, Option.isNone_iff_eq_none]

theorem eligible_sync {s : State} {b : Bay} {c : CtxId} (h : (s.ctx c).kind = .sync) :
    eligible s b c = true ↔ (s.drive b).slots = [] := by
  simp only [eligible, h, decide_eq_true_eq]

theorem overlaps_eq_false (x y : Context) :
    overlaps x y = false ↔ x.block.toNat + x.count ≤ y.block.toNat ∨ y.block.toNat + y.count ≤ x.block.toNat := by
  simp only [overlaps, Bool.and_eq_false_iff, decide_eq_false_iff_not, Nat.not_lt]
  exact or_comm

theorem eligible_blocks {s : State} {b : Bay} {c : CtxId} (h : (s.ctx c).kind ≠ .sync)
    (hs : ∀ x ∈ (s.drive b).slots, (s.ctx x.ctx).kind ≠ .sync) : eligible s b c = true ↔
      ∀ x ∈ (s.drive b).slots,
        (s.ctx c).block.toNat + (s.ctx c).count ≤ (s.ctx x.ctx).block.toNat ∨
          (s.ctx x.ctx).block.toNat + (s.ctx x.ctx).count ≤ (s.ctx c).block.toNat := by
  have hall : eligible s b c = (s.drive b).slots.all fun slot =>
      (s.ctx slot.ctx).kind = .sync || !overlaps (s.ctx c) (s.ctx slot.ctx) := by
    cases hk : (s.ctx c).kind with
    | sync => exact absurd hk h
    | read | write => simp only [eligible, hk]
  rw [hall, List.all_eq_true]
  refine forall_congr' fun x => imp_congr_right fun hx => ?_
  rw [decide_eq_false (hs x hx), Bool.false_or, Bool.not_eq_true', overlaps_eq_false]

/-! ## A choice -/

theorem choose_closed {b : Bay} {s : State} (h : canIssue s b = false) : choose b s = none :=
  if_neg (ne_true_of_eq_false h)

theorem choose_retry {b : Bay} {s : State} {c : CtxId} (hi : canIssue s b = true)
    (h : (s.service b).reissue.find? (eligible s b) = some c) : choose b s = some (issueRetry b c s) := by
  simp only [choose, hi, if_true, h]

theorem no_retry {b : Bay} {s : State} (h : ∀ c ∈ (s.service b).reissue, eligible s b c = false) :
    (s.service b).reissue.find? (eligible s b) = none :=
  List.find?_eq_none.2 fun c hc => ne_true_of_eq_false (h c hc)

theorem choose_credited {b : Bay} {s : State} {p : Port} (hi : canIssue s b = true)
    (hr : (s.service b).reissue.find? (eligible s b) = none) (hp : creditedPort s b = some p) :
    choose b s = some (issueHead b p 1 s) := by
  simp only [choose, hi, if_true, hr, hp]

theorem choose_nothing {b : Bay} {s : State} (hi : canIssue s b = true)
    (hr : (s.service b).reissue.find? (eligible s b) = none) (hp : creditedPort s b = none)
    (hu : ∀ p, eligibleHead s b p = none) : choose b s = none := by
  simp only [choose, hi, if_true, hr, hp, uncreditedPort_none.2 hu]
  rfl

/-- R97, R98: with no credit for an eligible head, the round ends and the choice is made again. -/
theorem choose_roundEnd {b : Bay} {s : State} {q : Port} {c : CtxId} (hi : canIssue s b = true)
    (hr : (s.service b).reissue.find? (eligible s b) = none) (hp : creditedPort s b = none)
    (hq : eligibleHead s b q = some c) :
    (∀ p, creditedPort (roundEnd b s) b = some p → choose b s = some (issueHead b p 1 (roundEnd b s))) ∧
      (∀ p, creditedPort (roundEnd b s) b = none → uncreditedPort (roundEnd b s) b = some p →
        choose b s = some (issueHead b p 0 (roundEnd b s))) := by
  have hsome : (uncreditedPort s b).isSome = true := by
    rw [Option.isSome_iff_ne_none, Ne, uncreditedPort_none]
    intro h
    rw [h q] at hq
    cases hq
  exact ⟨fun p h => by simp only [choose, hi, if_true, hr, hp, hsome, h],
    fun p h h' => by simp only [choose, hi, if_true, hr, hp, hsome, h, h']⟩

/-! ## Heads, retries and banks -/

theorem issueRetry_eq {b : Bay} {c : CtxId} {l : Lane} {s : State} (h : (s.ctx c).lane = some l) :
    issueRetry b c s = issue b c l (s.modService b fun v =>
      { v with reissue := v.reissue.filter fun x => decide (x ≠ c) }) := by
  unfold issueRetry
  rw [h]
  simp only [decide_not]
  rfl

theorem adoptionDue_iff (s : State) (b : Bay) :
    adoptionDue s b = true ↔ s.plan.swapPending = true ∧ (s.service b).bank ≠ s.plan.current := by
  simp only [adoptionDue, Bool.and_eq_true, Bool.not_eq_true', decide_eq_false_iff_not, ne_eq]

theorem not_adoptionDue {s : State} {b : Bay}
    (h : s.plan.swapPending = false ∨ (s.service b).bank = s.plan.current) : adoptionDue s b = false := by
  rw [Bool.eq_false_iff, Ne, adoptionDue_iff]
  rintro ⟨hp, hb⟩
  rcases h with h | h
  · rw [h] at hp
    cases hp
  · exact hb h

theorem adoptIfIdle_early {s : State} {b : Bay} (h : adoptionDue s b = false ∨ bayIdle s b = false) :
    adoptIfIdle b s = s := by
  refine if_neg ?_
  rcases h with h | h <;> rw [h] <;> simp

theorem modService_modService (s : State) (b : Bay) (f g : Service → Service) :
    (s.modService b f).modService b g = s.modService b fun v => g (f v) := by
  simp [State.modService]

/-- R103: an idle bay takes its credits from the bank it adopts. -/
theorem adoptIfIdle_adopts {s : State} {b : Bay} (hd : adoptionDue s b = true) (hi : bayIdle s b = true) :
    adoptIfIdle b s = swapCheck (appendRecord { note := .plan s.plan.current, bay := some b }
      (s.modService b fun v =>
        { v with
          bank := s.plan.current,
          credits := byPort fun p => ((s.plan.bank s.plan.current)[b][p]).val })) := by
  have hboth : (adoptionDue s b && bayIdle s b) = true := by rw [hd, hi]; rfl
  refine (if_pos hboth).trans ?_
  unfold adopt refill
  simp only [modService_modService]
  rfl

theorem roundEnd_adopts {s t : State} {b : Bay} (hd : adoptionDue s b = true)
    (ht : t = swapCheck (appendRecord { note := .plan s.plan.current, bay := some b }
      (s.modService b fun v => { v with bank := s.plan.current }))) :
    roundEnd b s = t.modService b fun v => { v with credits := byPort fun p => ((t.plan.bank v.bank)[b][p]).val } := by
  have hadopt : adopt b s = t := ht.symm
  unfold roundEnd
  rw [if_pos hd, hadopt]
  rfl

theorem roundEnd_keeps {s : State} {b : Bay} (hd : adoptionDue s b = false) :
    roundEnd b s = s.modService b fun v => { v with credits := byPort fun p => ((s.plan.bank v.bank)[b][p]).val } := by
  unfold roundEnd
  rw [if_neg (ne_true_of_eq_false hd)]
  rfl

theorem swapDone_iff (s : State) :
    (s.plan.swapPending && allBays.all fun b => decide ((s.service b).bank = s.plan.current)) = true ↔
      s.plan.swapPending = true ∧ ∀ d, (s.service d).bank = s.plan.current := by
  simp only [Bool.and_eq_true, List.all_eq_true, mem_allBays, true_imp_iff, decide_eq_true_eq]

/-! ## An issue -/

theorem issueLane_up {d : DriveEngine} {wanted : Lane} (h : d.laneA.state = .up ∨ d.laneB.state = .up) :
    (d.lane (issueLane d wanted)).state = .up := by
  unfold issueLane
  split
  · assumption
  · next hw =>
    cases wanted with
    | a => exact h.resolve_left hw
    | b => exact h.resolve_right hw

theorem issueLane_wanted {d : DriveEngine} {wanted : Lane} (h : (d.lane wanted).state = .up) :
    issueLane d wanted = wanted :=
  if_pos h

theorem issue_ctx (b : Bay) (c d : CtxId) (wanted : Lane) (s : State) : (issue b c wanted s).ctx d =
    if c = d then
      { s.ctx d with
        state := .issued, lane := some (issueLane (s.drive b) wanted), attempts := (s.ctx d).attempts + 1 }
    else s.ctx d := by
  unfold issue
  dsimp only
  rw [modDrive_ctx_read, modCtx_at]

theorem issue_drive (b : Bay) (c : CtxId) (wanted : Lane) (s : State) : (issue b c wanted s).drive b =
    { (s.drive b).modLane (issueLane (s.drive b) wanted) (fun r =>
        { r with
          sent := some (contextCommand c ((issue b c wanted s).ctx c)
            (workLimitMs (s.drive b).policy.timeout)) }) with
      slots := (s.drive b).slots ++
        [{ ctx := c, lane := issueLane (s.drive b) wanted, attempt := (s.ctx c).attempts + 1,
           deadline := s.now + timeoutMs (s.drive b).policy.timeout * 1000,
           command := contextCommand c ((issue b c wanted s).ctx c) (workLimitMs (s.drive b).policy.timeout) }] } := by
  have hctx := issue_ctx b c c wanted s
  rw [if_pos rfl] at hctx
  rw [hctx]
  unfold issue
  dsimp only
  rw [modDrive_drive_self, modCtx_at, if_pos rfl]
  rfl

theorem issue_drive_ne {b d : Bay} (c : CtxId) (wanted : Lane) (s : State) (h : d ≠ b) :
    (issue b c wanted s).drive d = s.drive d :=
  modDrive_drive_ne _ _ (Ne.symm h)

end Sys2Proof.Machine

namespace Sys2Proof.Proofs

open Sys2Proof.Machine

/-- Settles O42, part by part: what a choice looks at, the choice itself, banks, and the issue. -/
theorem contextsIssued : Obligations.ContextsIssued := by
  refine ⟨fun s b => ⟨canIssue_iff s b, bayIdle_iff s b, eligibleHead_iff s b, fun turn ht =>
      ⟨creditedPort_iff ht, uncreditedPort_iff ht⟩⟩,
    fun b s => ⟨choose_closed, fun hi => ⟨fun c => choose_retry hi, fun hr => ⟨fun p => choose_credited hi (no_retry hr),
      fun hp => ⟨choose_nothing hi (no_retry hr) hp, fun q c => choose_roundEnd hi (no_retry hr) hp⟩⟩⟩⟩,
    fun b s => ⟨chooseAll_none, fun t => chooseAll_some, choose_chooseAll b s⟩, fun b s => ?steps,
    fun b c wanted s t ht hup => ?issues, fun c x n => ⟨fun h => ?_, fun h => ?_, fun h => ?_⟩,
    ⟨rfl, rfl, rfl, rfl⟩, fun s b c => ⟨eligible_sync, eligible_blocks⟩⟩
  case steps =>
    refine ⟨fun p c rest cost h => issueHead_cons h cost, fun c l => issueRetry_eq,
      fun h => ⟨roundEnd_keeps (not_adoptionDue h), adoptIfIdle_early (Or.inl (not_adoptionDue h))⟩,
      fun hp hb t ht => ?_, fun hp hd => if_pos ((swapDone_iff s).2 ⟨hp, hd⟩), fun h => if_neg ?_⟩
    · have hdue := (adoptionDue_iff s b).2 ⟨hp, hb⟩
      exact ⟨roundEnd_adopts hdue ht, fun hi => adoptIfIdle_early (Or.inr hi), adoptIfIdle_adopts hdue⟩
    · rw [swapDone_iff]
      rintro ⟨hp, hd⟩
      rcases h with h | ⟨d, h⟩
      · rw [h] at hp
        cases hp
      · exact h (hd d)
  case issues =>
    subst ht
    have hctx := issue_ctx b c c wanted s
    rw [if_pos rfl] at hctx
    have hdrive := issue_drive b c wanted s
    refine ⟨issueLane (s.drive b) wanted, issueLane_up hup, issueLane_wanted, hctx, fun d hd => ?_, ?_, ?_, ?_,
      fun d hd => issue_drive_ne c wanted s hd, rfl⟩
    · rw [issue_ctx, if_neg (Ne.symm hd)]
    all_goals generalize issue b c wanted s = t at hdrive ⊢
    · rw [hdrive]
    · rw [hdrive]
      exact congrArg LaneRecord.sent (lane_modLane _ _ _)
    · rw [hdrive]
      exact lane_modLane_other _ _ _
  all_goals
    simp only [contextCommand, h]
  rfl

end Sys2Proof.Proofs
end

section
/-! PROOF. The refusals of the management requests (R180, R154, R195). -/

namespace Sys2Proof.Machine

/-! ## The request of each row -/

/-- What the block of a sub-kind does with its request. -/
def requestOf : SubKind → Port → FrameFields → State → State
  | .accessSet => accessSet
  | .accessGet => accessGet
  | .loanQuery => loanQuery
  | .revoke => revoke
  | .bayWithdraw => bayWithdraw
  | .bayRestore => bayRestore
  | .laneRestore => laneRestore
  | .bayPolicySet => bayPolicySet
  | .planWrite => planWrite
  | .planSwap => planSwap
  | .planStatus => planStatus
  | .portEnable => portEnable
  | .portDisable => portDisable
  | .portTestOn => portTestOn
  | .portTestOff => portTestOff
  | .portStatus => portStatus
  | .portResync => portResync
  | .limitsSet => limitsSet
  | .journalRead => journalRead
  | .statsRead => statsRead
  | .eventRead => eventRead
  | .eventEnable => eventEnable
  | .eventSet => eventSet
  | .eventClear => eventClear
  | .timeSet => timeSet
  | .resetPart => resetPart

theorem exec_request (sub : SubKind) (p : Port) (s : State) :
    exec (manageRow sub p) s = serveManage p sub (requestOf sub p) s := by
  cases sub <;> rfl

/-- A request that passes the common checks takes its block's effect. -/
theorem exec_requestOf {sub : SubKind} {p : Port} {f : FrameFields} {s : State} (hm : ManageReady s p sub f) :
    exec (manageRow sub p) s = .next (transmit (requestOf sub p f s)) :=
  exec_served hm (exec_request sub p s) rfl

theorem request_answers {sub : SubKind} {p : Port} {f : FrameFields} {s : State} {x : OutFrame}
    (hm : ManageReady s p sub f) (h : requestOf sub p f s = answerHead p x s) : AnswersOnly (manageRow sub p) p x s :=
  answersOnly_of hm (exec_request sub p s) h

theorem request_refused {sub : SubKind} {p : Port} {f : FrameFields} {s : State} {st : Status}
    (hm : ManageReady s p sub f) (h : requestOf sub p f s = refuseHead p f st s) :
    AnswersOnly (manageRow sub p) p { kind := .answer, status := st, tag := f.tag, bay := f.bay } s :=
  request_answers hm h

/-! ## The common checks -/

theorem manageRefusal_port {s : State} {p : Port} {f : FrameFields} {st : Status} (h : portRefusal s p = some st) :
    manageRefusal s p f = some st := by
  simp only [manageRefusal, h]

theorem manageRefusal_node {s : State} {p : Port} {f : FrameFields} (ha : (s.presence p).state = .active)
    (h : (s.port p).role = .node) : manageRefusal s p f = some .notPermitted := by
  simp only [manageRefusal, portRefusal_active ha, h]
  rfl

theorem manageRefusal_flags {s : State} {p : Port} {f : FrameFields} (ha : (s.presence p).state = .active)
    (hs : (s.port p).role = .supervisor) (h : f.flags ≠ 0) : manageRefusal s p f = some .format := by
  have hbad : (!isSubKind f.arg || decide (f.flags ≠ 0)) = true := by rw [decide_eq_true h, Bool.or_true]
  simp only [manageRefusal, portRefusal_active ha, hs, hbad]
  rfl

/-! ## The requests that name a port and take nothing else -/

theorem namedPort_range {f : FrameFields} (h : 8 ≤ f.bay.toNat) : namedPort f = .error .range := by
  simp only [namedPort, portOf_none.2 h]

theorem namedPort_format {f : FrameFields} (hb : f.bay.toNat < 8)
    (h : f.payload ≠ [] ∨ f.count ≠ 0 ∨ f.serial ≠ 0 ∨ f.block ≠ 0) : namedPort f = .error .format := by
  obtain ⟨q, hq⟩ := portOf_lt hb
  simp only [namedPort, hq]
  exact if_neg (payloadOrUsed_butBay h)

theorem namedPort_ok {f : FrameFields} {q : Port} (hq : portOf f.bay = some q) (hp : f.payload = [])
    (hn : f.count = 0) (hx : f.serial = 0) (hk : f.block = 0) : namedPort f = .ok q := by
  simp only [namedPort, hq]
  exact if_pos ⟨hp, (unusedZeroButBay_iff f).2 ⟨hn, hx, hk⟩⟩

/-- The requests whose arguments are a port alone. -/
theorem namedPort_refuses {sub : SubKind} (p : Port) {f : FrameFields} (s : State) {st : Status}
    (hs : sub ∈ [SubKind.portEnable, .portDisable, .portTestOn, .portTestOff, .portStatus, .portResync])
    (h : namedPort f = .error st) : requestOf sub p f s = refuseHead p f st s := by
  simp only [List.mem_cons, List.not_mem_nil, or_false] at hs
  rcases hs with rfl | rfl | rfl | rfl | rfl | rfl
  · simp only [requestOf, portEnable, h]
  · simp only [requestOf, portDisable, h]
  · simp only [requestOf, portTestOn, h]
  · simp only [requestOf, portTestOff, h]
  · simp only [requestOf, portStatus, h]
  · simp only [requestOf, portResync, h]

/-! ## RANGE -/

theorem request_bay_range {sub : SubKind} (p : Port) {f : FrameFields} (s : State)
    (hs : sub ∈ [SubKind.loanQuery, .bayWithdraw, .bayRestore, .laneRestore, .bayPolicySet])
    (h : 12 ≤ f.bay.toNat) : requestOf sub p f s = refuseHead p f .range s := by
  have hb := bayOf_none.2 h
  simp only [List.mem_cons, List.not_mem_nil, or_false] at hs
  rcases hs with rfl | rfl | rfl | rfl | rfl
  · simp only [requestOf, loanQuery, hb]
  · simp only [requestOf, bayWithdraw, hb]
  · simp only [requestOf, bayRestore, hb]
  · simp only [requestOf, laneRestore, hb]
  · simp only [requestOf, bayPolicySet, hb]

theorem limitsSet_range (p : Port) {f : FrameFields} (s : State) (h : 8 ≤ f.bay.toNat) :
    limitsSet p f s = refuseHead p f .range s := by
  simp only [limitsSet, portOf_none.2 h]

theorem request_port_range {sub : SubKind} (p : Port) {f : FrameFields} (s : State)
    (hs : sub ∈ [SubKind.portEnable, .portDisable, .portTestOn, .portTestOff, .portStatus, .portResync, .limitsSet])
    (h : 8 ≤ f.bay.toNat) : requestOf sub p f s = refuseHead p f .range s := by
  by_cases hl : sub = .limitsSet
  · subst hl
    exact limitsSet_range p s h
  · refine namedPort_refuses p s ?_ (namedPort_range h)
    simp only [List.mem_cons, List.not_mem_nil, or_false] at hs ⊢
    grind

/-- The requests whose payload begins with a port, and whose bay field names a bay. -/
theorem request_pair_range {sub : SubKind} (p : Port) {f : FrameFields} (s : State) {x : Byte} {rest : List Byte}
    (hs : sub ∈ [SubKind.accessSet, .accessGet, .revoke]) (hf : f.payload = x :: rest)
    (h : 12 ≤ f.bay.toNat ∨ 8 ≤ x.toNat) : requestOf sub p f s = refuseHead p f .range s := by
  have hnone : bayOf f.bay = none ∨ portOf x = none := h.imp bayOf_none.2 portOf_none.2
  simp only [List.mem_cons, List.not_mem_nil, or_false] at hs
  rcases hnone with hb | hq
  · rcases hs with rfl | rfl | rfl
    · simp only [requestOf, accessSet, hf, hb]
    · simp only [requestOf, accessGet, hf, hb]
    · simp only [requestOf, revoke, hf, hb]
  · rcases hs with rfl | rfl | rfl
    · cases hb : bayOf f.bay <;> simp only [requestOf, accessSet, hf, hb, hq]
    · cases hb : bayOf f.bay <;> simp only [requestOf, accessGet, hf, hb, hq]
    · cases hb : bayOf f.bay <;> simp only [requestOf, revoke, hf, hb, hq]

/-! ## FORMAT -/

theorem request_pair_empty {sub : SubKind} (p : Port) {f : FrameFields} (s : State)
    (hs : sub ∈ [SubKind.revoke, .accessGet, .accessSet]) (hf : f.payload = []) :
    requestOf sub p f s = refuseHead p f .format s := by
  simp only [List.mem_cons, List.not_mem_nil, or_false] at hs
  rcases hs with rfl | rfl | rfl
  · simp only [requestOf, revoke, hf]
  · simp only [requestOf, accessGet, hf]
  · simp only [requestOf, accessSet, hf]

theorem request_bay_format {sub : SubKind} (p : Port) {f : FrameFields} (s : State)
    (hs : sub ∈ [SubKind.loanQuery, .bayRestore]) (hb : f.bay.toNat < 12)
    (h : f.payload ≠ [] ∨ f.count ≠ 0 ∨ f.serial ≠ 0 ∨ f.block ≠ 0) :
    requestOf sub p f s = refuseHead p f .format s := by
  obtain ⟨b, hb⟩ := bayOf_lt hb
  have hbad := payloadOrUsed_butBay h
  simp only [List.mem_cons, List.not_mem_nil, or_false] at hs
  rcases hs with rfl | rfl
  · simp only [requestOf, loanQuery, hb, if_neg hbad]
  · simp only [requestOf, bayRestore, hb, if_neg hbad]

theorem request_plain_format {sub : SubKind} (p : Port) {f : FrameFields} (s : State)
    (hs : sub ∈ [SubKind.planSwap, .planStatus, .eventRead, .resetPart])
    (h : f.payload ≠ [] ∨ f.bay ≠ 0 ∨ f.count ≠ 0 ∨ f.serial ≠ 0 ∨ f.block ≠ 0) :
    requestOf sub p f s = refuseHead p f .format s := by
  have hbad := payloadOrUsed h
  simp only [List.mem_cons, List.not_mem_nil, or_false] at hs
  rcases hs with rfl | rfl | rfl | rfl <;> exact if_neg hbad

theorem planWrite_format (p : Port) {f : FrameFields} (s : State)
    (h : planWriteOf f.payload = none ∨ unusedZero f = false) : planWrite p f s = refuseHead p f .format s := by
  rcases h with h | h
  · simp only [planWrite, h]
  · cases hw : planWriteOf f.payload <;> simp only [planWrite, hw, h]
    rfl

theorem eventEnable_format (p : Port) {f : FrameFields} (s : State)
    (h : eventsOf f.payload = none ∨ unusedZero f = false) : eventEnable p f s = refuseHead p f .format s := by
  rcases h with h | h
  · simp only [eventEnable, h]
  · cases hw : eventsOf f.payload <;> simp only [eventEnable, hw, h]
    rfl

theorem eventSet_format (p : Port) {f : FrameFields} (s : State)
    (h : eventsOf f.payload = none ∨ unusedZero f = false) : eventSet p f s = refuseHead p f .format s := by
  rcases h with h | h
  · simp only [eventSet, h]
  · cases hw : eventsOf f.payload <;> simp only [eventSet, hw, h]
    rfl

theorem eventClear_format (p : Port) {f : FrameFields} (s : State)
    (h : eventsOf f.payload = none ∨ unusedZero f = false) : eventClear p f s = refuseHead p f .format s := by
  rcases h with h | h
  · simp only [eventClear, h]
  · cases hw : eventsOf f.payload <;> simp only [eventClear, hw, h]
    rfl

theorem journalRead_format (p : Port) {f : FrameFields} (s : State)
    (h : ¬ (f.payload.length = 1 ∧ 1 ≤ natOf f.payload ∧ natOf f.payload ≤ 16 ∧ unusedZero f = true)) :
    journalRead p f s = refuseHead p f .format s :=
  if_neg h

theorem statsRead_format (p : Port) {f : FrameFields} (s : State)
    (h : f.payload.length ≠ 3 ∨ unusedZero f = false) : statsRead p f s = refuseHead p f .format s := by
  unfold statsRead
  split
  · next scope index flag hf =>
    have hunused : unusedZero f = false := h.resolve_left (not_not_intro (by rw [hf]; rfl))
    split
    · rw [hunused]
      rfl
    · rfl
  · rfl

theorem timeSet_format (p : Port) {f : FrameFields} (s : State)
    (h : f.payload.length ≠ 5 ∨ unusedZero f = false) : timeSet p f s = refuseHead p f .format s := by
  unfold timeSet
  split
  · refine if_neg ?_
    rintro ⟨hlen, hunused⟩
    rcases h with h | h
    · exact h hlen
    · rw [h] at hunused
      cases hunused
  · rfl

theorem request_unused_format {sub : SubKind} (p : Port) {f : FrameFields} (s : State)
    (hs : sub ∈ [SubKind.planWrite, .journalRead, .statsRead, .eventEnable, .eventSet, .eventClear, .timeSet])
    (h : f.bay ≠ 0 ∨ f.count ≠ 0 ∨ f.serial ≠ 0 ∨ f.block ≠ 0) : requestOf sub p f s = refuseHead p f .format s := by
  have hbad := unusedZero_false h
  simp only [List.mem_cons, List.not_mem_nil, or_false] at hs
  rcases hs with rfl | rfl | rfl | rfl | rfl | rfl | rfl
  · exact planWrite_format p s (Or.inr hbad)
  · exact journalRead_format p s fun k => ne_true_of_eq_false hbad k.2.2.2
  · exact statsRead_format p s (Or.inr hbad)
  · exact eventEnable_format p s (Or.inr hbad)
  · exact eventSet_format p s (Or.inr hbad)
  · exact eventClear_format p s (Or.inr hbad)
  · exact timeSet_format p s (Or.inr hbad)

theorem revoke_format (p : Port) {f : FrameFields} (s : State) {x : Byte} {rest : List Byte}
    (hf : f.payload = x :: rest) (hb : f.bay.toNat < 12) (hx : x.toNat < 8)
    (h : rest ≠ [] ∨ f.count ≠ 0 ∨ f.serial ≠ 0 ∨ f.block ≠ 0) : revoke p f s = refuseHead p f .format s := by
  obtain ⟨b, hb⟩ := bayOf_lt hb
  obtain ⟨q, hq⟩ := portOf_lt hx
  have hbad : ¬ (rest = [] ∧ unusedZeroButBay f = true) := by
    rw [unusedZeroButBay_iff]
    grind
  simp only [revoke, hf, hb, hq, if_neg hbad]

theorem accessGet_format (p : Port) {f : FrameFields} (s : State) {x : Byte} {rest : List Byte}
    (hf : f.payload = x :: rest) (hb : f.bay.toNat < 12) (hx : x.toNat < 8)
    (h : rest ≠ [] ∨ f.count ≠ 0 ∨ f.serial ≠ 0 ∨ f.block ≠ 0) : accessGet p f s = refuseHead p f .format s := by
  obtain ⟨b, hb⟩ := bayOf_lt hb
  obtain ⟨q, hq⟩ := portOf_lt hx
  have hbad : ¬ (rest = [] ∧ unusedZeroButBay f = true) := by
    rw [unusedZeroButBay_iff]
    grind
  simp only [accessGet, hf, hb, hq, if_neg hbad]

theorem laneRestore_range (p : Port) {f : FrameFields} (s : State) (h1 : f.count ≠ 1) (h2 : f.count ≠ 2) :
    laneRestore p f s = refuseHead p f .range s := by
  cases hb : bayOf f.bay <;> simp only [laneRestore, hb, laneOf_none h1 h2]

theorem laneRestore_format (p : Port) {f : FrameFields} (s : State) (hb : f.bay.toNat < 12)
    (hc : f.count = 1 ∨ f.count = 2) (h : f.payload ≠ [] ∨ f.serial ≠ 0 ∨ f.block ≠ 0) :
    laneRestore p f s = refuseHead p f .format s := by
  obtain ⟨b, hb⟩ := bayOf_lt hb
  obtain ⟨l, hl⟩ : ∃ l, laneOf f.count.toNat = some l := by
    rcases hc with hc | hc
    · exact ⟨.a, by rw [hc]; rfl⟩
    · exact ⟨.b, by rw [hc]; rfl⟩
  have hbad : ¬ (f.payload = [] ∧ unusedZeroButBayCount f = true) := by
    rw [unusedZeroButBayCount_iff]
    grind
  simp only [laneRestore, hb, hl, if_neg hbad]

theorem bayWithdraw_format (p : Port) {f : FrameFields} (s : State) (hb : f.bay.toNat < 12)
    (h : ¬ (f.payload.length = 2 ∧ unusedZeroButBay f = true)) : bayWithdraw p f s = refuseHead p f .format s := by
  obtain ⟨b, hb⟩ := bayOf_lt hb
  simp only [bayWithdraw, hb, if_neg h]

theorem bayPolicySet_format (p : Port) {f : FrameFields} (s : State) (hb : f.bay.toNat < 12)
    (h : bayPolicyOf f.payload = none ∨ unusedZeroButBay f = false) :
    bayPolicySet p f s = refuseHead p f .format s := by
  obtain ⟨b, hb⟩ := bayOf_lt hb
  rcases h with h | h
  · simp only [bayPolicySet, hb, h]
  · cases ht : bayPolicyOf f.payload <;> simp only [bayPolicySet, hb, ht, h]
    rfl

theorem limitsSet_format (p : Port) {f : FrameFields} (s : State) (hb : f.bay.toNat < 8)
    (h : portLimitsOf f.payload = none ∨ unusedZeroButBay f = false) :
    limitsSet p f s = refuseHead p f .format s := by
  obtain ⟨q, hq⟩ := portOf_lt hb
  rcases h with h | h
  · simp only [limitsSet, hq, h]
  · cases ht : portLimitsOf f.payload <;> simp only [limitsSet, hq, ht, h]
    rfl

end Sys2Proof.Machine

namespace Sys2Proof.Proofs

open Sys2Proof.Machine

/-- Settles O43: the common checks by `manageRow_refused`; each request's own checks by the lemma that names it. -/
theorem managementRefused : Obligations.ManagementRefused := by
  refine ⟨by decide, fun sub p f s h hk => ⟨fun hs => ?_, fun hs => ?_, fun ha hr => ?_, fun ha hr hf => ?_⟩,
    fun sub p f s h => ⟨fun hs hb => ?_, fun hs hb => ?_, fun hs hb hbad => ?_, fun hs hb hbad => ?_, fun hs hbad => ?_,
      fun hs hbad => ?_⟩,
    fun sub p f s h => ⟨?revokes, ?gets, ?lanes, ?bays, ?limits, ?sets, ?lengths⟩⟩
  · exact manageRow_refused h hk (manageRefusal_port (portRefusal_notAdmitted hs))
  · exact manageRow_refused h hk (manageRefusal_port (portRefusal_eq hs))
  · exact manageRow_refused h hk (manageRefusal_node ha hr)
  · exact manageRow_refused h hk (manageRefusal_flags ha hr hf)
  · exact request_refused h (request_bay_range p s hs hb)
  · exact request_refused h (request_port_range p s hs hb)
  · exact request_refused h (request_bay_format p s hs hb hbad)
  · exact request_refused h (namedPort_refuses p s hs (namedPort_format hb hbad))
  · exact request_refused h (request_plain_format p s hs hbad)
  · exact request_refused h (request_unused_format p s hs hbad)
  case revokes =>
    rintro rfl x rest hf
    exact ⟨fun hr => request_refused h (request_pair_range p s (by decide) hf hr),
      fun hb hx hbad => request_refused h (revoke_format p s hf hb hx hbad)⟩
  case gets =>
    rintro rfl x rest hf hb hx hbad
    exact request_refused h (accessGet_format p s hf hb hx hbad)
  case lanes =>
    rintro rfl hb
    exact ⟨fun h1 h2 => request_refused h (laneRestore_range p s h1 h2),
      fun hc hbad => request_refused h (laneRestore_format p s hb hc hbad)⟩
  case bays =>
    intro hs hb hbad
    simp only [List.mem_cons, List.not_mem_nil, or_false] at hs
    rcases hs with rfl | rfl
    · refine request_refused h (bayWithdraw_format p s hb ?_)
      rw [unusedZeroButBay_iff]
      rintro ⟨hlen, hn, hx, hk⟩
      rcases hbad with k | k | k | ⟨-, k⟩ | ⟨k, -⟩
      · exact k hn
      · exact k hx
      · exact k hk
      · exact k hlen
      · cases k
    · refine request_refused h (bayPolicySet_format p s hb ?_)
      rcases hbad with k | k | k | ⟨k, -⟩ | ⟨-, k⟩
      · exact Or.inr (unusedZeroButBay_false (Or.inl k))
      · exact Or.inr (unusedZeroButBay_false (Or.inr (Or.inl k)))
      · exact Or.inr (unusedZeroButBay_false (Or.inr (Or.inr k)))
      · cases k
      · exact Or.inl k
  case limits =>
    rintro rfl hb hbad
    refine request_refused h (limitsSet_format p s hb ?_)
    rcases hbad with k | k | k | k
    · exact Or.inr (unusedZeroButBay_false (Or.inl k))
    · exact Or.inr (unusedZeroButBay_false (Or.inr (Or.inl k)))
    · exact Or.inr (unusedZeroButBay_false (Or.inr (Or.inr k)))
    · exact Or.inl k
  case sets =>
    intro hs hbad
    simp only [List.mem_cons, List.not_mem_nil, or_false] at hs
    rcases hbad with ⟨rfl, k⟩ | ⟨hne, k⟩
    · exact request_refused h (planWrite_format p s (Or.inl k))
    · rcases hs.resolve_left hne with rfl | rfl | rfl
      · exact request_refused h (eventEnable_format p s (Or.inl k))
      · exact request_refused h (eventSet_format p s (Or.inl k))
      · exact request_refused h (eventClear_format p s (Or.inl k))
  case lengths =>
    rintro (⟨rfl, k⟩ | ⟨rfl, k⟩ | ⟨rfl, k⟩ | ⟨hs, k⟩)
    · exact request_refused h (journalRead_format p s fun m => k m.1)
    · exact request_refused h (statsRead_format p s (Or.inl k))
    · exact request_refused h (timeSet_format p s (Or.inl k))
    · exact request_refused h (request_pair_empty p s hs k)

end Sys2Proof.Proofs
end

section
/-! PROOF. The management requests of the Loan Manager and of the lanes (R13, R33, R48, R57, R106, R113, R128, R168,
R183, R188, R195). -/

namespace Sys2Proof.Machine

/-- A request that passes the common checks and whose block makes `t` of the state. -/
theorem exec_request_eq {sub : SubKind} {p : Port} {f : FrameFields} {s t : State} (hm : ManageReady s p sub f)
    (h : requestOf sub p f s = t) : exec (manageRow sub p) s = .next (transmit t) := h ▸ exec_requestOf hm

/-! ## ACCESS_SET and ACCESS_GET (R13, R183) -/

theorem setRight_right_self (s : State) (p : Port) (b : Bay) (r : Right) : (s.setRight p b r).right p b = r := by
  simp [State.setRight, State.right]

theorem setRight_right_ne (s : State) {p q : Port} {b c : Bay} (r : Right) (h : q ≠ p ∨ c ≠ b) :
    (s.setRight p b r).right q c = s.right q c := by
  by_cases hc : c = b
  · subst hc
    have hq : p.val ≠ q.val := fun k => h.resolve_right (not_not_intro rfl) (Fin.ext k).symm
    simp [State.setRight, State.right, Vector.getElem_set_ne _ _ hq]
  · have hb : b.val ≠ c.val := fun k => hc (Fin.ext k).symm
    simp [State.setRight, State.right, Vector.getElem_set_ne _ _ hb]

/-- R13: a right that permits the claim of its port, if it has one, is replaced and no more. -/
theorem replaceRight_permits {q : Port} {b : Bay} {r : Right} {s : State}
    (h : ∀ x ∈ (s.bay b).claims, x.port = q → permits r x.mode = true) : replaceRight q b r s = s.setRight q b r := by
  unfold replaceRight
  dsimp only
  split
  · next x hx =>
    rw [setRight_bay_read] at hx
    have hport := List.find?_some hx
    exact if_pos (h x (List.mem_of_find?_eq_some hx) (of_decide_eq_true hport))
  · rfl

/-- R13, R12: a claim that the new right does not permit is refused with cause ACCESS. -/
theorem replaceRight_refuses {q : Port} {b : Bay} {r : Right} {s : State} {x : Claim}
    (hx : (s.bay b).claims.find? (fun x => decide (x.port = q)) = some x) (h : permits r x.mode = false) :
    replaceRight q b r s =
      if (s.bay b).claims.head?.map Claim.port = some q then
        settleBay b (refuseClaim b .access false x (s.setRight q b r))
      else refuseClaim b .access false x (s.setRight q b r) := by
  have hset : ((s.setRight q b r).bay b).claims.find? (fun x => decide (x.port = q)) = some x := hx
  simp only [replaceRight, hset, h, Bool.false_eq_true, if_false, decide_eq_true_eq]
  rfl

theorem accessSet_taken {p q : Port} {b : Bay} {r : Right} {f : FrameFields} (s : State) (hb : bayOf f.bay = some b)
    (hf : f.payload = [byte q.val, rightCode r]) (hn : f.count = 0) (hx : f.serial = 0) (hk : f.block = 0) :
    accessSet p f s = okHead p f (replaceRight q b r s) := by
  simp only [accessSet, hf, hb, portOf_byte, rightOf_code, (unusedZeroButBay_iff f).2 ⟨hn, hx, hk⟩, if_true]

theorem accessSet_format (p : Port) {f : FrameFields} (s : State) {x : Byte} {rest : List Byte}
    (hf : f.payload = x :: rest) (hb : f.bay.toNat < 12) (hx : x.toNat < 8)
    (h : f.count ≠ 0 ∨ f.serial ≠ 0 ∨ f.block ≠ 0 ∨ (∀ y, rest ≠ [y]) ∨ ∃ y, rest = [y] ∧ 2 < y.toNat) :
    accessSet p f s = refuseHead p f .format s := by
  obtain ⟨b, hb⟩ := bayOf_lt hb
  obtain ⟨q, hq⟩ := portOf_lt hx
  simp only [accessSet, hf, hb, hq]
  split
  · next y =>
    cases hr : rightOf y with
    | none => rfl
    | some r =>
      have hbad : unusedZeroButBay f = false := by
        refine unusedZeroButBay_false ?_
        rcases h with k | k | k | k | ⟨z, hz, k⟩
        · exact Or.inl k
        · exact Or.inr (Or.inl k)
        · exact Or.inr (Or.inr k)
        · exact absurd rfl (k y)
        · rw [List.head_eq_of_cons_eq hz, rightOf_none k] at hr
          cases hr
      simp only [hbad]
      rfl
  · rfl

theorem accessGet_taken {p q : Port} {b : Bay} {f : FrameFields} (s : State) (hb : bayOf f.bay = some b)
    (hf : f.payload = [byte q.val]) (hn : f.count = 0) (hx : f.serial = 0) (hk : f.block = 0) :
    accessGet p f s = okDetail p f [byte q.val, rightCode (s.right q b)] s := by
  simp only [accessGet, hf, hb, portOf_byte]
  exact if_pos ⟨trivial, (unusedZeroButBay_iff f).2 ⟨hn, hx, hk⟩⟩

/-! ## The requests that read (R33, R106, R168, R188, R195) -/

theorem flagByte_eq (x : Bool) : flagByte x = if x = true then 1 else 0 := rfl

theorem flagByte_isSome (t : Option Nat) : flagByte t.isSome = if t = none then 0 else 1 := by cases t <;> rfl

theorem carrierCode_eq (c : Carrier) : carrierCode c = if c = .up then 1 else 0 := by cases c <;> rfl

/-- R195: the three flags of PORT_STATUS in one byte. -/
theorem statusFlags_eq (x y z : Bool) : flagByte x ||| (flagByte y <<< 1) ||| (flagByte z <<< 2) =
    byte ((if x = true then 1 else 0) + (if y = true then 2 else 0) + (if z = true then 4 else 0)) := by
  revert x y z
  decide

theorem msLeft_eq {left : Option Nat → Nat} {now : Nat} (h0 : left none = 0)
    (h : ∀ t, left (some t) = (t - now) / 1000) (t : Option Nat) : msLeft t now = left t := by
  cases t with
  | none => exact h0.symm
  | some t => exact (h t).symm

theorem portByte_eq (q : Option Port) : portByte q = q.elim 0xFF fun q => byte q.val := by cases q <;> rfl

theorem loansHeld_eq (s : State) (q : Port) :
    loansHeld s q = (allBays.filter fun b => decide ((s.bay b).holder q ≠ none)).length :=
  congrArg List.length (List.filter_congr fun b _ => by cases (s.bay b).holder q <;> rfl)

/-! ## REVOKE (R48) -/

theorem revoke_taken {p q : Port} {b : Bay} {f : FrameFields} (s : State) (hb : bayOf f.bay = some b)
    (hf : f.payload = [byte q.val]) (hn : f.count = 0) (hx : f.serial = 0) (hk : f.block = 0) :
    revoke p f s = revokeAt p f b q s := by
  simp only [revoke, hf, hb, portOf_byte]
  exact if_pos ⟨trivial, (unusedZeroButBay_iff f).2 ⟨hn, hx, hk⟩⟩

theorem revokeAt_holder {p q : Port} {f : FrameFields} {b : Bay} {s : State} {h : Holder}
    (hh : (s.bay b).holder q = some h) : revokeAt p f b q s =
      handOut (answerHead p { answerTo f .ok with serial := h.serial, detail := detailOf [1] }
        (settleBay b (revokeLoan b .forced q h s))) := by
  simp only [revokeAt, hh]

theorem revokeAt_claim {p q : Port} {f : FrameFields} {b : Bay} {s : State} {x : Claim}
    (hh : (s.bay b).holder q = none) (hx : (s.bay b).claims.find? (fun x => decide (x.port = q)) = some x) :
    revokeAt p f b q s = okDetail p f [2]
      (if (s.bay b).claims.head?.map Claim.port = some q then settleBay b (refuseClaim b .forced false x s)
      else refuseClaim b .forced false x s) := by
  simp only [revokeAt, hh, hx, decide_eq_true_eq]

theorem revokeAt_stale {p q : Port} {f : FrameFields} {b : Bay} {s : State}
    (hh : (s.bay b).holder q = none) (hw : ¬ waitsAt s q b) : revokeAt p f b q s = refuseHead p f .stale s := by
  simp only [revokeAt, hh, find_claim_none hw]

/-- R48: a revoked loan is gone when its event ends. -/
theorem forced_nothing {p q : Port} {b : Bay} {s : State} {h : Holder} (x : OutFrame) (hs : ClaimsSingle s)
    (hh : (s.bay b).holder q = some h) :
    Nothing (transmit (handOut (answerHead p x (settleBay b (revokeLoan b .forced q h s))))) q b := by
  have hkeep := Nothing.core q b
  exact hkeep.transmit _ (hkeep.handOut _ (hkeep.answerHead p x _
    (hkeep.settleBay b _ (revokeLoan_nothing b .forced q h s hs hh))))

/-! ## BAY_RESTORE and LANE_RESTORE (R57, R113, R128) -/

theorem bayRestore_taken {p : Port} {b : Bay} {f : FrameFields} {s : State} (hb : bayOf f.bay = some b)
    (hf : f.payload = []) (hn : f.count = 0) (hx : f.serial = 0) (hk : f.block = 0)
    (hv : (s.bay b).availability = .withdrawn ∨ (s.bay b).availability = .faulted) :
    bayRestore p f s = okHead p f
      ((s.modBay b fun r => { r with availability := .probing, capacity := 0 }).modDrive b (probedDrive s.now)) := by
  have hok : f.payload = [] ∧ unusedZeroButBay f = true := ⟨hf, (unusedZeroButBay_iff f).2 ⟨hn, hx, hk⟩⟩
  have hstart : startProbing b (s.modBay b fun r => { r with availability := .probing }) =
      (s.modBay b fun r => { r with availability := .probing, capacity := 0 }).modDrive b (probedDrive s.now) := by
    rw [startProbing_eq, modBay_modBay]
    rfl
  rcases hv with hv | hv <;> simp only [bayRestore, hb, if_pos hok, hv, hstart]

theorem bayRestore_busy {p : Port} {b : Bay} {f : FrameFields} {s : State} (hb : bayOf f.bay = some b)
    (hf : f.payload = []) (hn : f.count = 0) (hx : f.serial = 0) (hk : f.block = 0)
    (hv : (s.bay b).availability = .probing ∨ (s.bay b).availability = .inService ∨
      (s.bay b).availability = .withdrawing) : bayRestore p f s = refuseHead p f .bayBusy s := by
  have hok : f.payload = [] ∧ unusedZeroButBay f = true := ⟨hf, (unusedZeroButBay_iff f).2 ⟨hn, hx, hk⟩⟩
  rcases hv with hv | hv | hv <;> simp only [bayRestore, hb, if_pos hok, hv]

/-- R128: the checks of LANE_RESTORE on the header, passed. -/
structure LaneNamed (f : FrameFields) (b : Bay) (l : Lane) : Prop where
  bay : bayOf f.bay = some b
  lane : laneOf f.count.toNat = some l
  fields : f.payload = [] ∧ unusedZeroButBayCount f = true

theorem laneRestore_faulted {p : Port} {b : Bay} {l : Lane} {f : FrameFields} {s : State} (h : LaneNamed f b l)
    (hv : (s.bay b).availability = .faulted) : laneRestore p f s = refuseHead p f .faulted s := by
  simp only [laneRestore, h.bay, h.lane, if_pos h.fields, hv]

theorem laneRestore_busy {p : Port} {b : Bay} {l : Lane} {f : FrameFields} {s : State} (h : LaneNamed f b l)
    (hv : (s.bay b).availability = .probing ∨ (s.bay b).availability = .withdrawing) :
    laneRestore p f s = refuseHead p f .bayBusy s := by
  rcases hv with hv | hv <;> simp only [laneRestore, h.bay, h.lane, if_pos h.fields, hv]

theorem laneRestore_taken {p : Port} {b : Bay} {l : Lane} {f : FrameFields} {s : State} (h : LaneNamed f b l)
    (hv : (s.bay b).availability = .inService ∨ (s.bay b).availability = .withdrawn) :
    laneRestore p f s = restoreLane p f b l s := by
  rcases hv with hv | hv <;> simp only [laneRestore, h.bay, h.lane, if_pos h.fields, hv]

theorem laneDetail_modLane (d : DriveEngine) (l : Lane) {g : LaneRecord → LaneRecord}
    (hf : (g (d.lane l)).failures = (d.lane l).failures) :
    laneDetail (d.modLane l g) l =
      [laneStateCode (g (d.lane l)).state, byte (d.lane l).failures, laneStateCode (d.lane (otherLane l)).state,
        byte (d.lane (otherLane l)).failures] := by
  simp only [laneDetail, lane_modLane, lane_modLane_other, hf]

/-- R113, R128: a PROBE is sent. -/
theorem sendProbe_eq (b : Bay) (l : Lane) (clear : Bool) (s : State) : sendProbe b l clear s =
    s.modDrive b fun d => d.modLane l fun r =>
      { r with
        state := .probing, probe := some { clear := clear, deadline := s.now + 3200 * 1000 },
        number := r.number + 1, sent := some (.probe (r.number + 1) clear 2400) } := rfl

end Sys2Proof.Machine

namespace Sys2Proof.Proofs

open Sys2Proof.Machine

/-- Settles O44: ACCESS_SET by what the new right permits, the refusals by the field that is wrong. -/
theorem rightsManaged : Obligations.RightsManaged := by
  refine ⟨fun p q b r f s hm hb hf hn hx hk => ?taken, fun p f s x rest hf => ?refused, fun p f s hf => ?empty,
    fun p q b f s hm hb hf hn hx hk => ?read⟩
  case taken =>
    have hexec := exec_request_eq hm (accessSet_taken s hb hf hn hx hk)
    refine ⟨fun h => ?_, fun x hfind h => ?_, setRight_right_self s q b r, fun q' b' h => setRight_right_ne s r h⟩
    · rw [replaceRight_permits h] at hexec
      exact hexec
    · rw [replaceRight_refuses hfind h] at hexec
      exact hexec
  case refused =>
    refine ⟨fun hm => ⟨fun h => ?_, fun hb hx h => ?_⟩, fun hm h => ?_⟩
    · exact request_refused hm (request_pair_range p s (by decide) hf h)
    · exact request_refused hm (accessSet_format p s hf hb hx h)
    · exact request_refused hm (request_pair_range p s (by decide) hf h)
  case empty =>
    exact ⟨fun hm => request_refused hm (request_pair_empty p s (by decide) hf),
      fun hm => request_refused hm (request_pair_empty p s (by decide) hf)⟩
  case read => exact request_answers hm (accessGet_taken s hb hf hn hx hk)

/-- Settles O45: each answer by its field checks, and the payloads field by field. -/
theorem snapshotsAnswered : Obligations.SnapshotsAnswered := by
  refine ⟨fun p f s hf hn hx hk => ⟨fun b hm hb => ?loan, fun hm hb => ?plan, fun q hm hq => ?port, fun hm hb => ?events⟩,
    fun s b r left hr h0 hleft => ?query, fun s q n m hn hm => ?status, by decide⟩
  case loan =>
    have hok := (unusedZeroButBay_iff f).2 ⟨hn, hx, hk⟩
    refine request_answers hm ?_
    simp only [requestOf, loanQuery, hb, if_pos (And.intro hf hok)]
    rfl
  case plan =>
    have hok := (unusedZero_iff f).2 ⟨hb, hn, hx, hk⟩
    refine request_answers hm ?_
    simp only [requestOf, planStatus, if_pos (And.intro hf hok), okPayload, answerTo, hb]
    rfl
  case port =>
    refine request_answers hm ?_
    simp only [requestOf, portStatus, namedPort_ok hq hf hn hx hk]
    rfl
  case events =>
    have hok := (unusedZero_iff f).2 ⟨hb, hn, hx, hk⟩
    refine request_answers hm ?_
    simp only [requestOf, eventRead, if_pos (And.intro hf hok), okPayload, answerTo, hb]
  case query =>
    subst hr
    unfold loanQueryPayload
    dsimp only
    simp only [msLeft_eq h0 hleft, flagByte_isSome, holderPorts_eq, portByte_eq]
    cases (s.bay b).subject <;> rfl
  case status =>
    subst hn hm
    unfold portStatusPayload
    dsimp only
    rw [statusFlags_eq, carrierCode_eq, loansHeld_eq]
    rfl

/-- Settles O46: by what the named port has at the bay; a revoked loan is gone by `forced_nothing`. -/
theorem loanForced : Obligations.LoanForced := by
  intro p q b f s hm hb hf hn hx hk
  have hexec := exec_requestOf hm
  have hat : requestOf .revoke p f s = revokeAt p f b q s := revoke_taken s hb hf hn hx hk
  refine ⟨fun h hh => ?_, fun hh => ⟨fun x hfind => ?_, fun hw => ?_⟩⟩
  · rw [hat, revokeAt_holder hh] at hexec
    refine ⟨hexec, fun hsafe t ht => ?_⟩
    obtain ⟨hgone, -⟩ := forced_nothing (p := p)
      { answerTo f .ok with serial := h.serial, detail := detailOf [1] } hsafe.1 hh
    exact next_inj (hexec.symm.trans ht) ▸ hgone
  · rw [hat, revokeAt_claim hh hfind] at hexec
    exact hexec
  · exact request_refused hm (hat.trans (revokeAt_stale hh hw))

/-- Settles O48: BAY_RESTORE by the bay's availability, LANE_RESTORE by it and then by the state of the lane. -/
theorem bayAndLaneRestored : Obligations.BayAndLaneRestored := by
  refine ⟨fun p b f s hm hb hf hn hx hk => ⟨fun hv => ?_, fun hv => ?_⟩, fun p b l f s hm hb hl hf hx hk => ?_⟩
  · exact exec_request_eq hm (bayRestore_taken hb hf hn hx hk hv)
  · exact request_refused hm (bayRestore_busy hb hf hn hx hk hv)
  have hnamed : LaneNamed f b l := ⟨hb, hl, hf, (unusedZeroButBayCount_iff f).2 ⟨hx, hk⟩⟩
  refine ⟨fun hv => request_refused hm (laneRestore_faulted hnamed hv),
    fun hv => request_refused hm (laneRestore_busy hnamed hv), fun hv => ?_⟩
  have hat : requestOf .laneRestore p f s = restoreLane p f b l s := laneRestore_taken hnamed hv
  refine ⟨fun hstate => request_refused hm ?probing, fun hstate => request_answers hm ?up, fun hstate => ?down⟩
  case probing => simp only [hat, restoreLane, hstate]
  case up =>
    simp only [hat, restoreLane, hstate, laneDetail]
    rfl
  case down =>
    have hexec := exec_requestOf hm
    simp only [hat, restoreLane, hstate, sendProbe_eq] at hexec
    rw [modDrive_drive_self, laneDetail_modLane _ _ rfl] at hexec
    exact hexec

end Sys2Proof.Proofs
end

section
/-! PROOF. BAY_WITHDRAW (R50, R51, R52, R54, R194). -/

namespace Sys2Proof.Machine

/-! ## The start of a withdrawal -/

/-- R50 steps 1 and 2: the bay is WITHDRAWING and a patience that runs has stopped. -/
def withdrawingBay (r : BayRecord) : BayRecord :=
  if r.phase = .patience then
    { r with availability := .withdrawing, patienceTimer := none, subject := none, phase := .none }
  else { r with availability := .withdrawing }

theorem withdrawingBay_claims (r : BayRecord) : (withdrawingBay r).claims = r.claims := by
  unfold withdrawingBay
  split <;> rfl

theorem startWithdrawal_eq (b : Bay) (s : State) : startWithdrawal b s =
    (s.bay b).claims.foldl (fun t y => refuseClaim b .withdrawn false y t) (s.modBay b withdrawingBay) := by
  have hclaims : ((s.modBay b withdrawingBay).bay b).claims = (s.bay b).claims := by
    rw [modBay_bay_self, withdrawingBay_claims]
  rw [← hclaims]
  rfl

/-- What the bay is after the start of its withdrawal. -/
structure Withdrawing (b : Bay) (s v : State) : Prop where
  now : v.now = s.now
  availability : (v.bay b).availability = .withdrawing
  claims : (v.bay b).claims = []
  holder : ∀ q, (v.bay b).holder q = (s.bay b).holder q
  recallTimer : (v.bay b).recallTimer = (s.bay b).recallTimer
  recallTime : (v.bay b).recallTime = (s.bay b).recallTime
  phase_recalled : (s.bay b).phase = .recalled → (v.bay b).phase = .recalled
  phase_none : (s.bay b).phase ≠ .recalled → (v.bay b).phase = .none

theorem startWithdrawal_withdrawing (b : Bay) (s : State) : Withdrawing b s (startWithdrawal b s) := by
  obtain ⟨hnow, hbay⟩ := startWithdrawal_bay b s
  split at hbay
  · next hp =>
    refine ⟨hnow, ?_, ?_, fun q => ?_, ?_, ?_, fun h => ?_, fun _ => ?_⟩
    · rw [hbay]
    · rw [hbay]
    · rw [hbay]
      rfl
    · rw [hbay]
    · rw [hbay]
    · rw [hp] at h
      cases h
    · rw [hbay]
  · next hp =>
    refine ⟨hnow, ?_, ?_, fun q => ?_, ?_, ?_, fun h => ?_, fun h => ?_⟩
    · rw [hbay]
    · rw [hbay]
    · rw [hbay]
      rfl
    · rw [hbay]
    · rw [hbay]
    · rw [hbay]
      exact h
    · rw [hbay]
      show (s.bay b).phase = .none
      cases hk : (s.bay b).phase with
      | none => rfl
      | patience => exact absurd hk hp
      | recalled => exact absurd hk h

/-! ## The holders -/

/-- What the bay is when its holders have been dealt with, before the completion check. -/
structure HoldersDealt (b : Bay) (ms : Nat) (s w : State) : Prop where
  availability : (w.bay b).availability = .withdrawing
  claims : (w.bay b).claims = []
  recallTime : (w.bay b).recallTime = (s.bay b).recallTime
  revoked : ms = 0 → ∀ q, (w.bay b).holder q = none
  recalled : 0 < ms → ∀ q, (w.bay b).holder q = ((s.bay b).holder q).map fun h => { h with recalled := true }
  recall_ended : (s.bay b).phase = .recalled → (∃ q h, (s.bay b).holder q = some h ∧ h.recalled = true) → ms = 0 →
    (w.bay b).phase = .none ∧ (w.bay b).recallTimer = none
  no_recall : (s.bay b).phase ≠ .recalled → ms = 0 ∨ (∀ q, (s.bay b).holder q = none) →
    (w.bay b).phase = .none ∧ (w.bay b).recallTimer = (s.bay b).recallTimer
  recall_runs : 0 < ms → (∃ q h, (s.bay b).holder q = some h) → (w.bay b).phase = .recalled ∧
    ((s.bay b).recallTimer = none → (w.bay b).recallTimer = some (s.now + ms * 1000)) ∧
    (∀ d, (s.bay b).recallTimer = some d → (w.bay b).recallTimer = some (s.now + min ((d - s.now) / 1000) ms * 1000))

/-- R51: with recall time 0, every holder is revoked. -/
theorem holdersDealt_revoked {b : Bay} {s v : State} (hv : Withdrawing b s v) :
    HoldersDealt b 0 s (revokePorts b .withdrawn (v.bay b).holderPorts v) := by
  have hside := adminSide_revokePorts b .withdrawn (v.bay b).holderPorts v
  have hmem : ∀ q h, (v.bay b).holder q = some h → q ∈ (v.bay b).holderPorts := fun q h hq =>
    (mem_holderPorts _ q).2 (by rw [hq]; rfl)
  have hgone : ∀ q, ((revokePorts b .withdrawn (v.bay b).holderPorts v).bay b).holder q = none := fun q => by
    refine revokePorts_none b .withdrawn q _ v ?_
    cases hq : (v.bay b).holder q with
    | none => exact Or.inr rfl
    | some h => exact Or.inl (hmem q h hq)
  refine ⟨(congrArg Prod.fst hside).trans hv.availability, (congrArg (fun x => x.2.1) hside).trans hv.claims,
    (congrArg (fun x => x.2.2) hside).trans hv.recallTime, fun _ => hgone, fun h => absurd h (by decide),
    fun hp hex _ => ?_, fun hp _ => ?_, fun h => absurd h (by decide)⟩
  · obtain ⟨q, h, hq, hr⟩ := hex
    have hend := revokePorts_endRecall b .withdrawn _ v (hv.phase_recalled hp) (fun q h hq _ => hmem q h hq)
      ⟨q, h, (hv.holder q).trans hq, hr⟩
    exact ⟨congrArg Prod.fst hend, congrArg Prod.snd hend⟩
  · have hnone := hv.phase_none hp
    have hstill := revokePorts_still b .withdrawn (v.bay b).holderPorts v (by rw [hnone]; decide)
    exact ⟨(congrArg Prod.fst hstill).trans hnone, (congrArg Prod.snd hstill).trans hv.recallTimer⟩

/-- R52: a bay that nobody holds. -/
theorem holdersDealt_none {b : Bay} {ms : Nat} {s v : State} (hv : Withdrawing b s v) (h0 : 0 < ms)
    (hnone : ∀ q, (s.bay b).holder q = none) : HoldersDealt b ms s v := by
  refine ⟨hv.availability, hv.claims, hv.recallTime, fun h => absurd h (Nat.ne_of_gt h0), fun _ q => ?_,
    fun _ _ h => absurd h (Nat.ne_of_gt h0), fun hp _ => ⟨hv.phase_none hp, hv.recallTimer⟩, fun _ hex => ?_⟩
  · rw [hv.holder q, hnone q]
    rfl
  · obtain ⟨q, h, hq⟩ := hex
    rw [hnone q] at hq
    cases hq

/-- R52: the deadline of a withdrawal's recall: no later than a recall that runs already. -/
theorem withdrawDeadline {b : Bay} {ms : Nat} {s v : State} {t : Option Nat} (hv : Withdrawing b s v)
    (ht : t = (s.bay b).recallTimer) :
    ((s.bay b).recallTimer = none →
      (recallHolders b v).after (if t.isSome then min (msLeft t (recallHolders b v).now) ms else ms) =
        s.now + ms * 1000) ∧
    (∀ d, (s.bay b).recallTimer = some d →
      (recallHolders b v).after (if t.isSome then min (msLeft t (recallHolders b v).now) ms else ms) =
        s.now + min ((d - s.now) / 1000) ms * 1000) := by
  have hnow : (recallHolders b v).now = s.now := (recallHolders_now b v).trans hv.now
  refine ⟨fun hnone => ?_, fun d hd => ?_⟩
  · rw [ht, hnone]
    simp [State.after, hnow, Config.usPerMs]
  · rw [ht, hd]
    simp [State.after, hnow, Config.usPerMs, msLeft]

/-- R52: with a recall time, every holder is recalled. -/
theorem holdersDealt_recalled {b : Bay} {ms : Nat} {s v w : State} (hv : Withdrawing b s v) (h0 : 0 < ms)
    (hex : ∃ q h, (s.bay b).holder q = some h) (hav : (w.bay b).availability = .withdrawing)
    (hw : w = (recallHolders b v).modBay b fun r =>
      { r with
        phase := .recalled,
        recallTimer := some ((recallHolders b v).after
          (if r.recallTimer.isSome then min (msLeft r.recallTimer (recallHolders b v).now) ms else ms)) }) :
    HoldersDealt b ms s w := by
  obtain ⟨⟨l, hbay⟩, hheld, -, -, -⟩ := recallHolders_timed b v _ w hw
  have htimer : ((recallHolders b v).bay b).recallTimer = (s.bay b).recallTimer := by
    obtain ⟨l, hl⟩ := recallHolders_bay b v
    rw [hl]
    exact hv.recallTimer
  obtain ⟨hfresh, hruns⟩ := withdrawDeadline (ms := ms) hv htimer
  have hset : (w.bay b).recallTimer = some ((recallHolders b v).after
      (if ((recallHolders b v).bay b).recallTimer.isSome then
        min (msLeft ((recallHolders b v).bay b).recallTimer (recallHolders b v).now) ms else ms)) := by
    rw [hw, modBay_bay_self]
  refine ⟨hav, ?_, ?_, fun h => absurd h (Nat.ne_of_gt h0), fun _ q => by rw [hheld q, hv.holder q],
    fun _ _ h => absurd h (Nat.ne_of_gt h0), fun _ h => ?_, fun _ _ => ⟨?_, fun hnone => ?_, fun d hd => ?_⟩⟩
  · rw [hbay]
    exact hv.claims
  · rw [hbay]
    exact hv.recallTime
  · obtain ⟨q, hq⟩ := hex
    obtain ⟨h', hq⟩ := hq
    rcases h with h | h
    · exact absurd h (Nat.ne_of_gt h0)
    · rw [h q] at hq
      cases hq
  · rw [hbay]
  · rw [hset, hfresh hnone]
  · rw [hset, hruns d hd]

theorem holdersDealt {b : Bay} {ms : Nat} {s v w : State} (hv : Withdrawing b s v)
    (hav : (w.bay b).availability = .withdrawing)
    (hrevoked : ms = 0 → w = revokePorts b .withdrawn (v.bay b).holderPorts v)
    (hidle : 0 < ms → (∀ q, (v.bay b).holder q = none) → w = v)
    (hrecalled : 0 < ms → (∃ q h, (v.bay b).holder q = some h) →
      w = (recallHolders b v).modBay b fun r =>
        { r with
          phase := .recalled,
          recallTimer := some ((recallHolders b v).after
            (if r.recallTimer.isSome then min (msLeft r.recallTimer (recallHolders b v).now) ms else ms)) }) :
    HoldersDealt b ms s w := by
  rcases Nat.eq_zero_or_pos ms with rfl | h0
  · rw [hrevoked rfl]
    exact holdersDealt_revoked hv
  by_cases hnone : ∀ q, (s.bay b).holder q = none
  · rw [hidle h0 fun q => (hv.holder q).trans (hnone q)]
    exact holdersDealt_none hv h0 hnone
  · obtain ⟨q, hq⟩ := Classical.not_forall.1 hnone
    obtain ⟨h, hq⟩ := Option.ne_none_iff_exists'.1 hq
    exact holdersDealt_recalled hv h0 ⟨q, h, hq⟩ hav (hrecalled h0 ⟨q, h, (hv.holder q).trans hq⟩)

/-! ## The completion check and the answer -/

/-- R54: the state that a withdrawal reaches from the one in which its holders have been dealt with. -/
def withdrawalChecked (b : Bay) (w : State) : State :=
  if (∀ q, (w.bay b).holder q = none) ∧ (w.bay b).trailing = 0 then
    appendRecord { note := .bay .withdrawn, port := none, bay := some b }
      (w.modBay b fun r => { r with availability := .withdrawn })
  else w

theorem withdrawalChecked_bay {b : Bay} {w : State} (hw : (w.bay b).availability = .withdrawing) :
    (withdrawalChecked b w).bay b =
      { w.bay b with
        availability :=
          if (∀ q, (w.bay b).holder q = none) ∧ (w.bay b).trailing = 0 then .withdrawn else .withdrawing } := by
  unfold withdrawalChecked
  split
  · rw [bay_congr (appendRecord_bays _ _) b, modBay_bay_self]
  · rw [← hw]

/-- R194: the OK answer to a BAY_WITHDRAW that has reached `x`. -/
def withdrawalAnswered (p : Port) (f : FrameFields) (b : Bay) (ms : Nat) (s x : State) : State :=
  okDetail p f
    [byte (s.bay b).claims.length, byte (if ms = 0 then (s.bay b).holderPorts.length else 0),
      byte (x.bay b).recallSet.length] x

theorem withdrawalAnswered_eq (p : Port) (f : FrameFields) (b : Bay) (ms : Nat) (s x : State) :
    withdrawalAnswered p f b ms s x = answerHead p
      { kind := .answer, status := .ok, tag := f.tag, bay := f.bay,
        detail :=
          [byte (s.bay b).claims.length,
            byte (if ms = 0 then (allPorts.filter fun q => decide ((s.bay b).holder q ≠ none)).length else 0),
            byte (x.bay b).recallSet.length, 0, 0, 0] } x := by
  unfold withdrawalAnswered
  rw [holderPorts_eq]
  rfl

theorem bayWithdraw_available {p : Port} {b : Bay} {f : FrameFields} {s : State} (hb : bayOf f.bay = some b)
    (hlen : f.payload.length = 2) (hn : f.count = 0) (hx : f.serial = 0) (hk : f.block = 0) :
    ((s.bay b).availability = .inService → bayWithdraw p f s = withdraw p f b (natOf f.payload) s) ∧
    ((s.bay b).availability = .probing → bayWithdraw p f s = refuseHead p f .bayBusy s) ∧
    ((s.bay b).availability = .withdrawing ∨ (s.bay b).availability = .withdrawn →
      bayWithdraw p f s = refuseHead p f .withdrawn s) ∧
    ((s.bay b).availability = .faulted → bayWithdraw p f s = refuseHead p f .faulted s) := by
  have hok : f.payload.length = 2 ∧ unusedZeroButBay f = true := ⟨hlen, (unusedZeroButBay_iff f).2 ⟨hn, hx, hk⟩⟩
  refine ⟨fun h => ?_, fun h => ?_, ?_, fun h => ?_⟩
  · simp only [bayWithdraw, hb, if_pos hok, h]
  · simp only [bayWithdraw, hb, if_pos hok, h]
  · rintro (h | h) <;> simp only [bayWithdraw, hb, if_pos hok, h]
  · simp only [bayWithdraw, hb, if_pos hok, h]

end Sys2Proof.Machine

namespace Sys2Proof.Proofs

open Sys2Proof.Machine

/-- Settles O47: the three steps of a withdrawal, each with what it makes of the bay; the refusals by the bay's
availability. -/
theorem bayWithdrawn : Obligations.BayWithdrawn := by
  refine ⟨fun p b ms f s hm hb hf hms hn hx hk hserv => ?taken, fun p b f s hm hb hlen hn hx hk => ?refused⟩
  case refused =>
    obtain ⟨-, hprobing, hwithdrawn, hfaulted⟩ := bayWithdraw_available (p := p) (s := s) hb hlen hn hx hk
    exact ⟨fun h => request_refused hm (hprobing h), fun h => request_refused hm (hwithdrawn h),
      fun h => request_refused hm (hfaulted h)⟩
  case taken =>
    obtain ⟨v, hvdef⟩ : ∃ v, v = startWithdrawal b s := ⟨_, rfl⟩
    have hv : Withdrawing b s v := hvdef ▸ startWithdrawal_withdrawing b s
    obtain ⟨w, hsteps, hav, hrevoked, hidle, hrecalled⟩ := withdrawHolders_steps b ms v hv.availability
    have hd := holdersDealt hv hav hrevoked hidle hrecalled
    have hxbay := withdrawalChecked_bay hav
    have hports : (v.bay b).holderPorts = allPorts.filter fun q => decide ((s.bay b).holder q ≠ none) := by
      rw [holderPorts_eq]
      exact List.filter_congr fun q _ => by rw [hv.holder q]
    have hexec : exec (.bayWithdraw p) s =
        .next (transmit (handOut (withdrawalAnswered p f b ms s (withdrawalChecked b w)))) := by
      have hlen : f.payload.length = 2 := by rw [hf, bytesOf_length]
      refine exec_request_eq hm (((bayWithdraw_available hb hlen hn hx hk).1 hserv).trans ?_)
      rw [hf, natOf_bytesOf_two hms]
      unfold withdraw
      dsimp only
      rw [← hvdef, hsteps]
      rfl
    obtain ⟨hpresences, hdrive, hdrives⟩ := withdraw_frame b ms s
    rw [← hvdef, hsteps] at hpresences hdrive hdrives
    have hraised : ∀ c, hasEvent (withdrawalChecked b w).raised (.recallForced c) = hasEvent s.raised (.recallForced c) := by
      intro c
      have h := withdrawHolders_raised (e := .recallForced c) ⟨by simp, by simp, by simp⟩ b ms s
      rw [← hvdef, hsteps] at h
      exact h
    have hubay : (withdrawalAnswered p f b ms s (withdrawalChecked b w)).bay b = (withdrawalChecked b w).bay b := rfl
    refine ⟨withdrawalAnswered p f b ms s (withdrawalChecked b w), v, w, withdrawalChecked b w, hexec, ?start, ?revoked,
      ?idle, ?recalled, rfl, ?ended, ?still, hraised, ?claims, ?gone, ?holders, ?runs, ?availability, ?recallTime,
      hpresences, hdrive, hdrives, ?answer⟩
    case start => exact hvdef.trans (startWithdrawal_eq b s)
    case revoked => exact fun h => hports ▸ hrevoked h
    case idle => exact fun h0 hnone => hidle h0 fun q => (hv.holder q).trans (hnone q)
    case recalled =>
      rintro h0 ⟨q, h, hq⟩
      obtain ⟨hbay, -, hother, hport, hrest⟩ := recallHolders_timed b v _ w (hrecalled h0 ⟨q, h, (hv.holder q).trans hq⟩)
      refine ⟨?_, hother, fun q => ?_, hrest⟩
      · rw [hubay, hxbay]
        exact hbay
      · have h := hport q
        rw [hv.holder q] at h
        exact h
    case ended =>
      rw [hubay, hxbay]
      exact hd.recall_ended
    case still =>
      rw [hubay, hxbay]
      exact hd.no_recall
    case claims =>
      rw [hubay, hxbay]
      exact hd.claims
    case gone =>
      rw [hubay, hxbay]
      exact hd.revoked
    case holders =>
      rw [hubay, hxbay]
      exact hd.recalled
    case runs =>
      rw [hubay, hxbay]
      exact hd.recall_runs
    case availability =>
      rw [hubay, hxbay]
      rfl
    case recallTime =>
      rw [hubay, hxbay]
      exact hd.recallTime
    case answer => exact withdrawalAnswered_eq p f b ms s (withdrawalChecked b w)

end Sys2Proof.Proofs
end

section
/-! PROOF. The settings of ports and bays, and the plan (R9, R101 to R104, R130, R145, R162, R181, R182). -/

namespace Sys2Proof.Machine

/-! ## The records of R195 -/

theorem natOf_two (x y : Byte) : natOf [x, y] = x.toNat * 256 + y.toNat := by simp [natOf]

theorem byte_ofToNat (x : Byte) : byte x.toNat = x := BitVec.ofNat_toNat 8 x |>.trans (BitVec.setWidth_eq x)

theorem toNat_eq_zero (x : Byte) : x.toNat = 0 ↔ x = 0 := (BitVec.toNat_eq (x := x) (y := 0)).symm

theorem portLimitsOf_length {x : List Byte} (h : x.length ≠ 10) : portLimitsOf x = none := if_neg fun k => h k.1

theorem portLimitsOf_bytes (q h l t r m e x w v : Byte) : portLimitsOf [q, h, l, t, r, m, e, x, w, v] =
    if 1 ≤ q.toNat ∧ q.toNat ≤ 64 ∧ 1 ≤ h.toNat ∧ h.toNat ≤ 16 ∧ 1 ≤ l.toNat ∧ l.toNat ≤ 15 ∧ 1 ≤ t.toNat ∧
        r.toNat ≤ 15 ∧ x = 0 ∧ 10 ≤ w.toNat * 256 + v.toNat ∧ w.toNat * 256 + v.toNat ≤ 10000 ∧
        l.toNat < h.toNat then
      some
        { quota := q.toNat, highWater := h.toNat, lowWater := l.toNat, holdTime := t, repeatLimit := r.toNat,
          missLimit := m.toNat, earlyLimit := e.toNat, window := w.toNat * 256 + v.toNat }
    else none := by
  simp only [portLimitsOf, fieldAt, slice, List.drop_succ_cons, List.drop_zero, List.take_succ_cons, List.take_zero,
    natOf_one, natOf_two, byte_ofToNat, toNat_eq_zero, List.length_cons, List.length_nil, true_and]

/-- A choice among two codes, as a range check and a reading. -/
theorem ite_some_or {α : Type} (P Q : Prop) [Decidable P] [Decidable Q] (x y : α) :
    (if P then some x else if Q then some y else none) = if P ∨ Q then some (if P then x else y) else none := by
  by_cases hp : P
  · rw [if_pos hp, if_pos (Or.inl hp), if_pos hp]
  · by_cases hq : Q
    · rw [if_neg hp, if_pos hq, if_pos (Or.inr hq), if_neg hp]
    · rw [if_neg hp, if_neg hq, if_neg (not_or.2 ⟨hp, hq⟩)]

theorem of_ite_some {α : Type} {P : Prop} [Decidable P] {x y : α} (h : (if P then some x else none) = some y) : P :=
  Classical.byContradiction fun k => nomatch (if_neg k).symm.trans h

theorem checkModeOf_eq (m : Byte) : checkModeOf m =
    if m = 1 ∨ m = 2 ∨ m = 3 then some (if m = 1 then .enforce else if m = 2 then .report else .off) else none := by
  simp only [checkModeOf, ite_some_or]

theorem timeoutOf_eq (n : Nat) : timeoutOf n =
    if n = 50 ∨ n = 200 ∨ n = 800 ∨ n = 3200 then
      some (if n = 50 then .ms50 else if n = 200 then .ms200 else if n = 800 then .ms800 else .ms3200)
    else none := by
  simp only [timeoutOf, ite_some_or]

theorem laneOf_toNat (x : Byte) : laneOf x.toNat = if x = 1 ∨ x = 2 then some (if x = 1 then .a else .b) else none := by
  have h1 : x.toNat = 1 ↔ x = 1 := (BitVec.toNat_eq (x := x) (y := 1)).symm
  have h2 : x.toNat = 2 ↔ x = 2 := (BitVec.toNat_eq (x := x) (y := 2)).symm
  simp only [laneOf, ite_some_or, h1, h2]

theorem retryLaneOf_eq (x : Byte) : retryLaneOf x =
    if x = 1 ∨ x = 2 then some (if x = 1 then .same else .alternate) else none := by
  simp only [retryLaneOf, ite_some_or]

theorem boolOf_eq (x : Byte) : boolOf x = if x = 0 ∨ x = 1 then some (decide (x = 1)) else none := by
  by_cases h0 : x = 0
  · subst h0
    rfl
  by_cases h1 : x = 1
  · subst h1
    rfl
  · rw [boolOf, if_neg h0, if_neg h1, if_neg (not_or.2 ⟨h0, h1⟩)]

theorem bayPolicyOf_length {x : List Byte} (h : x.length ≠ 14) : bayPolicyOf x = none := by
  unfold bayPolicyOf
  split
  · exact if_neg fun k => h k.1
  · rfl

theorem bayPolicyOf_bytes (m z w v l n r x y e a c g h : Byte) :
    bayPolicyOf [m, z, w, v, l, n, r, x, y, e, a, c, g, h] =
      if (m = 1 ∨ m = 2 ∨ m = 3) ∧ z = 0 ∧
          (w.toNat * 256 + v.toNat = 50 ∨ w.toNat * 256 + v.toNat = 200 ∨ w.toNat * 256 + v.toNat = 800 ∨
            w.toNat * 256 + v.toNat = 3200) ∧
          (l = 1 ∨ l = 2) ∧ 1 ≤ n.toNat ∧ n.toNat ≤ 15 ∧ r.toNat ≤ 2 ∧ (x = 1 ∨ x = 2) ∧ (y = 1 ∨ y = 2) ∧
          (e = 0 ∨ e = 1) ∧ g.toNat * 256 + h.toNat ≠ 0 then
        some
          { drive :=
              { checkMode := if m = 1 then .enforce else if m = 2 then .report else .off,
                timeout :=
                  if w.toNat * 256 + v.toNat = 50 then .ms50
                  else if w.toNat * 256 + v.toNat = 200 then .ms200
                  else if w.toNat * 256 + v.toNat = 800 then .ms800
                  else .ms3200,
                preferred := if l = 1 then .a else .b, failLimit := n.toNat, retryCount := r.toNat,
                firstRetry := if x = 1 then .same else .alternate,
                secondRetry := if y = 1 then .same else .alternate, retryMedium := decide (e = 1) },
            patienceTime := BitVec.ofNat 16 (a.toNat * 256 + c.toNat),
            recallTime := BitVec.ofNat 16 (g.toNat * 256 + h.toNat) }
      else none := by
  simp only [bayPolicyOf, fieldAt, slice, List.drop_succ_cons, List.drop_zero, List.take_succ_cons, List.take_zero,
    natOf_one, natOf_two, byte_ofToNat, toNat_eq_zero, checkModeOf_eq, timeoutOf_eq, laneOf_toNat, retryLaneOf_eq,
    boolOf_eq, List.length_cons, List.length_nil]
  by_cases hcodes : (m = 1 ∨ m = 2 ∨ m = 3) ∧
      (w.toNat * 256 + v.toNat = 50 ∨ w.toNat * 256 + v.toNat = 200 ∨ w.toNat * 256 + v.toNat = 800 ∨
        w.toNat * 256 + v.toNat = 3200) ∧ (l = 1 ∨ l = 2) ∧ (x = 1 ∨ x = 2) ∧ (y = 1 ∨ y = 2) ∧ (e = 0 ∨ e = 1)
  · obtain ⟨hm, ht, hl, hx, hy, he⟩ := hcodes
    simp only [if_pos hm, if_pos ht, if_pos hl, if_pos hx, if_pos hy, if_pos he]
    refine ite_congr (propext ⟨fun ⟨_, hz, hn, hn', hr, hg⟩ => ⟨hm, hz, ht, hl, hn, hn', hr, hx, hy, he, hg⟩,
      fun ⟨_, hz, _, _, hn, hn', hr, _, _, _, hg⟩ => ⟨trivial, hz, hn, hn', hr, hg⟩⟩) (fun _ => rfl) fun _ => rfl
  · refine Eq.trans ?_
      (if_neg fun ⟨hm, _, ht, hl, _, _, _, hx, hy, he, _⟩ => hcodes ⟨hm, ht, hl, hx, hy, he⟩).symm
    split
    · next hm ht hl hx hy he =>
      exact absurd ⟨of_ite_some hm, of_ite_some ht, of_ite_some hl, of_ite_some hx, of_ite_some hy, of_ite_some he⟩ hcodes
    · rfl

/-! ## The plan (R101 to R104) -/

theorem bankOf_iff (n : Nat) (h : n < 256) (bank : Bank) :
    bankOf (byte n) = some bank ↔ n = if bank = .a then 1 else 2 := by
  have h1 : byte n = 1 ↔ n = 1 := byte_inj n 1 h (by decide)
  have h2 : byte n = 2 ↔ n = 2 := byte_inj n 2 h (by decide)
  simp only [bankOf, h1, h2]
  by_cases k1 : n = 1
  · cases bank <;> simp [k1]
  · by_cases k2 : n = 2 <;> cases bank <;> simp [k1, k2]

theorem fieldAt_drop (x : List Byte) (a b n : Nat) : fieldAt (x.drop a) b n = fieldAt x (a + b) n := by
  simp only [fieldAt, slice, List.drop_drop]

/-- R195: the PLAN_WRITE payload. -/
theorem planWriteOf_iff (x : List Byte) (bank : Bank) (weights : Weights) :
    planWriteOf x = some (bank, weights) ↔
      x.length = 100 ∧ fieldAt x 0 1 = (if bank = .a then 1 else 2) ∧ fieldAt x 1 3 = 0 ∧
        ∀ (b : Bay) (p : Port), fieldAt x (4 + 8 * b.val + p.val) 1 = (weights[b][p]).val := by
  have hbank := bankOf_iff (fieldAt x 0 1) (fieldAt_one_lt x 0) bank
  have htable : x.length = 100 → (bayTable weightOf (x.drop 4) = some weights ↔
      ∀ (b : Bay) (p : Port), fieldAt x (4 + 8 * b.val + p.val) 1 = (weights[b][p]).val) := fun hlen => by
    rw [bayTable_iff, List.length_drop, hlen]
    refine (and_iff_right rfl).trans (forall_congr' fun b => forall_congr' fun p => ?_)
    rw [weightOf_iff _ (fieldAt_one_lt _ _), fieldAt_drop, Nat.add_assoc]
  unfold planWriteOf
  by_cases hok : x.length = 100 ∧ fieldAt x 1 3 = 0
  · rw [if_pos hok, ← hbank, ← htable hok.1]
    cases bankOf (byte (fieldAt x 0 1)) <;> cases bayTable weightOf (x.drop 4) <;> simp [hok]
  · rw [if_neg hok]
    refine ⟨fun h => (nomatch h), fun h => absurd ⟨h.1, h.2.2.1⟩ hok⟩

theorem planWrite_taken {p : Port} {f : FrameFields} {bank : Bank} {weights : Weights} (s : State)
    (hw : planWriteOf f.payload = some (bank, weights)) (hb : f.bay = 0) (hn : f.count = 0) (hx : f.serial = 0)
    (hk : f.block = 0) : planWrite p f s =
      if bankInUse s bank then refuseHead p f .bankInUse s else okDetail p f [bankCode bank] (writeBank bank weights s) := by
  simp only [planWrite, hw, (unusedZero_iff f).2 ⟨hb, hn, hx, hk⟩, if_true]

/-- R102: the plan at a swap, before the adoptions. -/
def swapped (s : State) : State :=
  { s with plan := { s.plan with current := otherBank s.plan.current, swapPending := true } }

theorem planSwap_taken {p : Port} {f : FrameFields} (s : State) (hf : f.payload = []) (hb : f.bay = 0)
    (hn : f.count = 0) (hx : f.serial = 0) (hk : f.block = 0) : planSwap p f s =
      if s.plan.swapPending then refuseHead p f .swapPending s
      else okDetail p f [bankCode (swapBanks s).plan.current, byte (allBays.filter (adoptsAt (swapped s))).length]
        (swapBanks s) :=
  if_pos ⟨hf, (unusedZero_iff f).2 ⟨hb, hn, hx, hk⟩⟩

/-- R102, R103: the adoptions of a swap, before its check. -/
def swapAdopted (s : State) : State := allBays.foldl (fun s b => adoptIfIdle b s) (swapped s)

theorem swapBanks_eq (s : State) : swapBanks s = swapCheck (swapAdopted s) := rfl

theorem swapAdopted_pass (s : State) :
    (∀ d, (swapAdopted s).service d =
      if d ∈ allBays ∧ adoptsAt (swapped s) d = true then adopted (swapped s) d else s.service d) ∧
    (swapAdopted s).journal.seq = s.journal.seq + BitVec.ofNat 32 (allBays.filter (adoptsAt (swapped s))).length ∧
    SwapOpen (swapAdopted s) :=
  adoptIfIdle_pass allBays (by decide) (swapped s) (Or.inl rfl) (swapAdopted s) rfl

theorem swapAdopted_plan (s : State) : (swapAdopted s).plan.current = otherBank s.plan.current ∧
    (swapAdopted s).plan.bankA = s.plan.bankA ∧ (swapAdopted s).plan.bankB = s.plan.bankB ∧
    ∀ b, ((swapAdopted s).service b).bank = if bayIdle s b then otherBank s.plan.current else (s.service b).bank := by
  obtain ⟨-, hcurrent, ha, hb, -, hbank⟩ := adoptIfIdle_fold (swapped s) rfl allBays (swapped s) (fun _ => False)
    ⟨rfl, rfl, rfl, rfl, Or.inl rfl, fun b => ⟨fun h => h.1.elim, fun _ => rfl⟩⟩ (swapAdopted s) rfl
  refine ⟨hcurrent, ha, hb, fun b => ?_⟩
  obtain ⟨hidle, hbusy⟩ := hbank b
  split
  · next h => exact hidle ⟨Or.inr (mem_allBays b), h⟩
  · next h => exact hbusy fun k => h k.2

/-- R104: a swap check where a swap is pending, or has completed with its event. -/
theorem swapCheck_open {s : State} (ho : SwapOpen s) :
    (AllOnCurrent (swapCheck s) → hasEvent (swapCheck s).raised .planAdopted = true) ∧
    ((swapCheck s).plan.swapPending = false ↔ AllOnCurrent (swapCheck s)) := by
  obtain ⟨hservices, -, hplan⟩ := swapCheck_spec s
  have hcurrent : (swapCheck s).plan.current = s.plan.current := by
    rcases hplan with ⟨-, h⟩ | ⟨h, -⟩ <;> rw [h]
  have hall : AllOnCurrent (swapCheck s) ↔ AllOnCurrent s := by
    unfold AllOnCurrent State.service
    rw [hservices, hcurrent]
  rw [hall]
  rcases swapCheck_adopted s with hsame | ⟨hended, hevent⟩
  · rw [hsame] at hplan ⊢
    rcases ho with hpending | ⟨hon, hended, hevent⟩
    · have hnot : ¬ AllOnCurrent s := by
        rcases hplan with ⟨-, h⟩ | ⟨-, h⟩
        · have hend : s.plan.swapPending = false := congrArg Plan.swapPending h
          rw [hpending] at hend
          cases hend
        · exact h hpending
      exact ⟨fun h => absurd h hnot, fun h => (nomatch hpending.symm.trans h), fun h => absurd h hnot⟩
    · exact ⟨fun _ => hevent, fun _ => hon, fun _ => hended⟩
  · refine ⟨fun _ => hevent, fun _ => ?_, fun _ => hended⟩
    rcases hplan with ⟨h, -⟩ | ⟨h, -⟩
    · exact h
    · rcases ho with hpending | ⟨hon, -, -⟩
      · rw [h, hpending] at hended
        cases hended
      · exact hon

end Sys2Proof.Machine

namespace Sys2Proof.Proofs

open Sys2Proof.Machine

/-- Settles O49: both requests by their checks, and the records code by code. -/
theorem policiesSet : Obligations.PoliciesSet := by
  refine ⟨fun p f s hn hx hk => ⟨fun b t hm hb ht => exec_request_eq hm ?_, fun q t hm hq ht => exec_request_eq hm ?_⟩,
    portLimitsOf_bytes, bayPolicyOf_bytes, fun x => ⟨bayPolicyOf_length, portLimitsOf_length⟩⟩
  · simp only [requestOf, bayPolicySet, hb, ht, (unusedZeroButBay_iff f).2 ⟨hn, hx, hk⟩]
    rfl
  · simp only [requestOf, limitsSet, hq, ht, (unusedZeroButBay_iff f).2 ⟨hn, hx, hk⟩]
    rfl

/-- Settles O50: the swap by the pass of adoptions over the twelve bays and the check that ends it. -/
theorem planChanged : Obligations.PlanChanged := by
  refine ⟨planWriteOf_iff, fun p f s hb hn hx hk => ⟨fun bank weights hm hw => ⟨?used, ?written⟩,
    fun hm hf => ⟨fun hpending => ?pending, fun hidle => ?swap⟩⟩⟩
  case used =>
    intro h
    have hat := (planWrite_taken (p := p) s hw hb hn hx hk).trans (if_pos ((bankInUse_iff s bank).2 h))
    refine request_answers hm (hat.trans ?_)
    rw [refuseHead, answerTo, hb]
  case written =>
    intro h
    have hfree : ¬ bankInUse s bank = true := fun k => by
      obtain ⟨b, hbank⟩ := (bankInUse_iff s bank).1 k
      exact h b hbank
    refine exec_request_eq hm ((planWrite_taken (p := p) s hw hb hn hx hk).trans ((if_neg hfree).trans ?_))
    rw [okDetail, answerTo, hb]
    cases bank <;> rfl
  case pending =>
    refine request_answers hm ((planSwap_taken (p := p) s hf hb hn hx hk).trans ((if_pos hpending).trans ?_))
    rw [refuseHead, answerTo, hb]
  case swap =>
    intro adopting hadopting
    have hadopts : allBays.filter (adoptsAt (swapped s)) = adopting := by
      rw [hadopting]
      exact List.filter_congr fun b _ => congrArg (bayIdle s b && ·) (decide_not).symm
    have hmem : ∀ b, (b ∈ allBays ∧ adoptsAt (swapped s) b = true) ↔ b ∈ adopting := fun b => by
      rw [← hadopts, List.mem_filter]
    obtain ⟨hservice, hseq, hopen⟩ := swapAdopted_pass s
    obtain ⟨hcurrent, ha, hb', hbank⟩ := swapAdopted_plan s
    obtain ⟨hservices, -, hplan⟩ := swapCheck_spec (swapAdopted s)
    obtain ⟨hevent, hended⟩ := swapCheck_open hopen
    have hat : ∀ b, (swapBanks s).service b = (swapAdopted s).service b := fun b =>
      congrArg (fun v : Vector Service 12 => v[b]) hservices
    have hkept : (swapBanks s).plan.current = (swapAdopted s).plan.current ∧
        (swapBanks s).plan.bankA = (swapAdopted s).plan.bankA ∧ (swapBanks s).plan.bankB = (swapAdopted s).plan.bankB := by
      rw [swapBanks_eq]
      rcases hplan with ⟨-, h⟩ | ⟨h, -⟩ <;> rw [h] <;> exact ⟨rfl, rfl, rfl⟩
    refine ⟨swapBanks s, exec_request_eq hm ?_, rfl, fun b q => ?_, ?_, hevent, hkept.1.trans hcurrent,
      hkept.2.1.trans ha, hkept.2.2.trans hb', fun b => ?_, hended⟩
    · refine (planSwap_taken (p := p) s hf hb hn hx hk).trans ((if_neg (by rw [hidle]; decide)).trans ?_)
      rw [hadopts, hkept.1, hcurrent, okDetail, answerTo, hb]
      rfl
    · rw [hat, hservice]
      by_cases h : b ∈ adopting
      · rw [if_pos ((hmem b).2 h), if_pos h]
        exact byPort_get _ q
      · rw [if_neg (mt (hmem b).1 h), if_neg h]
    · rw [swapBanks_eq, swapCheck_seq, hseq, hadopts]
    · rw [hat, hbank]

end Sys2Proof.Proofs
end

section
/-! PROOF. The management requests of the Presence Monitors and the Node Ports, of the Journal, the statistics, the Event
Unit and the Time Base, and RESET_PART (R150, R163 to R167, R174, R178, R184, R188, R191). -/

namespace Sys2Proof.Machine

/-! ## PORT_DISABLE and PORT_ENABLE (R163, R164) -/

theorem disable_eq {q : Port} {s a v : State} {loans claims : Nat}
    (ha : a = s.modPresence q fun m => { m with beatTimer := none }) (hs : ClaimsSingle a)
    (hv : v = cleanContexts q (cleanLoans .disabled q (a.modPort q cleanPort)).state)
    (hloans : loans = (allBays.filter fun b => decide ((a.bay b).holder q ≠ none)).length)
    (hclaims : claims = (allBays.filter fun b => (a.bay b).claims.any fun x => decide (x.port = q)).length) :
    disable q s = appendRecord
      { note := .port .disable, port := some q, count1 := BitVec.ofNat 32 loans, count2 := BitVec.ofNat 32 claims }
      ((v.modPresence q fun m => { m with state := .off, enabled := false }).modPort q fun n =>
        { n with eventNews := false }) := by
  unfold disable dropNews
  dsimp only
  rw [← ha, cleanUp_state, cleanUp_loans .disabled q hs, cleanUp_claims .disabled q hs, ← hloans, ← hclaims, ← hv]
  rfl

theorem disable_kept {q : Port} {s : State} (hr : s.phase = .running) :
    PortKept q { s.presence q with state := .off, enabled := false, beatTimer := none } s.softReset
      (s.modPresence q fun m => { m with beatTimer := none }).presence (disable q s) := by
  have hclean := cleanUp_portKept .disabled q (s.modPresence q fun m => { m with beatTimer := none }) hr
  rw [modPresence_presence_self] at hclean
  unfold disable dropNews
  dsimp only
  generalize cleanUp .disabled q (s.modPresence q fun m => { m with beatTimer := none }) = t at hclean ⊢
  exact (PortKept.core q _ _ _).appendRecord _ _ ((PortKept.core q _ _ _).port' _ q _
    (hclean.mod fun m => { m with state := .off, enabled := false }))

theorem disable_nothing {q : Port} {s : State} (hs : ClaimsSingle s) (b : Bay) : Nothing (disable q s) q b := by
  have hclean := cleanUp_nothing .disabled q (s.modPresence q fun m => { m with beatTimer := none }) hs b
  unfold disable
  dsimp only
  generalize cleanUp .disabled q (s.modPresence q fun m => { m with beatTimer := none }) = t at hclean ⊢
  exact (Nothing.core q b).appendRecord _ (dropNews q _) hclean

theorem disablePort_off {q : Port} {s : State} (h : (s.presence q).state = .off) : disablePort q s = s := by
  simp only [disablePort, h]

theorem disablePort_on {q : Port} {s : State} (h : (s.presence q).state ≠ .off) :
    disablePort q s = startIfAnswerGone (disable q s) := by
  cases hk : (s.presence q).state with
  | off => exact absurd hk h
  | new | active | lapsed | test => simp only [disablePort, hk]

theorem portDisable_self {p : Port} {f : FrameFields} (s : State) (h : namedPort f = .ok p) :
    portDisable p f s = refuseHead p f .portBusy s := by
  simp only [portDisable, h, if_true]

theorem portDisable_other {p q : Port} {f : FrameFields} (s : State) (h : namedPort f = .ok q) (hq : q ≠ p) :
    portDisable p f s = disablePort q (okHead p f s) := by
  simp only [portDisable, h, if_neg hq]

theorem enablePort_off {q : Port} {s : State} (h : (s.presence q).state = .off) : enablePort q s =
    appendRecord { note := .port .enable, port := some q }
      ((s.modPresence q fun m =>
          { m with
            state := .new, enabled := true, miss := 0, early := 0, earlyFrozen := false,
            lastBeat := none }).modPort q fun n => { n with silent := true }) := by
  simp only [enablePort, h]
  rfl

theorem enablePort_on {q : Port} {s : State} (h : (s.presence q).state ≠ .off) : enablePort q s = s := by
  cases hk : (s.presence q).state with
  | off => exact absurd hk h
  | new | active | lapsed | test => simp only [enablePort, hk]

/-! ## PORT_TEST and PORT_RESYNC (R150, R165, R167) -/

theorem testBusy_iff (s : State) (p q : Port) : testBusy s p q = true ↔
    q = p ∨ (s.presence q).state = .off ∨ (∃ b h, (s.bay b).holder q = some h) ∨ (∃ b, waitsAt s q b) ∨
      0 < s.live q := by
  simp only [testBusy, Bool.or_eq_true, decide_eq_true_eq, loansHeld_pos, claimsWaiting_pos, or_assoc]

theorem portTestOn_named {p q : Port} {f : FrameFields} (s : State) (h : namedPort f = .ok q) :
    portTestOn p f s = if testBusy s p q then refuseHead p f .portBusy s else okHead p f (enterTest q s) := by
  simp only [portTestOn, h]

theorem leaveTest_test {q : Port} {s : State} (h : (s.presence q).state = .test) :
    leaveTest q s = s.modPresence q fun m => { m with state := .new } :=
  modPresence_congr s q _ _ (if_pos h)

theorem leaveTest_other {q : Port} {s : State} (h : (s.presence q).state ≠ .test) : leaveTest q s = s :=
  modPresence_id s q _ (if_neg h)

theorem resyncPort_eq (n : NodePort) : resyncPort n =
    { n with
      receiver := if n.receiver = .idle then .idle else .ignoring, intake := [], reserved := false, silent := true,
      flowSlot := if n.hold = .isOpen then n.flowSlot else resumeSlot n.flowSlot,
      holdTimer := if n.hold = .isOpen then n.holdTimer else none,
      repeatCount := if n.hold = .isOpen then n.repeatCount else 0, hold := .isOpen } := by
  unfold resyncPort
  rw [← restartReceiver_eq]
  by_cases h : n.hold = .isOpen
  · simp only [if_pos h]
    unfold flowEnd
    dsimp only
    rw [h]
  · simp only [if_neg h]
    rw [flowEnd_ends (n := { n with receiver := restartReceiver n.receiver, intake := [], reserved := false }) h]

/-! ## JOURNAL_READ and STATS_READ (R174, R178) -/

theorem journalPayload_eq (j : Journal) (n : Nat) : journalPayload j n =
    [byte (min n j.ring.length), 0, 0, 0] ++ bytesOf 4 j.lost.toNat ++ bytesOf 2 (j.ring.length - n) ++ [0, 0] ++
      bytesOf 4 j.seq.toNat ++ ((j.ring.take n).map recordBytes).flatten := by
  unfold journalPayload
  dsimp only
  rw [List.length_take, List.length_drop]

theorem natOf_byte {n : Nat} (h : n < 256) : natOf [byte n] = n := by rw [natOf_one, byte_toNat h]

theorem journalRead_taken {p : Port} {n : Nat} {f : FrameFields} (s : State) (hf : f.payload = [byte n]) (h1 : 1 ≤ n)
    (h16 : n ≤ 16) (hz : unusedZero f = true) :
    journalRead p f s = okPayload p f (journalPayload s.journal n) (takeRecords n s) := by
  have hn : natOf f.payload = n := by rw [hf, natOf_byte (by omega)]
  have hok : f.payload.length = 1 ∧ 1 ≤ natOf f.payload ∧ natOf f.payload ≤ 16 ∧ unusedZero f = true := by
    rw [hn]
    exact ⟨by rw [hf]; rfl, h1, h16, hz⟩
  unfold journalRead
  rw [if_pos hok, hn]

theorem statsRead_format_codes {p : Port} {scope index flag : Byte} {f : FrameFields} (s : State)
    (hf : f.payload = [scope, index, flag]) (h : scope ≠ 1 ∧ scope ≠ 2 ∨ flag ≠ 0 ∧ flag ≠ 1) :
    statsRead p f s = refuseHead p f .format s := by
  simp only [statsRead, hf]
  rcases h with ⟨h1, h2⟩ | ⟨h0, h1⟩
  · cases boolOf flag with
    | none => rfl
    | some clear => simp only [if_neg h1, if_neg h2, ite_self]
  · rw [boolOf_eq, if_neg (not_or.2 ⟨h0, h1⟩)]

theorem statsRead_scope {p : Port} {scope index flag : Byte} {f : FrameFields} (s : State)
    (hf : f.payload = [scope, index, flag]) (h : flag = 0 ∨ flag = 1) (hz : unusedZero f = true) :
    statsRead p f s =
      if scope = 1 then portStatsRead p f index (decide (flag = 1)) s
      else if scope = 2 then bayStatsRead p f index (decide (flag = 1)) s
      else refuseHead p f .format s := by
  simp only [statsRead, hf, boolOf_eq, if_pos h, hz]
  rfl

theorem portStatsRead_range {p : Port} {f : FrameFields} {index : Byte} (clear : Bool) (s : State)
    (h : 8 ≤ index.toNat) : portStatsRead p f index clear s = refuseHead p f .range s := by
  simp only [portStatsRead, portOf_none.2 h]

theorem bayStatsRead_range {p : Port} {f : FrameFields} {index : Byte} (clear : Bool) (s : State)
    (h : 12 ≤ index.toNat) : bayStatsRead p f index clear s = refuseHead p f .range s := by
  simp only [bayStatsRead, bayOf_none.2 h]

/-! ## The Event Unit (R186, R187, R188) -/

theorem replaceEnabled_eq (x : EventSet) (s : State) : replaceEnabled x s =
    if (x &&& ~~~s.enabled) &&& s.raised ≠ 0 then
      tellSupervisors { s with enabled := x, alert := shareEvent s.raised x }
    else { s with enabled := x, alert := shareEvent s.raised x } :=
  ite_congr (propext (shareEvent_iff _ _)) (fun _ => rfl) fun _ => rfl

theorem raiseAll_eq (x : EventSet) (s : State) : raiseAll x s =
    if (x &&& ~~~s.raised) &&& s.enabled ≠ 0 then
      tellSupervisors { s with raised := s.raised ||| x, alert := shareEvent (s.raised ||| x) s.enabled }
    else { s with raised := s.raised ||| x, alert := shareEvent (s.raised ||| x) s.enabled } :=
  ite_congr (propext (shareEvent_iff _ _)) (fun _ => rfl) fun _ => rfl

theorem tellSupervisors_raised (s : State) : (tellSupervisors s).raised = s.raised := by
  have h := congrArg State.raised (tellSupervisors_only s)
  generalize tellSupervisors s = t at h ⊢
  exact h

theorem raiseAll_raised (x : EventSet) (s : State) : (raiseAll x s).raised = s.raised ||| x := by
  rw [raiseAll_eq]
  split
  · exact tellSupervisors_raised _
  · rfl

/-! ## TIME_SET and RESET_PART (R184, R191) -/

theorem bytesOf_four_value (v : Word32) : BitVec.ofNat 32 (natOf (bytesOf 4 v.toNat)) = v :=
  ofNat_natOf_bytesOf 4 v rfl

theorem timeSet_taken {p : Port} {r : Byte} {v : Word32} {f : FrameFields} {x : Resolution} (s : State)
    (hf : f.payload = r :: bytesOf 4 v.toNat) (hr : resolutionOf r = some x) (hz : unusedZero f = true) :
    timeSet p f s = okDetail p f (resolutionCode s.timeTag.resolution :: bytesOf 4 s.timeTag.value.toNat)
      { s with timeTag := { value := v, resolution := x, elapsed := 0 } } := by
  have hcode : byte (fieldAt f.payload 0 1) = r := by
    rw [hf]
    exact byte_natOf_one r
  have hlen : f.payload.length = 5 := by rw [hf, List.length_cons, bytesOf_length]
  have hvalue : fieldAt f.payload 1 4 = natOf (bytesOf 4 v.toNat) := by
    rw [hf]
    unfold fieldAt slice
    rw [List.drop_succ_cons, List.drop_zero, List.take_of_length_le (Nat.le_of_eq (bytesOf_length _ _))]
  simp only [timeSet, hcode, hr, hlen, hz, hvalue, bytesOf_four_value]
  rfl

theorem timeSet_unknown {p : Port} {r : Byte} {rest : List Byte} {f : FrameFields} (s : State)
    (hf : f.payload = r :: rest) (hr : 3 < r.toNat) : timeSet p f s = refuseHead p f .format s := by
  have hcode : byte (fieldAt f.payload 0 1) = r := by
    rw [hf]
    exact byte_natOf_one r
  simp only [timeSet, hcode, resolutionOf_none hr]

theorem pendSoftReset_none {p : Port} {s : State} (h : s.softReset = none) : pendSoftReset p s =
    { s with softReset := some { first := p, others := [], deadline := s.now + 250 * 1000 } } := by
  simp only [pendSoftReset, h]
  rfl

theorem pendSoftReset_some {p : Port} {s : State} {r : SoftPending} (h : s.softReset = some r) :
    pendSoftReset p s = { s with softReset := some { r with others := r.others ++ [p] } } := by
  simp only [pendSoftReset, h]

/-- R191: a port that a pending soft reset serves. -/
theorem handlerStopped_pending (p : Port) (s : State) : handlerStopped (pendSoftReset p s) p = true := by
  cases h : s.softReset with
  | none =>
    rw [pendSoftReset_none h]
    simp [handlerStopped]
  | some r =>
    rw [pendSoftReset_some h]
    simp [handlerStopped]

theorem transmit_softReset (s : State) : (transmit s).softReset = s.softReset := by
  have h := congrArg State.softReset (transmit_only s)
  generalize transmit s = t at h ⊢
  exact h

theorem handlerStopped_congr {s t : State} (h : s.softReset = t.softReset) (p : Port) :
    handlerStopped s p = handlerStopped t p := by
  unfold handlerStopped
  rw [h]

end Sys2Proof.Machine

namespace Sys2Proof.Proofs

open Sys2Proof.Machine

/-- Settles O51: a disabled port is left as `disable_kept` and `disable_nothing` say, and the whole of it is
`disable_eq`. -/
theorem portEnabledOrDisabled : Obligations.PortEnabledOrDisabled := by
  refine ⟨fun p q f s hm hq hf hn hx hk => ⟨?self, ?off, ?disabled⟩,
    fun p q f s hm hq hf hn hx hk => ⟨fun h => ?enabled, fun h => ?on⟩⟩
  all_goals have hnamed := namedPort_ok hq hf hn hx hk
  case self =>
    rintro rfl
    exact request_refused hm (portDisable_self s hnamed)
  case off => exact fun hne h => request_answers hm ((portDisable_other s hnamed hne).trans (disablePort_off h))
  case enabled =>
    refine exec_request_eq hm ?_
    simp only [requestOf, portEnable, hnamed, enablePort_off h]
    rfl
  case on =>
    refine request_answers hm ?_
    simp only [requestOf, portEnable, hnamed, enablePort_on h]
    rfl
  case disabled =>
    intro hne hon hs a v loans claims ha hv hloans hclaims
    have hanswered : a = (okHead p f s).modPresence q fun m => { m with beatTimer := none } := ha
    have hrunning : (okHead p f s).phase = .running := hm.1.1
    have hsingle : ClaimsSingle a := hanswered ▸ hs.1
    have hbay : ∀ b, a.bay b = s.bay b := fun b => by rw [ha]; rfl
    have hothers : ∀ x, x ≠ q → a.presence x = s.presence x := fun x hxq => by
      rw [hanswered, modPresence_presence_ne _ _ (Ne.symm hxq)]
      rfl
    simp only [← hbay] at hloans hclaims
    have heq := disable_eq hanswered hsingle hv hloans hclaims
    obtain ⟨⟨hsoft, hkeptOthers⟩, hkept, hintake, -⟩ := disable_kept (q := q) hrunning
    rw [← hanswered] at hkeptOthers
    obtain ⟨hpool, hstats⟩ := disable_pool q (okHead p f s) a hanswered
    have hexec := exec_request_eq hm ((portDisable_other s hnamed hne).trans (disablePort_on (s := okHead p f s) hon))
    refine ⟨disable q (okHead p f s), hexec, ?_, ?_, ?_, hintake, fun b => disable_nothing (s := okHead p f s) hs.1 b,
      fun x hxq => (hkeptOthers x hxq).trans (hothers x hxq), hsoft.trans rfl, disable_eventNews q _, hv ▸ hpool,
      hv ▸ hstats, heq⟩
    all_goals rw [hkept]

/-- Settles O52: PORT_TEST ON by the cases that make a port busy, PORT_TEST OFF by its state, and PORT_RESYNC by what
the named port does. -/
theorem portTestedOrResynchronised : Obligations.PortTestedOrResynchronised := by
  refine ⟨fun p q f s hq hf hn hx hk => ⟨fun hm => ⟨fun h => ?busy, fun hne hon hh hw hl => ?test⟩,
    fun hm => ⟨fun h => ?leaves, fun h => ?stays⟩⟩, fun p q f s u hm hq hf hn hx hk hu => ?resync⟩
  all_goals have hnamed := namedPort_ok hq hf hn hx hk
  case busy => exact request_refused hm ((portTestOn_named s hnamed).trans (if_pos ((testBusy_iff s p q).2 h)))
  case test =>
    refine exec_request_eq hm ((portTestOn_named s hnamed).trans (if_neg ?_))
    rw [testBusy_iff]
    rintro (h | h | ⟨b, h, hb⟩ | ⟨b, hb⟩ | h)
    · exact hne h
    · exact hon h
    · rw [hh b] at hb
      cases hb
    · exact hw b hb
    · exact Nat.ne_of_gt h hl
  case leaves =>
    refine exec_request_eq hm ?_
    simp only [requestOf, portTestOff, hnamed, leaveTest_test h]
    rfl
  case stays =>
    refine request_answers hm ?_
    simp only [requestOf, portTestOff, hnamed, leaveTest_other h]
    rfl
  case resync =>
    have hat : requestOf .portResync p f s = u.modPort q resyncPort := by
      rw [hu]
      simp only [requestOf, portResync, hnamed]
      rfl
    rw [funext resyncPort_eq] at hat
    exact exec_request_eq hm hat

/-- Settles O53: both requests by their checks, and a record by the code of its kind. -/
theorem journalAndStatisticsRead : Obligations.JournalAndStatisticsRead := by
  refine ⟨fun p n f s hm hf hb hn hx hk => ⟨fun h1 h16 => ?journal, fun h hlt => ?wrong⟩,
    fun p scope index flag f s hm hf hb hn hx hk => ⟨fun h => ?codes, fun h => ?scopes⟩,
    ⟨fun _ => rfl, fun _ => rfl⟩, ?record, by decide⟩
  case journal =>
    have hz := (unusedZero_iff f).2 ⟨hb, hn, hx, hk⟩
    refine exec_request_eq hm ((journalRead_taken s hf h1 h16 hz).trans ?_)
    rw [journalPayload_eq, okPayload, answerTo, hb]
    rfl
  case wrong =>
    have hbad : ¬ (f.payload.length = 1 ∧ 1 ≤ natOf f.payload ∧ natOf f.payload ≤ 16 ∧ unusedZero f = true) := by
      rw [hf, natOf_byte hlt]
      omega
    refine request_answers hm ((journalRead_format p s hbad).trans ?_)
    rw [refuseHead, answerTo, hb]
  case codes =>
    refine request_answers hm ((statsRead_format_codes s hf h).trans ?_)
    rw [refuseHead, answerTo, hb]
  case scopes =>
    have hscope := statsRead_scope (p := p) s hf h ((unusedZero_iff f).2 ⟨hb, hn, hx, hk⟩)
    refine ⟨?range, ?port, ?bay⟩
    case range =>
      rintro (⟨h1, hindex⟩ | ⟨h2, hindex⟩)
      · refine request_answers hm (hscope.trans ((if_pos h1).trans ((portStatsRead_range _ s hindex).trans ?_)))
        rw [refuseHead, answerTo, hb]
      · have h1 : scope ≠ 1 := by rw [h2]; decide
        refine request_answers hm (hscope.trans ((if_neg h1).trans ((if_pos h2).trans
          ((bayStatsRead_range _ s hindex).trans ?_))))
        rw [refuseHead, answerTo, hb]
    case port =>
      intro q h1 hq
      refine exec_request_eq hm (hscope.trans ((if_pos h1).trans ?_))
      simp only [portStatsRead, hq, okPayload, answerTo, hb, decide_eq_true_eq]
      rfl
    case bay =>
      intro b h2 hbay
      have h1 : scope ≠ 1 := by rw [h2]; decide
      refine exec_request_eq hm (hscope.trans ((if_neg h1).trans ((if_pos h2).trans ?_)))
      simp only [bayStatsRead, hbay, okPayload, answerTo, hb, decide_eq_true_eq]
      rfl
  case record =>
    intro x k c q b hkind ⟨hqnone, hqsome⟩ ⟨hbnone, hbsome⟩
    have hcodes : k = noteKindCode x.entry.note ∧ c = noteCauseCode x.entry.note := by
      generalize x.entry.note = note at hkind ⊢
      rcases note with (_ | _) | cause | cause | _ | (_ | _ | _ | _ | _) |
        (_ | _ | _ | (_ | _) | (_ | _) | (_ | _)) | (_ | _) | (_ | _)
      all_goals exact Prod.mk.inj hkind
    have hport : q = portByte x.entry.port := by
      cases hp : x.entry.port with
      | none => exact hqnone hp
      | some y => exact hqsome y hp
    have hbay : b = bayByte x.entry.bay := by
      cases hb : x.entry.bay with
      | none => exact hbnone hb
      | some y => exact hbsome y hb
    obtain ⟨hk, hc⟩ := hcodes
    rw [hk, hc, hport, hbay]
    rfl

/-- Settles O54: each request by what it makes of its set; the event-news flags by `tellSupervisors_port`. -/
theorem eventSetsChanged : Obligations.EventSetsChanged := by
  intro p x f s he hb hn hx hk
  have hz := (unusedZero_iff f).2 ⟨hb, hn, hx, hk⟩
  refine ⟨fun hm => exec_request_eq hm ?_, fun hm => exec_request_eq hm ?_, fun hm => exec_request_eq hm ?_,
    fun q => ?_, tellSupervisors_only s⟩
  · simp only [requestOf, eventEnable, he, hz, if_true, replaceEnabled_eq, okPayload, answerTo, hb]
  · simp only [requestOf, eventSet, he, hz, if_true, raiseAll_raised, okPayload, answerTo, hb]
    rw [raiseAll_eq]
  · simp only [requestOf, eventClear, he, hz, if_true, okPayload, answerTo, hb]
    rfl
  · rw [tellSupervisors_port]
    exact ite_congr (propext (hearsEvents_iff s q)) (fun _ => rfl) fun _ => rfl

/-- Settles O55: TIME_SET by its resolution; after a RESET_PART the port's Request Handler has stopped. -/
theorem timeSetAndResetAsked : Obligations.TimeSetAndResetAsked := by
  refine ⟨fun p r v f s hm hf hb hn hx hk => ⟨fun x hr => ?time, fun hr => ?unknown⟩,
    fun p f s u hm hf hb hn hx hk hu => ?reset⟩
  case time =>
    refine exec_request_eq hm ((timeSet_taken s hf hr ((unusedZero_iff f).2 ⟨hb, hn, hx, hk⟩)).trans ?_)
    rw [okDetail, answerTo, hb]
    rfl
  case unknown =>
    refine request_answers hm ((timeSet_unknown s hf hr).trans ?_)
    rw [refuseHead, answerTo, hb]
  case reset =>
    have hat : requestOf .resetPart p f s = pendSoftReset p u := by
      have hok : f.payload = [] ∧ unusedZero f = true := ⟨hf, (unusedZero_iff f).2 ⟨hb, hn, hx, hk⟩⟩
      have hplaced : u = leaveHead p (placeAnswer p { frame := answerTo f .ok, resetPart := true } s) := by
        rw [hu, leaveHead, placeAnswer, modPort_modPort, answerTo, hb]
      rw [hplaced]
      exact if_pos hok
    have hexec := exec_request_eq hm hat
    have hsoft : u.softReset = s.softReset := by rw [hu]; rfl
    have hnow : u.now = s.now := by rw [hu]; rfl
    refine ⟨fun h => ?_, fun r h => ?_, fun t ht => ?_⟩
    · rw [← hnow, ← pendSoftReset_none (hsoft.trans h)]
      exact hexec
    · rw [← pendSoftReset_some (hsoft.trans h)]
      exact hexec
    · have hstopped : handlerStopped t p = true := by
        rw [← next_inj (hexec.symm.trans ht), handlerStopped_congr (transmit_softReset _) p]
        exact handlerStopped_pending p u
      cases hhead : servedHead t p with
      | none => rfl
      | some g =>
        obtain ⟨-, hgoing, -⟩ := (servedHead_eq_some t p g).1 hhead
        rw [hstopped] at hgoing
        cases hgoing

end Sys2Proof.Proofs
end

section
/-! PROOF. The answers to CLEAR probes and the end of probing (R58, R111, R114, R115), and the answers to a restored
lane's probe (R129). -/

namespace Sys2Proof.Machine

/-! ## Answers that name no probe, or cannot be read (R111) -/

theorem probeAnswer_misnamed {s : State} {b : Bay} {l : Lane} {m : Nat} (h : ((s.drive b).lane l).number ≠ m)
    (reply : ProbeReply) :
    exec (.probeAnswer b l m reply) s = .next s ∧ exec (.restoreProbeAnswer b l m reply) s = .next s := by
  have hnone : namedProbe s b l m = none := if_neg h
  constructor
  · simp only [exec, execProbeAnswer, hnone]
  · simp only [exec, execRestoreProbeAnswer, hnone]

theorem probeAnswer_ignored {s : State} {b : Bay} {l : Lane} {n : Nat} {x : Probe} {reply : ProbeReply}
    (hp : ((s.drive b).lane l).probe = some x) (hn : ((s.drive b).lane l).number = n)
    (h : (x.clear && probeReadable reply) = false) : exec (.probeAnswer b l n reply) s = .next s := by
  simp only [exec, execProbeAnswer, namedProbe_eq hp hn, h]
  rfl

theorem restoreProbeAnswer_ignored {s : State} {b : Bay} {l : Lane} {n : Nat} {x : Probe} {reply : ProbeReply}
    (hp : ((s.drive b).lane l).probe = some x) (hn : ((s.drive b).lane l).number = n)
    (h : (!x.clear && probeReadable reply) = false) : exec (.restoreProbeAnswer b l n reply) s = .next s := by
  simp only [exec, execRestoreProbeAnswer, namedProbe_eq hp hn, h]
  rfl

/-! ## A CLEAR probe resolved (R114) -/

theorem laneFallsDown_eq (b : Bay) (l : Lane) (s : State) : laneFallsDown b l s =
    raiseEvent (.laneDown b l) (appendRecord
      { note := .bay (.laneDown l), bay := some b, count1 := BitVec.ofNat 32 ((s.drive b).lane l).failures }
      (s.modDrive b fun e => e.modLane l fun r => { r with state := .down, probe := none })) := rfl

theorem probeGood_zero (b : Bay) (l : Lane) (s : State) : probeGood b l 0 s = laneFallsDown b l s := if_pos rfl

theorem probeGood_first {b : Bay} {l : Lane} {c : Word48} {s : State} (hc : c ≠ 0) (h : (s.drive b).learnt = none) :
    probeGood b l c s = s.modDrive b fun e =>
      { e with learnt := some c }.modLane l fun r => { r with state := .up, probe := none } := by
  unfold probeGood
  rw [if_neg hc, h]
  exact modDrive_modDrive s b _ _

theorem probeGood_agrees {b : Bay} {l : Lane} {c : Word48} {s : State} (hc : c ≠ 0) (h : (s.drive b).learnt = some c) :
    probeGood b l c s = s.modDrive b fun e => e.modLane l fun r => { r with state := .up, probe := none } := by
  unfold probeGood
  rw [if_neg hc, h]
  exact if_pos rfl

theorem probeGood_mismatch {b : Bay} {l : Lane} {c k : Word48} {s : State} (hc : c ≠ 0)
    (h : (s.drive b).learnt = some k) (hk : c ≠ k) : probeGood b l c s =
      raiseEvent (.laneDown b l) (appendRecord
        { note := .bay (.mismatch l), bay := some b, count1 := BitVec.ofNat 32 (c.toNat / 2 ^ 32),
          count2 := BitVec.ofNat 32 c.toNat }
        (s.modDrive b fun e => e.modLane l fun r => { r with state := .down, probe := none })) := by
  unfold probeGood
  rw [if_neg hc, h]
  exact if_neg (Ne.symm hk)

/-! ## The end of probing (R58, R115) -/

/-- R115: the failure counters of a bay whose probing ends. -/
def failuresCleared (d : DriveEngine) : DriveEngine :=
  { d with laneA := { d.laneA with failures := 0 }, laneB := { d.laneB with failures := 0 } }

theorem probingCheck_probing {b : Bay} {s : State}
    (h : (s.drive b).laneA.state = .probing ∨ (s.drive b).laneB.state = .probing) : probingCheck b s = s :=
  if_pos h

theorem probingCheck_up {b : Bay} {s : State} {c : Word48} (ha : (s.drive b).laneA.state ≠ .probing)
    (hb : (s.drive b).laneB.state ≠ .probing) (hup : (s.drive b).laneA.state = .up ∨ (s.drive b).laneB.state = .up)
    (hc : (s.drive b).learnt = some c) : probingCheck b s = settleBay b (appendRecord
      { note := .bay .inService, bay := some b, count1 := BitVec.ofNat 32 (c.toNat / 2 ^ 32),
        count2 := BitVec.ofNat 32 c.toNat }
      ((s.modDrive b failuresCleared).modBay b fun r => { r with capacity := c, availability := .inService })) := by
  have hany : (decide ((s.drive b).laneA.state = .up) || decide ((s.drive b).laneB.state = .up)) = true := by
    simpa using hup
  unfold probingCheck probingResult
  dsimp only
  rw [if_neg (not_or.2 ⟨ha, hb⟩), hany, hc]
  simp only [if_true, modBay_bay_self, modBay_modBay]
  rfl

theorem probingCheck_down {b : Bay} {s : State} (ha : (s.drive b).laneA.state = .down)
    (hb : (s.drive b).laneB.state = .down) : probingCheck b s =
      raiseEvent (.bayFaulted b) (appendRecord { note := .bay .faulted, bay := some b }
        (refuseAll b .fault ((s.modDrive b failuresCleared).modBay b fun r => { r with availability := .faulted }))) := by
  have hprobing : ¬ ((s.drive b).laneA.state = .probing ∨ (s.drive b).laneB.state = .probing) := by
    rw [ha, hb]
    exact fun h => h.elim nofun nofun
  have hany : (decide ((s.drive b).laneA.state = .up) || decide ((s.drive b).laneB.state = .up)) = false := by
    rw [ha, hb]
    rfl
  unfold probingCheck probingResult
  dsimp only
  rw [if_neg hprobing, hany]
  rfl

theorem raiseEvent_bay (e : Event) (s : State) (b : Bay) : (raiseEvent e s).bay b = s.bay b :=
  bay_congr (raiseEvent_bays e s) b

theorem appendRecord_bay (x : Entry) (s : State) (b : Bay) : (appendRecord x s).bay b = s.bay b :=
  bay_congr (appendRecord_bays x s) b

/-! ## A restored lane's probe resolved (R129) -/

theorem modLane_modLane (d : DriveEngine) (l : Lane) (f g : LaneRecord → LaneRecord) :
    (d.modLane l f).modLane l g = d.modLane l fun r => g (f r) := by cases l <;> rfl

theorem restoreGood_capacity (b : Bay) (l : Lane) (s : State) : restoreGood b l (s.bay b).capacity s =
    chooseAll b (appendRecord { note := .bay (.laneUp l), bay := some b }
      (s.modDrive b fun e => e.modLane l fun r => { r with state := .up, probe := none, failures := 0 })) := by
  unfold restoreGood laneRises
  dsimp only
  rw [if_pos rfl, modDrive_modDrive]
  simp only [modLane_modLane]
  rfl

theorem restoreFails_up {b : Bay} {l : Lane} {u : State} (h : ((u.drive b).lane (otherLane l)).state ≠ .down) :
    restoreFails b l u = u := if_neg h

theorem restoreFails_down {b : Bay} {l : Lane} {u : State} (h : ((u.drive b).lane (otherLane l)).state = .down) :
    restoreFails b l u = faultBay b u := if_pos h

theorem laneFalls_other (b : Bay) (l : Lane) (n : BayNote) (c1 c2 : Word32) (s : State) :
    ((laneFalls b l n c1 c2 s).drive b).lane (otherLane l) = (s.drive b).lane (otherLane l) := by
  rw [laneFalls_drive, lane_modLane_other]

theorem probeExpired_clear (b : Bay) (l : Lane) (s : State) :
    probeExpired b l true s = probingCheck b (laneFallsDown b l (countNoResponse b l s)) := rfl

theorem probeExpired_plain (b : Bay) (l : Lane) (s : State) :
    probeExpired b l false s = restoreFails b l (laneFallsDown b l (countNoResponse b l s)) := rfl

theorem countLaneError_eq (b : Bay) (l : Lane) (s : State) :
    (l = .a → countLaneError b l s = s.modBayStats b fun x => { x with laneErrorA := satAdd x.laneErrorA 1 }) ∧
    (l = .b → countLaneError b l s = s.modBayStats b fun x => { x with laneErrorB := satAdd x.laneErrorB 1 }) := by
  constructor <;> rintro rfl <;> rfl

theorem countNoResponse_eq (b : Bay) (l : Lane) (s : State) :
    (l = .a → countNoResponse b l s = s.modBayStats b fun x => { x with noResponseA := satAdd x.noResponseA 1 }) ∧
    (l = .b → countNoResponse b l s = s.modBayStats b fun x => { x with noResponseB := satAdd x.noResponseB 1 }) := by
  constructor <;> rintro rfl <;> rfl

end Sys2Proof.Machine

namespace Sys2Proof.Proofs

open Sys2Proof.Machine

/-- Settles O56: a probe is resolved by its reply, and probing ends by the states of the two lanes. -/
theorem probesResolved : Obligations.ProbesResolved := by
  refine ⟨fun b l n d s u hr hp hn hu => ?probe, fun b s u hu => ⟨probingCheck_probing, fun ha hb =>
    ⟨fun hup c hc => ?up, fun hda hdb => ?down⟩⟩⟩
  case probe =>
    have hexec := fun reply h => exec_probeAnswer (reply := reply) hr hp hn h
    refine ⟨fun m reply hm => (probeAnswer_misnamed (fun h => hm (h.symm.trans hn)) reply).1,
      probeAnswer_ignored hp hn rfl, fun c hc h => ?_, fun c hc h => ?_, fun c k hc h hk => ?_,
      fun w hw => ⟨?_, ?_⟩, hexec .laneError nofun, fun hd => ?_⟩
    · rw [hexec (.good c) nofun, probeResolved, probeGood_first hc h]
    · rw [hexec (.good c) nofun, probeResolved, probeGood_agrees hc h]
    · rw [hexec (.good c) nofun, probeResolved, probeGood_mismatch hc h hk, hu]
    · rw [hexec (.good 0) nofun, probeResolved, probeGood_zero, laneFallsDown_eq, hw, hu]
    · rw [hexec .mediumError nofun, probeResolved, laneFallsDown_eq, hw, hu]
    · rw [exec_probeTimerExpiry hr hp hd, probeExpired_clear]
  case up => exact hu ▸ probingCheck_up ha hb hup hc
  case down =>
    have hended := probingCheck_down hda hdb
    refine ⟨hu ▸ hended, ?_⟩
    rw [hended, raiseEvent_bay, appendRecord_bay, (refuseAll_bay b .fault _).1]

/-- Settles O57: a lane that comes back by `restoreGood_capacity`; a lane that falls again by the state of the other
lane, which its fall leaves. -/
theorem restoreProbeResolved : Obligations.RestoreProbeResolved := by
  refine ⟨fun b l n d s hr hp hn => ?probe, fun b l s => ⟨laneFallsDown_eq b l s, (countLaneError_eq b l s).1,
    (countLaneError_eq b l s).2, (countNoResponse_eq b l s).1, (countNoResponse_eq b l s).2⟩⟩
  case probe =>
    have hexec := fun reply h => exec_restoreProbeAnswer (reply := reply) hr hp hn h
    refine ⟨fun m reply hm => (probeAnswer_misnamed (fun h => hm (h.symm.trans hn)) reply).2,
      restoreProbeAnswer_ignored hp hn rfl, fun reply => probeAnswer_ignored hp hn rfl, ?good, ?falls, ?expires⟩
    case good => rw [hexec (.good _) nofun, restoreResolved, restoreGood_capacity]
    case falls =>
      intro reply u hreply
      have hfails : exec (.restoreProbeAnswer b l n reply) s = .next (transmit (handOut (restoreFails b l u))) ∧
          (u.drive b).lane (otherLane l) = (s.drive b).lane (otherLane l) := by
        rcases hreply with ⟨c, hc, rfl, rfl⟩ | ⟨rfl, rfl⟩ | ⟨rfl, rfl⟩
        · refine ⟨?_, laneFalls_other b l _ _ _ s⟩
          rw [hexec (.good c) nofun, restoreResolved, restoreGood, if_neg hc]
          rfl
        · exact ⟨hexec .mediumError nofun, laneFalls_other b l _ _ _ s⟩
        · exact ⟨hexec .laneError nofun, laneFalls_other b l _ _ _ (countLaneError b l s)⟩
      obtain ⟨hat, hother⟩ := hfails
      refine ⟨fun h => ?_, fun h => ?_⟩
      · rw [hat, restoreFails_up (by rwa [hother])]
      · rw [hat, restoreFails_down (by rwa [hother])]
    case expires =>
      intro u hd hu
      have hother : (u.drive b).lane (otherLane l) = (s.drive b).lane (otherLane l) :=
        hu ▸ laneFalls_other b l _ _ _ (countNoResponse b l s)
      have hat : exec (.probeTimerExpiry b l) s = .next (transmit (handOut (restoreFails b l u))) := by
        rw [exec_probeTimerExpiry hr hp hd, probeExpired_plain, hu]
      refine ⟨fun h => ?_, fun h => ?_⟩
      · rw [hat, restoreFails_up (by rwa [hother])]
      · rw [hat, restoreFails_down (by rwa [hother])]

end Sys2Proof.Proofs
end

section
/-! PROOF. The answer to an attempt, and the expiry of its response timer (R111, R117, R118, R120, R121). -/

namespace Sys2Proof.Machine

/-! ## The mismatches of a READ (R120, R121) -/

theorem sectorMatches_iff (first : Word48) (i : Nat) (x : Sector) : sectorMatches first i x = true ↔
    x.check = checkValue x.data ∧ x.address = BitVec.ofNat 32 (first.toNat + i) := by
  simp only [sectorMatches, Bool.and_eq_true, decide_eq_true_eq]
  rfl

theorem mismatchCount_from (first : Word48) : ∀ (l : List Sector) (i : Nat), mismatchCount first i l =
    ((l.zipIdx i).filter fun x => decide (¬ (x.1.check = checkValue x.1.data ∧
      x.1.address = BitVec.ofNat 32 (first.toNat + x.2)))).length
  | [], _ => rfl
  | x :: rest, i => by
    rw [mismatchCount, mismatchCount_from first rest (i + 1), List.zipIdx_cons, List.filter_cons]
    by_cases h : sectorMatches first i x = true
    · have hok := (sectorMatches_iff first i x).1 h
      rw [if_pos h, if_neg (by simpa using hok), Nat.zero_add]
    · have hbad := mt (sectorMatches_iff first i x).2 h
      rw [if_neg h, if_pos (decide_eq_true hbad), List.length_cons, Nat.add_comm]

theorem sectorsReadable_iff (sectors : List Sector) :
    sectorsReadable sectors = true ↔ ∀ x ∈ sectors, x.data.length = 4096 := by
  simp only [sectorsReadable, List.all_eq_true, decide_eq_true_eq]
  rfl

theorem readResult_count {b : Bay} {c : CtxId} {sectors : List Sector} {s : State}
    (h : sectors.length ≠ (s.ctx c).count) : readResult b c sectors s = (.laneError, s) := if_pos h

/-- R121: a READ's blocks, and the mismatches that the check mode acts on. -/
theorem readResult_checked {b : Bay} {c : CtxId} {sectors : List Sector} {s t : State} {n : Nat}
    (h : sectors.length = (s.ctx c).count)
    (ht : t = s.modCtx c fun x => { x with data := (sectors.map Sector.data).flatten })
    (hn : mismatchCount (s.ctx c).block 0 sectors = n) :
    ((s.drive b).policy.checkMode = .off → readResult b c sectors s = (.good, t)) ∧
    ((s.drive b).policy.checkMode = .enforce → readResult b c sectors s =
      (if n = 0 then .good else .checkFail,
        t.modBayStats b fun x => { x with checkMismatches := satAdd x.checkMismatches n })) ∧
    ((s.drive b).policy.checkMode = .report → readResult b c sectors s =
      (.good,
        if n = 0 then t.modBayStats b fun x => { x with checkMismatches := satAdd x.checkMismatches n }
        else (t.modBayStats b fun x => { x with checkMismatches := satAdd x.checkMismatches n }).modCtx c fun x =>
          { x with checkWarn := true })) := by
  subst ht hn
  refine ⟨fun hmode => ?_, fun hmode => ?_, fun hmode => ?_⟩
  all_goals
    unfold readResult
    dsimp only
    rw [if_neg (not_not_intro h), modCtx_drive_read, hmode]

/-! ## The slot that an answer or a timer names (R111, R117) -/

/-- A search that asks more finds the same element, where that one meets the rest. -/
theorem find_and {α : Type} {l : List α} {p q : α → Bool} {x : α} (h : l.find? p = some x) (hq : q x = true) :
    l.find? (fun y => p y && q y) = some x := by
  obtain ⟨hp, before, after, hl, hnot⟩ := List.find?_eq_some_iff_append.1 h
  refine List.find?_eq_some_iff_append.2 ⟨by rw [hp, hq]; rfl, before, after, hl, fun y hy => ?_⟩
  have hy := hnot y hy
  rw [Bool.not_eq_true'] at hy ⊢
  rw [hy]
  rfl

theorem namedSlot_none {s : State} {b : Bay} {l : Lane} {c : CtxId} {a : Nat}
    (h : ∀ x ∈ (s.drive b).slots, x.ctx = c → x.lane = l → x.attempt ≠ a) : namedSlot s b l c a = none := by
  refine List.find?_eq_none.2 fun x hx hnamed => ?_
  simp only [Bool.and_eq_true, decide_eq_true_eq] at hnamed
  obtain ⟨⟨hc, hl⟩, ha⟩ := hnamed
  exact h x hx hc hl ha

theorem driveAnswer_misnamed {s : State} {b : Bay} {l : Lane} {c : CtxId} {a : Nat}
    (h : ∀ x ∈ (s.drive b).slots, x.ctx = c → x.lane = l → x.attempt ≠ a) (reply : DriveReply) :
    exec (.driveAnswer b l c a reply) s = .next s := by
  simp only [exec, execDriveAnswer, namedSlot_none h]

theorem driveAnswer_unread {s : State} {b : Bay} {l : Lane} {c : CtxId} {a : Nat} {reply : DriveReply}
    (h : answerResult b c reply s = none) : exec (.driveAnswer b l c a reply) s = .next s := by
  cases hslot : namedSlot s b l c a <;> simp only [exec, execDriveAnswer, hslot, h]

theorem driveAnswer_taken {s t : State} {b : Bay} {l : Lane} {c : CtxId} {a : Nat} {reply : DriveReply} {x : Slot}
    {result : AttemptResult} (hr : s.phase = .running) (hslot : namedSlot s b l c a = some x)
    (h : answerResult b c reply s = some (result, t)) :
    exec (.driveAnswer b l c a reply) s = .next (transmit (handOut (takeResult b l c result t))) := by
  simp only [exec, execDriveAnswer, hslot, h, hr, if_true]

theorem answerResult_unread {b : Bay} {c : CtxId} {sectors : List Sector} {s : State} (hk : (s.ctx c).kind = .read)
    (h : ∃ x ∈ sectors, x.data.length ≠ 4096) : answerResult b c (.good sectors) s = none := by
  have hbad : ¬ sectorsReadable sectors = true := fun hok => by
    obtain ⟨x, hx, hlen⟩ := h
    exact hlen ((sectorsReadable_iff sectors).1 hok x hx)
  simp only [answerResult, hk, if_neg hbad]

theorem answerResult_read {b : Bay} {c : CtxId} {sectors : List Sector} {s : State} (hk : (s.ctx c).kind = .read)
    (h : ∀ x ∈ sectors, x.data.length = 4096) :
    answerResult b c (.good sectors) s = some (readResult b c sectors s) := by
  simp only [answerResult, hk, if_pos ((sectorsReadable_iff sectors).2 h)]

theorem answerResult_done {b : Bay} {c : CtxId} {s : State} (hk : (s.ctx c).kind ≠ .read) (sectors : List Sector) :
    answerResult b c (.good sectors) s = some (.good, s) := by
  cases hkind : (s.ctx c).kind with
  | read => exact absurd hkind hk
  | write | sync => simp only [answerResult, hkind]

theorem exec_responseTimerExpiry {s : State} {b : Bay} {c : CtxId} {x : Slot} (hr : s.phase = .running)
    (h : (s.drive b).slots.find? (fun x => decide (x.ctx = c)) = some x) (hd : x.deadline ≤ s.now) :
    exec (.responseTimerExpiry b c) s = .next (transmit (handOut (takeResult b x.lane c .noResponse s))) := by
  have hslot : expiredSlot s b c = some x := find_and h (decide_eq_true hd)
  simp only [exec, execResponseTimerExpiry, hslot]
  exact whenRunning_running s _ hr

end Sys2Proof.Machine

namespace Sys2Proof.Proofs

open Sys2Proof.Machine

/-- Settles O58: the slot by `find_and`, and then the result of each answer. -/
theorem attemptAnswered : Obligations.AttemptAnswered := by
  refine ⟨fun first sectors => mismatchCount_from first sectors 0, fun b l c a d k s hr hslot => ?_⟩
  have hnamed : ∃ x, namedSlot s b l c a = some x := slot_find hslot l a rfl rfl
  obtain ⟨x, hnamed⟩ := hnamed
  have htaken := fun reply result t => driveAnswer_taken (reply := reply) (result := result) (t := t) hr hnamed
  have hexpired := exec_responseTimerExpiry hr hslot
  refine ⟨fun l' a' reply h => driveAnswer_misnamed h reply, driveAnswer_unread rfl,
    htaken .mediumError .mediumError s rfl, htaken .laneError .laneError s rfl, fun hk sectors => htaken _ _ _ (answerResult_done hk sectors),
    fun hk sectors h => driveAnswer_unread (answerResult_unread hk h), fun hk sectors h => ?read,
    hexpired⟩
  case read =>
    have hread : answerResult b c (.good sectors) s = some (readResult b c sectors s) := answerResult_read hk h
    refine ⟨fun hcount => htaken _ _ _ (hread.trans (congrArg some (readResult_count hcount))), fun t hcount ht => ?_⟩
    refine ⟨fun hoff => ?_, fun hon hzero => ?_, fun n hn => ⟨fun henforce => ?_, fun hreport => ?_⟩⟩
    · obtain ⟨hresult, -, -⟩ := readResult_checked (b := b) hcount ht rfl
      exact htaken _ _ _ (hread.trans (congrArg some (hresult hoff)))
    · obtain ⟨-, henforced, hreported⟩ := readResult_checked (b := b) hcount ht hzero
      cases hmode : (s.drive b).policy.checkMode with
      | off => exact absurd hmode hon
      | enforce => exact htaken _ _ _ (hread.trans (congrArg some (henforced hmode)))
      | report => exact htaken _ _ _ (hread.trans (congrArg some (hreported hmode)))
    · obtain ⟨-, henforced, -⟩ := readResult_checked (b := b) hcount ht hn
      exact htaken _ _ _ (hread.trans (congrArg some (henforced henforce)))
    · obtain ⟨-, -, hreported⟩ := readResult_checked (b := b) hcount ht hn
      exact htaken _ _ _ (hread.trans (congrArg some (hreported hreport)))

end Sys2Proof.Proofs
end

section
/-! PROOF. What an attempt result does to its lane, and the end of an attempt (R81 to R83, R88, R118, R119, R122 to
R126, R173, R177). -/

namespace Sys2Proof.Machine

/-! ## The lane (R118, R119, R125, R126) -/

theorem takeResult_answered {result : AttemptResult}
    (h : result = .good ∨ result = .checkFail ∨ result = .mediumError) (b : Bay) (l : Lane) (c : CtxId) (s : State) :
    takeResult b l c result s = chooseAll b (endAttempt b c l result
      (s.modDrive b fun d => d.modLane l fun r => { r with failures := 0 })) := by
  rcases h with rfl | rfl | rfl <;> rfl

/-- R177: what NO_RESPONSE and LANE_ERROR count of a lane. -/
def LaneCounted (b : Bay) (l : Lane) (result : AttemptResult) (s u : State) : Prop :=
  result = .noResponse ∧ u = countNoResponse b l s ∨ result = .laneError ∧ u = countLaneError b l s

theorem LaneCounted.drive {b : Bay} {l : Lane} {result : AttemptResult} {s u : State}
    (h : LaneCounted b l result s u) : u.drive b = s.drive b := by
  rcases h with ⟨-, rfl⟩ | ⟨-, rfl⟩ <;> rfl

theorem LaneCounted.takeResult {b : Bay} {l : Lane} {result : AttemptResult} {s u : State}
    (h : LaneCounted b l result s u) (c : CtxId) : takeResult b l c result s = laneFailure b l c result u := by
  rcases h with ⟨rfl, rfl⟩ | ⟨rfl, rfl⟩ <;> rfl

theorem modLane_policy (d : DriveEngine) (l : Lane) (f : LaneRecord → LaneRecord) : (d.modLane l f).policy = d.policy := by
  cases l <;> rfl

theorem laneFailure_below {b : Bay} {l : Lane} {u : State}
    (h : ((u.drive b).lane l).failures + 1 < (u.drive b).policy.failLimit) (c : CtxId) (result : AttemptResult) :
    laneFailure b l c result u = chooseAll b (endAttempt b c l result
      (u.modDrive b fun d => d.modLane l fun r => { r with failures := r.failures + 1 })) := by
  unfold laneFailure
  dsimp only
  rw [modDrive_drive_self, modLane_policy, lane_modLane]
  exact if_neg (Nat.not_le.2 h)

theorem laneFailure_limit {b : Bay} {l : Lane} {u : State}
    (h : (u.drive b).policy.failLimit ≤ ((u.drive b).lane l).failures + 1) (c : CtxId) (result : AttemptResult) :
    laneFailure b l c result u = laneFails b l c result
      (u.modDrive b fun d => d.modLane l fun r => { r with failures := r.failures + 1 }) := by
  unfold laneFailure
  dsimp only
  rw [modDrive_drive_self, modLane_policy, lane_modLane]
  exact if_pos h

/-- R119: a lane that falls at the lane fail limit. -/
theorem laneFallsDown_counted (b : Bay) (l : Lane) (u : State) :
    laneFallsDown b l (u.modDrive b fun d => d.modLane l fun r => { r with failures := r.failures + 1 }) =
      raiseEvent (.laneDown b l) (appendRecord
        { note := .bay (.laneDown l), bay := some b,
          count1 := BitVec.ofNat 32 (((u.drive b).lane l).failures + 1) }
        (u.modDrive b fun d => d.modLane l fun r =>
          { r with state := .down, probe := none, failures := r.failures + 1 })) := by
  rw [laneFallsDown_eq, modDrive_drive_self, lane_modLane, modDrive_modDrive]
  simp only [modLane_modLane]

theorem laneFails_eq (b : Bay) (l : Lane) (c : CtxId) (result : AttemptResult) (s : State) :
    laneFails b l c result s =
      if ((s.drive b).lane (otherLane l)).state = .down then faultBay b (laneFallsDown b l s)
      else chooseAll b ((((s.drive b).slots.filter fun x => decide (x.lane = l)).map Slot.ctx).foldl
        (fun t x => endAttempt b x l (if x = c then result else .laneDown) t) (laneFallsDown b l s)) := by
  unfold laneFails endLaneAttempts laneFallsDown
  dsimp only
  rw [laneFalls_other, laneFalls_drive, modLane_slots]

/-! ## The retry (R122, R123) -/

theorem retryLane_eq (d : DriveEngine) (attempts : Nat) {l wanted : Lane}
    (h : wanted =
      if (if attempts ≤ 1 then d.policy.firstRetry else d.policy.secondRetry) = .same then l else otherLane l) :
    retryLane d attempts l = if (d.lane wanted).state = .down then otherLane wanted else wanted := by
  subst h
  unfold retryLane
  cases (if attempts ≤ 1 then d.policy.firstRetry else d.policy.secondRetry) <;> rfl

theorem retryable_of {policy : DrivePolicy} {result : AttemptResult}
    (h : result = .checkFail ∨ result = .noResponse ∨ result = .laneError ∨ result = .laneDown ∨
      result = .mediumError ∧ policy.retryMedium = true) : retryable policy result = true := by
  rcases h with rfl | rfl | rfl | rfl | ⟨rfl, h⟩
  · rfl
  · rfl
  · rfl
  · rfl
  · exact h

theorem endAttempt_retries {b : Bay} {c : CtxId} {l : Lane} {result : AttemptResult} {s : State}
    (ht : (s.ctx c).trailing = false) (ho : (s.ctx c).orphaned = false)
    (hr : retryable (s.drive b).policy result = true) (ha : (s.ctx c).attempts ≤ (s.drive b).policy.retryCount) :
    endAttempt b c l result s = toReissue b c l s := by
  unfold endAttempt
  dsimp only
  rw [ht, ho, hr, decide_eq_true ha]
  rfl

theorem endAttempt_completes {b : Bay} {c : CtxId} {l : Lane} {result : AttemptResult} {s : State}
    (h : (s.ctx c).trailing = true ∨ (s.ctx c).orphaned = true ∨ result = .good ∨
      result = .mediumError ∧ (s.drive b).policy.retryMedium = false ∨
      (s.drive b).policy.retryCount < (s.ctx c).attempts) :
    endAttempt b c l result s = complete false b c (resultOutcome result) s := by
  unfold endAttempt
  dsimp only
  refine if_neg fun hretry => ?_
  simp only [Bool.and_eq_true, Bool.not_eq_true', Bool.or_eq_false_iff, decide_eq_true_eq] at hretry
  obtain ⟨⟨⟨ht, ho⟩, hr⟩, ha⟩ := hretry
  rcases h with h | h | rfl | ⟨rfl, h⟩ | h
  · exact Bool.noConfusion (ht.symm.trans h)
  · exact Bool.noConfusion (ho.symm.trans h)
  · cases hr
  · exact Bool.noConfusion (h.symm.trans hr)
  · exact Nat.not_le.2 h ha

theorem toReissue_eq (b : Bay) (c : CtxId) (l : Lane) (s : State) : toReissue b c l s =
    (((s.modBayStats b fun x => { x with retries := satAdd x.retries 1 }).modDrive b fun d =>
        { d with slots := d.slots.filter fun x => decide (x.ctx ≠ c) }).modCtx c fun x =>
      { x with state := .reissue, lane := some (retryLane (s.drive b) (s.ctx c).attempts l) }).modService b
    fun v => { v with reissue := v.reissue ++ [c] } := by
  unfold toReissue freeSlot
  simp only [slots_filter]

/-! ## The end of a context (R81 to R83, R88) -/

theorem leftSlot_eq (b : Bay) (c : CtxId) (outcome : OpOutcome) (s : State) : leftSlot b c outcome s =
    (s.modBayStats b fun x =>
      { x with
        completed := satAdd x.completed 1,
        blocksRead :=
          if outcome = .good ∧ (s.ctx c).kind = .read then satAdd x.blocksRead (s.ctx c).count else x.blocksRead,
        blocksWritten :=
          if outcome = .good ∧ (s.ctx c).kind = .write then satAdd x.blocksWritten (s.ctx c).count
          else x.blocksWritten }).modDrive b fun d =>
      { d with slots := d.slots.filter fun x => decide (x.ctx ≠ c) } := by
  have hcount : countCompletion (s.ctx c) outcome = fun x =>
      { x with
        completed := satAdd x.completed 1,
        blocksRead :=
          if outcome = .good ∧ (s.ctx c).kind = .read then satAdd x.blocksRead (s.ctx c).count else x.blocksRead,
        blocksWritten :=
          if outcome = .good ∧ (s.ctx c).kind = .write then satAdd x.blocksWritten (s.ctx c).count
          else x.blocksWritten } := by
    funext x
    unfold countCompletion
    by_cases ho : outcome = .good
    · subst ho
      cases hk : (s.ctx c).kind <;> simp
    · cases outcome with
      | good => exact absurd rfl ho
      | _ => simp
  unfold leftSlot freeSlot
  rw [hcount]
  simp only [slots_filter]

/-- R82, R173: the live-context count of the loan of a context that ends. -/
def loanLowered (b : Bay) (x : Context) (s : State) : State :=
  modHolder b x.port (fun h => if h.serial = x.serial then { h with live := h.live - 1 } else h)
    (s.modLive x.port fun n => n - 1)

/-- R82, R173: the meters of the loan of a context that ends. -/
def loanMetered (b : Bay) (x : Context) (outcome : OpOutcome) (s : State) : State :=
  if outcome = .good then
    meterCheck b x.port (modHolder b x.port (fun h => if h.serial = x.serial then advanceMeters x h else h) s)
  else s

theorem completeFinal_eq (b : Bay) (c : CtxId) (outcome : OpOutcome) (s : State) :
    completeFinal b c outcome s =
      enterReply c outcome (loanMetered b (s.ctx c) outcome (loanLowered b (s.ctx c) s)) := rfl

/-- R83: a trailing context that is not orphaned has left the live states, and the bay's trailing count. -/
def trailingReplied (b : Bay) (c : CtxId) (outcome : OpOutcome) (s : State) : State :=
  ((s.modCtx c fun x => { x with state := .reply, outcome := outcome }).modLive (s.ctx c).port fun n => n - 1).modBay b
    fun r => { r with trailing := r.trailing - 1 }

/-- R83, R88: an orphaned context has left the bay's trailing count. -/
def trailingOrphaned (b : Bay) (c : CtxId) (outcome : OpOutcome) (s : State) : State :=
  (s.modCtx c fun x => { x with state := .reply, outcome := outcome }).modBay b
    fun r => { r with trailing := r.trailing - 1 }

/-- R83: the bay is settled when its trailing count has fallen to 0. -/
def trailingSettled (faulting : Bool) (b : Bay) (s : State) : State :=
  if (s.bay b).trailing = 0 then trailingGone faulting b s else s

theorem completeTrailing_replies {c : CtxId} {s : State} (h : (s.ctx c).orphaned = false) (faulting : Bool) (b : Bay)
    (outcome : OpOutcome) : completeTrailing faulting b c outcome s =
      enterReply c outcome (trailingSettled faulting b (trailingReplied b c outcome s)) := by
  unfold completeTrailing
  dsimp only
  rw [h]
  rfl

theorem completeTrailing_frees {c : CtxId} {s : State} (h : (s.ctx c).orphaned = true) (faulting : Bool) (b : Bay)
    (outcome : OpOutcome) : completeTrailing faulting b c outcome s =
      freeOrphan c (trailingSettled faulting b (trailingOrphaned b c outcome s)) := by
  unfold completeTrailing
  dsimp only
  rw [h]
  rfl

/-! ## What the end of a context leaves -/

theorem ctx_of_pool {s t : State} (h : s.pool = t.pool) (c : CtxId) : s.ctx c = t.ctx c := by
  unfold State.ctx
  rw [h]

theorem replies_of_pool {s t : State} (h : s.pool = t.pool) (p : Port) : s.replies p = t.replies p := by
  unfold State.replies
  rw [h]

theorem live_of_pool {s t : State} (h : s.pool = t.pool) (p : Port) : s.live p = t.live p := by
  unfold State.live
  rw [h]

theorem modBayStats_self (s : State) (b : Bay) (f : BayStats → BayStats) : (s.modBayStats b f).bayStats[b] = f s.bayStats[b] := by
  simp [State.modBayStats]

theorem modPortStats_self (s : State) (p : Port) (f : PortStats → PortStats) :
    (s.modPortStats p f).portStats[p] = f s.portStats[p] := by
  simp [State.modPortStats]

/-- R81 step 5, R84: what entering REPLY makes of the context and of its port's Reply List. -/
theorem enterReply_at (c : CtxId) (outcome : OpOutcome) {s : State} {x : Context} (hx : s.ctx c = x) :
    (enterReply c outcome s).ctx c = { x with state := .reply, outcome := outcome } ∧
    (enterReply c outcome s).replies x.port = s.replies x.port ++ [c] ∧
    (enterReply c outcome s).live x.port = s.live x.port := by
  subst hx
  have hpool : (enterReply c outcome s).pool = _ := adoptIfIdle_pool (s.ctx c).bay _
  refine ⟨?_, ?_, ?_⟩
  · rw [ctx_of_pool hpool, modReplies_ctx_read, modCtx_ctx_self]
  · rw [replies_of_pool hpool, modReplies_replies_self]
    rfl
  · rw [live_of_pool hpool]
    rfl

/-- R88, R177: what the end of an orphan makes of it and of its port. -/
theorem freeOrphan_at (c : CtxId) {s : State} {p : Port} (hp : (s.ctx c).port = p) :
    (freeOrphan c s).ctx c = { state := .free } ∧ (freeOrphan c s).replies p = s.replies p ∧
    (freeOrphan c s).live p = s.live p ∧
    ((freeOrphan c s).portStats[p]).repliesLost = satAdd (s.portStats[p]).repliesLost 1 := by
  subst hp
  have hpool : (freeOrphan c s).pool = _ := adoptIfIdle_pool (s.ctx c).bay _
  have hstats : (freeOrphan c s).portStats = _ := (adoptIfIdle_stats (s.ctx c).bay _).2
  refine ⟨?_, ?_, ?_, ?_⟩
  · rw [ctx_of_pool hpool, modPortStats_ctx_read]
    exact modCtx_ctx_self s c _
  · rw [replies_of_pool hpool]
    rfl
  · rw [live_of_pool hpool]
    rfl
  · rw [hstats, modPortStats_self]
    rfl

theorem engineSide_loanMetered (b : Bay) (x : Context) (outcome : OpOutcome) (s : State) :
    engineSide (loanMetered b x outcome s) = engineSide s := by
  unfold loanMetered
  split
  · exact engineSide_meterCheck _ _ _
  · rfl

theorem engineSide_trailingSettled (faulting : Bool) (b : Bay) (s : State) :
    engineSide (trailingSettled faulting b s) = engineSide s := by
  unfold trailingSettled
  split
  · exact engineSide_trailingGone _ _ _
  · rfl

theorem enterReply_bayStats (c : CtxId) (outcome : OpOutcome) (s : State) :
    (enterReply c outcome s).bayStats = s.bayStats := (adoptIfIdle_stats (s.ctx c).bay _).1

theorem freeOrphan_bayStats (c : CtxId) (s : State) : (freeOrphan c s).bayStats = s.bayStats :=
  (adoptIfIdle_stats (s.ctx c).bay _).1

/-- R83: a trailing context that is not orphaned has ended. -/
theorem completeTrailing_replied {c : CtxId} {s : State} {x : Context} (hx : s.ctx c = x) (ho : x.orphaned = false)
    (faulting : Bool) (b : Bay) (outcome : OpOutcome) :
    (completeTrailing faulting b c outcome s).bayStats = s.bayStats ∧
    (completeTrailing faulting b c outcome s).ctx c = { x with state := .reply, outcome := outcome } ∧
    (completeTrailing faulting b c outcome s).replies x.port = s.replies x.port ++ [c] ∧
    (completeTrailing faulting b c outcome s).live x.port = s.live x.port - 1 := by
  have hside := engineSide_trailingSettled faulting b (trailingReplied b c outcome s)
  have hpool : (trailingSettled faulting b (trailingReplied b c outcome s)).pool = _ := congrArg EngineSide.pool hside
  have hbays : (trailingSettled faulting b (trailingReplied b c outcome s)).bayStats = _ :=
    congrArg EngineSide.bayStats hside
  subst hx
  rw [completeTrailing_replies ho]
  generalize trailingSettled faulting b (trailingReplied b c outcome s) = t at hpool hbays
  have hctx : t.ctx c = { s.ctx c with state := .reply, outcome := outcome } :=
    (ctx_of_pool hpool c).trans (modCtx_ctx_self s c fun x => { x with state := .reply, outcome := outcome })
  obtain ⟨hreplied, hreplies, hlive⟩ := enterReply_at c outcome hctx
  refine ⟨(enterReply_bayStats c outcome t).trans hbays, hreplied, hreplies.trans ?_, hlive.trans ?_⟩
  · rw [replies_of_pool hpool]
    rfl
  · rw [live_of_pool hpool]
    exact modLive_live_self s (s.ctx c).port fun n => n - 1

/-- R88: an orphaned context has ended. -/
theorem completeTrailing_freed {c : CtxId} {s : State} {x : Context} (hx : s.ctx c = x) (ho : x.orphaned = true)
    (faulting : Bool) (b : Bay) (outcome : OpOutcome) :
    (completeTrailing faulting b c outcome s).bayStats = s.bayStats ∧
    (completeTrailing faulting b c outcome s).ctx c = { state := .free } ∧
    (completeTrailing faulting b c outcome s).replies x.port = s.replies x.port ∧
    (completeTrailing faulting b c outcome s).live x.port = s.live x.port ∧
    ((completeTrailing faulting b c outcome s).portStats[x.port]).repliesLost =
      satAdd (s.portStats[x.port]).repliesLost 1 := by
  have hside := engineSide_trailingSettled faulting b (trailingOrphaned b c outcome s)
  have hpool : (trailingSettled faulting b (trailingOrphaned b c outcome s)).pool = _ := congrArg EngineSide.pool hside
  have hbays : (trailingSettled faulting b (trailingOrphaned b c outcome s)).bayStats = _ :=
    congrArg EngineSide.bayStats hside
  have hports : (trailingSettled faulting b (trailingOrphaned b c outcome s)).portStats = _ :=
    congrArg EngineSide.portStats hside
  subst hx
  rw [completeTrailing_frees ho]
  generalize trailingSettled faulting b (trailingOrphaned b c outcome s) = t at hpool hbays hports
  have hctx : t.ctx c = { s.ctx c with state := .reply, outcome := outcome } :=
    (ctx_of_pool hpool c).trans (modCtx_ctx_self s c fun x => { x with state := .reply, outcome := outcome })
  obtain ⟨hfreed, hreplies, hlive, hlost⟩ := freeOrphan_at c (congrArg Context.port hctx)
  refine ⟨(freeOrphan_bayStats c t).trans hbays, hfreed, hreplies.trans ?_, hlive.trans ?_, hlost.trans ?_⟩
  · rw [replies_of_pool hpool]
    rfl
  · rw [live_of_pool hpool]
    rfl
  · rw [hports]
    rfl

/-- R81: a context that is not trailing has ended. -/
theorem completeFinal_at (b : Bay) (c : CtxId) (outcome : OpOutcome) {s : State} {x : Context} (hx : s.ctx c = x) :
    (completeFinal b c outcome s).bayStats = s.bayStats ∧
    (completeFinal b c outcome s).ctx c = { x with state := .reply, outcome := outcome } ∧
    (completeFinal b c outcome s).replies x.port = s.replies x.port ++ [c] ∧
    (completeFinal b c outcome s).live x.port = s.live x.port - 1 := by
  have hside := engineSide_loanMetered b x outcome (loanLowered b x s)
  have hpool := congrArg EngineSide.pool hside
  have hbays := congrArg EngineSide.bayStats hside
  rw [completeFinal_eq, hx]
  generalize loanMetered b x outcome (loanLowered b x s) = t at hpool hbays
  have hctx : t.ctx c = x := (ctx_of_pool hpool c).trans hx
  obtain ⟨hreplied, hreplies, hlive⟩ := enterReply_at c outcome hctx
  refine ⟨(enterReply_bayStats c outcome t).trans hbays, hreplied, hreplies.trans ?_, hlive.trans ?_⟩
  · rw [replies_of_pool hpool]
    rfl
  · rw [live_of_pool hpool]
    exact modLive_live_self s x.port fun n => n - 1

/-- The state in which a completed attempt leaves its context, before what the Context Pool does for the others. -/
def attemptDone (b : Bay) (c : CtxId) (outcome : OpOutcome) (s : State) : State :=
  if (s.ctx c).trailing || (s.ctx c).orphaned then completeTrailing false b c outcome (leftSlot b c outcome s)
  else completeFinal b c outcome (leftSlot b c outcome s)

theorem attemptDone_trailing {b : Bay} {c : CtxId} {outcome : OpOutcome} {s : State}
    (h : (s.ctx c).trailing = true ∨ (s.ctx c).orphaned = true) :
    attemptDone b c outcome s = completeTrailing false b c outcome (leftSlot b c outcome s) :=
  if_pos (by rcases h with h | h <;> rw [h] <;> simp)

theorem attemptDone_final {b : Bay} {c : CtxId} {outcome : OpOutcome} {s : State}
    (ht : (s.ctx c).trailing = false) (ho : (s.ctx c).orphaned = false) :
    attemptDone b c outcome s = completeFinal b c outcome (leftSlot b c outcome s) :=
  if_neg (by rw [ht, ho]; decide)

theorem attemptDone_slots (b : Bay) (c : CtxId) (outcome : OpOutcome) (s : State) :
    ((attemptDone b c outcome s).drive b).slots = (s.drive b).slots.filter fun x => decide (x.ctx ≠ c) := by
  have hside : slotSide (attemptDone b c outcome s) = slotSide (leftSlot b c outcome s) := by
    unfold attemptDone
    split
    · exact slotSide_completeTrailing _ _ _ _ _
    · exact slotSide_completeFinal _ _ _ _
  have hdrives := congrArg SlotSide.drives hside
  have hdrive : (attemptDone b c outcome s).drive b = (leftSlot b c outcome s).drive b :=
    congrArg (fun v : Vector DriveEngine 12 => v[b]) hdrives
  rw [hdrive, leftSlot_eq, modDrive_drive_self]
  rfl

theorem attemptDone_replied {b : Bay} {c : CtxId} {outcome : OpOutcome} {s : State} (h : (s.ctx c).orphaned = false) :
    (attemptDone b c outcome s).bayStats = (leftSlot b c outcome s).bayStats ∧
    (attemptDone b c outcome s).ctx c = { s.ctx c with state := .reply, outcome := outcome } ∧
    (attemptDone b c outcome s).replies (s.ctx c).port = s.replies (s.ctx c).port ++ [c] ∧
    (attemptDone b c outcome s).live (s.ctx c).port = s.live (s.ctx c).port - 1 := by
  cases ht : (s.ctx c).trailing with
  | true =>
    rw [attemptDone_trailing (Or.inl ht)]
    exact completeTrailing_replied (s := leftSlot b c outcome s) rfl h false b outcome
  | false =>
    rw [attemptDone_final ht h]
    exact completeFinal_at b c outcome (s := leftSlot b c outcome s) rfl

theorem attemptDone_orphan {b : Bay} {c : CtxId} {outcome : OpOutcome} {s : State} (h : (s.ctx c).orphaned = true) :
    (attemptDone b c outcome s).bayStats = (leftSlot b c outcome s).bayStats ∧
    (attemptDone b c outcome s).ctx c = { state := .free } ∧
    (attemptDone b c outcome s).replies (s.ctx c).port = s.replies (s.ctx c).port ∧
    (attemptDone b c outcome s).live (s.ctx c).port = s.live (s.ctx c).port ∧
    ((attemptDone b c outcome s).portStats[(s.ctx c).port]).repliesLost =
      satAdd (s.portStats[(s.ctx c).port]).repliesLost 1 := by
  rw [attemptDone_trailing (Or.inr h)]
  exact completeTrailing_freed (s := leftSlot b c outcome s) rfl h false b outcome

theorem attemptDone_bayStats (b : Bay) (c : CtxId) (outcome : OpOutcome) (s : State) :
    (attemptDone b c outcome s).bayStats = (leftSlot b c outcome s).bayStats := by
  cases h : (s.ctx c).orphaned with
  | false =>
    obtain ⟨hstats, -⟩ := attemptDone_replied (b := b) (outcome := outcome) h
    exact hstats
  | true =>
    obtain ⟨hstats, -⟩ := attemptDone_orphan (b := b) (outcome := outcome) h
    exact hstats

/-! ## The loan of a context that ends (R81, R82, R173) -/

theorem loanLowered_eq {b : Bay} {x : Context} {s : State} {h : Holder} (hh : (s.bay b).holder x.port = some h)
    (hs : h.serial = x.serial) : loanLowered b x s = (s.modLive x.port fun n => n - 1).modBay b fun r =>
      { r with holders := r.holders.set x.port (some { h with live := h.live - 1 }) } := by
  unfold loanLowered
  rw [modHolder_some (s := s.modLive x.port fun n => n - 1) hh, if_pos hs]

theorem loanLowered_holder {b : Bay} {x : Context} {s : State} {h : Holder} (hh : (s.bay b).holder x.port = some h)
    (hs : h.serial = x.serial) :
    ((loanLowered b x s).bay b).holder x.port = some { h with live := h.live - 1 } := by
  rw [loanLowered_eq hh hs, modBay_bay_self, holder_set_of rfl, if_pos rfl]

theorem loanMetered_good {b : Bay} {x : Context} {s : State} {h : Holder} (hh : (s.bay b).holder x.port = some h)
    (hs : h.serial = x.serial) : loanMetered b x .good s = meterCheck b x.port (s.modBay b fun r =>
      { r with holders := r.holders.set x.port (some (advanceMeters x h)) }) := by
  unfold loanMetered
  rw [if_pos rfl, modHolder_some hh, if_pos hs]

theorem loanMetered_other {outcome : OpOutcome} (h : outcome ≠ .good) (b : Bay) (x : Context) (s : State) :
    loanMetered b x outcome s = s := if_neg h

theorem meterCheck_below {b : Bay} {p : Port} {h : Holder} {s : State} (hh : (s.bay b).holder p = some h)
    (hm : s.journal.meterInterval = 0 ∨
      h.blocksRead.toNat + h.blocksWritten.toNat < s.journal.meterInterval.toNat) : meterCheck b p s = s := by
  simp only [meterCheck, hh]
  refine if_neg fun ⟨hpos, hle⟩ => ?_
  rcases hm with hm | hm
  · rw [hm] at hpos
    exact absurd hpos (by decide)
  · exact Nat.not_le.2 hm hle

theorem meterCheck_reached {b : Bay} {p : Port} {h : Holder} {s : State} (hh : (s.bay b).holder p = some h)
    (hm : s.journal.meterInterval ≠ 0)
    (hle : s.journal.meterInterval.toNat ≤ h.blocksRead.toNat + h.blocksWritten.toNat) :
    meterCheck b p s = (appendRecord
      { note := .meter, port := some p, bay := some b, serial := h.serial, count1 := h.blocksRead,
        count2 := h.blocksWritten } s).modBay b fun r =>
      { r with holders := r.holders.set p (some { h with blocksRead := 0, blocksWritten := 0 }) } := by
  have hpos : 0 < s.journal.meterInterval.toNat :=
    Nat.pos_of_ne_zero fun h0 => hm (BitVec.eq_of_toNat_eq h0)
  simp only [meterCheck, hh]
  rw [if_pos ⟨hpos, hle⟩]
  exact modHolder_some (by rw [appendRecord_bay]; exact hh) _

theorem resultOutcome_good_iff (result : AttemptResult) : resultOutcome result = .good ↔ result = .good := by
  cases result <;> simp [resultOutcome]

theorem trailingSettled_last {b : Bay} {w : State} (h : (w.bay b).trailing = 0) :
    trailingSettled false b w = settleBay b w := (if_pos h).trans rfl

theorem trailingSettled_more {faulting : Bool} {b : Bay} {w : State} (h : (w.bay b).trailing ≠ 0) :
    trailingSettled faulting b w = w := if_neg h

theorem trailingReplied_count (b : Bay) (c : CtxId) (outcome : OpOutcome) (s : State) :
    ((trailingReplied b c outcome s).bay b).trailing = (s.bay b).trailing - 1 := by
  unfold trailingReplied
  rw [modBay_bay_self]
  rfl

theorem trailingOrphaned_count (b : Bay) (c : CtxId) (outcome : OpOutcome) (s : State) :
    ((trailingOrphaned b c outcome s).bay b).trailing = (s.bay b).trailing - 1 := by
  unfold trailingOrphaned
  rw [modBay_bay_self]
  rfl

theorem attemptDone_meters {b : Bay} {c : CtxId} {outcome : OpOutcome} {s : State} (ht : (s.ctx c).trailing = true)
    (hs : ClaimsSingle s) : MetersKept s (afterEnd b (s.ctx c) (attemptDone b c outcome s)) := by
  have hleft : MetersKept s (leftSlot b c outcome s) := MetersKept.of_bays rfl
  have hended : MetersKept (leftSlot b c outcome s) (attemptDone b c outcome s) := by
    rw [attemptDone_trailing (Or.inl ht)]
    exact completeTrailing_meters b c outcome (u := leftSlot b c outcome s) hs
  exact (hleft.trans hended).trans (afterEnd_handsOut b (s.ctx c) _).meters

end Sys2Proof.Machine

namespace Sys2Proof.Proofs

open Sys2Proof.Machine

/-- Settles O59: the lane by its failure counter; an attempt that ends by `endAttempt_retries` or as `attemptDone`
says; the loan of its context by `loanLowered_eq` and `meterCheck_reached`. -/
theorem attemptsEnd : Obligations.AttemptsEnd := by
  refine ⟨fun b l c s => ⟨fun result h => takeResult_answered h b l c s, fun result u hu => ?lane⟩,
    fun result outcome houtcome b c l wanted s t ht hwanted => ⟨?retries, fun hends => ?completes⟩,
    fun b c outcome x s => ⟨rfl, rfl, fun h => if_neg (ne_true_of_eq_false h), fun h => if_pos h⟩,
    fun b p h s hh => ⟨fun x => ?meters, fun hm => meterCheck_below hh hm,
      fun hm hle => ⟨_, rfl, meterCheck_reached hh hm hle⟩⟩⟩
  case lane =>
    have hcounted : LaneCounted b l result s u := hu
    have hdrive := hcounted.drive
    rw [hcounted.takeResult, ← hdrive]
    refine ⟨fun h => laneFailure_below h c result, fun h => ⟨_, rfl, fun hother => ?_, fun hother => ?_⟩⟩
    all_goals
      rw [laneFailure_limit h, laneFails_eq, laneFallsDown_counted, modDrive_drive_self, lane_modLane_other, modLane_slots]
    · exact if_neg hother
    · exact if_pos hother
  case retries =>
    intro htr ho hr ha
    rw [ht, endAttempt_retries htr ho (retryable_of hr) ha, toReissue_eq, retryLane_eq _ _ hwanted]
  case meters => exact ⟨fun hk => by simp only [advanceMeters, hk], fun hk => by simp only [advanceMeters, hk],
      fun hk => by simp only [advanceMeters, hk]⟩
  case completes =>
    have hout : outcome = resultOutcome result := by cases result <;> exact houtcome
    have hgood : outcome = .good ↔ result = .good := hout ▸ resultOutcome_good_iff result
    have hdone : t = afterEnd b (s.ctx c) (attemptDone b c outcome s) := by
      rw [ht, endAttempt_completes hends, hout]
      exact complete_eq false b c (resultOutcome result) s
    have hleft := leftSlot_eq b c outcome s
    simp only [hgood] at hleft
    refine ⟨attemptDone b c outcome s, hdone, attemptDone_slots b c outcome s, ?stats, fun ho => ?replied,
      fun ho => ?freed, fun u w hu => ⟨fun htr ho h hh hserial hw => ?final, fun htr => ⟨?orphanless, ?orphan, ?kept⟩⟩⟩
    case stats =>
      intro x hx
      rw [hx, attemptDone_bayStats, hleft, modDrive_bayStats, modBayStats_self]
      exact ⟨rfl, rfl, rfl⟩
    case replied =>
      obtain ⟨-, hreplied⟩ := attemptDone_replied (b := b) (outcome := outcome) ho
      exact hreplied
    case freed =>
      obtain ⟨-, hfreed⟩ := attemptDone_orphan (b := b) (outcome := outcome) ho
      exact hfreed
    all_goals have hu : leftSlot b c outcome s = u := hleft.trans hu.symm
    case final =>
      have hctx : u.ctx c = s.ctx c := hu ▸ rfl
      have hheld : (u.bay b).holder (s.ctx c).port = some h := hu ▸ hh
      have hlowered : loanLowered b (s.ctx c) u = w := (loanLowered_eq hheld hserial).trans hw.symm
      have hheld : (w.bay b).holder (s.ctx c).port = some { h with live := h.live - 1 } :=
        hlowered ▸ loanLowered_holder hheld hserial
      rw [attemptDone_final htr ho, hu, completeFinal_eq, hctx, hlowered]
      refine ⟨fun hbad => ?_, fun hok => ?_⟩
      · rw [loanMetered_other (mt hgood.1 hbad)]
      · rw [hgood.2 hok, loanMetered_good hheld hserial]
    case orphanless =>
      intro ho hw
      have hctx : u.ctx c = s.ctx c := hu ▸ rfl
      have hbay : u.bay b = s.bay b := hu ▸ rfl
      have hended : trailingReplied b c outcome u = w := by rw [hw, trailingReplied, hctx]
      have hcount := trailingReplied_count b c outcome u
      rw [hended, hbay] at hcount
      rw [attemptDone_trailing (Or.inl htr), hu, completeTrailing_replies (by rw [hctx]; exact ho), hended]
      refine ⟨fun hlast => ?_, fun hmore => ?_⟩
      · rw [trailingSettled_last (by omega)]
      · rw [trailingSettled_more (by omega)]
    case orphan =>
      intro ho hw
      have hctx : u.ctx c = s.ctx c := hu ▸ rfl
      have hbay : u.bay b = s.bay b := hu ▸ rfl
      have hended : trailingOrphaned b c outcome u = w := hw.symm
      have hcount := trailingOrphaned_count b c outcome u
      rw [hended, hbay] at hcount
      rw [attemptDone_trailing (Or.inl htr), hu, completeTrailing_frees (by rw [hctx]; exact ho), hended]
      refine ⟨fun hlast => ?_, fun hmore => ?_⟩
      · rw [trailingSettled_last (by omega)]
      · rw [trailingSettled_more (by omega)]
    case kept =>
      intro hs
      rw [hdone]
      exact attemptDone_meters htr hs

end Sys2Proof.Proofs
end

section
/-! PROOF. A bay fault (R59, R60, R126). -/

namespace Sys2Proof.Machine

/-! ## The steps of a bay fault -/

/-- R126 steps 2 and 3: every ISSUED context, and then every context of the reissue list, has ended. -/
def faultEnded (b : Bay) (s : State) : State :=
  let u := ((s.drive b).slots.map Slot.ctx).foldl (fun t c => complete true b c .bayFaulted t) s
  (u.service b).reissue.foldl (faultReissue b) u

/-- R59: the bay is FAULTED, with no recall and no timer. -/
def faultQuieted (b : Bay) (s : State) : State :=
  s.modBay b fun r =>
    { r with availability := .faulted, patienceTimer := none, recallTimer := none, subject := none, phase := .none }

/-- R59: its loans are revoked and its claims refused. -/
def faultEmptied (b : Bay) (s : State) : State :=
  refuseAll b .fault (revokePorts b .fault ((faultQuieted b s).bay b).holderPorts (faultQuieted b s))

theorem engineSide_service {s t : State} (h : engineSide s = engineSide t) (b : Bay) : s.service b = t.service b :=
  congrArg (fun e : EngineSide => e.services[b]) h

theorem faultEnded_empty (b : Bay) (s : State) :
    ((faultEnded b s).drive b).slots = [] ∧ ((faultEnded b s).service b).reissue = [] := by
  obtain ⟨hslots, -⟩ := complete_fold_slots b ((s.drive b).slots.map Slot.ctx) s fun x hx => List.mem_map_of_mem hx
  unfold faultEnded
  dsimp only
  generalize ((s.drive b).slots.map Slot.ctx).foldl (fun t c => complete true b c .bayFaulted t) s = u at hslots ⊢
  obtain ⟨hreissue, hdrive⟩ := faultReissue_fold b (u.service b).reissue u fun _ h => h
  exact ⟨(congrArg DriveEngine.slots hdrive).trans hslots, hreissue⟩

theorem faultQuieted_bay (b : Bay) (s : State) : (faultQuieted b s).bay b =
    { s.bay b with
      availability := .faulted, patienceTimer := none, recallTimer := none, subject := none, phase := .none } :=
  modBay_bay_self s b _

theorem faultQuieted_quiet (b : Bay) (s : State) : FaultQuiet ((faultQuieted b s).bay b) := by
  rw [faultQuieted_bay]
  rfl

theorem faultEmptied_quiet (b : Bay) (s : State) : FaultQuiet ((faultEmptied b s).bay b) :=
  (quietSide_refuse_fold b .fault _ _).trans (faultQuiet_revokePorts b .fault _ _ (faultQuieted_quiet b s))

theorem faultEmptied_empty (b : Bay) (s : State) :
    (∀ q, ((faultEmptied b s).bay b).holder q = none) ∧ ((faultEmptied b s).bay b).claims = [] := by
  obtain ⟨hbay, -⟩ := refuseAll_bay b .fault
    (revokePorts b .fault ((faultQuieted b s).bay b).holderPorts (faultQuieted b s))
  refine ⟨fun q => ?_, congrArg BayRecord.claims hbay⟩
  refine (congrArg (BayRecord.holder · q) hbay).trans ?_
  refine revokePorts_none b .fault q _ _ ?_
  cases hq : ((faultQuieted b s).bay b).holder q with
  | none => exact Or.inr rfl
  | some h => exact Or.inl ((mem_holderPorts _ q).2 (by rw [hq]; rfl))

theorem faultEmptied_drains (b : Bay) (s : State) : Drains b s (faultEmptied b s) := by
  have hquieted : Drains b s (faultQuieted b s) := Drains.of_dr rfl
  exact (hquieted.trans (drains_revokePorts b .fault _ _)).trans
    (Drains.of_dr (slotSide_of_engineSide (engineSide_refuseAll b .fault _)))

/-- R59, R126: the last settling of a bay fault finds nothing to do. -/
theorem faultBay_eq (b : Bay) (s : State) : faultBay b s = raiseEvent (.bayFaulted b)
    (appendRecord { note := .bay .faulted, port := none, bay := some b } (faultEmptied b (faultEnded b s))) := by
  have hquiet := faultEmptied_quiet b (faultEnded b s)
  refine settleBay_quiet b (raiseEvent (.bayFaulted b) (appendRecord _ (faultEmptied b (faultEnded b s)))) ?_
  rw [raiseEvent_bay, appendRecord_bay]
  exact hquiet

/-! ## The end of one context (R83, R88, R118) -/

theorem leftSlot_fault (b : Bay) (c : CtxId) (s : State) : leftSlot b c .bayFaulted s =
    (s.modBayStats b fun x => { x with completed := satAdd x.completed 1 }).modDrive b fun d =>
      { d with slots := d.slots.filter fun x => decide (x.ctx ≠ c) } := by
  rw [leftSlot_eq]
  simp only [reduceCtorEq, false_and, if_false]

theorem trailingSettled_fault {b : Bay} {w : State} {n : Nat} {v : Availability} (hn : (w.bay b).trailing = n - 1)
    (hv : (w.bay b).availability = v) :
    trailingSettled true b w = if 1 < n ∨ v = .withdrawing then w else settleBay b w := by
  by_cases hlast : 1 < n
  · rw [trailingSettled_more (by omega), if_pos (Or.inl hlast)]
  · have hzero : (w.bay b).trailing = 0 := by omega
    unfold trailingSettled trailingGone
    rw [if_pos hzero, hv]
    refine ite_congr (propext ?_) (fun _ => rfl) fun _ => rfl
    simp [hlast]

theorem faultReissue_eq {b : Bay} {c : CtxId} {s : State} {h : Holder}
    (hh : (s.bay b).holder (s.ctx c).port = some h) (hs : h.serial = (s.ctx c).serial) :
    faultReissue b s c = afterEnd b (s.ctx c) (enterReply c .bayFaulted
      ((((s.modService b fun v => { v with reissue := v.reissue.filter fun d => decide (d ≠ c) }).modBayStats b
            fun x => { x with completed := satAdd x.completed 1 }).modLive (s.ctx c).port fun n => n - 1).modBay b
        fun r => { r with holders := r.holders.set (s.ctx c).port (some { h with live := h.live - 1 }) })) := by
  unfold faultReissue
  dsimp only
  rw [completeFinal_eq, loanMetered_other (outcome := .bayFaulted) nofun]
  simp only [decide_not]
  refine congrArg (fun w => afterEnd b (s.ctx c) (enterReply c .bayFaulted w)) ?_
  exact loanLowered_eq (x := s.ctx c) hh hs

end Sys2Proof.Machine

namespace Sys2Proof.Proofs

open Sys2Proof.Machine

/-- Settles O60: the steps of a bay fault by `faultBay_eq`, what each leaves empty, and the end of one context. -/
theorem bayFaults : Obligations.BayFaults := by
  refine ⟨fun b s t ht => ?left, fun b s u v w x hu hv hw hx => ?steps, fun b c s u w hu => ?context,
    fun b c s h hh hs => faultReissue_eq hh hs⟩
  case left =>
    obtain ⟨hslots, hreissue⟩ := faultEnded_empty b s
    obtain ⟨hdrive, hdrained⟩ := faultEmptied_drains b (faultEnded b s)
    obtain ⟨hholders, hclaims⟩ := faultEmptied_empty b (faultEnded b s)
    have hquiet := faultEmptied_quiet b (faultEnded b s)
    have hside : engineSide t = engineSide (faultEmptied b (faultEnded b s)) := by
      rw [ht, faultBay_eq]
      exact (engineSide_raiseEvent _ _).trans (engineSide_appendRecord _ _)
    have hbay : t.bay b = (faultEmptied b (faultEnded b s)).bay b := by
      rw [ht, faultBay_eq, raiseEvent_bay, appendRecord_bay]
    simp only [FaultQuiet, quietSide, Prod.mk.injEq] at hquiet
    obtain ⟨havailability, hphase, hpatience, hrecall, hsubject⟩ := hquiet
    rw [hbay, engineSide_drive hside, engineSide_service hside, hdrive]
    refine ⟨hslots, hdrained hreissue, havailability, hholders, hclaims, hphase, hpatience, hrecall, hsubject, ?_⟩
    rw [ht, faultBay_eq]
    exact raiseEvent_hasEvent _ _
  case steps =>
    have hended : v = faultEnded b s := by rw [hv, hu]; rfl
    have hports : (allPorts.filter fun q => decide ((v.bay b).holder q ≠ none)) =
        ((faultQuieted b v).bay b).holderPorts := by
      rw [holderPorts_eq, faultQuieted_bay]
      rfl
    have hemptied : x = faultEmptied b v := by
      rw [hports] at hw
      rw [hx, hw]
      rfl
    rw [hemptied, hended]
    exact faultBay_eq b s
  case context =>
    have hleft : leftSlot b c .bayFaulted s = u := (leftSlot_fault b c s).trans hu.symm
    have hctx : u.ctx c = s.ctx c := hleft ▸ rfl
    have hbay : u.bay b = s.bay b := hleft ▸ rfl
    have hcomplete := complete_eq true b c .bayFaulted s
    rw [hleft] at hcomplete
    refine ⟨fun ht ho h hh hs => ?final, fun ht => ⟨fun ho hw => ?replied, fun ho hw => ?orphan⟩⟩
    case final =>
      have hheld : (u.bay b).holder (s.ctx c).port = some h := by rw [hbay]; exact hh
      rw [hcomplete, ht, ho, if_neg (by decide), completeFinal_eq, loanMetered_other (outcome := .bayFaulted) nofun, hctx, loanLowered_eq hheld hs]
    case replied =>
      have hended : trailingReplied b c .bayFaulted u = w := by rw [hw, trailingReplied, hctx]
      have hcount := trailingReplied_count b c .bayFaulted u
      rw [hended, hbay] at hcount
      have hav : (w.bay b).availability = (s.bay b).availability := by
        rw [hw, modBay_bay_self, ← hbay]
        rfl
      rw [hcomplete, ht, Bool.true_or, if_pos rfl, completeTrailing_replies (by rw [hctx]; exact ho), hended,
        trailingSettled_fault hcount hav]
    case orphan =>
      have hended : trailingOrphaned b c .bayFaulted u = w := hw.symm
      have hcount := trailingOrphaned_count b c .bayFaulted u
      rw [hended, hbay] at hcount
      have hav : (w.bay b).availability = (s.bay b).availability := by
        rw [hw, modBay_bay_self, ← hbay]
        rfl
      rw [hcomplete, ht, Bool.true_or, if_pos rfl, completeTrailing_frees (by rw [hctx]; exact ho), hended,
        trailingSettled_fault hcount hav]

end Sys2Proof.Proofs
end
